-- ==== Sys2Proof/Word.lean ====
section
/-! DEFINITION. The words of the Heldas 640: bytes of its host port and peer line, 16-bit fields, and site time. -/

namespace Sys2Proof

/-- One byte, as the host port (R184) and the peer line (R42) carry it. -/
abbrev Byte := BitVec 8

/-- A 16-bit field: show id, checksum, demand, a set of lamps or of event sources (R43, R62, R181). -/
abbrev Word16 := BitVec 16

/-- Site time in µs, a 48-bit count that wraps (R24, R25). -/
abbrev SiteTime := BitVec 48

end Sys2Proof
end

