-- ==== Sys2Proof/Syntax.lean ====
section
/-! DEFINITION. The commands and occurrences of spec/opcode_table.json, one constructor a row, with their operands. -/

namespace Sys2Proof

/-- The payload of a BEACON frame as carried on the line (R43). -/
structure Beacon where
  stamp     : SiteTime
  state     : Byte
  flags     : Byte
  showId    : Word16
  checksum  : Word16
  showStart : SiteTime
  demand    : Word16
  wind      : Word16
  interval  : Byte
  deriving DecidableEq, Repr

/-- The payload of a GO frame (R43), and the GO record it describes (R2): show id, checksum, start. -/
structure GoRecord where
  showId   : Word16
  checksum : Word16
  start    : SiteTime
  deriving DecidableEq, Repr

/-- The payload of a STOP frame (R43). -/
structure StopFrame where
  showId   : Word16
  codaTime : SiteTime
  deriving DecidableEq, Repr

/-- A frame's payload, by kind (R43). -/
inductive Payload where
  | beacon (b : Beacon)
  | go (g : GoRecord)
  | stop (f : StopFrame)
  | halt (inputs : Byte)
  | startAsk (pump : Byte)
  deriving DecidableEq, Repr

/-- The two views of a valve group's figure (R84). -/
inductive View where
  | valve
  | lamp
  deriving DecidableEq, Repr

/-- The commands the part takes: host commands (R187), port and reset events, peer frames, line events, and the
occurrences of its clock and of its pins. -/
inductive Instr where
  /-- NOP. -/
  | nop
  /-- SOFT_RESET. -/
  | softReset
  /-- IDENT. -/
  | ident
  /-- STATUS. -/
  | status
  /-- CONFIGURE: the parameter bytes after the command byte. -/
  | configure (record : List Byte)
  /-- SCORE_OPEN: the parameter bytes. -/
  | scoreOpen (header : List Byte)
  /-- SCORE_DATA: part, count and records, as sent. -/
  | scoreData (body : List Byte)
  /-- SCORE_CLOSE. -/
  | scoreClose
  /-- ARM. -/
  | arm
  /-- DISARM. -/
  | disarm
  /-- GO: the delay in ms. -/
  | go (delay : Word16)
  /-- STOP. -/
  | stop
  /-- RELEASE. -/
  | release
  /-- AUDIO: start frame and count, judged as soon as both have arrived. -/
  | audio (start : BitVec 32) (count : Word16)
  /-- EVENTS. -/
  | events
  /-- EVENT_CLEAR: the source set. -/
  | eventClear (set : Word16)
  /-- EVENT_MASK: the source set. -/
  | eventMask (set : Word16)
  /-- PEERS. -/
  | peers
  /-- PUMP: the channel byte. -/
  | pump (channel : Byte)
  /-- UNKNOWN_COMMAND: the command byte. -/
  | unknownCommand (code : Byte)
  /-- COMMAND_INCOMPLETE: the command byte of the frame that NCS cut short. -/
  | commandIncomplete (code : Byte)
  /-- AUDIO_END: the frame bytes that arrived after start frame and count, before NCS rose. -/
  | audioEnd (bytes : List Byte)
  /-- POWER_ON_RESET. -/
  | powerOnReset
  /-- PIN_RESET. -/
  | pinReset
  /-- RESET_EXIT. -/
  | resetExit
  /-- BEACON_RECEIVED: sender, sequence, payload and arrival stamp. -/
  | beaconReceived (sender : Byte) (seq : Byte) (beacon : Beacon) (arrival : SiteTime)
  /-- GO_FRAME_RECEIVED. -/
  | goFrameReceived (sender : Byte) (frame : GoRecord)
  /-- STOP_FRAME_RECEIVED. -/
  | stopFrameReceived (sender : Byte) (frame : StopFrame)
  /-- HALT_FRAME_RECEIVED. -/
  | haltFrameReceived (sender : Byte) (inputs : Byte)
  /-- START_ASK_RECEIVED: sender, pump number as carried, arrival stamp. -/
  | startAskReceived (sender : Byte) (pumpNo : Byte) (arrival : SiteTime)
  /-- FRAME_FAULT: the bytes gathered whole, each with a recessive stop bit, before the reception ended. -/
  | frameFault (bytes : List Byte)
  /-- BEACON_DUE. -/
  | beaconDue
  /-- ATTEMPT_START: the bit times the line has been idle. -/
  | attemptStart (idleBits : Nat)
  /-- TRANSMISSION_COMPLETE. -/
  | transmissionComplete
  /-- ATTEMPT_FAILED. -/
  | attemptFailed
  /-- ROUND_END. -/
  | roundEnd
  /-- SLEW_ADJUSTMENT. -/
  | slewAdjustment
  /-- PEER_STALE, of the record with this index (node number less one). -/
  | peerStale (peer : Fin 32)
  /-- PEER_ABSENT, of the record with this index (node number less one). -/
  | peerAbsent (peer : Fin 32)
  /-- START_REACHED. -/
  | startReached
  /-- PENDING_CODA_REACHED. -/
  | pendingCodaReached
  /-- CODA_DEADLINE. -/
  | codaDeadline
  /-- CHECKSUM_COMPLETE. -/
  | checksumComplete
  /-- CUE_TAKEN. -/
  | cueTaken
  /-- ACTION_FIRES. -/
  | actionFires
  /-- FIGURE_STEP_BOUNDARY, of one view of one group. -/
  | figureStepBoundary (group : Fin 4) (view : View)
  /-- FIGURE_END, of the lamp view of one group. -/
  | figureEnd (group : Fin 4)
  /-- PUMP_PERIOD: the levels sampled on the feedback inputs FB0 to FB3 (bit p for channel p). -/
  | pumpPeriod (feedback : BitVec 4)
  /-- HOLD_WINDOW_END. -/
  | holdWindowEnd
  /-- ANEMOMETER_PULSE. -/
  | anemometerPulse
  /-- WINDOW_CLOSE. -/
  | windowClose
  /-- LAMP_PERIOD. -/
  | lampPeriod
  /-- GAIN_UPDATE. -/
  | gainUpdate
  /-- FRAME_INSTANT. -/
  | frameInstant
  /-- SAFETY_LEVEL_CHANGE: the input and the new level of its pin. -/
  | safetyLevelChange (input : Fin 8) (high : Bool)
  /-- DEBOUNCE_EXPIRY, of one input. -/
  | debounceExpiry (input : Fin 8)
  /-- RECEIVER_READY: the bit times the line has been idle. -/
  | receiverReady (idleBits : Nat)
  deriving DecidableEq, Repr

end Sys2Proof
end

