-- ==== Sys2Proof/Decode.lean ====
section
/-! DEFINITION. From bits to commands. The opcode table gives no row any bits, so no word spells a command by the table;
the host port's own command decoder (R184, R185, R187) reads the bytes of a command frame. -/

namespace Sys2Proof

/-- The command a word spells by the bits of spec/opcode_table.json: none, since the table gives no row bits. -/
def decodeTableWord (nbits w : Nat) : Option Instr :=
  match nbits, w with
  | _, _ => none

/-- The number in the first `n` bytes of a list, low byte first (R184). -/
def lowFirst (n : Nat) (bytes : List Byte) : Nat :=
  match n, bytes with
  | n + 1, b :: rest => b.toNat + 256 * lowFirst n rest
  | _, _ => 0

/-- A command whose parameters take `n` bytes: taken when the last of them arrives, incomplete before (R185). Bytes beyond
the command's length are ignored (R184). -/
def fixedLength (n : Nat) (code : Byte) (params : List Byte) (command : List Byte → Instr) : List Instr :=
  if params.length < n then [.commandIncomplete code] else [command (params.take n)]

/-- The length of SCORE DATA's parameters, from its part and count bytes (R65, R185): a part or count that is illegal ends
the command at that byte. -/
def dataLength (params : List Byte) : Nat :=
  match params with
  | [] => 1
  | part :: rest =>
    if part ≠ 1 ∧ part ≠ 2 then 1
    else
      match rest with
      | [] => 2
      | n :: _ => if n.toNat < 1 ∨ 32 < n.toNat then 2 else 2 + n.toNat * (if part = 1 then 16 else 2)

/-- AUDIO is judged when start frame and count have arrived; its frames are then received until NCS rises (R156, R159). -/
def audioFrame (params : List Byte) : List Instr :=
  if params.length < 6 then [.commandIncomplete 0x50]
  else
    [.audio (BitVec.ofNat 32 (lowFirst 4 params)) (BitVec.ofNat 16 (lowFirst 2 (params.drop 4))),
     .audioEnd (params.drop 6)]

/-- The command decoder: what the whole bytes of one command frame, from the fall to the rise of NCS, give the part
(R184, R185, R187). A frame with no whole byte gives nothing. -/
def decodeCommandFrame (bytes : List Byte) : List Instr :=
  match bytes with
  | [] => []
  | code :: params =>
    if code = 0x00 then [.nop]
    else if code = 0x01 then [.softReset]
    else if code = 0x04 then [.ident]
    else if code = 0x09 then [.status]
    else if code = 0x20 then fixedLength 605 code params .configure
    else if code = 0x30 then fixedLength 6 code params .scoreOpen
    else if code = 0x31 then fixedLength (dataLength params) code params .scoreData
    else if code = 0x32 then [.scoreClose]
    else if code = 0x40 then [.arm]
    else if code = 0x41 then [.disarm]
    else if code = 0x44 then fixedLength 2 code params fun p => .go (BitVec.ofNat 16 (lowFirst 2 p))
    else if code = 0x45 then [.stop]
    else if code = 0x48 then [.release]
    else if code = 0x50 then audioFrame params
    else if code = 0x60 then [.events]
    else if code = 0x61 then fixedLength 2 code params fun p => .eventClear (BitVec.ofNat 16 (lowFirst 2 p))
    else if code = 0x62 then fixedLength 2 code params fun p => .eventMask (BitVec.ofNat 16 (lowFirst 2 p))
    else if code = 0x68 then [.peers]
    else if code = 0x6C then fixedLength 1 code params fun p => .pump (p.head?.getD 0)
    else [.unknownCommand code]

/-- The command codes that the command table lists (R187). -/
def knownCodes : List Byte :=
  [0x00, 0x01, 0x04, 0x09, 0x20, 0x30, 0x31, 0x32, 0x40, 0x41, 0x44, 0x45, 0x48, 0x50, 0x60, 0x61, 0x62, 0x68, 0x6C]

/-- The commands with parameters that write the last result record (R187): those whose frame can be cut short with a
record. PUMP has a parameter and writes no record. -/
def recordedCodes : List Byte := [0x20, 0x30, 0x31, 0x44, 0x50, 0x61, 0x62]

/-- The `n` low bytes of a number, low byte first (R184). -/
def lowBytes (n v : Nat) : List Byte :=
  match n with
  | 0 => []
  | n + 1 => BitVec.ofNat 8 v :: lowBytes n (v / 256)

/-- The whole bytes of the frame that gives a command, as a host sends it (R184, R185, R187); none for what no command frame
gives. AUDIO's stops before its frames, and a command cut short is its command byte alone. -/
def commandFrame : Instr → Option (List Byte)
  | .nop => some [0x00]
  | .softReset => some [0x01]
  | .ident => some [0x04]
  | .status => some [0x09]
  | .configure record => some (0x20 :: record)
  | .scoreOpen header => some (0x30 :: header)
  | .scoreData body => some (0x31 :: body)
  | .scoreClose => some [0x32]
  | .arm => some [0x40]
  | .disarm => some [0x41]
  | .go delay => some (0x44 :: lowBytes 2 delay.toNat)
  | .stop => some [0x45]
  | .release => some [0x48]
  | .audio start count => some (0x50 :: lowBytes 4 start.toNat ++ lowBytes 2 count.toNat)
  | .events => some [0x60]
  | .eventClear set => some (0x61 :: lowBytes 2 set.toNat)
  | .eventMask set => some (0x62 :: lowBytes 2 set.toNat)
  | .peers => some [0x68]
  | .pump channel => some [0x6C, channel]
  | .unknownCommand code | .commandIncomplete code => some [code]
  | .audioEnd _ | .powerOnReset | .pinReset | .resetExit | .beaconReceived _ _ _ _ | .goFrameReceived _ _
  | .stopFrameReceived _ _ | .haltFrameReceived _ _ | .startAskReceived _ _ _ | .frameFault _ | .beaconDue
  | .attemptStart _ | .transmissionComplete | .attemptFailed | .roundEnd | .slewAdjustment | .peerStale _ | .peerAbsent _
  | .startReached | .pendingCodaReached | .codaDeadline | .checksumComplete | .cueTaken | .actionFires
  | .figureStepBoundary _ _ | .figureEnd _ | .pumpPeriod _ | .holdWindowEnd | .anemometerPulse | .windowClose
  | .lampPeriod | .gainUpdate | .frameInstant | .safetyLevelChange _ _ | .debounceExpiry _ | .receiverReady _ => none

end Sys2Proof
end

