-- ==== Sys2Proof/Config.lean ====
section
/-! DEFINITION. What the manual leaves open: constants with no body, so that nothing can be proved of their values. -/

namespace Sys2Proof.Config

/-- The n-th random number the part draws for its backoff (R50: "uniformly at random and independent of earlier draws").
The draw itself is this number modulo the range of R50. FREE VALUE, notes/assumptions/6.md. -/
opaque backoffDraw : Nat → Nat

/-- How long the n-th checksum computation takes, in µs of local time, before the bound of R68 (0 to 2 ms) is applied.
FREE VALUE, notes/assumptions/7.md. -/
opaque checksumTime : Nat → Nat

/-- The four bytes PEERS shows for a last offset that does not fit a signed 32-bit field: R188 gives the field 4 bytes,
R30 gives the offset 48. FREE VALUE, notes/assumptions/8.md. -/
opaque wideOffset : Int → BitVec 32

end Sys2Proof.Config
end

