-- ==== Sys2Proof/Machine/State.lean ====
section
/-! DEFINITION. State of the Heldas 640 as plain data, block by block, and its values after reset. -/

namespace Sys2Proof.Machine

/-! ### Addressed memories -/

/-- An addressed memory of bytes (score memory R61, sample ring R154): the cells that do not hold 0, by rising address.
Every byte that no cell lists reads as 0, the reset contents R61 and R154 state. -/
abbrev Memory := List Host.Cell

/-! ### Configuration record (R189) -/

/-- Role of a safety input (R171). -/
inductive Role where
  | none
  | halt
  | dry
  deriving DecidableEq, Repr

/-- The fields of one pump channel (R100). -/
structure PumpConfig where
  rated    : Nat
  lift     : Vector Nat 17
  dMin     : Nat
  rampUp   : Nat
  rampDown : Nat
  haltRamp : Nat
  lead     : Nat
  exposed  : Bool
  visible  : Nat
  confirm  : Nat
  deriving DecidableEq, Repr

/-- The fields of one lamp (R137): the valve it is bound to, or none where it is FREE. -/
structure LampConfig where
  valve  : Option (Fin 64)
  curve  : Fin 4
  safety : Bool
  deriving DecidableEq, Repr

/-- The fields of one safety input (R171). -/
structure InputConfig where
  role       : Role
  activeHigh : Bool
  debounce   : Nat
  pumpSet    : BitVec 4
  report     : Bool
  deriving DecidableEq, Repr

/-- The configuration record, frozen from CONFIGURE until the next reset (R189). `own` is the node number less one. -/
structure ConfigRecord where
  own          : Fin 32
  budget       : Nat
  settle       : Nat
  interval     : Nat
  lineDelay    : Nat
  lockWindow   : Nat
  unlockWindow : Nat
  slewLimit    : Nat
  outlier      : Nat
  codaLength   : Nat
  lateJoin     : Bool
  haltFade     : Nat
  fallback     : Nat
  zoneDelay    : Nat
  minDuty      : Nat
  safeDuty     : Nat
  windScale    : Nat
  depth        : Nat
  wLow         : Nat
  wHigh        : Nat
  wCut         : Nat
  fMin         : Nat
  fRise        : Nat
  pump         : Vector PumpConfig 4
  valveLead    : Vector Nat 4
  lamp         : Vector LampConfig 16
  gamma        : Vector (Vector Nat 33) 4
  input        : Vector InputConfig 8
  deriving DecidableEq, Repr

/-! ### Host port -/

/-- Reset kinds, as the reset cause names them (R192). -/
inductive ResetCause where
  | power
  | pin
  | soft
  deriving DecidableEq, Repr

/-- Result codes (R187). -/
inductive Result where
  | ok
  | state
  | param
  | order
  | space
  | busy
  | incomplete
  | lock
  | halt
  | clash
  deriving DecidableEq, Repr

/-- What the host port makes of the frame in progress (R184, R185, R194): it gathers the bytes of a command not yet taken; it
receives the frames of an AUDIO command (R159); its command is taken, and MISO carries the bytes of `out` from the present
byte on; or the frame is ignored to its end. -/
inductive FramePhase where
  | gathering (bytes : List Byte)
  | audio (bytes : List Byte)
  | over (out : List Byte)
  | ignored
  deriving DecidableEq, Repr

/-- A command frame in progress (R184): its phase, and the bits of the byte that is not yet whole, oldest first. -/
structure PortFrame where
  phase : FramePhase
  bits  : List Bool
  deriving DecidableEq, Repr

/-- Host port (R184, R187, R188, R192). `held` is set while the part is held in a power-on or pin reset. `reply` is the reply
data of the latest read command. `frame` is the frame in progress, none while NCS is high. -/
structure HostPort where
  lastCommand : Byte
  lastResult  : Result
  failIndex   : Option Nat
  reply       : List Byte
  cause       : ResetCause
  held        : Bool
  frame       : Option PortFrame
  deriving DecidableEq, Repr

/-! ### Show controller -/

/-- The seven show states (R1). -/
inductive ShowState where
  | standby
  | idle
  | armed
  | countdown
  | running
  | coda
  | halted
  deriving DecidableEq, Repr

/-- Coda cause (R2). -/
inductive CodaCause where
  | endCue
  | stop
  deriving DecidableEq, Repr

/-- Values of the show result (R3). -/
inductive ResultKind where
  | none
  | complete
  | stopped
  | halted
  | missedStart
  deriving DecidableEq, Repr

/-- The show result record (R3). -/
structure ShowResult where
  kind    : ResultKind
  showId  : Word16
  endTime : Int
  deriving DecidableEq, Repr

/-- Show controller (R1 to R3). `codaTested` is the model's own mark that the deadline's test of R19 has been made. -/
structure Controller where
  state        : ShowState
  go           : Option GoRecord
  pendingCoda  : Option SiteTime
  codaDeadline : Option SiteTime
  codaCause    : Option CodaCause
  codaTested   : Bool
  result       : ShowResult
  deriving DecidableEq, Repr

/-! ### Site clock -/

/-- Site clock (R24). The round offset set is own 0 and the offsets listed, one place for each peer node number (R31).
`roundLocal` is local time since the round start (R36); `sinceStep` is the model's own count of local time since the
latest step, stopping at the length of a beacon (R30). -/
structure Clock where
  site       : SiteTime
  roundStart : Option SiteTime
  offsets    : Vector (Option Int) 32
  beaconDue  : Option SiteTime
  correction : Int
  made       : Nat
  within     : Nat
  outside    : Nat
  locked     : Bool
  clash      : Bool
  roundLocal : Nat
  sinceStep  : Nat
  deriving DecidableEq, Repr

/-! ### Line controller and peer table -/

/-- A frame of the transmit queue (R45): payload, attempt count, backoff draw, sequence number once it has one (R49), and
whether its attempt is on the line. -/
structure TxFrame where
  payload  : Payload
  attempts : Nat
  draw     : Nat
  seq      : Option Byte
  onLine   : Bool
  deriving DecidableEq, Repr

/-- Receiver states (R52). The rule's sentence says "in four states" and its table names three, HUNT, READY and RECEIVING; the
three of the table are taken (DEDUCED, notes/assumptions/31.md). -/
inductive RxState where
  | hunt
  | ready
  | receiving
  deriving DecidableEq, Repr

/-- What the receiver has gathered of a frame (R52): its arrival stamp, the site time at the leading edge of its delimiter's start
bit; its whole bytes; and the levels of the byte not yet whole from its start bit on, recessive as true. -/
structure Gather where
  arrival : SiteTime
  bytes   : List Byte
  bits    : List Bool
  deriving DecidableEq, Repr

/-- The node's side of the two wires (R42, R49, R52): the bit times for which the line has been idle; what the receiver has
gathered, while it gathers; the levels of the frame on the line that are still to be driven once its first bit has been, none before. -/
structure Wire where
  idle   : Nat
  gather : Option Gather
  out    : List Bool
  deriving DecidableEq, Repr

/-- Line controller (R45 to R55). `sent` is the bytes of the latest frame completed (R49). -/
structure LineController where
  queue      : List TxFrame
  seqCounter : Byte
  rx         : RxState
  format     : Nat
  truncated  : Nat
  check      : Nat
  collisions : Nat
  drops      : Nat
  lastHalt   : Option (Byte × Byte)
  sent       : List Byte
  wire       : Wire
  deriving DecidableEq, Repr

/-- The judgement of a received frame (R53): the failure found first, or intact with its sender, sequence and payload.
`formatEarly` is a format error found before the last byte, `formatLength` the one found at the last byte. -/
inductive Verdict where
  | formatEarly
  | truncated
  | checkError
  | formatLength
  | intact (sender seq : Byte) (p : Payload)
  deriving DecidableEq, Repr

/-- Presence of a peer record (R56). -/
inductive Presence where
  | absent
  | fresh
  | stale
  deriving DecidableEq, Repr

/-- A peer record (R56). -/
structure Peer where
  presence    : Presence
  state       : Byte
  flags       : Byte
  showId      : Word16
  checksum    : Word16
  showStart   : SiteTime
  demand      : Word16
  wind        : Word16
  interval    : Byte
  lastArrival : SiteTime
  lastSeq     : Byte
  lastOffset  : Int
  heard       : Nat
  missed      : Nat
  outliers    : Nat
  deriving DecidableEq, Repr

/-! ### Score memory and cue engine -/

/-- Score status (R61). -/
inductive ScoreStatus where
  | none
  | loading
  | failed
  | checking
  | valid
  deriving DecidableEq, Repr

/-- Score memory (R61). `mem` holds the cue records and the pattern rows as bytes. `checkAge` is local time since the
checksum computation began. -/
structure Score where
  showId      : Word16
  cueCount    : Nat
  rowCount    : Nat
  mem         : Memory
  cuesLoaded  : Nat
  rowsLoaded  : Nat
  prevTime    : Nat
  checksum    : Word16
  status      : ScoreStatus
  frozen      : Bool
  checkAge    : Nat
  deriving DecidableEq, Repr

/-- A colour of three channels, each 0 to 255; also the three duties of a lamp, each 0 to 4,095 (R138). -/
structure Rgb where
  r : Nat
  g : Nat
  b : Nat
  deriving DecidableEq, Repr

/-- A figure: the fields of R84 that an action writes. `start` is its anchor, 1000 × the cue time. -/
structure Figure where
  start    : Int
  startRow : Nat
  pitch    : Nat
  steps    : Nat
  period   : Nat
  wStart   : Nat
  wEnd     : Nat
  passes   : Nat
  accent   : Option (Nat × Rgb)
  deriving DecidableEq, Repr

/-- What an action asks of its block (R70, R77). -/
inductive Act where
  | height (p : Fin 4) (target ramp : Nat)
  | figure (v : View) (g : Fin 4) (f : Figure)
  | colour (lamps : Word16) (c : Rgb) (fade : Nat)
  | master (level fade : Nat)
  | level (gain fade : Nat)
  | mark (n : Nat)
  | endShow
  deriving DecidableEq, Repr

/-- An action of the queue (R71): its due time, which is also its anchor but for figures (R77), what it asks, the cue it
came from and its counted mark (R76). -/
structure Action where
  due     : Int
  act     : Act
  cue     : Nat
  counted : Bool
  deriving DecidableEq, Repr

/-- Cue engine (R71). `taking` is the mode TAKING. -/
structure CueEngine where
  taking    : Bool
  pointer   : Nat
  horizon   : Nat
  queue     : List Action
  waiting   : Bool
  lateCount : Nat
  lastMark  : Nat
  deriving DecidableEq, Repr

/-! ### Jet figure unit -/

/-- How a figure record was last written (R84). -/
inductive Origin where
  | fired
  | seek
  deriving DecidableEq, Repr

/-- The outcome of evaluating a view (R87). -/
inductive Phase where
  | empty
  | notBegun
  | playing (k pass : Nat)
  | ended
  deriving DecidableEq, Repr

/-- Whether a figure record holds a figure (R84). -/
inductive RecordPresence where
  | empty
  | held
  deriving DecidableEq, Repr

/-- A figure record (R84). `figure` holds its fields from start to accent, which have values while it is EMPTY too. `shown` is
the outcome whose open set the view shows now: it changes at the moments of R90. -/
structure ViewRecord where
  presence    : RecordPresence
  figure      : Figure
  origin      : Origin
  endReported : Bool
  shown       : Phase
  deriving DecidableEq, Repr

/-- Valve modes (R91); HOLDING carries its held set (R93). -/
inductive ValveMode where
  | closed
  | following
  | holding (held : Word16)
  deriving DecidableEq, Repr

/-- A valve group (R84, R91). -/
structure ValveGroup where
  valve : ViewRecord
  lamp  : ViewRecord
  mode  : ValveMode
  deriving DecidableEq, Repr

/-! ### Pump controller -/

/-- A fade or ramp: start and target value, anchor in show time, length in ms (R101, R138, R154). -/
structure Fade where
  start  : Nat
  target : Nat
  anchor : Int
  len    : Nat
  deriving DecidableEq, Repr

/-- Stage of a pump channel (R101). -/
inductive Stage where
  | off
  | waiting
  | asking
  | asked
  | on
  deriving DecidableEq, Repr

/-- Feedback phase of a pump channel (R101). -/
inductive Feedback where
  | none
  | confirming
  | confirmed
  deriving DecidableEq, Repr

/-- Fault cause of a pump channel (R101). -/
inductive FaultCause where
  | none
  | noConfirm
  | lost
  deriving DecidableEq, Repr

/-- A pump channel (R101). The run output is on exactly when the stage is ON, so it has no field of its own. `ranAtPeriod` is the run
output as the latest pump period left it, which the lamps read: "The pump values in that offer are those of the latest pump period
taken" (R144). A grant between two pump periods turns the run output on (R120) and leaves it. -/
structure Channel where
  height  : Fade
  hNow    : Nat
  hEff    : Nat
  dT      : Nat
  dC      : Nat
  dCmd    : Nat
  dOut    : Nat
  stage   : Stage
  phase   : Feedback
  runOn   : SiteTime
  faulted : Bool
  cause   : FaultCause
  ranAtPeriod : Bool
  deriving DecidableEq, Repr

/-- The own ask (R102): the channel it carries, or none where it is vacant. -/
inductive Ask where
  | none
  | queued (chan : Option (Fin 4))
  | window (endTime : SiteTime) (chan : Option (Fin 4))
  deriving DecidableEq, Repr

/-- The last ask heard (R102). -/
structure AskHeard where
  sender  : Byte
  pump    : Byte
  arrival : SiteTime
  deriving DecidableEq, Repr

/-- Pump controller (R101, R102). `feedback` holds the levels last sampled on FB0 to FB3; `next` is the site time of the
next pump period (R26, R103). -/
structure PumpController where
  chan      : Vector Channel 4
  demand    : Nat
  viewSum   : Nat
  grant     : Nat
  startList : List (Fin 4)
  ask       : Ask
  busyUntil : Option SiteTime
  lastAsk   : Option AskHeard
  feedback  : BitVec 4
  next      : SiteTime
  deriving DecidableEq, Repr

/-! ### Wind monitor -/

/-- Wind monitor (R126). `window` is the start of the window in progress; `next` the next multiple of 1,000,000 µs. -/
structure WindMonitor where
  window  : Option SiteTime
  count   : Nat
  history : List Nat
  node    : Option Nat
  site    : Nat
  factor  : Nat
  applied : Nat
  next    : SiteTime
  deriving DecidableEq, Repr

/-! ### Lamp unit -/

/-- A lamp record (R138). -/
structure Lamp where
  start  : Rgb
  target : Rgb
  anchor : Int
  len    : Nat
  duty   : Rgb
  deriving DecidableEq, Repr

/-- Lamp unit (R138). `next` is the site time of the next lamp period (R144). -/
structure LampUnit where
  lamp   : Vector Lamp 16
  master : Fade
  next   : SiteTime
  deriving DecidableEq, Repr

/-! ### Audio unit -/

/-- A descriptor of the block queue (R154). -/
structure Block where
  start : Nat
  count : Nat
  pos   : Nat
  deriving DecidableEq, Repr

/-- The decay of an emptied queue (R162): start values and frames elapsed. -/
structure Decay where
  left    : Int
  right   : Int
  elapsed : Nat
  deriving DecidableEq, Repr

/-- An AUDIO command whose frames are arriving (R159): its start frame, its count, the index of its first kept frame and
the ring position reserved for it. -/
structure Reception where
  first : Nat
  count : Nat
  keep  : Nat
  pos   : Nat
  deriving DecidableEq, Repr

/-- Audio unit (R154). The ring fill is the sum of the queued counts, so it has no field of its own. `writePos` is the
ring position after the last frame entered; `nextGain` the site time of the next gain update (R165). -/
structure AudioUnit where
  ring          : Memory
  queue         : List Block
  writePos      : Nat
  next          : Nat
  play          : Option Nat
  outLeft       : Int
  outRight      : Int
  gain          : Fade
  applied       : Nat
  decay         : Option Decay
  underrun      : Bool
  skip          : Bool
  underrunCount : Nat
  skipCount     : Nat
  refillHeld    : Bool
  reception     : Option Reception
  nextGain      : SiteTime
  deriving DecidableEq, Repr

/-! ### Safety monitor and event unit -/

/-- A safety input (R172): the level of its pin, its stable level (true is active), and `since`, present exactly while its
debounce phase is CHANGING. The level seen is the pin read through the polarity, so it has no field of its own. `before` is
present while the pin has changed since its latest sample: it holds `since` as it was at that sample, so that a change which has
reverted by the next sample is not seen (R173; notes/assumptions/36.md). -/
structure SafetyInput where
  pin    : Bool
  stable : Bool
  since  : Option SiteTime
  before : Option (Option SiteTime)
  deriving DecidableEq, Repr

/-- The sixteen event sources, in the order of their numbers (R178). -/
inductive Source where
  | halt
  | safety
  | pumpFault
  | clash
  | scoreMismatch
  | state
  | lock
  | cueLate
  | queueFull
  | figureEnd
  | mark
  | audioUnderrun
  | audioSkip
  | audioRefill
  | peer
  | line
  deriving DecidableEq, Repr

/-- Event unit (R178): bit s of each set stands for source s. -/
structure EventUnit where
  pending : Word16
  overrun : Word16
  masked  : Word16
  deriving DecidableEq, Repr

/-! ### The machine -/

/-- The whole state of the node. `pending` is the queue of commands that wait, first in, first out; `draws` is the model's
own count of free values drawn (notes/assumptions/6.md). -/
structure State where
  pending : List Instr
  port    : HostPort
  config  : Option ConfigRecord
  ctl     : Controller
  clock   : Clock
  line    : LineController
  peers   : Vector Peer 32
  score   : Score
  cue     : CueEngine
  jets    : Vector ValveGroup 4
  pump    : PumpController
  wind    : WindMonitor
  lamps   : LampUnit
  audio   : AudioUnit
  safety  : Vector SafetyInput 8
  events  : EventUnit
  draws   : Nat
  deriving DecidableEq, Repr

/-- Why the machine stops with a fault: it never does. No rule of the manual stops the part, so this type has no
constructor and no command raises a fault (safe: nothing is cut short). -/
inductive Fault where
  deriving DecidableEq, Repr

/-- Why a command has no meaning. -/
inductive Refusal where
  /-- Raised by `exec` for a row of the opcode table that is not modelled yet, by its mnemonic. Safe: the model stops where
  the part goes on. No arm of this model raises it. -/
  | notModelled (mnemonic : String)
  deriving DecidableEq, Repr

/-! ### Reset values -/

/-- Show controller after every reset (R1 to R3). -/
def Controller.reset : Controller where
  state := .standby
  go := none
  pendingCoda := none
  codaDeadline := none
  codaCause := none
  codaTested := false
  result := ⟨.none, 0, 0⟩

/-- Site clock after a power-on or pin reset (R24). -/
def Clock.reset : Clock where
  site := 0
  roundStart := none
  offsets := Vector.replicate 32 none
  beaconDue := none
  correction := 0
  made := 0
  within := 0
  outside := 0
  locked := false
  clash := false
  roundLocal := 0
  sinceStep := 300

/-- The two wires after a power-on or pin reset: the receiver has followed no line, so no idle time has been seen (DESIGN CHOICE,
notes/assumptions/42.md). -/
def Wire.reset : Wire where
  idle := 0
  gather := none
  out := []

/-- Line controller after every reset (R45, R49, R52, R54, R55). A soft reset leaves the idle time of the line as it is. -/
def LineController.reset : LineController where
  queue := []
  seqCounter := 0
  rx := .hunt
  format := 0
  truncated := 0
  check := 0
  collisions := 0
  drops := 0
  lastHalt := none
  sent := []
  wire := .reset

/-- A peer record after every reset, and when it becomes ABSENT (R56). -/
def Peer.cleared : Peer where
  presence := .absent
  state := 0
  flags := 0
  showId := 0
  checksum := 0
  showStart := 0
  demand := 0
  wind := 0
  interval := 0
  lastArrival := 0
  lastSeq := 0
  lastOffset := 0
  heard := 0
  missed := 0
  outliers := 0

/-- Score memory after a power-on or pin reset (R61). -/
def Score.reset : Score where
  showId := 0
  cueCount := 0
  rowCount := 0
  mem := []
  cuesLoaded := 0
  rowsLoaded := 0
  prevTime := 0
  checksum := 0
  status := .none
  frozen := false
  checkAge := 0

/-- Cue engine after every reset (R71). -/
def CueEngine.reset : CueEngine where
  taking := false
  pointer := 0
  horizon := 0
  queue := []
  waiting := false
  lateCount := 0
  lastMark := 0

/-- The fields of a figure record from start to accent after every reset and after FIGURES CLEAR (R84, R86). -/
def Figure.blank : Figure where
  start := 0
  startRow := 0
  pitch := 0
  steps := 1
  period := 20
  wStart := 0
  wEnd := 0
  passes := 0
  accent := none

/-- A figure record after every reset and after FIGURES CLEAR (R84, R86). -/
def ViewRecord.empty : ViewRecord where
  presence := .empty
  figure := .blank
  origin := .fired
  endReported := false
  shown := .empty

/-- A valve group after every reset (R84, R91). -/
def ValveGroup.reset : ValveGroup where
  valve := .empty
  lamp := .empty
  mode := .closed

/-- The fade record of all zeros: the gain record and a height ramp after reset (R101, R154). -/
def Fade.zero : Fade where
  start := 0
  target := 0
  anchor := 0
  len := 0

/-- A pump channel after every reset (R101). -/
def Channel.reset : Channel where
  height := .zero
  hNow := 0
  hEff := 0
  dT := 0
  dC := 0
  dCmd := 0
  dOut := 0
  stage := .off
  phase := .none
  runOn := 0
  faulted := false
  cause := .none
  ranAtPeriod := false

/-- Pump controller after every reset (R101, R102). The levels on the feedback inputs are the outside's; DESIGN CHOICE:
they read inactive until a pump period samples them (notes/assumptions/5.md). -/
def PumpController.reset : PumpController where
  chan := Vector.replicate 4 .reset
  demand := 0
  viewSum := 0
  grant := 0
  startList := []
  ask := .none
  busyUntil := none
  lastAsk := none
  feedback := 0
  next := 0

/-- Wind monitor after every reset (R126). -/
def WindMonitor.reset : WindMonitor where
  window := none
  count := 0
  history := []
  node := none
  site := 0
  factor := 1024
  applied := 1024
  next := 0

/-- A lamp record after every reset (R138). -/
def Lamp.reset : Lamp where
  start := ⟨0, 0, 0⟩
  target := ⟨0, 0, 0⟩
  anchor := 0
  len := 0
  duty := ⟨0, 0, 0⟩

/-- The master record after reset and LAMP CLEAR (R138, R143). -/
def Fade.fullMaster : Fade where
  start := 1024
  target := 1024
  anchor := 0
  len := 0

/-- Lamp unit after every reset (R138). -/
def LampUnit.reset : LampUnit where
  lamp := Vector.replicate 16 .reset
  master := .fullMaster
  next := 0

/-- Audio unit after every reset (R154), which names no ring position for the first block; DESIGN CHOICE: it is entered at position 0
(notes/assumptions/16.md). -/
def AudioUnit.reset : AudioUnit where
  ring := []
  queue := []
  writePos := 0
  next := 0
  play := none
  outLeft := 0
  outRight := 0
  gain := .zero
  applied := 0
  decay := none
  underrun := false
  skip := false
  underrunCount := 0
  skipCount := 0
  refillHeld := true
  reception := none
  nextGain := 0

/-- A safety input after every reset (R172). The level of the pin is the outside's; DESIGN CHOICE: low
(notes/assumptions/5.md). -/
def SafetyInput.reset : SafetyInput where
  pin := false
  stable := false
  since := none
  before := none

/-- Event unit after a power-on or pin reset (R178): every source masked. -/
def EventUnit.reset : EventUnit where
  pending := 0
  overrun := 0
  masked := 0xFFFF

/-- The host port after a reset of kind `cause`, held or not (R187, R192). NCS is high: its level is the outside's
(DESIGN CHOICE, notes/assumptions/5.md). -/
def HostPort.reset (cause : ResetCause) (held : Bool) : HostPort where
  lastCommand := 0
  lastResult := .ok
  failIndex := none
  reply := []
  cause := cause
  held := held
  frame := none

/-- The machine right after a power-on reset, once it has left it: STANDBY, site time 0 and about to run (R1, R192). -/
def State.reset : State where
  pending := []
  port := .reset .power false
  config := none
  ctl := .reset
  clock := .reset
  line := .reset
  peers := Vector.replicate 32 .cleared
  score := .reset
  cue := .reset
  jets := Vector.replicate 4 .reset
  pump := .reset
  wind := .reset
  lamps := .reset
  audio := .reset
  safety := Vector.replicate 8 .reset
  events := .reset
  draws := 0

end Sys2Proof.Machine
end

