-- ==== Sys2Proof/Machine/Ops.lean ====
section
/-! DEFINITION. The shared operations: tables, site time, memories, byte order, fades, events and the host port's record. -/

namespace Sys2Proof.Machine

/-! ### Tables of a fixed number of like things -/

/-- The table whose place i holds `f i`. -/
def gen {α : Type} {n : Nat} (f : Fin n → α) : Vector α n := ⟨(List.ofFn f).toArray, by simp⟩

/-- The table with place `i` replaced. -/
def put {α : Type} {n : Nat} (v : Vector α n) (i : Fin n) (x : α) : Vector α n := v.set i x

/-- The sum of `f` over the places of a table. -/
def sumOver {n : Nat} (f : Fin n → Nat) : Nat := ((List.finRange n).map f).sum

/-! ### Site time (R25, R26) -/

/-- The difference of two site times, modulo 2^48, read as a signed number (R25). -/
def sdiff (a b : SiteTime) : Int := (a - b).toInt

/-- Time `t` is reached at `now` when their signed difference is 0 or more (R26). -/
def reached (now t : SiteTime) : Bool := decide (0 ≤ sdiff now t)

/-- The later of two site times: `a` where the signed difference says that `b` is not after it (R25), else `b`. Of two times exactly
2^47 µs apart the manual does not say which is the later; DESIGN CHOICE: `b` (notes/assumptions/30.md). -/
def later (a b : SiteTime) : SiteTime := if reached a b then a else b

/-- A site time moved by a signed number of µs, modulo 2^48 (R25). -/
def plus (t : SiteTime) (us : Int) : SiteTime := t + BitVec.ofInt 48 us

/-- The multiple of `period` at or below `t` (R27). -/
def multipleBelow (t : SiteTime) (period : Nat) : SiteTime := BitVec.ofNat 48 (t.toNat / period * period)

/-- The next multiple of `period` after `t`; past 2^48 it is 0, itself a multiple (R27). -/
def multipleAfter (t : SiteTime) (period : Nat) : SiteTime :=
  let m := (t.toNat / period + 1) * period
  if m < 2 ^ 48 then BitVec.ofNat 48 m else 0

/-- `x` held within `lo` and `hi` (conventions, section 4.4). -/
def clamp (x lo hi : Int) : Int := if x < lo then lo else if hi < x then hi else x

/-- A count that stops at `cap`. -/
def stopAt (cap n : Nat) : Nat := min cap n

/-! ### Memories (R61, R154) -/

/-- The byte at an address: 0 where no cell lists it. -/
def Memory.read (m : Memory) (a : Nat) : Byte :=
  match m with
  | [] => 0
  | (k, v) :: rest => if k = a then v else Memory.read rest a

/-- Writes one byte and keeps the canonical form: writing 0 removes the cell. -/
def Memory.write (m : Memory) (a : Nat) (v : Byte) : Memory :=
  match m with
  | [] => if v = 0 then [] else [(a, v)]
  | (k, w) :: rest =>
    if a < k then (if v = 0 then (k, w) :: rest else (a, v) :: (k, w) :: rest)
    else if a = k then (if v = 0 then rest else (a, v) :: rest)
    else (k, w) :: Memory.write rest a v

/-- Writes bytes at consecutive addresses. -/
def Memory.writeAll (m : Memory) (a : Nat) (bytes : List Byte) : Memory :=
  match bytes with
  | [] => m
  | b :: rest => Memory.writeAll (m.write a b) (a + 1) rest

/-- `n` bytes from address `a`. -/
def Memory.readAll (m : Memory) (a n : Nat) : List Byte := (List.range n).map fun i => m.read (a + i)

/-- The canonical form: addresses strictly rising, no cell holding 0. -/
def Memory.wf (m : Memory) : Bool :=
  decide (m.Pairwise fun x y => x.1 < y.1) && m.all fun c => c.2 != 0

/-! ### Byte order -/

/-- Byte `i` of a field of bytes, 0 past its end. -/
def byteAt (bytes : List Byte) (i : Nat) : Nat := (bytes[i]?.getD 0).toNat

/-- The number in `n` bytes from offset `i`, low byte first (R184). -/
def leAt (bytes : List Byte) (i n : Nat) : Nat :=
  match n with
  | 0 => 0
  | n + 1 => byteAt bytes i + 256 * leAt bytes (i + 1) n

/-- `n` bytes of a number, low byte first (R184). -/
def le (n v : Nat) : List Byte :=
  match n with
  | 0 => []
  | n + 1 => BitVec.ofNat 8 v :: le n (v / 256)

/-- `n` bytes of a signed number in two's complement, low byte first (R184). -/
def leInt (n : Nat) (v : Int) : List Byte := le n (BitVec.ofInt (8 * n) v).toNat

/-- `n` bytes of a number, most significant byte first (R42). -/
def be (n v : Nat) : List Byte := (le n v).reverse

/-- The number a byte list gives, most significant byte first (R42). -/
def beVal (bytes : List Byte) : Nat := bytes.foldl (fun acc b => 256 * acc + b.toNat) 0

/-- One byte for a yes or no field. -/
def boolByte (b : Bool) : Byte := if b then 1 else 0

/-! ### Node numbers -/

/-- The node number of a record index. -/
def nodeNumber (i : Fin 32) : Nat := i.val + 1

/-- The record index of a node number: none outside 1 to 32. -/
def nodeIndex (n : Byte) : Option (Fin 32) :=
  if h : 1 ≤ n.toNat ∧ n.toNat ≤ 32 then some ⟨n.toNat - 1, by omega⟩ else none

/-! ### Show time -/

/-- Show time, defined while the GO record is present: site time less start, as a signed difference (R2, R25). -/
def showTime (s : State) : Option Int := s.ctl.go.map fun g => sdiff s.clock.site g.start

/-- Show time as reported and used where a number is needed: 0 while the GO record is absent (R2). -/
def showNow (s : State) : Int := (showTime s).getD 0

/-- COUNTDOWN, RUNNING or CODA. -/
def ShowState.inShow : ShowState → Bool
  | .countdown | .running | .coda => true
  | .standby | .idle | .armed | .halted => false

/-! ### Fades and ramps (R106, R140, R164) -/

/-- The present value of a fade from `start` to `target`, anchored at `anchor` (show time in µs), `len` ms long, at show
time `tau`: the target while there is no show time. -/
def presentValue (start target : Nat) (anchor : Int) (len : Nat) (tau : Option Int) : Nat :=
  match tau with
  | none => target
  | some t =>
    let elapsed := t - anchor
    if len = 0 ∨ elapsed ≥ 1000 * (len : Int) then target
    else if elapsed < 0 then start
    else ((start : Int) + Int.tdiv (((target : Int) - start) * elapsed) (1000 * len)).toNat

/-- The present value of a fade record. -/
def Fade.present (f : Fade) (tau : Option Int) : Nat := presentValue f.start f.target f.anchor f.len tau

/-! ### Events (R178, R179) -/

/-- The number of a source. -/
def Source.index : Source → Nat
  | .halt => 0
  | .safety => 1
  | .pumpFault => 2
  | .clash => 3
  | .scoreMismatch => 4
  | .state => 5
  | .lock => 6
  | .cueLate => 7
  | .queueFull => 8
  | .figureEnd => 9
  | .mark => 10
  | .audioUnderrun => 11
  | .audioSkip => 12
  | .audioRefill => 13
  | .peer => 14
  | .line => 15

/-- The set holding one source. -/
def Source.bit (src : Source) : Word16 := 1 <<< src.index

/-- Raising a source: pending is set, and overrun too where pending was already set (R179). -/
def EventUnit.raised (e : EventUnit) (src : Source) : EventUnit :=
  { e with pending := e.pending ||| src.bit, overrun := e.overrun ||| (e.pending &&& src.bit) }

/-- Raises a source in the node's event unit. -/
def raise (src : Source) (s : State) : State := { s with events := s.events.raised src }

/-- Raises a source where a condition holds. -/
def raiseIf (b : Bool) (src : Source) (s : State) : State := if b then raise src s else s

/-! ### Host port (R185 to R187) -/

/-- Writes the last result record (R187). -/
def settle (code : Byte) (r : Result) (failIndex : Option Nat) (s : State) : State :=
  { s with port := { s.port with lastCommand := code, lastResult := r, failIndex := failIndex } }

/-- While the part is held in a power-on or pin reset nothing reaches it: its port and its receiver are dead and its time
base stands (R193, R194). -/
def unlessHeld (s : State) (f : State → State) : State := if s.port.held then s else f s

/-- The frame in progress is ignored to its end: its NCS fell before or during a reset, or it carried SOFT RESET (R194). -/
def HostPort.ignoring (p : HostPort) : Bool :=
  match p.frame with
  | none => false
  | some f => f.phase = .ignored

/-- A host command reaches the part unless it is held in reset or the frame in progress is ignored (R193, R194). -/
def unlessDeaf (s : State) (f : State → State) : State := if s.port.held || s.port.ignoring then s else f s

/-- NCS rises: the frame in progress ends, and a byte left partial is discarded (R184). -/
def endFrame (s : State) : State := { s with port := { s.port with frame := none } }

/-- The frame in progress at a reset is abandoned, and what follows of it is ignored (R194). -/
def abandonedFrame (s : State) : Option PortFrame := s.port.frame.map fun _ => { phase := .ignored, bits := [] }

/-- A host command that writes the last result record: the BUSY test of R186 first, then the command's own tests and
effect, which answer the new state, the result and the failure index. -/
def hostCommand (code : Byte) (s : State) (body : State → State × Result × Option Nat) : State :=
  unlessDeaf s fun s =>
    if s.score.status = .checking then settle code .busy none s
    else
      let out := body s
      settle code out.2.1 out.2.2 out.1

/-- A refusal: nothing changes but the last result record (R186). -/
def refuse (s : State) (r : Result) : State × Result × Option Nat := (s, r, none)

/-- An accepted command. -/
def accept (s : State) : State × Result × Option Nat := (s, .ok, none)

/-- Keeps the reply of a read command for MISO; nothing else changes (R188). -/
def answer (reply : List Byte) (s : State) : State := { s with port := { s.port with reply := reply } }

end Sys2Proof.Machine
end

