-- ==== Sys2Proof/Machine/Flags.lean ====
section
/-! DEFINITION. Flags and levels that the manual derives from other state: halt assertion, DRY mask, NEVT, the start slot's
view, pump outputs, beacon and status flags. -/

namespace Sys2Proof.Machine

/-- The level seen on a safety input: its pin read through the polarity (R172). -/
def levelSeen (c : ConfigRecord) (i : Fin 8) (inp : SafetyInput) : Bool := inp.pin == c.input[i].activeHigh

/-- The HALT-role inputs that are stable-active (R175). -/
def haltInputs (s : State) : List (Fin 8) :=
  match s.config with
  | none => []
  | some c => (List.finRange 8).filter fun i => c.input[i].role = .halt && s.safety[i].stable

/-- Halt is asserted while any HALT-role input is stable-active (R175). -/
def haltAsserted (s : State) : Bool := !(haltInputs s).isEmpty

/-- The halt input set: input i present when the value holds 2^i (R175). -/
def haltSet (s : State) : Byte := BitVec.ofNat 8 ((haltInputs s).map fun i => 2 ^ i.val).sum

/-- The stable-active set of all eight inputs; empty in STANDBY (R177). -/
def stableSet (s : State) : Byte :=
  BitVec.ofNat 8 (((List.finRange 8).filter fun i => s.safety[i].stable).map fun i => 2 ^ i.val).sum

/-- The DRY mask covers channel `p` (R176). -/
def dryCovers (s : State) (p : Fin 4) : Bool :=
  match s.config with
  | none => false
  | some c => (List.finRange 8).any fun i =>
      c.input[i].role = .dry && s.safety[i].stable && c.input[i].pumpSet.getLsbD p

/-- The top event: the lowest-numbered source pending and not masked (R180). -/
def topEvent (e : EventUnit) : Option Nat :=
  (List.range 16).find? fun i => e.pending.getLsbD i && !e.masked.getLsbD i

/-- NEVT is active while the top event is not NONE (R180); the pin is then low. -/
def nevtActive (e : EventUnit) : Bool := (topEvent e).isSome

/-- The run output is on when the stage is ON, and off in every other stage (R101). -/
def Channel.runOutput (c : Channel) : Bool := c.stage = .on

/-- The channel stands in the start list (R101). -/
def Stage.inList : Stage → Bool
  | .waiting | .asking | .asked => true
  | .off | .on => false

/-- The node's view of the site start slot is busy (R117). -/
def slotBusy (s : State) : Bool :=
  s.pump.ask != .none ||
    match s.pump.busyUntil with
    | none => false
    | some t => !reached s.clock.site t

/-- A peer's halt flag, wind present flag (R43: halt 2, wind 4). -/
def Peer.haltFlag (p : Peer) : Bool := p.flags.getLsbD 1

/-- A peer's wind present flag. -/
def Peer.windFlag (p : Peer) : Bool := p.flags.getLsbD 2

/-- Record `i` is a peer record, not the own record (R56); in STANDBY there is no own record (R58). -/
def isPeer (s : State) (i : Fin 32) : Bool :=
  match s.config with
  | none => true
  | some c => decide (i ≠ c.own)

/-- Some FRESH peer record carries the halt flag (R22, R60). -/
def freshPeerHalts (s : State) : Bool :=
  (List.finRange 32).any fun i => isPeer s i && s.peers[i].presence = .fresh && s.peers[i].haltFlag

/-- The state code of a beacon (R43) and of the status record (R191). -/
def ShowState.code : ShowState → Nat
  | .standby => 0
  | .idle => 1
  | .armed => 2
  | .countdown => 3
  | .running => 4
  | .coda => 5
  | .halted => 6

/-- The flags of the node's own beacon: locked 1, halt asserted 2, wind present 4 (R43, R23, R29, R129). -/
def beaconFlags (s : State) : Byte :=
  BitVec.ofNat 8 ((if s.clock.locked then 1 else 0) + (if haltAsserted s then 2 else 0) +
    if s.wind.node.isSome then 4 else 0)

/-- The flags of the status record: LOCKED 1, CLASH 2, halt asserted 4 (R191). -/
def statusFlags (s : State) : Byte :=
  BitVec.ofNat 8 ((if s.clock.locked then 1 else 0) + (if s.clock.clash then 2 else 0) +
    if haltAsserted s then 4 else 0)

/-- Every pump channel has d_out = 0 (R22). -/
def allDriveZero (s : State) : Bool := (List.finRange 4).all fun p => s.pump.chan[p].dOut = 0

/-- Every pump channel has d_out = 0 and its run output off (R19). -/
def allStopped (s : State) : Bool :=
  (List.finRange 4).all fun p => s.pump.chan[p].dOut = 0 && !s.pump.chan[p].runOutput

/-- The site clock's interval I in µs: the configured beacon interval, 50,000 in STANDBY (R27). -/
def intervalUs (s : State) : Nat :=
  match s.config with
  | none => 50000
  | some c => 1000 * c.interval

end Sys2Proof.Machine
end

