-- ==== Sys2Proof/Machine/Operands.lean ====
section
/-! DEFINITION. The operand forms: the configuration record's layout and checks, score image records, and figures. -/

namespace Sys2Proof.Machine

/-! ### Configuration record (R189, R190) -/

/-- Offset of pump `p`'s fields. -/
def pumpOffset (p : Nat) : Nat := 41 + 51 * p

/-- `lo ≤ v ≤ hi`. -/
def within (lo hi v : Nat) : Bool := decide (lo ≤ v ∧ v ≤ hi)

/-- The checks on one pump's fields, by rising offset; those after P_rated only where P_rated is not 0 (R190). -/
def pumpChecks (r : List Byte) (p : Nat) : List (Nat × Bool) :=
  let o := pumpOffset p
  let rated := leAt r o 2
  (o, within 0 5000 rated) ::
    if rated = 0 then []
    else
      ((List.range 17).map fun i =>
        (o + 2 + 2 * i, within (if i = 0 then 0 else leAt r (o + 2 * i) 2) 1000 (leAt r (o + 2 + 2 * i) 2))) ++
      [(o + 36, within 0 1000 (leAt r (o + 36) 2)),
       (o + 38, within 1 1000 (leAt r (o + 38) 2)),
       (o + 40, within 1 1000 (leAt r (o + 40) 2)),
       (o + 42, within 1 1000 (leAt r (o + 42) 2)),
       (o + 44, within 0 2000 (leAt r (o + 44) 2)),
       (o + 46, within 0 1 (byteAt r (o + 46))),
       (o + 47, within 0 1000 (leAt r (o + 47) 2)),
       (o + 49, within 0 10000 (leAt r (o + 49) 2))]

/-- The checks on one lamp's fields. -/
def lampChecks (r : List Byte) (l : Nat) : List (Nat × Bool) :=
  let o := 253 + 3 * l
  [(o, within 0 63 (byteAt r o) || byteAt r o = 255), (o + 1, within 0 3 (byteAt r (o + 1))),
   (o + 2, within 0 1 (byteAt r (o + 2)))]

/-- The checks on one gamma curve: each point in range and not below the one before it. -/
def gammaChecks (r : List Byte) (c : Nat) : List (Nat × Bool) :=
  let o := 301 + 66 * c
  (List.range 33).map fun i =>
    (o + 2 * i, within (if i = 0 then 0 else leAt r (o + 2 * i - 2) 2) 4095 (leAt r (o + 2 * i) 2))

/-- The checks on one safety input's fields. -/
def inputChecks (r : List Byte) (i : Nat) : List (Nat × Bool) :=
  let o := 565 + 5 * i
  [(o, within 0 2 (byteAt r o)), (o + 1, within 0 1 (byteAt r (o + 1))), (o + 2, within 1 255 (byteAt r (o + 2))),
   (o + 3, within 0 15 (byteAt r (o + 3))), (o + 4, within 0 1 (byteAt r (o + 4)))]

/-- Every check of a configuration record, in order of record offset (R190); fields that take any value have none. -/
def recordChecks (r : List Byte) : List (Nat × Bool) :=
  [(0, within 1 32 (byteAt r 0)),
   (3, within 0 10000 (leAt r 3 2)),
   (5, within 20 200 (byteAt r 5)),
   (6, within 0 50 (byteAt r 6)),
   (7, within 10 1000 (leAt r 7 2)),
   (9, within (leAt r 7 2) 5000 (leAt r 9 2)),
   (11, within 1 100 (byteAt r 11)),
   (12, within 500 100000 (leAt r 12 4)),
   (16, within 0 10000 (leAt r 16 2)),
   (18, within 0 1 (byteAt r 18)),
   (19, within 0 1000 (leAt r 19 2)),
   (21, within 0 600 (leAt r 21 2)),
   (23, within 0 24000 (leAt r 23 2)),
   (26, within 0 4095 (leAt r 26 2)),
   (30, within 1 8 (byteAt r 30)),
   (31, within 0 599 (leAt r 31 2)),
   (33, within 1 600 (leAt r 33 2) && decide (leAt r 31 2 < leAt r 33 2)),
   (35, within 1 600 (leAt r 35 2) && decide (leAt r 33 2 ≤ leAt r 35 2)),
   (37, within 0 1024 (leAt r 37 2)),
   (39, within 1 1024 (leAt r 39 2))] ++
  (List.range 4).flatMap (pumpChecks r) ++
  ((List.range 4).map fun g => (245 + 2 * g, within 0 2000 (leAt r (245 + 2 * g) 2))) ++
  (List.range 16).flatMap (lampChecks r) ++
  (List.range 4).flatMap (gammaChecks r) ++
  (List.range 8).flatMap (inputChecks r)

/-- The offset of the first failing field, none where every check passes (R190). -/
def firstFailure (r : List Byte) : Option Nat := ((recordChecks r).find? fun c => !c.2).map (·.1)

/-- One pump's fields. The pump lead of an unconfigured pump is 0 whatever the record carries (R190). -/
def parsePump (r : List Byte) (p : Fin 4) : PumpConfig :=
  let o := pumpOffset p
  let rated := leAt r o 2
  { rated := rated
    lift := gen fun i => leAt r (o + 2 + 2 * i.val) 2
    dMin := leAt r (o + 36) 2
    rampUp := leAt r (o + 38) 2
    rampDown := leAt r (o + 40) 2
    haltRamp := leAt r (o + 42) 2
    lead := if rated = 0 then 0 else leAt r (o + 44) 2
    exposed := byteAt r (o + 46) = 1
    visible := leAt r (o + 47) 2
    confirm := leAt r (o + 49) 2 }

/-- One lamp's fields. -/
def parseLamp (r : List Byte) (l : Fin 16) : LampConfig :=
  let o := 253 + 3 * l.val
  { valve := if byteAt r o = 255 then none else some (Fin.ofNat 64 (byteAt r o))
    curve := Fin.ofNat 4 (byteAt r (o + 1))
    safety := byteAt r (o + 2) = 1 }

/-- One safety input's fields. -/
def parseInput (r : List Byte) (i : Fin 8) : InputConfig :=
  let o := 565 + 5 * i.val
  { role := if byteAt r o = 1 then .halt else if byteAt r o = 2 then .dry else .none
    activeHigh := byteAt r (o + 1) = 0
    debounce := byteAt r (o + 2)
    pumpSet := BitVec.ofNat 4 (byteAt r (o + 3))
    report := byteAt r (o + 4) = 1 }

/-- The configuration a record carries, by the layout of R189. -/
def parseRecord (r : List Byte) : ConfigRecord where
  own := Fin.ofNat 32 (byteAt r 0 - 1)
  budget := leAt r 1 2
  settle := leAt r 3 2
  interval := byteAt r 5
  lineDelay := byteAt r 6
  lockWindow := leAt r 7 2
  unlockWindow := leAt r 9 2
  slewLimit := byteAt r 11
  outlier := leAt r 12 4
  codaLength := leAt r 16 2
  lateJoin := byteAt r 18 = 1
  haltFade := leAt r 19 2
  fallback := leAt r 21 2
  zoneDelay := leAt r 23 2
  minDuty := byteAt r 25
  safeDuty := leAt r 26 2
  windScale := leAt r 28 2
  depth := byteAt r 30
  wLow := leAt r 31 2
  wHigh := leAt r 33 2
  wCut := leAt r 35 2
  fMin := leAt r 37 2
  fRise := leAt r 39 2
  pump := gen (parsePump r)
  valveLead := gen fun g => leAt r (245 + 2 * g.val) 2
  lamp := gen (parseLamp r)
  gamma := gen fun c => gen fun i => leAt r (301 + 66 * c.val + 2 * i.val) 2
  input := gen (parseInput r)

/-- Dz_us, the zone delay in µs (R155). -/
def zoneDelayUs (c : ConfigRecord) : Nat := c.zoneDelay * 125 / 6

/-- A pump channel is configured when its P_rated is not 0 (R100). -/
def ConfigRecord.configured (c : ConfigRecord) (p : Fin 4) : Bool := c.pump[p].rated ≠ 0

/-- The horizon H: the largest of the four valve leads and the four pump leads (R72). -/
def horizonOf (c : ConfigRecord) : Nat :=
  (List.finRange 4).foldl (fun h i => max h (max c.valveLead[i] c.pump[i].lead)) 0

/-! ### Score image (R62) -/

/-- Address of cue record `i` in score memory. -/
def cueAddress (i : Nat) : Nat := 16 * i

/-- Address of pattern row `r` in score memory: the rows follow the 2,048 cue records. -/
def rowAddress (r : Nat) : Nat := 32768 + 2 * r

/-- The 16 bytes of cue record `i`. -/
def cueBytes (sc : Score) (i : Nat) : List Byte := sc.mem.readAll (cueAddress i) 16

/-- The open positions of pattern row `r`: bit j for position j (R62, R83). -/
def rowSet (sc : Score) (r : Nat) : Word16 :=
  BitVec.ofNat 16 ((sc.mem.read (rowAddress r)).toNat + 256 * (sc.mem.read (rowAddress r + 1)).toNat)

/-- The cue time of a cue record, in ms. -/
def cueTime (b : List Byte) : Nat := leAt b 1 3

/-- The kind byte of a FIGURE cue, with or without accent. -/
def isFigureKind (k : Nat) : Bool := within 0x20 0x23 k || within 0x28 0x2B k

/-- A kind byte that R62 lists. -/
def isCueKind (k : Nat) : Bool := within 1 5 k || k = 0x0F || isFigureKind k

/-- The figure a FIGURE cue record carries. -/
def cueFigure (b : List Byte) : Figure where
  start := 1000 * (cueTime b : Int)
  startRow := leAt b 4 3 % 1024
  pitch := byteAt b 7
  steps := byteAt b 8 + 1
  period := leAt b 4 3 / 1024
  wStart := byteAt b 9
  wEnd := byteAt b 10
  passes := byteAt b 11
  accent :=
    if within 0x28 0x2B (byteAt b 0) then some (byteAt b 12, ⟨byteAt b 13, byteAt b 14, byteAt b 15⟩) else none

/-- The fields of a cue record at index `idx` of a score of `cueCount` cues are legal (R66). -/
def cueLegal (cueCount idx : Nat) (b : List Byte) : Bool :=
  let k := byteAt b 0
  isCueKind k && decide (cueTime b ≤ 3600000) &&
    (if k = 0x01 then within 1 15 (byteAt b 4)
     else if isFigureKind k then
       within 20 10000 (leAt b 4 3 / 1024) && (within 0x20 0x23 k || decide (byteAt b 12 ≤ byteAt b 8))
     else if k = 0x02 then decide (leAt b 4 2 ≠ 0)
     else if k = 0x0F then decide (idx + 1 = cueCount)
     else true)

/-- Replaces the bytes from offset `i`. -/
def setBytes (b : List Byte) (i : Nat) (new : List Byte) : List Byte :=
  match new with
  | [] => b
  | x :: rest => setBytes (b.set i x) (i + 1) rest

/-- A two-byte field held at most `cap`. -/
def capField (b : List Byte) (i cap : Nat) : List Byte :=
  if leAt b i 2 > cap then setBytes b i (le 2 cap) else b

/-- A one-byte field held at most `cap`. -/
def capByte (b : List Byte) (i cap : Nat) : List Byte :=
  if byteAt b i > cap then setBytes b i (le 1 cap) else b

/-- A cue record as stored: values beyond their scale are clamped (R66). -/
def cueClamped (b : List Byte) : List Byte :=
  let k := byteAt b 0
  if k = 0x01 then capField b 5 1024
  else if k = 0x03 ∨ k = 0x04 then capField b 4 1024
  else if isFigureKind k then capByte (capByte b 9 (byteAt b 8)) 10 (byteAt b 8)
  else b

/-- The row of step `k` of a figure: it stays in the 256-row page of the start row (R67, R88). -/
def figureRow (startRow pitch k : Nat) : Nat := 256 * (startRow / 256) + (startRow % 256 + k * pitch) % 256

/-- A FIGURE cue reaches only loaded rows (R67). -/
def figureLoaded (rowCount : Nat) (f : Figure) : Bool :=
  (List.range f.steps).all fun k => figureRow f.startRow f.pitch k < rowCount

/-- The actions of a cue with their due times in µs of show time, in the order of R70. -/
def cueActs (c : ConfigRecord) (b : List Byte) : List (Int × Act) :=
  let k := byteAt b 0
  let t : Int := 1000 * (cueTime b : Int)
  if k = 0x01 then
    ((List.finRange 4).filter fun p : Fin 4 => (BitVec.ofNat 4 (byteAt b 4)).getLsbD p).map fun p =>
      (t - 1000 * (c.pump[p].lead : Int), .height p (leAt b 5 2) (leAt b 7 2))
  else if isFigureKind k then
    let g : Fin 4 := Fin.ofNat 4 k
    [(t - 1000 * (c.valveLead[g] : Int), .figure .valve g (cueFigure b)), (t, .figure .lamp g (cueFigure b))]
  else if k = 0x02 then
    [(t, .colour (BitVec.ofNat 16 (leAt b 4 2)) ⟨byteAt b 6, byteAt b 7, byteAt b 8⟩ (leAt b 9 2))]
  else if k = 0x03 then [(t, .master (leAt b 4 2) (leAt b 6 2))]
  else if k = 0x04 then [(t + (zoneDelayUs c : Int), .level (leAt b 4 2) (leAt b 6 2))]
  else if k = 0x05 then [(t, .mark (byteAt b 4))]
  else if k = 0x0F then [(t, .endShow)]
  else []

/-- The actions of cue `i`, counted mark clear (R71). -/
def cueActions (c : ConfigRecord) (sc : Score) (i : Nat) : List Action :=
  (cueActs c (cueBytes sc i)).map fun a => { due := a.1, act := a.2, cue := i, counted := false }

/-- The sum of all 16-bit words of the score image, modulo 65,536 (R68). -/
def imageChecksum (sc : Score) : Word16 :=
  let word (a : Nat) : Nat := (sc.mem.read a).toNat + 256 * (sc.mem.read (a + 1)).toNat
  BitVec.ofNat 16 (sc.showId.toNat + sc.cueCount + sc.rowCount +
    ((List.range (8 * sc.cueCount)).map fun i => word (2 * i)).sum +
    ((List.range sc.rowCount).map fun r => word (rowAddress r)).sum)

end Sys2Proof.Machine
end

