-- ==== Sys2Proof/Machine/Cue.lean ====
section
/-! DEFINITION. Cue engine: the action queue, taking cues, the show controller's requests. -/

namespace Sys2Proof.Machine

/-! ### Requests (R71, R79) -/

/-- CUE REWIND: queue emptied, pointer 0, waiting clear, mode STOPPED (R71). -/
def cueRewind (s : State) : State :=
  { s with cue := { s.cue with queue := [], pointer := 0, waiting := false, taking := false } }

/-- CUE START: mode TAKING from the present pointer; late count and last mark 0 (R71). -/
def cueStart (s : State) : State := { s with cue := { s.cue with taking := true, lateCount := 0, lastMark := 0 } }

/-- CUE STOP: mode STOPPED, queue emptied, waiting clear; pointer, late count and last mark kept (R79). -/
def cueStop (s : State) : State := { s with cue := { s.cue with taking := false, queue := [], waiting := false } }

/-! ### Taking cues (R73, R74) -/

/-- Places an action after every action due at or before it and before every later one (R74). -/
def insertAction (q : List Action) (a : Action) : List Action :=
  q.takeWhile (fun b => b.due ≤ a.due) ++ a :: q.dropWhile (fun b => b.due ≤ a.due)

/-- Places several actions in their order (R74). -/
def insertActions (q : List Action) (as : List Action) : List Action := as.foldl insertAction q

/-- The show time of taking a cue: 1000 × (t − H) µs (R73). -/
def takingTime (s : State) (i : Nat) : Int := 1000 * ((cueTime (cueBytes s.score i) : Int) - s.cue.horizon)

/-- The time condition of the cue at the pointer holds, in TAKING (R73). -/
def cueReached (s : State) : Bool :=
  match showTime s with
  | none => false
  | some tau =>
    s.cue.taking && decide (s.cue.pointer < s.score.cueCount) && decide (takingTime s s.cue.pointer ≤ tau)

/-- The actions of the cue at the pointer. -/
def nextActions (s : State) : List Action :=
  match s.config with
  | none => []
  | some c => cueActions c s.score s.cue.pointer

/-- The queue has room for the cue at the pointer (R73). -/
def cueRoom (s : State) : Bool := decide (s.cue.queue.length + (nextActions s).length ≤ 64)

/-- Takes the cue at the pointer (R73). -/
def takeCue (s : State) : State :=
  { s with cue := { s.cue with
      queue := insertActions s.cue.queue (nextActions s)
      pointer := s.cue.pointer + 1
      waiting := false } }

/-- Where the time condition holds and room does not, waiting is set and QUEUE FULL raised, unless waiting is already set
(R73). -/
def waitForRoom (s : State) : State :=
  if cueReached s && !cueRoom s && !s.cue.waiting then
    raise .queueFull { s with cue := { s.cue with waiting := true } }
  else s

/-- The cue at the pointer has something to do now: it can be taken, or its wait begins. -/
def cueDue (s : State) : Bool := cueReached s && (cueRoom s || !s.cue.waiting)

/-- CUE_TAKEN: the cue at the pointer is taken, or its wait for room begins (R73). Where the cue just taken holds actions that are
already due and the next cue reached finds no room, R73 and R75 leave open whether those actions fire first: the room is tested at
once, and QUEUE FULL raised (DESIGN CHOICE, notes/assumptions/33.md). -/
def execCueTaken (s : State) : Host.Outcome State Fault Refusal :=
  .next (unlessHeld s fun s =>
    if cueReached s then (if cueRoom s then waitForRoom (takeCue s) else waitForRoom s) else s)

end Sys2Proof.Machine
end

