-- ==== Sys2Proof/Machine/Loading.lean ====
section
/-! DEFINITION. Score loading: SCORE OPEN, SCORE DATA, SCORE CLOSE and the checksum computation. -/

namespace Sys2Proof.Machine

/-- Score memory replaced. -/
def setScore (sc : Score) (s : State) : State := { s with score := sc }

/-- The score commands are taken in IDLE with the score not frozen (R63). -/
def scoreOpenable (s : State) : Bool := s.ctl.state = .idle && !s.score.frozen

/-- SCORE OPEN's header stored: a new load begins (R64). -/
def openScore (header : List Byte) (sc : Score) : Score :=
  { sc with
    showId := BitVec.ofNat 16 (leAt header 0 2)
    cueCount := leAt header 2 2
    rowCount := leAt header 4 2
    cuesLoaded := 0
    rowsLoaded := 0
    prevTime := 0
    checksum := 0
    status := .loading }

/-- SCORE OPEN (R63, R64). -/
def scoreOpen (header : List Byte) (s : State) : State × Result × Option Nat :=
  if !scoreOpenable s then refuse s .state
  else if !within 1 2048 (leAt header 2 2) || decide (1024 < leAt header 4 2) then refuse s .param
  else accept (setScore (openScore header s.score) s)

/-- A cue record passes its checks and is stored at the next index (R65, R66). -/
def storeCue (b : List Byte) (sc : Score) : Score :=
  { sc with
    mem := sc.mem.writeAll (cueAddress sc.cuesLoaded) (cueClamped b)
    cuesLoaded := sc.cuesLoaded + 1
    prevTime := cueTime b }

/-- The check a cue record fails first, if any (R65). -/
def cueFailure (b : List Byte) (sc : Score) : Option Result :=
  if sc.cueCount ≤ sc.cuesLoaded then some .space
  else if !cueLegal sc.cueCount sc.cuesLoaded b then some .param
  else if sc.cuesLoaded ≠ 0 ∧ cueTime b < sc.prevTime then some .order
  else none

/-- Stores `n` cue records in the order carried, up to the first that fails; answers the failure and its index (R65). -/
def storeCues (n : Nat) (bytes : List Byte) (sc : Score) : Score × Option (Result × Nat) :=
  match n with
  | 0 => (sc, none)
  | n + 1 =>
    match cueFailure (bytes.take 16) sc with
    | some r => ({ sc with status := .failed }, some (r, sc.cuesLoaded))
    | none => storeCues n (bytes.drop 16) (storeCue (bytes.take 16) sc)

/-- Stores `n` pattern rows in the order carried, up to the first that finds no place (R65). -/
def storeRows (n : Nat) (bytes : List Byte) (sc : Score) : Score × Option (Result × Nat) :=
  match n with
  | 0 => (sc, none)
  | n + 1 =>
    if sc.rowCount ≤ sc.rowsLoaded then ({ sc with status := .failed }, some (.space, sc.rowsLoaded))
    else
      storeRows n (bytes.drop 2)
        { sc with
          mem := sc.mem.writeAll (rowAddress sc.rowsLoaded) (bytes.take 2)
          rowsLoaded := sc.rowsLoaded + 1 }

/-- The bytes of one record of a part: 16 for cues, 2 for rows (R65). -/
def partSize (part : Nat) : Nat := if part = 1 then 16 else 2

/-- A part byte and a count that R65 takes. -/
def legalPart (body : List Byte) : Bool := within 1 2 (byteAt body 0) && within 1 32 (byteAt body 1)

/-- SCORE DATA has arrived whole: its illegal part or count, or its last record (R65, R185). -/
def dataWhole (body : List Byte) : Bool :=
  decide (1 ≤ body.length) &&
    (!within 1 2 (byteAt body 0) ||
      decide (2 ≤ body.length) &&
        (!within 1 32 (byteAt body 1) || decide (2 + byteAt body 1 * partSize (byteAt body 0) ≤ body.length)))

/-- SCORE DATA (R63, R65, R66). -/
def scoreData (body : List Byte) (s : State) : State × Result × Option Nat :=
  if !scoreOpenable s || s.score.status ≠ .loading then refuse s .state
  else if !legalPart body then refuse s .param
  else
    let out :=
      if byteAt body 0 = 1 then storeCues (byteAt body 1) (body.drop 2) s.score
      else storeRows (byteAt body 1) (body.drop 2) s.score
    match out.2 with
    | none => accept (setScore out.1 s)
    | some (r, ix) => (setScore out.1 s, r, some ix)

/-- The first FIGURE cue that does not reach only loaded rows (R67). -/
def unloadedFigure (sc : Score) : Option Nat :=
  (List.range sc.cueCount).find? fun i =>
    isFigureKind (byteAt (cueBytes sc i) 0) && !figureLoaded sc.rowCount (cueFigure (cueBytes sc i))

/-- SCORE CLOSE (R63, R67). -/
def scoreClose (s : State) : State × Result × Option Nat :=
  let sc := s.score
  if !scoreOpenable s || sc.status ≠ .loading then refuse s .state
  else if sc.cuesLoaded ≠ sc.cueCount ∨ sc.rowsLoaded ≠ sc.rowCount then refuse s .param
  else if byteAt (cueBytes sc (sc.cueCount - 1)) 0 ≠ 0x0F then refuse s .param
  else
    match unloadedFigure sc with
    | some i => (s, .param, some i)
    | none => accept (setScore { sc with status := .checking, checkAge := 0 } s)

/-- The checksum computation's time is up: never more than 2 ms after SCORE CLOSE (R68). -/
def checksumDue (s : State) : Bool :=
  s.score.status = .checking && decide (min 2000 (Config.checksumTime s.draws) ≤ s.score.checkAge)

/-- CHECKSUM_COMPLETE: the computation ends, at any time within its bound, and the score becomes VALID (R68). -/
def execChecksumComplete (s : State) : Host.Outcome State Fault Refusal :=
  .next (unlessHeld s fun s =>
    if s.score.status = .checking then
      { setScore { s.score with checksum := imageChecksum s.score, status := .valid } s with draws := s.draws + 1 }
    else s)

end Sys2Proof.Machine
end

