-- ==== Sys2Proof/Machine/Jets.lean ====
section
/-! DEFINITION. Jet figure unit: views, valve modes, and what the lamps see. -/

namespace Sys2Proof.Machine

/-! ### Evaluating a figure (R87 to R89) -/

/-- The end time of a figure, where it has one (R87). -/
def figureEndTime (f : Figure) : Option Int :=
  if f.passes = 0 then none else some (f.start + 1000 * ((f.period * f.steps * f.passes : Nat) : Int))

/-- The figure a record holds, none while it is EMPTY (R84). -/
def ViewRecord.fig (v : ViewRecord) : Option Figure :=
  match v.presence with
  | .empty => none
  | .held => some v.figure

/-- The outcome of a view at show time `tau` (R87). A held figure with no show time is NOT BEGUN: no rule evaluates a view then
(DESIGN CHOICE, notes/assumptions/38.md). -/
def evalFigure (fig : Option Figure) (tau : Option Int) : Phase :=
  match fig, tau with
  | none, _ => .empty
  | some _, none => .notBegun
  | some f, some t =>
    if t < f.start then .notBegun
    else
      let e := ((t - f.start) / 1000).toNat
      let step := e / f.period
      let pass := step / f.steps
      if f.passes = 0 ∨ pass < f.passes then .playing (step % f.steps) pass else .ended

/-- The window holds step k (R89). -/
def windowHolds (f : Figure) (k : Nat) : Bool :=
  if f.wStart ≤ f.wEnd then decide (f.wStart ≤ k ∧ k ≤ f.wEnd) else decide (f.wStart ≤ k ∨ k ≤ f.wEnd)

/-- The open positions a view shows (R87 to R90). -/
def openSet (sc : Score) (v : ViewRecord) : Word16 :=
  match v.fig, v.shown with
  | some f, .playing k _ => if windowHolds f k then rowSet sc (figureRow f.startRow f.pitch k) else 0
  | _, _ => 0

/-- The show time a view is evaluated at: the lamp view's is show time, the valve view's runs ahead by the group's valve
lead (R92, R95). -/
def viewTime (s : State) (g : Fin 4) (v : View) : Option Int :=
  match v with
  | .lamp => showTime s
  | .valve => (showTime s).map fun t => t + 1000 * (((s.config.map fun c => c.valveLead[g]).getD 0 : Nat) : Int)

/-- One view of a group. -/
def ValveGroup.view (grp : ValveGroup) (v : View) : ViewRecord :=
  match v with
  | .valve => grp.valve
  | .lamp => grp.lamp

/-- A group with one view replaced. -/
def ValveGroup.withView (grp : ValveGroup) (v : View) (r : ViewRecord) : ValveGroup :=
  match v with
  | .valve => { grp with valve := r }
  | .lamp => { grp with lamp := r }

/-- Replaces one group. -/
def putGroup (g : Fin 4) (grp : ValveGroup) (s : State) : State := { s with jets := put s.jets g grp }

/-- The outcome a view has at the present show time. -/
def viewPhase (s : State) (g : Fin 4) (v : View) : Phase := evalFigure ((s.jets[g].view v).fig) (viewTime s g v)

/-- A view shows the open set of its present show time (R90). -/
def refreshView (g : Fin 4) (v : View) (s : State) : State :=
  putGroup g (s.jets[g].withView v { s.jets[g].view v with shown := viewPhase s g v }) s

/-- Every view shows at once the open set of its new show time, as when a GO frame moves the start earlier (R90). -/
def refreshAll (s : State) : State :=
  (List.finRange 4).foldl (fun s g => refreshView g .lamp (refreshView g .valve s)) s

/-- A figure action writes one view whole; a lamp view fired after its end time raises FIGURE END at once, a lamp view
written by a seek after its end time has it reported without an event (R85, R98, R99). -/
def writeView (g : Fin 4) (v : View) (f : Figure) (origin : Origin) (s : State) : State :=
  let phase := evalFigure (some f) (viewTime s g v)
  let ended := v = .lamp && phase = .ended
  let record : ViewRecord := { presence := .held, figure := f, origin := origin, endReported := ended, shown := phase }
  raiseIf (ended && origin = .fired) .figureEnd (putGroup g (s.jets[g].withView v record) s)

/-! ### Valve outputs (R91 to R94) -/

/-- The 16 valve outputs of a group: bit j for valve 16g + j (R91). -/
def valveOutputs (s : State) (g : Fin 4) : Word16 :=
  match s.jets[g].mode with
  | .closed => 0
  | .following => openSet s.score s.jets[g].valve
  | .holding held => held

/-- Every group's mode changed by `f`. -/
def mapModes (f : Fin 4 → ValveMode → ValveMode) (s : State) : State :=
  { s with jets := gen fun g => { s.jets[g] with mode := f g s.jets[g].mode } }

/-- CLOSED to FOLLOWING, as the show state becomes COUNTDOWN, or RUNNING by late join (R91). -/
def modesFollow : State → State :=
  mapModes fun _ m => match m with
    | .closed => .following
    | other => other

/-- FOLLOWING to CLOSED, as the show state becomes IDLE or ARMED (R91). -/
def modesClose : State → State :=
  mapModes fun _ m => match m with
    | .following => .closed
    | other => other

/-- FIGURES HOLD: a FOLLOWING group whose pump has d_out above 0 holds the valves open at that moment, the others close
(R93). -/
def figuresHold (s : State) : State :=
  mapModes (fun g m => match m with
    | .following => if s.pump.chan[g].dOut = 0 then .closed else .holding (openSet s.score s.jets[g].valve)
    | other => other) s

/-- A HOLDING group whose pump has d_out = 0 closes (R94). -/
def closeStopped (s : State) : State :=
  mapModes (fun g m => match m with
    | .holding held => if s.pump.chan[g].dOut = 0 then .closed else .holding held
    | other => other) s

/-- FIGURES CLEAR: every figure record becomes EMPTY (R86). -/
def figuresClear (s : State) : State :=
  { s with jets := gen fun g => { s.jets[g] with valve := .empty, lamp := .empty } }

/-! ### What the lamps see (R95 to R97) -/

/-- The group of a valve. -/
def valveGroup (v : Fin 64) : Fin 4 := ⟨v.val / 16, by omega⟩

/-- The lamp view opens a valve, in COUNTDOWN, RUNNING and CODA alone (R97). -/
def lampOpen (s : State) (v : Fin 64) : Bool :=
  s.ctl.state.inShow && (openSet s.score s.jets[valveGroup v].lamp).getLsbD (v.val % 16)

/-- Water is present at a valve (R95), by the pump values of the latest pump period taken (R144): d_out changes at pump periods alone,
and the run output is the one that period left. -/
def waterPresent (s : State) (v : Fin 64) : Bool :=
  let g := valveGroup v
  match s.config with
  | none => false
  | some c => lampOpen s v && decide (c.pump[g].visible ≤ s.pump.chan[g].dOut) && s.pump.chan[g].ranAtPeriod

/-- The active accent at a valve and its colour (R96). -/
def accentAt (s : State) (v : Fin 64) : Option Rgb :=
  let view := s.jets[valveGroup v].lamp
  match view.fig.bind (·.accent), view.shown with
  | some (step, colour), .playing k _ => if k = step ∧ lampOpen s v then some colour else none
  | _, _ => none

/-! ### Commands -/

/-- A view's show time has reached a step boundary or its end: what it shows is no longer what it is (R90). Views are
evaluated in COUNTDOWN, RUNNING and CODA. -/
def boundaryDue (s : State) (g : Fin 4) (v : View) : Bool :=
  s.ctl.state.inShow && (s.jets[g].view v).shown ≠ viewPhase s g v

/-- A lamp view has reached its end time unreported (R98). -/
def figureEndDue (s : State) (g : Fin 4) : Bool :=
  s.ctl.state.inShow && !s.jets[g].lamp.endReported && viewPhase s g .lamp = .ended

/-- A lamp view's end is reported, once (R98). -/
def reportEnd (g : Fin 4) (s : State) : State :=
  raise .figureEnd (putGroup g { s.jets[g] with lamp := { s.jets[g].lamp with endReported := true } } s)

/-- FIGURE_STEP_BOUNDARY: the view's open set changes (R90). -/
def execFigureStepBoundary (group : Fin 4) (view : View) (s : State) : Host.Outcome State Fault Refusal :=
  .next (unlessHeld s fun s => if boundaryDue s group view then refreshView group view s else s)

/-- FIGURE_END: the lamp view reaches its end time, and FIGURE END is raised once (R98). -/
def execFigureEnd (group : Fin 4) (s : State) : Host.Outcome State Fault Refusal :=
  .next (unlessHeld s fun s => if figureEndDue s group then reportEnd group (refreshView group .lamp s) else s)

end Sys2Proof.Machine
end

