-- ==== Sys2Proof/Machine/Lamps.lean ====
section
/-! DEFINITION. Lamp unit: fades, gamma, master, blanking, accent, safe light. -/

namespace Sys2Proof.Machine

/-- The colour black. -/
def black : Rgb := ⟨0, 0, 0⟩

/-- The present colour of a lamp, channel by channel (R140). -/
def Lamp.colour (l : Lamp) (tau : Option Int) : Rgb :=
  { r := presentValue l.start.r l.target.r l.anchor l.len tau
    g := presentValue l.start.g l.target.g l.anchor l.len tau
    b := presentValue l.start.b l.target.b l.anchor l.len tau }

/-- A lamp starts a fade from its present colour (R139). -/
def Lamp.fadeTo (l : Lamp) (tau : Option Int) (c : Rgb) (anchor : Int) (len : Nat) : Lamp :=
  { l with start := l.colour tau, target := c, anchor := anchor, len := len }

/-- A fade record starts from its present value (R104, R141, R164). -/
def Fade.fadeTo (f : Fade) (tau : Option Int) (target : Nat) (anchor : Int) (len : Nat) : Fade :=
  { start := f.present tau, target := target, anchor := anchor, len := len }

/-! ### From colour to duty (R145 to R150) -/

/-- A channel value through a gamma curve (R147). -/
def gammaValue (curve : Vector Nat 33) (v : Nat) : Nat :=
  let i := v / 8
  let lo := curve[i]?.getD 0
  let hi := curve[i + 1]?.getD 0
  lo + (hi - lo) * (v - 8 * i) / 8

/-- One channel's duty: master, then the floor for a lit channel; "A channel with v = 0 stays at duty 0", also where the
curve's first point is above 0 (R148; DEDUCED, notes/assumptions/9.md). -/
def channelDuty (curve : Vector Nat 33) (m minDuty v : Nat) : Nat :=
  let d := gammaValue curve v * m / 1024
  if v = 0 then 0 else if 0 < m ∧ d < minDuty then minDuty else d

/-- A colour's three duties. -/
def colourDuty (c : ConfigRecord) (curve : Fin 4) (m : Nat) (v : Rgb) : Rgb :=
  { r := channelDuty c.gamma[curve] m c.minDuty v.r
    g := channelDuty c.gamma[curve] m c.minDuty v.g
    b := channelDuty c.gamma[curve] m c.minDuty v.b }

/-- The channel values of a lamp: its present colour, or the accent of its valve in COUNTDOWN and RUNNING (R145). -/
def lampValues (s : State) (c : ConfigRecord) (l : Fin 16) : Rgb :=
  let present := s.lamps.lamp[l].colour (showTime s)
  match c.lamp[l].valve with
  | none => present
  | some v => if s.ctl.state = .coda then present else (accentAt s v).getD present

/-- A bound lamp whose valve has no water present is blanked; a free lamp never is (R146). -/
def lampBlanked (s : State) (c : ConfigRecord) (l : Fin 16) : Bool :=
  match c.lamp[l].valve with
  | none => false
  | some v => !waterPresent s v

/-- The duties of a lamp by the show state (R149, R150). -/
def lampDuty (s : State) (c : ConfigRecord) (l : Fin 16) : Rgb :=
  match s.ctl.state with
  | .standby | .idle | .armed => black
  | .halted => if c.lamp[l].safety then ⟨c.safeDuty, c.safeDuty, c.safeDuty⟩ else black
  | .countdown | .running | .coda =>
    if lampBlanked s c l then black
    else colourDuty c c.lamp[l].curve (s.lamps.master.present (showTime s)) (lampValues s c l)

/-- Evaluates all 16 lamps and writes their duties (R144). A node in STANDBY makes no evaluation. -/
def evaluateLamps (s : State) : State :=
  match s.config with
  | none => s
  | some c =>
    { s with lamps := { s.lamps with lamp := gen fun l => { s.lamps.lamp[l] with duty := lampDuty s c l } } }

/-! ### Requests and actions -/

/-- Every lamp record changed by `f`. -/
def mapLamps (f : Fin 16 → Lamp → Lamp) (s : State) : State :=
  { s with lamps := { s.lamps with lamp := gen fun l => f l s.lamps.lamp[l] } }

/-- The lamp unit takes COLOUR and MASTER actions in COUNTDOWN and RUNNING (R139, R141). -/
def takesShowActions (s : State) : Bool := s.ctl.state = .countdown || s.ctl.state = .running

/-- A COLOUR action (R139). -/
def lampColour (set : Word16) (c : Rgb) (len : Nat) (anchor : Int) (s : State) : State :=
  if takesShowActions s then
    mapLamps (fun l lamp => if set.getLsbD l then lamp.fadeTo (showTime s) c anchor len else lamp) s
  else s

/-- A MASTER action (R141). -/
def lampMaster (level len : Nat) (anchor : Int) (s : State) : State :=
  if takesShowActions s then
    { s with lamps := { s.lamps with master := s.lamps.master.fadeTo (showTime s) level anchor len } }
  else s

/-- LAMP CODA: every lamp fades to black over the coda length from its present colour (R142). -/
def lampCoda (len : Nat) (s : State) : State :=
  mapLamps (fun _ lamp => lamp.fadeTo (showTime s) black (showNow s) len) s

/-- LAMP CLEAR: black, master 1,024, no fade in progress (R143). -/
def lampClear (s : State) : State :=
  let s := mapLamps (fun _ lamp => { lamp with start := black, target := black, anchor := 0, len := 0 }) s
  { s with lamps := { s.lamps with master := .fullMaster } }

/-- The lamp period is due (R144). -/
def lampDue (s : State) : Bool := s.config.isSome && reached s.clock.site s.lamps.next

/-- LAMP_PERIOD: all lamps are evaluated; the next period is the next multiple of 10,000 µs (R26, R144). -/
def execLampPeriod (s : State) : Host.Outcome State Fault Refusal :=
  .next (unlessHeld s fun s =>
    if lampDue s then
      let s := evaluateLamps s
      { s with lamps := { s.lamps with next := multipleAfter s.clock.site 10000 } }
    else s)

end Sys2Proof.Machine
end

