-- ==== Sys2Proof/Machine/Audio.lean ====
section
/-! DEFINITION. Audio unit: the block queue and sample ring, frame instants, gain, requests, AUDIO and its end. -/

namespace Sys2Proof.Machine

/-- Positions of the sample ring (R154). -/
def ringSize : Nat := 16384

/-- The index past the last frame a block can hold (R154, R160). -/
def frameEnd : Nat := 172804096

/-- The frames held: the sum of the counts of the queued blocks (R154). -/
def ringFill (a : AudioUnit) : Nat := (a.queue.map (·.count)).sum

/-- The room of the ring (R154). -/
def ringRoom (a : AudioUnit) : Nat := ringSize - ringFill a

/-- The refill condition (R167). -/
def refillCondition (a : AudioUnit) : Bool := decide (8192 ≤ ringRoom a ∧ a.queue.length < 32)

/-- The test of the refill condition after a change to the fill or the block count (R167). -/
def refillTest (s : State) : State :=
  let holds := refillCondition s.audio
  raiseIf (holds && !s.audio.refillHeld) .audioRefill { s with audio := { s.audio with refillHeld := holds } }

/-! ### Placing blocks (R156 to R159) -/

/-- The index past the last frame the tail block holds; 0 for an empty queue (R157). -/
def tailEnd (a : AudioUnit) : Nat := ((a.queue.getLast?).map fun b => b.start + b.count).getD 0

/-- The judgement of an AUDIO command's start frame and count (R156 to R158): refused with STATE, PARAM or SPACE, or taken
with its kept part reserved. The result of a taken command is settled at the end of its frame. -/
def judgeAudio (start count : Nat) (s : State) : State ⊕ Result :=
  if s.ctl.state = .standby then .inr .state
  else if count < 1 ∨ 4096 < count ∨ 172800000 < start then .inr .param
  else
    let keep := max start (tailEnd s.audio)
    let kept := start + count - keep
    if kept ≠ 0 ∧ (s.audio.queue.length ≥ 32 ∨ ringRoom s.audio < kept) then .inr .space
    else
      .inl { s with audio := { s.audio with
        reception := some { first := start, count := count, keep := keep, pos := s.audio.writePos } } }

/-- Writes `n` frames of 4 bytes into the ring from position `pos`, wrapping (R154). -/
def ringWrite (m : Memory) (pos n : Nat) (bytes : List Byte) : Memory :=
  match n with
  | 0 => m
  | n + 1 => ringWrite (m.writeAll (4 * (pos % ringSize)) (bytes.take 4)) (pos + 1) n (bytes.drop 4)

/-- The kept frames received whole, of the bytes that arrived (R159). -/
def keptReceived (r : Reception) (bytes : List Byte) : Nat := r.first + min r.count (bytes.length / 4) - r.keep

/-- The block of an AUDIO command enters the queue with the kept frames received whole; none enters where there is none
(R159). -/
def enterBlock (r : Reception) (bytes : List Byte) (s : State) : State :=
  let n := keptReceived r bytes
  let s := { s with audio := { s.audio with reception := none } }
  if n = 0 then s
  else
    refillTest { s with audio := { s.audio with
      ring := ringWrite s.audio.ring r.pos n (bytes.drop (4 * (r.keep - r.first)))
      queue := s.audio.queue ++ [{ start := r.keep, count := n, pos := r.pos }]
      writePos := (r.pos + n) % ringSize } }

/-! ### Frame instants (R160 to R162) -/

/-- The show time of the instant of frame `n` (R160). -/
def frameTime (c : ConfigRecord) (n : Nat) : Int := ((zoneDelayUs c + n * 125 / 6 : Nat) : Int)

/-- The highest frame whose instant show time `tau` has reached, for `tau` at or past that of frame 0 (R160). -/
def highestFrame (c : ConfigRecord) (tau : Int) : Nat := (6 * (tau - (zoneDelayUs c : Int)).toNat + 5) / 125

/-- The frames have ended: next frame is past the last index and the output is at rest (R160). -/
def framesEnded (a : AudioUnit) : Bool :=
  decide (a.next = frameEnd) && a.outLeft = 0 && a.outRight = 0 && a.decay.isNone && !a.underrun

/-- A frame instant is due: the GO record is present, the state is RUNNING, CODA or HALTED, and show time has reached the
instant of next frame. At the instant past the last frame, reached alone too, the frames end, once (R160). -/
def frameDue (s : State) : Bool :=
  match s.config, showTime s with
  | some c, some tau =>
    (s.ctl.state = .running || s.ctl.state = .coda || s.ctl.state = .halted) &&
      !framesEnded s.audio && decide (frameTime c s.audio.next ≤ tau)
  | _, _ => false

/-- Discards the frames with index below `n` from the head; answers the queue left and the number discarded (R161). -/
def discardLate (n : Nat) (q : List Block) : List Block × Nat :=
  match q with
  | [] => ([], 0)
  | b :: rest =>
    if n ≤ b.start then (b :: rest, 0)
    else if b.start + b.count ≤ n then ((discardLate n rest).1, (discardLate n rest).2 + b.count)
    else
      ({ start := n, count := b.start + b.count - n, pos := (b.pos + (n - b.start)) % ringSize } :: rest, n - b.start)

/-- The sample at a ring address, as a signed number. -/
def sampleAt (m : Memory) (a : Nat) : Int := (BitVec.ofNat 16 ((m.read a).toNat + 256 * (m.read (a + 1)).toNat)).toInt

/-- A sample scaled by the applied gain (R161). -/
def scaled (sample : Int) (gain : Nat) : Int := Int.tdiv (sample * gain) 1024

/-- The output of a decay after `j` frames, from start value `a` (R162). -/
def decayed (a : Int) (j : Nat) : Int := Int.tdiv (a * ((47 - j : Nat) : Int)) 48

/-- Late frames are discarded, counted, and reported once an episode (R161). -/
def dropLate (n : Nat) (s : State) : State :=
  let out := discardLate n s.audio.queue
  raiseIf (decide (0 < out.2) && !s.audio.skip) .audioSkip
    { s with audio := { s.audio with
        queue := out.1
        skipCount := stopAt 4294967295 (s.audio.skipCount + out.2)
        skip := decide (0 < out.2) } }

/-- Serves the head frame (R161). -/
def serveFrame (b : Block) (rest : List Block) (s : State) : State :=
  { s with audio := { s.audio with
      outLeft := scaled (sampleAt s.audio.ring (4 * b.pos)) s.audio.applied
      outRight := scaled (sampleAt s.audio.ring (4 * b.pos + 2)) s.audio.applied
      queue := if b.count ≤ 1 then rest
        else { start := b.start + 1, count := b.count - 1, pos := (b.pos + 1) % ringSize } :: rest
      decay := none
      underrun := false } }

/-- The output of a frame instant that serves no frame: the decay's next value, or 0 (R162). -/
def playSilence (s : State) : State :=
  match s.audio.decay with
  | none => { s with audio := { s.audio with outLeft := 0, outRight := 0 } }
  | some d =>
    { s with audio := { s.audio with
        outLeft := decayed d.left d.elapsed
        outRight := decayed d.right d.elapsed
        decay := some { d with elapsed := stopAt 48 (d.elapsed + 1) } } }

/-- A frame instant on an empty queue: in RUNNING an underrun begins unless one is in progress, and a decay begins unless
one is present (R162). -/
def emptyInstant (s : State) : State :=
  let starts := s.ctl.state = .running && !s.audio.underrun
  let s := raiseIf starts .audioUnderrun
    { s with audio := { s.audio with
        underrun := s.audio.underrun || starts
        underrunCount := if starts then stopAt 65535 (s.audio.underrunCount + 1) else s.audio.underrunCount } }
  playSilence { s with audio := { s.audio with
    decay := some (s.audio.decay.getD { left := s.audio.outLeft, right := s.audio.outRight, elapsed := 0 }) } }

/-- What the head of the queue gives a frame instant after the discards (R161). -/
def serveOrSilence (n : Nat) (s : State) : State :=
  match s.audio.queue with
  | [] => emptyInstant s
  | b :: rest => if b.start = n then serveFrame b rest s else playSilence s

/-- The frame instant for frame `n`, below the last index: discards, serving, refill test (R161, R162, R167). -/
def takeInstant (n : Nat) (s : State) : State :=
  let t := serveOrSilence n (dropLate n s)
  let t := { t with audio := { t.audio with play := some n, next := n + 1 } }
  if t.audio.queue = s.audio.queue then t else refillTest t

/-- The instant past the last frame: the output goes to 0 and no frame instant follows (R160). -/
def endFrames (s : State) : State :=
  { s with audio := { s.audio with next := frameEnd, outLeft := 0, outRight := 0, decay := none, underrun := false } }

/-- The frame instant for the highest frame whose instant is reached (R160). -/
def frameInstant (c : ConfigRecord) (tau : Int) (s : State) : State :=
  let n := highestFrame c tau
  if frameEnd ≤ n then endFrames s else takeInstant n s

/-! ### Gain and requests (R163 to R168) -/

/-- The applied gain takes the present gain of the record (R164 to R166). -/
def applyGain (s : State) : State :=
  { s with audio := { s.audio with applied := s.audio.gain.present (showTime s) } }

/-- A LEVEL action (R164). -/
def audioLevel (gain len : Nat) (anchor : Int) (s : State) : State :=
  if takesShowActions s then
    applyGain { s with audio := { s.audio with gain := s.audio.gain.fadeTo (showTime s) gain anchor len } }
  else s

/-- AUDIO CODA and AUDIO HALT: the gain fades to 0 from the applied gain (R166). At a halt with no GO record there is no show time to be
the anchor; DESIGN CHOICE: it is 0 (notes/assumptions/40.md). -/
def audioFadeOut (len : Nat) (s : State) : State :=
  applyGain { s with audio := { s.audio with gain := ⟨s.audio.applied, 0, showNow s, len⟩ } }

/-- Entry to COUNTDOWN, or to RUNNING by late join (R160, R168). -/
def audioStart (s : State) : State :=
  { s with audio := { s.audio with next := 0, play := none, underrunCount := 0, skipCount := 0 } }

/-- Entry to IDLE or ARMED: the output goes to 0, decay and both episodes end (R163). -/
def audioQuiet (s : State) : State :=
  { s with audio := { s.audio with outLeft := 0, outRight := 0, decay := none, underrun := false, skip := false } }

/-- The gain a gain update gives: the present gain; but "In HALTED the audio gain never rises", also where a backward step of site
time has made less of the fade elapse (R165, R166; DEDUCED, notes/assumptions/35.md). -/
def updatedGain (s : State) : Nat :=
  let present := s.audio.gain.present (showTime s)
  if s.ctl.state = .halted then min s.audio.applied present else present

/-- A block under reception is discarded with result STATE; a command trimmed entirely holds no block (R157, R159). -/
def discardReception (s : State) : State :=
  match s.audio.reception with
  | none => s
  | some r =>
    if r.keep < r.first + r.count then
      settle 0x50 .state none { s with audio := { s.audio with reception := none } }
    else s

/-- AUDIO CLEAR (R168): the underrun and skip counts are kept. -/
def audioClear (s : State) : State :=
  let s := discardReception s
  { s with audio := { s.audio with
      ring := []
      queue := []
      writePos := 0
      next := 0
      play := none
      outLeft := 0
      outRight := 0
      gain := .zero
      applied := 0
      decay := none
      underrun := false
      skip := false
      refillHeld := true } }

/-! ### Commands -/

/-- The gain update is due (R165). -/
def gainDue (s : State) : Bool := s.config.isSome && reached s.clock.site s.audio.nextGain

/-- AUDIO: start frame and count are judged, the BUSY test first (R156 to R158, R186). -/
def execAudio (start : BitVec 32) (count : Word16) (s : State) : Host.Outcome State Fault Refusal :=
  .next (unlessDeaf s fun s =>
    if s.score.status = .checking then settle 0x50 .busy none s
    else
      match judgeAudio start.toNat count.toNat s with
      | .inl t => t
      | .inr r => settle 0x50 r none s)

/-- AUDIO_END: chip select ends an AUDIO command that was taken, and its block enters the queue (R159); the frame ends. -/
def execAudioEnd (bytes : List Byte) (s : State) : Host.Outcome State Fault Refusal :=
  .next (endFrame (unlessDeaf s fun s =>
    match s.audio.reception with
    | none => s
    | some r => settle 0x50 .ok none (enterBlock r bytes s)))

/-- GAIN_UPDATE: the applied gain takes the present gain, and in HALTED never rises (R165, R166). -/
def execGainUpdate (s : State) : Host.Outcome State Fault Refusal :=
  .next (unlessHeld s fun s =>
    if gainDue s then
      { s with audio := { s.audio with applied := updatedGain s, nextGain := multipleAfter s.clock.site 10000 } }
    else s)

/-- FRAME_INSTANT (R160 to R162), the instant past the last frame among them (R160). -/
def execFrameInstant (s : State) : Host.Outcome State Fault Refusal :=
  .next (unlessHeld s fun s =>
    match s.config, showTime s with
    | some c, some tau => if frameDue s then frameInstant c tau s else s
    | _, _ => s)

end Sys2Proof.Machine
end

