-- ==== Sys2Proof/Machine/Frame.lean ====
section
/-! DEFINITION. Frames of the peer line: layout, check, and the judgement of a received frame. -/

namespace Sys2Proof.Machine

/-- One bit of the check (R44): generator polynomial 0x1021, most significant bit first. -/
def crcBit (reg : Word16) : Word16 :=
  if reg.getLsbD 15 then (reg <<< 1) ^^^ 0x1021 else reg <<< 1

/-- One byte of the check (R44). -/
def crcByte (reg : Word16) (b : Byte) : Word16 :=
  let r := reg ^^^ (b.setWidth 16 <<< 8)
  crcBit (crcBit (crcBit (crcBit (crcBit (crcBit (crcBit (crcBit r)))))))

/-- The check over the bytes from the sender through the last payload byte; the register starts at 0xFFFF (R44). -/
def frameCheck (bytes : List Byte) : Word16 := bytes.foldl crcByte 0xFFFF

/-- The kind byte of a payload (R43). -/
def payloadKind : Payload → Byte
  | .beacon _ => 0x10
  | .go _ => 0x21
  | .stop _ => 0x22
  | .halt _ => 0x30
  | .startAsk _ => 0x41

/-- The payload size fixed for a kind byte, none where the byte is no kind (R43). -/
def kindSize (k : Byte) : Option Nat :=
  if k = 0x10 then some 23
  else if k = 0x21 then some 10
  else if k = 0x22 then some 8
  else if k = 0x30 then some 1
  else if k = 0x41 then some 1
  else none

/-- The payload bytes, each field most significant byte first (R42, R43). -/
def payloadBytes : Payload → List Byte
  | .beacon b =>
    be 6 b.stamp.toNat ++ [b.state, b.flags] ++ be 2 b.showId.toNat ++ be 2 b.checksum.toNat ++
      be 6 b.showStart.toNat ++ be 2 b.demand.toNat ++ be 2 b.wind.toNat ++ [b.interval]
  | .go g => be 2 g.showId.toNat ++ be 2 g.checksum.toNat ++ be 6 g.start.toNat
  | .stop f => be 2 f.showId.toNat ++ be 6 f.codaTime.toNat
  | .halt inputs => [inputs]
  | .startAsk pump => [pump]

/-- The bytes from the sender through the last payload byte: what the check covers. -/
def frameBody (sender seq : Byte) (p : Payload) : List Byte :=
  [sender, payloadKind p, seq, BitVec.ofNat 8 (payloadBytes p).length] ++ payloadBytes p

/-- A whole frame as driven on the line (R43). -/
def frameBytes (sender seq : Byte) (p : Payload) : List Byte :=
  0xC3 :: frameBody sender seq p ++ be 2 (frameCheck (frameBody sender seq p)).toNat

/-- The ten bit times of a byte (R42): a dominant start bit, eight data bits with the most significant first, a recessive stop bit.
Recessive is true, a 1. -/
def byteBits (b : Byte) : List Bool := false :: (List.range 8).map (fun i => b.getLsbD (7 - i)) ++ [true]

/-- The bit times of the bytes of a frame, which follow one another with no gap (R42). -/
def frameBits (bytes : List Byte) : List Bool := bytes.flatMap byteBits

/-- A field of a payload, most significant byte first. -/
def beField (bytes : List Byte) (i n : Nat) : Nat := beVal ((bytes.drop i).take n)

/-- Byte `i` of a payload. -/
def payloadByte (bytes : List Byte) (i : Nat) : Byte := bytes[i]?.getD 0

/-- The payload that a kind byte and its payload bytes carry (R43); the values are not checked. -/
def parsePayload (k : Byte) (p : List Byte) : Option Payload :=
  if k = 0x10 then
    some (.beacon
      { stamp := BitVec.ofNat 48 (beField p 0 6), state := payloadByte p 6, flags := payloadByte p 7
        showId := BitVec.ofNat 16 (beField p 8 2), checksum := BitVec.ofNat 16 (beField p 10 2)
        showStart := BitVec.ofNat 48 (beField p 12 6), demand := BitVec.ofNat 16 (beField p 18 2)
        wind := BitVec.ofNat 16 (beField p 20 2), interval := payloadByte p 22 })
  else if k = 0x21 then
    some (.go ⟨BitVec.ofNat 16 (beField p 0 2), BitVec.ofNat 16 (beField p 2 2), BitVec.ofNat 48 (beField p 4 6)⟩)
  else if k = 0x22 then some (.stop ⟨BitVec.ofNat 16 (beField p 0 2), BitVec.ofNat 48 (beField p 2 6)⟩)
  else if k = 0x30 then some (.halt (payloadByte p 0))
  else if k = 0x41 then some (.startAsk (payloadByte p 0))
  else none

/-- The sender byte is a node number (R43). -/
def senderOk (b : Byte) : Bool := (nodeIndex b).isSome

/-- Judges a frame whose delimiter, sender, kind and length bytes have passed, given the bytes after the delimiter (R53). -/
def judgeBody (sender k seq len : Byte) (rest : List Byte) : Verdict :=
  let n := len.toNat
  if rest.length < n + 2 then .truncated
  else
    let payload := rest.take n
    if frameCheck ([sender, k, seq, len] ++ payload) ≠ BitVec.ofNat 16 (beField rest n 2) then .checkError
    else if kindSize k ≠ some n then .formatLength
    else
      match parsePayload k payload with
      | none => .formatEarly
      | some p => .intact sender seq p

/-- Judges the bytes gathered since a start bit, by the first failure in the order of R53. Bytes that end before the frame
does were cut by a dominant stop bit or by an idle line: a truncated frame. R53 does not say when a byte that is wrong in form and
also has a dominant stop bit is found wrong; such a byte is not gathered, so its frame is truncated, not a format error
(DESIGN CHOICE, notes/assumptions/32.md). -/
def judge (bytes : List Byte) : Verdict :=
  match bytes with
  | [] => .truncated
  | d :: rest =>
    if d ≠ 0xC3 then .formatEarly
    else
      match rest with
      | [] => .truncated
      | sender :: rest =>
        if !senderOk sender then .formatEarly
        else
          match rest with
          | [] => .truncated
          | k :: rest =>
            if kindSize k = none then .formatEarly
            else
              match rest with
              | [] => .truncated
              | [_] => .truncated
              | seq :: len :: rest => if len.toNat > 32 then .formatEarly else judgeBody sender k seq len rest

end Sys2Proof.Machine
end

