-- ==== Sys2Proof/Machine/Wind.lean ====
section
/-! DEFINITION. Wind monitor: windows, node wind, site wind, factor and applied factor. -/

namespace Sys2Proof.Machine

/-- The winds of the sources of R130: the node's own, and each FRESH peer that flags wind present, at most 600. -/
def windSources (s : State) : List Nat :=
  s.wind.node.toList ++
    ((List.finRange 32).filter fun i => isPeer s i && s.peers[i].presence = .fresh && s.peers[i].windFlag).map
      fun i => min 600 s.peers[i].wind.toNat

/-- The site wind: the largest source, or the fallback wind where there is none (R130). -/
def siteWind (c : ConfigRecord) (s : State) : Nat :=
  if (windSources s).isEmpty then c.fallback else (windSources s).foldl max 0

/-- The factor f of a site wind, by band (R132). -/
def windFactor (c : ConfigRecord) (w : Nat) : Nat :=
  if w ≤ c.wLow then 1024
  else if w < c.wHigh then 1024 - (1024 - c.fMin) * (w - c.wLow) / (c.wHigh - c.wLow)
  else if w < c.wCut then c.fMin
  else 0

/-- Recomputes W and f, and lets the applied factor fall at once (R131, R133). The monitor is inactive in STANDBY. -/
def recomputeWind (s : State) : State :=
  match s.config with
  | none => s
  | some c =>
    let w := siteWind c s
    let f := windFactor c w
    { s with wind := { s.wind with site := w, factor := f, applied := min s.wind.applied f } }

/-- The applied factor's update at each pump period: min(f, f_applied + F_rise) (R133). -/
def riseWind (c : ConfigRecord) (s : State) : State :=
  { s with wind := { s.wind with applied := min s.wind.factor (s.wind.applied + c.fRise) } }

/-- The speed of a whole window with `p` pulses (R128). -/
def windowSpeed (k p : Nat) : Nat := min 600 (p * k / 1000)

/-- A history with a new entry: at most 8, the oldest removed (R128). -/
def pushWindow (history : List Nat) (speed : Nat) : List Nat :=
  (history ++ [speed]).drop (history.length + 1 - 8)

/-- The mean of the newest `n` entries, or of those there are; absent where there are none (R129). -/
def nodeWindOf (n : Nat) (history : List Nat) : Option Nat :=
  let m := min n history.length
  if m = 0 then none else some ((history.drop (history.length - m)).sum / m)

/-- A multiple of 1,000,000 µs is reached in a node with a sensor (R127). -/
def windowDue (s : State) : Bool :=
  match s.config with
  | none => false
  | some c => c.windScale ≠ 0 && reached s.clock.site s.wind.next

/-- Opens the next window: COUNTING from the multiple just reached, count 0 (R127). -/
def openWindow (s : State) : State :=
  { s with wind := { s.wind with
      window := some (multipleBelow s.clock.site 1000000)
      count := 0
      next := multipleAfter s.clock.site 1000000 } }

/-- A whole window enters the history, the node wind is recomputed, then W and f (R128, R129, R131). -/
def enterWindow (c : ConfigRecord) (s : State) : State :=
  let history := pushWindow s.wind.history (windowSpeed c.windScale s.wind.count)
  recomputeWind { s with wind := { s.wind with history := history, node := nodeWindOf c.depth history } }

/-- The window boundary (R127). -/
def closeWindow (c : ConfigRecord) (s : State) : State :=
  openWindow (if s.wind.window.isSome then enterWindow c s else s)

/-- A step of site time abandons the window in progress (R127); the next window begins at the next multiple after the
stepped value (notes/assumptions/11.md). -/
def abandonWindow (s : State) : State :=
  { s with wind := { s.wind with
      window := none
      count := 0
      next := multipleAfter s.clock.site 1000000 } }

/-- ANEMOMETER_PULSE: a rising edge adds one to the window's count, which stops at 65,535 (R127). -/
def execAnemometerPulse (s : State) : Host.Outcome State Fault Refusal :=
  .next (unlessHeld s fun s =>
    if s.config.isSome ∧ s.wind.window.isSome then
      { s with wind := { s.wind with count := stopAt 65535 (s.wind.count + 1) } }
    else s)

/-- WINDOW_CLOSE: a multiple of one second closes the window in progress and opens the next (R127 to R129). -/
def execWindowClose (s : State) : Host.Outcome State Fault Refusal :=
  .next (unlessHeld s fun s =>
    match s.config with
    | none => s
    | some c => if windowDue s then closeWindow c s else s)

end Sys2Proof.Machine
end

