-- ==== Sys2Proof/Machine/Peers.lean ====
section
/-! DEFINITION. Peer table: writing a beacon into a record, the own record, and ageing. -/

namespace Sys2Proof.Machine

/-- Replaces one record. -/
def putPeer (i : Fin 32) (p : Peer) (s : State) : State := { s with peers := put s.peers i p }

/-- The fields a record takes from a beacon as carried (R57, R58). -/
def Peer.withBeacon (p : Peer) (b : Beacon) (seq : Byte) (arrival : SiteTime) : Peer :=
  { p with
    presence := .fresh
    state := b.state
    flags := b.flags
    showId := b.showId
    checksum := b.checksum
    showStart := b.showStart
    demand := b.demand
    wind := b.wind
    interval := b.interval
    lastArrival := arrival
    lastSeq := seq
    heard := stopAt 255 (p.heard + 1) }

/-- The missed count after a beacon: it grows by the gap of sequence numbers unless the record was ABSENT (R57). -/
def missedAfter (p : Peer) (seq : Byte) : Nat :=
  if p.presence = .absent then p.missed else stopAt 255 (p.missed + (seq - p.lastSeq - 1).toNat)

/-- Writes an intact beacon into its sender's record; ABSENT to FRESH raises PEER, and a configured node recomputes its
site wind (R57, R131). -/
def recordBeacon (i : Fin 32) (b : Beacon) (seq : Byte) (arrival : SiteTime) (s : State) : State :=
  let p := s.peers[i]
  recomputeWind
    (raiseIf (p.presence = .absent) .peer
      (putPeer i { p.withBeacon b seq arrival with missed := missedAfter p seq } s))

/-- The own record takes a completed beacon's fields as sent, and its heard count increases by one (R58). What follows 255 R58 does not
say; DEDUCED: it stops there, as R57 has it for a beacon heard (notes/assumptions/39.md). -/
def recordOwnBeacon (c : ConfigRecord) (b : Beacon) (seq : Byte) (s : State) : State :=
  putPeer c.own (s.peers[c.own].withBeacon b seq b.stamp) s

/-- Site time has reached the time at which a record becomes ABSENT (R59). -/
def absentReached (s : State) (p : Peer) : Bool :=
  reached s.clock.site (plus p.lastArrival (20 * (intervalUs s : Int)))

/-- Site time has reached the time at which a record becomes STALE (R59). -/
def staleReached (s : State) (p : Peer) : Bool :=
  reached s.clock.site (plus p.lastArrival (3 * (intervalUs s : Int)))

/-- A FRESH peer record becomes STALE now (R59). -/
def staleDue (s : State) (i : Fin 32) : Bool :=
  isPeer s i && s.peers[i].presence = .fresh && staleReached s s.peers[i] && !absentReached s s.peers[i]

/-- A FRESH or STALE peer record becomes ABSENT now (R59). -/
def absentDue (s : State) (i : Fin 32) : Bool :=
  isPeer s i && s.peers[i].presence ≠ .absent && absentReached s s.peers[i]

/-- The record becomes STALE and keeps its fields (R59). -/
def makeStale (i : Fin 32) (s : State) : State := putPeer i { s.peers[i] with presence := .stale } s

/-- The record becomes ABSENT, its fields clear and PEER is raised (R56, R59). -/
def makeAbsent (i : Fin 32) (s : State) : State := raise .peer (putPeer i .cleared s)

/-- The change of presence that is due for one record, if any. -/
def ageRecord (s : State) (i : Fin 32) : State :=
  if absentDue s i then makeAbsent i s else if staleDue s i then makeStale i s else s

/-- Applies the present ageing times to every record (R59, R189 stage 2). -/
def ageAll (s : State) : State := (List.finRange 32).foldl ageRecord s

/-- PEER_STALE (R59): the change of presence is followed by the wind recomputation of R131. -/
def execPeerStale (peer : Fin 32) (s : State) : Host.Outcome State Fault Refusal :=
  .next (unlessHeld s fun s => if staleDue s peer then recomputeWind (makeStale peer s) else s)

/-- PEER_ABSENT (R59): PEER is raised, and R131 recomputes the wind. -/
def execPeerAbsent (peer : Fin 32) (s : State) : Host.Outcome State Fault Refusal :=
  .next (unlessHeld s fun s => if absentDue s peer then recomputeWind (makeAbsent peer s) else s)

end Sys2Proof.Machine
end

