-- ==== Sys2Proof/Machine/Line.lean ====
section
/-! DEFINITION. Line controller: transmit queue, start-slot reports, sending and receiving. -/

namespace Sys2Proof.Machine

/-! ### The start slot's side of a START-ASK (R102, R116 to R118) -/

/-- Sets a channel's stage. -/
def setStage (p : Fin 4) (st : Stage) (s : State) : State :=
  { s with pump := { s.pump with chan := put s.pump.chan p { s.pump.chan[p] with stage := st } } }

/-- Busy-until becomes the latest of the held value and `t` (R117). -/
def extendBusy (t : SiteTime) (s : State) : State :=
  { s with pump := { s.pump with busyUntil := some (match s.pump.busyUntil with
      | none => t
      | some b => later b t) } }

/-- Sets the own ask. -/
def setAsk (a : Ask) (s : State) : State := { s with pump := { s.pump with ask := a } }

/-- The settle time S in µs. -/
def settleUs (s : State) : Int := 1000 * (((s.config.map (·.settle)).getD 0 : Nat) : Int)

/-- The hold window W_hold of 100 ms. -/
def holdWindow : Int := 100000

/-- A channel returns to the head of the start list as WAITING (R116). -/
def returnToHead (p : Fin 4) (s : State) : State :=
  let s := setStage p .waiting s
  { s with pump := { s.pump with startList := p :: s.pump.startList.erase p } }

/-- The completion of the own START-ASK at site time `t`: the hold window opens and the slot is busy for S (R118). -/
def askCompleted (t : SiteTime) (s : State) : State :=
  match s.pump.ask with
  | .queued none => extendBusy (plus t (settleUs s)) (setAsk (.window (plus t holdWindow) none) s)
  | .queued (some p) =>
    extendBusy (plus t (settleUs s)) (setStage p .asked (setAsk (.window (plus t holdWindow) (some p)) s))
  | .none | .window _ _ => s

/-- The drop or withdrawal of the own START-ASK (R118). -/
def askLost (s : State) : State :=
  match s.pump.ask with
  | .queued none => setAsk .none s
  | .queued (some p) => returnToHead p (setAsk .none s)
  | .none | .window _ _ => s

/-! ### Transmit queue (R45 to R47) -/

/-- The class of a frame: HALT 1; GO, STOP 2; START-ASK 3; BEACON 4 (R45). -/
def frameClass : Payload → Nat
  | .halt _ => 1
  | .go _ | .stop _ => 2
  | .startAsk _ => 3
  | .beacon _ => 4

/-- A frame as it joins the queue: attempt count 0 (R45). -/
def freshFrame (p : Payload) : TxFrame := { payload := p, attempts := 0, draw := 0, seq := none, onLine := false }

/-- The queue of the line controller replaced. -/
def setQueue (q : List TxFrame) (s : State) : State := { s with line := { s.line with queue := q } }

/-- A frame joins at the end of its class (R45). -/
def insertFrame (q : List TxFrame) (f : TxFrame) : List TxFrame :=
  let before (g : TxFrame) : Bool := frameClass g.payload ≤ frameClass f.payload
  q.takeWhile before ++ f :: q.dropWhile before

/-- The kinds of which a newer frame replaces the unsent one: BEACON and HALT (R46). -/
def replaceable : Payload → Bool
  | .beacon _ | .halt _ => true
  | .go _ | .stop _ | .startAsk _ => false

/-- `f` is an unsent frame that a new frame with payload `p` replaces (R46). -/
def isReplaced (p : Payload) (f : TxFrame) : Bool :=
  !f.onLine && replaceable p && payloadKind f.payload = payloadKind p

/-- A drop (R46, R50): the drop count, the LINE event, and the report to the pump controller for a START-ASK (R47). -/
def dropFrame (p : Payload) (s : State) : State :=
  let s := raise .line { s with line := { s.line with drops := stopAt 255 (s.line.drops + 1) } }
  match p with
  | .startAsk _ => askLost s
  | .beacon _ | .go _ | .stop _ | .halt _ => s

/-- The frame a full queue drops for a new one: the newest unsent frame of the highest class number, if that is above the
new frame's (R46). The queue stands in class order, so it is the last unsent frame. -/
def victim (p : Payload) (q : List TxFrame) : Option TxFrame :=
  (q.reverse.find? fun f => !f.onLine).filter fun f => frameClass p < frameClass f.payload

/-- Removes the last unsent frame. -/
def eraseLastUnsent (q : List TxFrame) : List TxFrame := (q.reverse.eraseP fun f => !f.onLine).reverse

/-- Queues a frame: replacement first, then room, then the drop of R46. -/
def enqueue (p : Payload) (s : State) : State :=
  let q := s.line.queue
  if q.any (isReplaced p) then setQueue (q.map fun f => if isReplaced p f then freshFrame p else f) s
  else if q.length < 8 then setQueue (insertFrame q (freshFrame p)) s
  else
    match victim p q with
    | some v => dropFrame v.payload (setQueue (insertFrame (eraseLastUnsent q) (freshFrame p)) s)
    | none => dropFrame p s

/-- A block asks for a frame: while CLASH is set the request is discarded, which is no drop (R41, R51). -/
def requestFrame (p : Payload) (s : State) : State := if s.clock.clash then s else enqueue p s

/-- The pump controller asks for a START-ASK: while CLASH is set it takes the request as a completion at that moment
(R121). -/
def requestAsk (p : Fin 4) (s : State) : State :=
  if s.clock.clash then askCompleted s.clock.site s else enqueue (.startAsk (BitVec.ofNat 8 p)) s

/-- WITHDRAW SHOW FRAMES: every unsent GO and STOP leaves the queue (R47). -/
def withdrawShowFrames (s : State) : State :=
  setQueue (s.line.queue.filter fun f => f.onLine || frameClass f.payload ≠ 2) s

/-- An unsent START-ASK of the node. -/
def isUnsentAsk (f : TxFrame) : Bool := !f.onLine && frameClass f.payload = 3

/-- An unsent START-ASK is withdrawn on an ask heard, and the pump controller is told (R47). -/
def withdrawAsk (s : State) : State :=
  if s.line.queue.any isUnsentAsk then
    askLost (setQueue (s.line.queue.filter fun f => !isUnsentAsk f) s)
  else s

/-! ### The node's own beacon (R23, R29, R125, R129) -/

/-- The show id and checksum a beacon carries (R23). -/
def beaconShow (s : State) : Word16 × Word16 :=
  match s.ctl.go with
  | some g => (g.showId, g.checksum)
  | none => if s.score.status = .valid then (s.score.showId, s.score.checksum) else (0, 0)

/-- The beacon of the node, its fields taken now; the transmit stamp is written at each attempt (R29). -/
def ownBeacon (c : ConfigRecord) (s : State) : Beacon where
  stamp := 0
  state := BitVec.ofNat 8 s.ctl.state.code
  flags := beaconFlags s
  showId := (beaconShow s).1
  checksum := (beaconShow s).2
  showStart := if s.ctl.state.inShow then (s.ctl.go.map (·.start)).getD 0 else 0
  demand := BitVec.ofNat 16 s.pump.demand
  wind := BitVec.ofNat 16 (s.wind.node.getD 0)
  interval := BitVec.ofNat 8 c.interval

/-! ### Sending (R48 to R50) -/

/-- A frame of the queue whose attempt is on the line (R45). -/
def onLineFrame (s : State) : Option TxFrame := s.line.queue.find? (·.onLine)

/-- The gap before a frame's attempt: 10 bit times for HALT, 20 for every other kind (R48). -/
def frameGap : Payload → Nat
  | .halt _ => 10
  | .go _ | .stop _ | .startAsk _ | .beacon _ => 20

/-- The head frame's wait has ended: nothing is in transmission, and the line has been idle for its gap plus 40 bit times
for each unit of its draw (R48). -/
def attemptDue (s : State) (idleBits : Nat) : Bool :=
  (onLineFrame s).isNone &&
    match s.line.queue with
    | [] => false
    | f :: _ => decide (frameGap f.payload + 40 * f.draw ≤ idleBits)

/-- The payload of an attempt: a beacon takes the transmit stamp (R29, R49). -/
def stamped (t : SiteTime) : Payload → Payload
  | .beacon b => .beacon { b with stamp := t }
  | other => other

/-- The head frame goes on the line: attempt count, sequence number at the first attempt, transmit stamp (R48, R49). The receiver
gathers it as any other frame (R52). It has left HUNT by then, for the wait is of 10 bit times of idle or more; where both end at one
moment, as for a HALT frame with draw 0, R48 and R52 give no order, and the receiver leaves HUNT first (DESIGN CHOICE,
notes/assumptions/41.md). -/
def startAttempt (s : State) : State :=
  match s.line.queue with
  | [] => s
  | f :: rest =>
    let head : TxFrame :=
      { payload := stamped s.clock.site f.payload, attempts := f.attempts + 1, draw := f.draw
        seq := some (f.seq.getD s.line.seqCounter), onLine := true }
    { s with line := { s.line with
        queue := head :: rest
        seqCounter := if f.seq.isNone then s.line.seqCounter + 1 else s.line.seqCounter
        rx := .receiving
        wire := { s.line.wire with gather := none, out := [] } } }

/-- The levels of the frame on the line that are still to be driven: all of the frame's where none has been (R42, R49). -/
def bitsAhead (s : State) : List Bool :=
  match s.config, onLineFrame s with
  | some c, some f =>
    if s.line.wire.out.isEmpty then frameBits (frameBytes (BitVec.ofNat 8 (nodeNumber c.own)) (f.seq.getD 0) f.payload)
    else s.line.wire.out
  | _, _ => []

/-- The level the node leaves on the line: that of the bit it drives, recessive where it drives none (R42). -/
def drivenLevel (s : State) : Bool := (bitsAhead s).headD true

/-- The report of a completed frame to its block (R49): the own record, or the pump controller. -/
def reportSent (c : ConfigRecord) (f : TxFrame) (s : State) : State :=
  match f.payload with
  | .beacon b => recordOwnBeacon c b (f.seq.getD 0) s
  | .startAsk _ => askCompleted s.clock.site s
  | .go _ | .stop _ | .halt _ => s

/-- The frame on the line leaves the queue, sent whole; the gathered copy is discarded (R49, R52). -/
def completeAttempt (c : ConfigRecord) (f : TxFrame) (s : State) : State :=
  reportSent c f { s with line := { s.line with
    queue := s.line.queue.filter fun g => !g.onLine
    rx := if s.line.rx = .receiving then .ready else s.line.rx
    sent := frameBytes (BitVec.ofNat 8 (nodeNumber c.own)) (f.seq.getD 0) f.payload } }

/-- The range of the draw after `k` failed attempts: 2^min(k, 5) (R50). -/
def drawRange (k : Nat) : Nat := 2 ^ min k 5

/-- A failed attempt (R50): the collision count; then the frame leaves silently if a newer one stands beside it (R46), is
drawn a new wait while its attempt count is below 8, or is dropped. -/
def failAttempt (f : TxFrame) (s : State) : State :=
  let s := { s with line := { s.line with collisions := stopAt 255 (s.line.collisions + 1) } }
  let others := s.line.queue.filter fun g => !g.onLine
  if others.any (isReplaced f.payload) then setQueue others s
  else if f.attempts < 8 then
    let draw := Config.backoffDraw s.draws % drawRange f.attempts
    { setQueue (s.line.queue.map fun g => if g.onLine then { g with onLine := false, draw := draw } else g) s with
      draws := s.draws + 1 }
  else dropFrame f.payload (setQueue others s)

/-- ATTEMPT_START: the head frame's wait ends and its attempt begins (R48, R49). -/
def execAttemptStart (idleBits : Nat) (s : State) : Host.Outcome State Fault Refusal :=
  .next (unlessHeld s fun s => if attemptDue s idleBits then startAttempt s else s)

/-- TRANSMISSION_COMPLETE: the frame on the line was read back whole (R49). -/
def execTransmissionComplete (s : State) : Host.Outcome State Fault Refusal :=
  .next (unlessHeld s fun s =>
    match s.config, onLineFrame s with
    | some c, some f => completeAttempt c f s
    | _, _ => s)

/-- ATTEMPT_FAILED: a bit read back differs from the bit driven (R50). -/
def execAttemptFailed (s : State) : Host.Outcome State Fault Refusal :=
  .next (unlessHeld s fun s =>
    match onLineFrame s with
    | some f => failAttempt f s
    | none => s)

/-! ### Receiving (R52, R53) -/

/-- The receiver state replaced. -/
def setRx (rx : RxState) (s : State) : State := { s with line := { s.line with rx := rx } }

/-- A frame's failure is counted under its own count, and the receiver goes to HUNT or READY (R53). An intact frame is no
failure. -/
def countFailure (v : Verdict) (s : State) : State :=
  match v with
  | .formatEarly => setRx .hunt { s with line := { s.line with format := stopAt 255 (s.line.format + 1) } }
  | .truncated => setRx .hunt { s with line := { s.line with truncated := stopAt 255 (s.line.truncated + 1) } }
  | .checkError => setRx .ready { s with line := { s.line with check := stopAt 255 (s.line.check + 1) } }
  | .formatLength => setRx .ready { s with line := { s.line with format := stopAt 255 (s.line.format + 1) } }
  | .intact _ _ _ => s

/-- An intact frame from `sender` is handed over at its last byte and the receiver returns to READY; in HUNT no frame
begins (R52). A sender outside 1 to 32 is a format error (R53). -/
def receiveFrame (sender : Byte) (s : State) (handOver : Fin 32 → State → State) : State :=
  unlessHeld s fun s =>
    if s.line.rx = .hunt then s
    else
      match nodeIndex sender with
      | none => countFailure .formatEarly s
      | some i => handOver i (setRx .ready s)

/-- FRAME_FAULT: a received frame fails a test of R53, is counted and discarded. -/
def execFrameFault (bytes : List Byte) (s : State) : Host.Outcome State Fault Refusal :=
  .next (unlessHeld s fun s => if s.line.rx = .hunt then s else countFailure (judge bytes) s)

/-- RECEIVER_READY: the line has been idle for 10 bit times in HUNT (R52). -/
def execReceiverReady (idleBits : Nat) (s : State) : Host.Outcome State Fault Refusal :=
  .next (unlessHeld s fun s => if s.line.rx = .hunt ∧ 10 ≤ idleBits then setRx .ready s else s)

end Sys2Proof.Machine
end

