-- ==== Sys2Proof/Machine/Pumps.lean ====
section
/-! DEFINITION. Pump controller: heights, the seven stages of the pump period, the requests, and the hold window. -/

namespace Sys2Proof.Machine

/-- Every channel changed by `f`. -/
def mapChannels (f : Fin 4 → Channel → Channel) (s : State) : State :=
  { s with pump := { s.pump with chan := gen fun p => f p s.pump.chan[p] } }

/-! ### Heights (R104 to R106) -/

/-- A HEIGHT action: the ramp starts from the present height (R104). -/
def pumpHeight (p : Fin 4) (target len : Nat) (anchor : Int) (s : State) : State :=
  let ch := s.pump.chan[p]
  { s with pump := { s.pump with
      chan := put s.pump.chan p { ch with height := ch.height.fadeTo (showTime s) target anchor len } } }

/-- PUMP CODA: each height ramps to 0 over the coda length from its present height (R105). -/
def pumpCoda (len : Nat) (s : State) : State :=
  mapChannels (fun _ ch => { ch with height := ch.height.fadeTo (showTime s) 0 (showNow s) len }) s

/-- PUMP CLEAR: all height ramps cleared to 0 (R105). -/
def pumpClear (s : State) : State := mapChannels (fun _ ch => { ch with height := .zero }) s

/-- PUMP REARM: the fault of every channel is cleared, and nothing else (R124). -/
def pumpRearm (s : State) : State := mapChannels (fun _ ch => { ch with faulted := false, cause := .none }) s

/-- The own ask without its channel, in the phase it had (R115, R116). -/
def vacated : Ask → Ask
  | .none => .none
  | .queued _ => .queued none
  | .window t _ => .window t none

/-- PUMP HALT: d_cmd of every channel 0, the start list emptied, the own ask vacated (R115). -/
def pumpHalt (s : State) : State :=
  let s := mapChannels (fun _ ch =>
    { ch with dCmd := 0, stage := if ch.stage.inList then .off else ch.stage }) s
  { s with pump := { s.pump with startList := [], ask := vacated s.pump.ask } }

/-! ### Stage 1: feedback (R122, R123) -/

/-- The fault a sample shows (R122). -/
def sampleFault (c : PumpConfig) (now : SiteTime) (ch : Channel) (active : Bool) : FaultCause :=
  if ch.stage = .on ∧ active = false then
    match ch.phase with
    | .none => .none
    | .confirming => if reached now (plus ch.runOn (1000 * (c.confirm : Int))) then .noConfirm else .none
    | .confirmed => .lost
  else .none

/-- A channel after its feedback is sampled (R122, R123). -/
def sampled (c : PumpConfig) (now : SiteTime) (active : Bool) (ch : Channel) : Channel :=
  match sampleFault c now ch active with
  | .none =>
    if ch.stage = .on ∧ ch.phase = .confirming ∧ active = true then { ch with phase := .confirmed } else ch
  | cause =>
    { ch with faulted := true, cause := cause, stage := .off, dCmd := 0, dOut := 0, phase := .none }

/-- The channels whose sample faults now. -/
def faultsNow (c : ConfigRecord) (feedback : BitVec 4) (s : State) : List (Fin 4) :=
  (List.finRange 4).filter fun p =>
    sampleFault c.pump[p] s.clock.site s.pump.chan[p] (feedback.getLsbD p) ≠ .none

/-- Stage 1: feedback of each ON channel sampled and tested; each fault raises PUMP FAULT. -/
def stageFeedback (c : ConfigRecord) (feedback : BitVec 4) (s : State) : State :=
  let t := mapChannels (fun p ch => sampled c.pump[p] s.clock.site (feedback.getLsbD p) ch)
    { s with pump := { s.pump with feedback := feedback } }
  (faultsNow c feedback s).foldl (fun s _ => raise .pumpFault s) t

/-! ### Stage 2: height to drive (R106 to R108) -/

/-- The height the wind leaves (R107). -/
def windHeight (c : PumpConfig) (applied h : Nat) : Nat := if c.exposed then h * applied / 1024 else h

/-- The uncapped drive of a height by the lift curve (R108). -/
def liftDrive (lift : Vector Nat 17) (h : Nat) : Nat :=
  if h = 0 then 0
  else if h ≥ 1024 then lift[16]
  else
    let lo := lift[h / 64]?.getD 0
    let hi := lift[h / 64 + 1]?.getD 0
    lo + (hi - lo) * (h % 64) / 64

/-- A channel that is configured and not faulted computes a drive (R100, R123). -/
def drives (c : ConfigRecord) (s : State) (p : Fin 4) : Bool := c.configured p && !s.pump.chan[p].faulted

/-- Stage 2: h_now, h_eff and d_t. -/
def stageHeights (c : ConfigRecord) (s : State) : State :=
  mapChannels (fun p ch =>
    let h := ch.height.present (showTime s)
    let e := if drives c s p then windHeight c.pump[p] s.wind.applied h else 0
    { ch with hNow := h, hEff := e, dT := liftDrive c.pump[p].lift e }) s

/-! ### Stages 3 and 4: power, grant, caps (R109 to R111) -/

/-- P(d) of a channel, in 0.1 kW (R109). -/
def power (rated d : Nat) : Nat := rated * d ^ 3 / 1000000000

/-- The power at d_t of a channel the demand counts: ON or in the start list (R109). -/
def demandOf (c : ConfigRecord) (s : State) (p : Fin 4) : Nat :=
  if drives c s p && s.pump.chan[p].stage ≠ .off then power c.pump[p].rated s.pump.chan[p].dT else 0

/-- The demands of FRESH and STALE peers, each at most 20,000 (R110). -/
def peerDemand (s : State) : Nat :=
  sumOver fun i : Fin 32 =>
    if isPeer s i && s.peers[i].presence ≠ .absent then min 20000 s.peers[i].demand.toNat else 0

/-- The grant (R110). -/
def grantOf (budget demand viewSum : Nat) : Nat :=
  if demand = 0 then 0 else if viewSum ≤ budget then demand else budget * demand / viewSum

/-- Stage 3: own demand, view sum and grant. -/
def stageGrant (c : ConfigRecord) (s : State) : State :=
  let d := sumOver (demandOf c s)
  let v := d + peerDemand s
  { s with pump := { s.pump with demand := d, viewSum := v, grant := grantOf c.budget d v } }

/-- The largest drive from 0 to `d` whose power is at most `cap` (R111). -/
def largestDrive (rated cap : Nat) : Nat → Nat
  | 0 => 0
  | d + 1 => if power rated (d + 1) ≤ cap then d + 1 else largestDrive rated cap d

/-- The capped drive of a channel (R111). -/
def cappedDrive (rated grant demand dT : Nat) : Nat :=
  if demand ≤ grant then dT else largestDrive rated (grant * power rated dT / demand) dT

/-- Stage 4: caps. -/
def stageCaps (c : ConfigRecord) (s : State) : State :=
  mapChannels (fun p ch =>
    { ch with dC := if drives c s p then cappedDrive c.pump[p].rated s.pump.grant s.pump.demand ch.dT else 0 }) s

/-! ### Stage 5: command and start list (R112, R116) -/

/-- The pre-start command of a channel (R112). -/
def preStart (c : ConfigRecord) (s : State) (p : Fin 4) : Nat :=
  let ch := s.pump.chan[p]
  if ch.dC < c.pump[p].dMin || dryCovers s p || !drives c s p || !s.ctl.state.inShow then 0 else ch.dC

/-- A channel's command and its place in the start list (R112, R116). -/
def commandChannel (c : ConfigRecord) (s : State) (p : Fin 4) : State :=
  let ch := s.pump.chan[p]
  let pre := preStart c s p
  match ch.stage with
  | .on => { s with pump := { s.pump with chan := put s.pump.chan p { ch with dCmd := pre } } }
  | .off =>
    if pre = 0 then { s with pump := { s.pump with chan := put s.pump.chan p { ch with dCmd := 0 } } }
    else
      { s with pump := { s.pump with
          chan := put s.pump.chan p { ch with dCmd := 0, stage := .waiting }
          startList := s.pump.startList ++ [p] } }
  | .waiting | .asking | .asked =>
    if pre = 0 then
      { s with pump := { s.pump with
          chan := put s.pump.chan p { ch with dCmd := 0, stage := .off }
          startList := s.pump.startList.erase p
          ask := if ch.stage = .waiting then s.pump.ask else vacated s.pump.ask } }
    else { s with pump := { s.pump with chan := put s.pump.chan p { ch with dCmd := 0 } } }

/-- Stage 5: channels in increasing number. -/
def stageCommands (c : ConfigRecord) (s : State) : State := (List.finRange 4).foldl (commandChannel c) s

/-! ### Stage 6: the ask (R118) -/

/-- Stage 6: with the slot free, a WAITING head asks for a START-ASK. -/
def stageAsk (s : State) : State :=
  match s.pump.startList with
  | [] => s
  | p :: _ =>
    if !slotBusy s && s.pump.chan[p].stage = .waiting then
      requestAsk p (setAsk (.queued (some p)) (setStage p .asking s))
    else s

/-! ### Stage 7: slew and run (R113, R114) -/

/-- The new d_out of a channel (R113). -/
def slewed (c : PumpConfig) (halted : Bool) (ch : Channel) : Nat :=
  if ch.stage = .on then
    if ch.dCmd > ch.dOut then min ch.dCmd (ch.dOut + c.rampUp)
    else max ch.dCmd (ch.dOut - if halted then c.haltRamp else c.rampDown)
  else 0

/-- A channel after stage 7: an ON channel at 0 with command 0 leaves ON (R114); the lamps see its run output from here (R144). -/
def settled (c : PumpConfig) (halted : Bool) (ch : Channel) : Channel :=
  let d := slewed c halted ch
  if ch.stage = .on ∧ ch.dCmd = 0 ∧ d = 0 then { ch with dOut := 0, stage := .off, phase := .none, ranAtPeriod := false }
  else { ch with dOut := d, ranAtPeriod := ch.runOutput }

/-- Stage 7: slew of d_out; run outputs turned off. -/
def stageSlew (c : ConfigRecord) (s : State) : State :=
  mapChannels (fun p ch => settled c.pump[p] (s.ctl.state = .halted) ch) s

/-- The pump period: the applied wind factor, the seven stages in order, then the valve groups whose pump has stopped
(R94, R103, R133). -/
def pumpStages (c : ConfigRecord) (feedback : BitVec 4) (s : State) : State :=
  closeStopped <| stageSlew c <| stageAsk <| stageCommands c <| stageCaps c <| stageGrant c <| stageHeights c <|
    stageFeedback c feedback <| riseWind c s

/-- The pump period is due (R103). -/
def pumpDue (s : State) : Bool := s.config.isSome && reached s.clock.site s.pump.next

/-! ### The hold window (R119, R120) -/

/-- The own hold window has ended (R120). -/
def windowEndDue (s : State) : Bool :=
  match s.pump.ask with
  | .window t _ => reached s.clock.site t
  | .none | .queued _ => false

/-- A channel is granted: it leaves the start list and its run output turns on (R120). The lamps see that after its next pump period
(R144). -/
def grantChannel (p : Fin 4) (s : State) : State :=
  let confirm := ((s.config.map fun c => c.pump[p].confirm).getD 0)
  { s with pump := { s.pump with
      startList := s.pump.startList.erase p
      chan := put s.pump.chan p { s.pump.chan[p] with
        stage := .on
        dOut := 0
        dCmd := 0
        runOn := s.clock.site
        phase := if confirm = 0 then .none else .confirming } } }

/-- The hold window ends: any channel in it is granted, a vacant window grants nothing (R120). -/
def endWindow (s : State) : State :=
  match s.pump.ask with
  | .window _ (some p) => grantChannel p (setAsk .none s)
  | .window _ none => setAsk .none s
  | .none | .queued _ => s

/-- A START-ASK heard (R119): last ask heard, busy-until, and the deferral of a window to a lower number. -/
def askHeard (c : ConfigRecord) (sender : Fin 32) (pumpNo : Byte) (arrival : SiteTime) (s : State) : State :=
  let s := extendBusy (plus arrival (settleUs s))
    { s with pump := { s.pump with lastAsk := some ⟨BitVec.ofNat 8 (nodeNumber sender), pumpNo, arrival⟩ } }
  match s.pump.ask with
  | .window _ (some p) => if sender < c.own then returnToHead p (setAsk .none s) else s
  | .window _ none | .none | .queued _ => s

/-- HOLD_WINDOW_END (R120). -/
def execHoldWindowEnd (s : State) : Host.Outcome State Fault Refusal :=
  .next (unlessHeld s fun s => if windowEndDue s then endWindow s else s)

/-- START_ASK_RECEIVED: the withdrawal test first, then, out of STANDBY, the pump controller (R47, R54, R119). -/
def execStartAskReceived (sender pumpNo : Byte) (arrival : SiteTime) (s : State) : Host.Outcome State Fault Refusal :=
  .next (receiveFrame sender s fun i s =>
    match s.config with
    | none => withdrawAsk s
    | some c => askHeard c i pumpNo arrival (withdrawAsk s))

end Sys2Proof.Machine
end

