-- ==== Sys2Proof/Machine/Replies.lean ====
section
/-! DEFINITION. Replies of the read commands, byte by byte (R188, R191). -/

namespace Sys2Proof.Machine

/-- Result codes (R187). -/
def Result.code : Result → Byte
  | .ok => 0
  | .state => 1
  | .param => 2
  | .order => 3
  | .space => 4
  | .busy => 5
  | .incomplete => 6
  | .lock => 7
  | .halt => 8
  | .clash => 9

/-- Reset cause codes (R191). -/
def ResetCause.code : ResetCause → Byte
  | .power => 1
  | .pin => 2
  | .soft => 3

/-- Score status codes (R191). -/
def ScoreStatus.code : ScoreStatus → Byte
  | .none => 0
  | .loading => 1
  | .failed => 2
  | .checking => 3
  | .valid => 4

/-- Show result codes (R191). -/
def ResultKind.code : ResultKind → Byte
  | .none => 0
  | .complete => 1
  | .stopped => 2
  | .halted => 3
  | .missedStart => 4

/-- Presence codes (R188). -/
def Presence.code : Presence → Byte
  | .absent => 0
  | .fresh => 1
  | .stale => 2

/-- Stage codes (R188). -/
def Stage.code : Stage → Byte
  | .off => 0
  | .waiting => 1
  | .asking => 2
  | .asked => 3
  | .on => 4

/-- Feedback phase codes (R188). -/
def Feedback.code : Feedback → Byte
  | .none => 0
  | .confirming => 1
  | .confirmed => 2

/-- Fault cause codes (R188). -/
def FaultCause.code : FaultCause → Byte
  | .none => 0
  | .noConfirm => 1
  | .lost => 2

/-- A one-byte number with 255 for none. -/
def byteOr255 (n : Option Nat) : List Byte := le 1 (n.getD 255)

/-- A site time in 6 bytes, all bytes 255 where it is absent (R188). -/
def timeOr255 (t : Option SiteTime) : List Byte :=
  match t with
  | some t => le 6 t.toNat
  | none => List.replicate 6 255

/-- IDENT: vendor 0x6B, part 0x40, revision 0x03 (R188). -/
def identReply : List Byte := [0x6B, 0x40, 0x03]

/-- The status record (R191), 68 bytes. -/
def statusReply (s : State) : List Byte :=
  [BitVec.ofNat 8 s.ctl.state.code, statusFlags s, s.port.cause.code, s.port.lastResult.code] ++
  le 2 (s.port.failIndex.getD 65535) ++
  [s.port.lastCommand] ++
  byteOr255 (topEvent s.events) ++
  le 6 s.clock.site.toNat ++
  leInt 6 (showNow s) ++
  le 6 ((s.ctl.go.map GoRecord.start).getD 0).toNat ++
  [s.score.status.code] ++
  le 2 s.score.showId.toNat ++
  le 2 s.score.checksum.toNat ++
  le 2 s.cue.pointer ++
  le 1 s.cue.queue.length ++
  le 2 s.cue.lateCount ++
  le 1 s.cue.lastMark ++
  le 4 (s.audio.play.getD 4294967295) ++
  le 2 (ringFill s.audio) ++
  le 1 s.audio.queue.length ++
  le 2 s.audio.underrunCount ++
  le 4 s.audio.skipCount ++
  le 2 s.wind.site ++
  le 2 s.wind.applied ++
  le 2 s.pump.demand ++
  le 2 s.pump.grant ++
  [stableSet s, s.ctl.result.kind.code] ++
  le 2 s.ctl.result.showId.toNat ++
  leInt 6 s.ctl.result.endTime

/-- EVENTS: pending, overrun and masked sets, and the top event (R181, R188). -/
def eventsReply (s : State) : List Byte :=
  le 2 s.events.pending.toNat ++ le 2 s.events.overrun.toNat ++ le 2 s.events.masked.toNat ++
    byteOr255 (topEvent s.events)

/-- The four bytes of a last offset: its value where it fits a signed 32-bit field, else a free value
(notes/assumptions/8.md). -/
def offsetBytes (e : Int) : List Byte :=
  if -2147483648 ≤ e ∧ e ≤ 2147483647 then leInt 4 e else le 4 (Config.wideOffset e).toNat

/-- One peer record of the PEERS reply, 32 bytes (R188). -/
def peerReply (p : Peer) : List Byte :=
  [p.presence.code, p.state, p.flags] ++
  le 2 p.showId.toNat ++
  le 2 p.checksum.toNat ++
  le 6 p.showStart.toNat ++
  le 2 p.demand.toNat ++
  le 2 p.wind.toNat ++
  [p.interval] ++
  le 6 p.lastArrival.toNat ++
  [p.lastSeq] ++
  offsetBytes p.lastOffset ++
  le 1 p.heard ++
  le 1 p.missed ++
  le 1 p.outliers

/-- PEERS: 32 records in node-number order, the five line counts, last halt heard (R55, R188). -/
def peersReply (s : State) : List Byte :=
  s.peers.toList.flatMap peerReply ++
  le 1 s.line.format ++
  le 1 s.line.truncated ++
  le 1 s.line.check ++
  le 1 s.line.collisions ++
  le 1 s.line.drops ++
  match s.line.lastHalt with
  | none => [0, 0]
  | some (sender, inputs) => [sender, inputs]

/-- The phase, channel and window end of the own ask (R188). -/
def askReply (a : Ask) : List Byte :=
  match a with
  | .none => [0, 255] ++ timeOr255 none
  | .queued ch => [1] ++ byteOr255 (ch.map (·.val)) ++ timeOr255 none
  | .window t ch => [2] ++ byteOr255 (ch.map (·.val)) ++ timeOr255 (some t)

/-- Last ask heard: all bytes 255 while it is absent (R188). -/
def heardReply (h : Option AskHeard) : List Byte :=
  match h with
  | none => List.replicate 8 255
  | some a => [a.sender, a.pump] ++ le 6 a.arrival.toNat

/-- The start list: channel numbers head first, 255 in each unused place (R188). -/
def startListReply (l : List (Fin 4)) : List Byte :=
  (List.range 4).flatMap fun i => byteOr255 ((l[i]?).map (·.val))

/-- PUMP: one channel record and the node's start-slot state, 68 bytes (R125, R188). -/
def pumpReply (s : State) (p : Fin 4) : List Byte :=
  let ch := s.pump.chan[p]
  [boolByte ((s.config.map fun c => c.configured p).getD false)] ++
  le 2 ch.height.start ++
  le 2 ch.height.target ++
  leInt 6 ch.height.anchor ++
  le 2 ch.height.len ++
  le 2 ch.hNow ++
  le 2 ch.hEff ++
  le 2 ch.dT ++
  le 2 ch.dC ++
  le 2 ch.dCmd ++
  le 2 ch.dOut ++
  [ch.stage.code, boolByte ch.runOutput, ch.phase.code] ++
  le 6 ch.runOn.toNat ++
  [boolByte ch.faulted, ch.cause.code] ++
  le 4 s.pump.viewSum ++
  le 2 s.pump.grant ++
  startListReply s.pump.startList ++
  askReply s.pump.ask ++
  timeOr255 s.pump.busyUntil ++
  heardReply s.pump.lastAsk

/-- The reply of a refused read: bytes 0x00 (R188). -/
def refusedReply (n : Nat) : List Byte := List.replicate n 0

end Sys2Proof.Machine
end

