-- ==== Sys2Proof/Machine/Resets.lean ====
section
/-! DEFINITION. Resets: power-on, pin, soft, and leaving a reset. -/

namespace Sys2Proof.Machine

/-- The safety inputs after a reset: the levels of the pins are the outside's and stay (R172). -/
def resetInputs (s : State) : Vector SafetyInput 8 := gen fun i => { SafetyInput.reset with pin := s.safety[i].pin }

/-- A power-on or pin reset: every block at its reset value and every output at once at its own, the part held in reset
(R1, R192 to R194). A command frame in progress is abandoned. What is no state of the part stays: the queue of commands, the
levels of input pins, the count of free values. -/
def hardReset (cause : ResetCause) (s : State) : State :=
  { State.reset with
    pending := s.pending
    port := { HostPort.reset cause true with frame := abandonedFrame s }
    safety := resetInputs s
    pump := { PumpController.reset with feedback := s.pump.feedback }
    draws := s.draws }

/-- Score memory after a soft reset: kept; VALID stays VALID, any other status becomes NONE; not frozen (R61, R69). -/
def softScore (sc : Score) : Score :=
  { sc with status := if sc.status = .valid then .valid else .none, frozen := false, checkAge := 0 }

/-- A soft reset: site time, score memory and the event mask are kept (R24, R61, R178, R194); the part is not held, and the bytes
after SOFT RESET in its own frame are ignored. The idle time of the line is the line's and runs on (R42, R52; DEDUCED,
notes/assumptions/42.md). -/
def softReset (s : State) : State :=
  { hardReset .soft s with
    port := { HostPort.reset .soft false with frame := abandonedFrame s }
    clock := { Clock.reset with site := s.clock.site }
    line := { LineController.reset with wire := { Wire.reset with idle := s.line.wire.idle } }
    score := softScore s.score
    events := { EventUnit.reset with masked := s.events.masked } }

/-- POWER_ON_RESET: the supply falls below its threshold (R192). -/
def execPowerOnReset (s : State) : Host.Outcome State Fault Refusal := .next (hardReset .power s)

/-- PIN_RESET: NRST falls (R192). -/
def execPinReset (s : State) : Host.Outcome State Fault Refusal := .next (hardReset .pin s)

/-- RESET_EXIT: the part leaves a power-on or pin reset, and site time runs from 0 in STANDBY (R25, R192). A frame whose NCS fell
before or during the reset stays ignored to its end (R194). -/
def execResetExit (s : State) : Host.Outcome State Fault Refusal :=
  .next { s with port := { s.port with held := false } }

/-- SOFT_RESET: taken in every state, during a checksum computation too (R186, R192). -/
def execSoftReset (s : State) : Host.Outcome State Fault Refusal := .next (unlessDeaf s softReset)

end Sys2Proof.Machine
end

