-- ==== Sys2Proof/Machine/Show.lean ====
section
/-! DEFINITION. Show controller: its transitions, the requests each issues, the hand-over of actions, and the seek. -/

namespace Sys2Proof.Machine

/-! ### Fields -/

/-- The show controller replaced. -/
def setCtl (ctl : Controller) (s : State) : State := { s with ctl := ctl }

/-- The show state replaced, nothing else. -/
def setShowState (st : ShowState) (s : State) : State := setCtl { s.ctl with state := st } s

/-- Writes the show result record (R3). -/
def writeResult (kind : ResultKind) (id : Word16) (t : Int) (s : State) : State :=
  setCtl { s.ctl with result := ⟨kind, id, t⟩ } s

/-- The show id of the GO record. -/
def goShowId (s : State) : Word16 := (s.ctl.go.map (·.showId)).getD 0

/-- The GO record removed, and with it the coda fields (R2). -/
def dropGo (s : State) : State :=
  setCtl { s.ctl with go := none, pendingCoda := none, codaDeadline := none, codaCause := none, codaTested := false } s

/-- The coda fields dropped, the GO record kept (R21). -/
def dropCoda (s : State) : State :=
  setCtl { s.ctl with pendingCoda := none, codaDeadline := none, codaCause := none, codaTested := false } s

/-- FREEZE SCORE and THAW SCORE (R61). -/
def setFrozen (b : Bool) (s : State) : State := { s with score := { s.score with frozen := b } }

/-! ### Entering a show (R8, R10, R13) -/

/-- Entry to COUNTDOWN with a GO record: CUE START, the valve groups follow, next frame is 0 (R8, R10, R91, R160). -/
def enterCountdown (g : GoRecord) (s : State) : State :=
  evaluateLamps <| cueStart <| audioStart <| modesFollow <| setShowState .countdown <| setCtl { s.ctl with go := some g } s

/-- COUNTDOWN becomes RUNNING; no request is issued (R12). -/
def enterRunning (s : State) : State := raise .state (evaluateLamps (setShowState .running s))

/-! ### Coda (R17 to R19) -/

/-- The configured coda length, in ms. -/
def codaLength (s : State) : Nat := (s.config.map (·.codaLength)).getD 0

/-- Entry to CODA (R18): its coda fields, and CUE STOP, PUMP CODA, LAMP CODA, AUDIO CODA. -/
def enterCoda (cause : CodaCause) (s : State) : State :=
  let len := codaLength s
  let s := setCtl
    { s.ctl with
      state := .coda
      pendingCoda := none
      codaDeadline := some (plus s.clock.site (1000 * (len : Int)))
      codaCause := some cause
      codaTested := false } s
  raise .state <| evaluateLamps <| audioFadeOut len <| lampCoda len <| pumpCoda len <| cueStop s

/-- The END action (R17): CODA from RUNNING, or from COUNTDOWN by way of RUNNING; ignored in every other state. -/
def fireEnd (s : State) : State :=
  match s.ctl.state with
  | .running => enterCoda .endCue s
  | .countdown => enterCoda .endCue (enterRunning s)
  | .standby | .idle | .armed | .coda | .halted => s

/-- The coda is complete: the deadline is reached and every pump is stopped (R19). -/
def codaComplete (s : State) : Bool :=
  s.ctl.state = .coda && allStopped s &&
    match s.ctl.codaDeadline with
    | none => false
    | some t => reached s.clock.site t

/-- Entry to IDLE at the end of a coda or at RELEASE: FIGURES CLEAR, PUMP CLEAR, LAMP CLEAR, AUDIO CLEAR, THAW SCORE
(R19, R22), with the valve modes, output and lamps of IDLE (R91, R163, R144). -/
def enterIdle (s : State) : State :=
  evaluateLamps <| setFrozen false <| audioQuiet <| audioClear <| lampClear <| pumpClear <| figuresClear <| modesClose <|
    setShowState .idle (dropGo s)

/-- The result a completed coda writes (R19). -/
def codaResult (s : State) : ResultKind := if s.ctl.codaCause = some .stop then .stopped else .complete

/-- The coda ends (R19). -/
def completeCoda (s : State) : State :=
  raise .state (enterIdle (writeResult (codaResult s) (goShowId s) (showNow s) s))

/-- The controller's test for the end of the coda (R19). -/
def codaTest (s : State) : State := if codaComplete s then completeCoda s else s

/-! ### Stop (R14 to R16) -/

/-- A STOP taken in COUNTDOWN: result STOPPED, GO record removed, ARMED; CUE REWIND, FIGURES CLEAR, PUMP CLEAR (R14). -/
def stopCountdown (s : State) : State :=
  let s := dropGo (writeResult .stopped (goShowId s) (showNow s) s)
  raise .state <| evaluateLamps <| audioQuiet <| pumpClear <| figuresClear <| cueRewind <| modesClose <|
    setShowState .armed s

/-- The pending coda time becomes `t`, or the earlier of the two where one is held (R15, R16). Of two times exactly 2^47 µs apart R16
does not say which is the earlier; DESIGN CHOICE: the new one (notes/assumptions/30.md). -/
def pendCoda (t : SiteTime) (s : State) : State :=
  let kept := match s.ctl.pendingCoda with
    | none => t
    | some u => if reached t u then u else t
  setCtl { s.ctl with pendingCoda := some kept } s

/-! ### Halt (R20, R21) -/

/-- SEND HALT with the halt input set (R21, R175). -/
def sendHalt (s : State) : State := requestFrame (.halt (haltSet s)) s

/-- Where a show is left by a halt, the result HALTED is written and the coda fields dropped (R21). -/
def haltResult (s : State) : State :=
  if s.ctl.state.inShow then dropCoda (writeResult .halted (goShowId s) (showNow s) s) else s

/-- HALT entry (R21). `own` says that the request was the node's own assertion. -/
def enterHalted (own : Bool) (s : State) : State :=
  let fade := (s.config.map (·.haltFade)).getD 0
  let s := if own && !s.clock.clash then sendHalt (withdrawShowFrames s) else s
  let s := setShowState .halted (haltResult (audioFadeOut fade (figuresHold (pumpHalt (cueStop s)))))
  raise .halt (raise .state (evaluateLamps s))

/-- The node's own assertion rises (R20). -/
def ownHalt (s : State) : State :=
  match s.ctl.state with
  | .standby => s
  | .halted => raise .halt (sendHalt s)
  | .idle | .armed | .countdown | .running | .coda => enterHalted true s

/-- A HALT frame or a halting beacon from a peer (R20). -/
def peerHalt (s : State) : State :=
  match s.ctl.state with
  | .standby | .halted => s
  | .idle | .armed | .countdown | .running | .coda => enterHalted false s

/-! ### Hand-over of actions (R75 to R78) -/

/-- An action is handed to its block, with its anchor (R77). -/
def deliver (origin : Origin) (due : Int) (act : Act) (s : State) : State :=
  match act with
  | .height p target len => pumpHeight p target len due s
  | .figure v g f => writeView g v f origin s
  | .colour set c len => lampColour set c len due s
  | .master level len => lampMaster level len due s
  | .level gain len => audioLevel gain len due s
  | .mark n => raise .mark { s with cue := { s.cue with lastMark := n } }
  | .endShow => fireEnd s

/-- A late firing whose counted mark is clear raises CUE LATE, is counted, and marks the other actions of its cue (R76). -/
def countLate (a : Action) (s : State) : State :=
  if 10000 < showNow s - a.due ∧ a.counted = false then
    raise .cueLate { s with cue := { s.cue with
      lateCount := stopAt 65535 (s.cue.lateCount + 1)
      queue := s.cue.queue.map fun b => if b.cue = a.cue then { b with counted := true } else b } }
  else s

/-- The head action's due time is reached, in TAKING (R75). -/
def actionDue (s : State) : Bool :=
  match showTime s, s.cue.queue with
  | some tau, a :: _ => s.cue.taking && decide (a.due ≤ tau)
  | _, _ => false

/-- A cue held for want of room is taken as soon as an action's leaving makes room (R73). -/
def retryHeldCue (s : State) : State :=
  if s.cue.waiting && cueReached s && cueRoom s then waitForRoom (takeCue s) else s

/-- The head action leaves the queue and is handed to its block (R75, R76). -/
def fireHead (s : State) : State :=
  match s.cue.queue with
  | [] => s
  | a :: rest =>
    retryHeldCue (deliver .fired a.due a.act (countLate a { s with cue := { s.cue with queue := rest } }))

/-! ### Seek (R81, R82) -/

/-- The indices of the cues passed at show time `now`, in score order (R81). -/
def passedCues (sc : Score) (now : Int) : List Nat :=
  (List.range sc.cueCount).filter fun i => 1000 * (cueTime (cueBytes sc i) : Int) ≤ now

/-- The last action of a list that `keep` accepts. -/
def lastAction (keep : Act → Bool) (as : List Action) : Option Action := as.reverse.find? fun a => keep a.act

/-- Each retained COLOUR, latest first, with its lamp set reduced to the lamps `left` that no later one names (R81). -/
def retainColours (left : Word16) (as : List Action) : List Action :=
  match as with
  | [] => []
  | a :: rest =>
    match a.act with
    | .colour set c len =>
      if set &&& left = 0 then retainColours left rest
      else { a with act := .colour (set &&& left) c len } :: retainColours (left &&& ~~~set) rest
    | .height _ _ _ | .figure _ _ _ | .master _ _ | .level _ _ | .mark _ | .endShow => retainColours left rest

/-- The actions a seek hands over, of the passed actions whose due time is at or before now (R81). -/
def retained (as : List Action) : List Action :=
  ((List.finRange 4).filterMap fun p => lastAction (fun | .height q _ _ => q = p | _ => false) as) ++
  ((List.finRange 4).flatMap fun g =>
    (lastAction (fun | .figure .valve h _ => h = g | _ => false) as).toList ++
    (lastAction (fun | .figure .lamp h _ => h = g | _ => false) as).toList) ++
  (retainColours 0xFFFF as.reverse).reverse ++
  (lastAction (fun | .master _ _ => true | _ => false) as).toList ++
  (lastAction (fun | .level _ _ => true | _ => false) as).toList

/-- A LEVEL action. -/
def isLevel : Act → Bool
  | .level _ _ => true
  | .height _ _ _ | .figure _ _ _ | .colour _ _ _ | .master _ _ | .mark _ | .endShow => false

/-- CUE SEEK at the present show time, in RUNNING (R81, R82). -/
def cueSeek (c : ConfigRecord) (s : State) : State :=
  let now := showNow s
  let passed := passedCues s.score now
  let actions := passed.flatMap (cueActions c s.score)
  let levels := actions.filter fun a => isLevel a.act && decide (now < a.due)
  let s := { s with cue := { s.cue with lateCount := 0, lastMark := 0 } }
  let s := (retained (actions.filter fun a => decide (a.due ≤ now))).foldl (fun s a => deliver .seek a.due a.act s) s
  let s := { s with cue := { s.cue with queue := insertActions [] (levels.drop (levels.length - 64)) } }
  if actions.any fun a => a.act = .endShow then fireEnd { s with cue := { s.cue with pointer := s.score.cueCount } }
  else { s with cue := { s.cue with pointer := passed.length, taking := true } }

/-- A node joins a running show (R13): COUNTDOWN where the start is ahead, otherwise RUNNING by seek. A start exactly 2^47 µs from
now is not reached, so it counts as ahead (DESIGN CHOICE, notes/assumptions/30.md). R144 and R152 leave open whether the evaluation of
the lamps at the entry to RUNNING comes before or after the seek's COLOUR and MASTER: it comes after them (DESIGN CHOICE,
notes/assumptions/34.md). -/
def lateJoin (c : ConfigRecord) (g : GoRecord) (s : State) : State :=
  if reached s.clock.site g.start then
    let s := audioStart (modesFollow (setShowState .running (setCtl { s.ctl with go := some g } s)))
    evaluateLamps (cueSeek c (raise .state s))
  else raise .state (enterCountdown g s)

/-! ### Commands of the clock -/

/-- The start of the GO record is reached in COUNTDOWN (R12). -/
def startDue (s : State) : Bool :=
  match s.ctl.go with
  | none => false
  | some g => s.ctl.state = .countdown && reached s.clock.site g.start

/-- The pending coda time is reached in RUNNING (R15). -/
def pendingCodaDue (s : State) : Bool :=
  match s.ctl.pendingCoda with
  | none => false
  | some t => s.ctl.state = .running && reached s.clock.site t

/-- The coda deadline is reached and its test not made yet (R19). -/
def codaDeadlineDue (s : State) : Bool :=
  match s.ctl.codaDeadline with
  | none => false
  | some t => s.ctl.state = .coda && reached s.clock.site t && !s.ctl.codaTested

/-- START_REACHED (R12). -/
def execStartReached (s : State) : Host.Outcome State Fault Refusal :=
  .next (unlessHeld s fun s => if startDue s then enterRunning s else s)

/-- PENDING_CODA_REACHED (R15, R18). -/
def execPendingCodaReached (s : State) : Host.Outcome State Fault Refusal :=
  .next (unlessHeld s fun s => if pendingCodaDue s then enterCoda .stop s else s)

/-- CODA_DEADLINE: the completion test is made (R19). -/
def execCodaDeadline (s : State) : Host.Outcome State Fault Refusal :=
  .next (unlessHeld s fun s =>
    if codaDeadlineDue s then codaTest (setCtl { s.ctl with codaTested := true } s) else s)

/-- ACTION_FIRES (R75). -/
def execActionFires (s : State) : Host.Outcome State Fault Refusal :=
  .next (unlessHeld s fun s => if actionDue s then fireHead s else s)

/-- PUMP_PERIOD (R103): the stages, then the controller's test for the end of the coda; the next period is the next
multiple of 10,000 µs (R26). -/
def execPumpPeriod (feedback : BitVec 4) (s : State) : Host.Outcome State Fault Refusal :=
  .next (unlessHeld s fun s =>
    match s.config with
    | none => s
    | some c =>
      if pumpDue s then
        let s := pumpStages c feedback s
        codaTest { s with pump := { s.pump with next := multipleAfter s.clock.site 10000 } }
      else s)

end Sys2Proof.Machine
end

