-- ==== Sys2Proof/Machine/SiteClock.lean ====
section
/-! DEFINITION. Site clock: rounds, offsets, mean, step and slew, lock, clash, and the running of time. -/

namespace Sys2Proof.Machine

/-- The site clock replaced. -/
def setClock (k : Clock) (s : State) : State := { s with clock := k }

/-! ### Rounds and beacons (R27, R28) -/

/-- The round's end: the next multiple of I after its start, or the wrap to 0 (R27). -/
def roundEndTime (s : State) (start : SiteTime) : SiteTime := multipleAfter start (intervalUs s)

/-- The beacon time of a round that starts at `start` (R28). -/
def beaconTime (c : ConfigRecord) (s : State) (start : SiteTime) : SiteTime :=
  plus start ((c.own.val * intervalUs s / 32 : Nat) : Int)

/-- A new round begins at `start` with correction `corr`: own 0 alone in its set (R27, R28, R31, R36). -/
def beginRound (c : ConfigRecord) (start : SiteTime) (corr : Int) (s : State) : State :=
  setClock
    { s.clock with
      roundStart := some start
      offsets := Vector.replicate 32 none
      beaconDue := some (beaconTime c s start)
      correction := corr
      made := 0
      roundLocal := 0 } s

/-- A round is entered part-way: no correction, and its beacon only if its time is still ahead (R27, R28). -/
def enterRound (c : ConfigRecord) (s : State) : State :=
  let start := multipleBelow s.clock.site (intervalUs s)
  let s := beginRound c start 0 s
  if reached s.clock.site (beaconTime c s start) then setClock { s.clock with beaconDue := none } s else s

/-! ### Offsets and mean (R30 to R33) -/

/-- The offset of a beacon: (stamp + line delay) − arrival, as a signed difference (R30). -/
def beaconOffset (c : ConfigRecord) (stamp arrival : SiteTime) : Int := sdiff (plus stamp c.lineDelay) arrival

/-- Local time in µs that a beacon is on the line: 30 bytes of 10 bit times (R42, R43). -/
def beaconLength : Nat := 300

/-- A step fell between the arrival of a beacon's delimiter and its hand-over now (R30). -/
def stepCaught (s : State) : Bool := decide (s.clock.sinceStep < beaconLength)

/-- A beacon's offset enters the round's set in place of that node's earlier one, and the record's last offset; a beacon
that a step has caught gives none (R30, R31). -/
def takeOffset (c : ConfigRecord) (i : Fin 32) (stamp arrival : SiteTime) (s : State) : State :=
  if stepCaught s then s
  else
    let e := beaconOffset c stamp arrival
    setClock { s.clock with offsets := put s.clock.offsets i (some e) }
      (putPeer i { s.peers[i] with lastOffset := e } s)

/-- A member of the set is an outlier at this round end (R32). -/
def isOutlier (c : ConfigRecord) (s : State) (o : Option Int) : Bool :=
  s.ctl.state.inShow && match o with
    | none => false
    | some e => decide (c.outlier < e.natAbs)

/-- Outliers leave the set and are counted in their records, up to 255 (R32). -/
def removeOutliers (c : ConfigRecord) (s : State) : State :=
  let peers := gen fun i =>
    if isOutlier c s s.clock.offsets[i] then
      { s.peers[i] with outliers := stopAt 255 (s.peers[i].outliers + 1) }
    else s.peers[i]
  let offsets := gen fun i => if isOutlier c s s.clock.offsets[i] then none else s.clock.offsets[i]
  { setClock { s.clock with offsets := offsets } s with peers := peers }

/-- The peer members of the set. -/
def peerMembers (s : State) : List Int := s.clock.offsets.toList.filterMap id

/-- Inserts a member in order of value. -/
def insertMember (x : Int) (l : List Int) : List Int :=
  match l with
  | [] => [x]
  | y :: rest => if x ≤ y then x :: y :: rest else y :: insertMember x rest

/-- Members placed in order of value (R33). -/
def sortMembers (l : List Int) : List Int := l.foldr insertMember []

/-- The round mean of a set of members, own 0 among them (R33). -/
def meanOf (members : List Int) : Int :=
  let ordered := sortMembers members
  let kept := if ordered.length ≥ 3 then ordered.tail.dropLast else ordered
  Int.tdiv kept.sum kept.length

/-- The round mean of the node's set. -/
def roundMean (s : State) : Int := meanOf (0 :: peerMembers s)

/-! ### Lock (R38, R39) -/

/-- The classes of a round (R38). -/
def roundClass (c : ConfigRecord) (s : State) (mean : Int) : Option (Bool × Bool) :=
  let alone := (peerMembers s).isEmpty
  let peersHeard := (List.finRange 32).any fun i => isPeer s i && s.peers[i].presence ≠ .absent
  if alone && peersHeard then none
  else if mean.natAbs ≤ c.lockWindow then some (true, false)
  else if mean.natAbs ≤ c.unlockWindow then some (false, false)
  else some (false, true)

/-- The counts after a round's class, given as (within, outside) (R38). -/
def countRound (cls : Option (Bool × Bool)) (k : Clock) : Clock :=
  match cls with
  | none => k
  | some (w, o) =>
    { k with
      within := if w then stopAt 4 (k.within + 1) else 0
      outside := if o then stopAt 2 (k.outside + 1) else 0 }

/-- LOCKED after the counts of a round that was classed: set at within count 4, cleared at outside count 2 (R39). -/
def lockAfter (k : Clock) : Bool := if k.within = 4 then true else if k.outside = 2 then false else k.locked

/-- The lock classification of a round end, raising LOCK at each change of LOCKED (R38, R39). -/
def classifyRound (c : ConfigRecord) (mean : Int) (s : State) : State :=
  match roundClass c s mean with
  | none => s
  | some cls =>
    let k := countRound (some cls) s.clock
    raiseIf (lockAfter k != s.clock.locked) .lock (setClock { k with locked := lockAfter k } s)

/-! ### Step and slew (R34 to R36) -/

/-- Site time steps at this round end (R34). -/
def stepsAt (s : State) (mean : Int) : Bool := !s.ctl.state.inShow && decide (1000 < mean.natAbs)

/-- The correction for the next round (R35). -/
def correctionOf (c : ConfigRecord) (mean : Int) : Int :=
  clamp (Int.tdiv mean 2) (-(c.slewLimit : Int)) c.slewLimit

/-- A step of site time by the mean (R34): the round of the stepped value is entered part-way, the wind window is
abandoned (R127), and after a backward step the periodic times are the multiples after the new value (R26). -/
def stepClock (c : ConfigRecord) (mean : Int) (s : State) : State :=
  let site := plus s.clock.site mean
  let s := setClock { s.clock with site := site, sinceStep := 0 } s
  let next (t : SiteTime) : SiteTime := if mean < 0 then multipleAfter site 10000 else t
  let s := { s with
    pump := { s.pump with next := next s.pump.next }
    lamps := { s.lamps with next := next s.lamps.next }
    audio := { s.audio with nextGain := next s.audio.nextGain } }
  enterRound c (abandonWindow s)

/-- The round has ended (R27). -/
def roundEndDue (s : State) : Bool :=
  match s.config, s.clock.roundStart with
  | some _, some start => reached s.clock.site (roundEndTime s start)
  | _, _ => false

/-- The end of the round that began at `start` (R31 to R39). -/
def endRound (c : ConfigRecord) (start : SiteTime) (s : State) : State :=
  let next := roundEndTime s start
  let s := removeOutliers c s
  let mean := roundMean s
  let s := classifyRound c mean s
  if stepsAt s mean then stepClock c mean s else beginRound c next (correctionOf c mean) s

/-- ROUND_END (R27, R31 to R39). -/
def execRoundEnd (s : State) : Host.Outcome State Fault Refusal :=
  .next (unlessHeld s fun s =>
    match s.config, s.clock.roundStart with
    | some c, some start => if roundEndDue s then endRound c start s else s
    | _, _ => s)

/-- The round's beacon is due (R28). -/
def beaconDueNow (s : State) : Bool :=
  match s.config, s.clock.beaconDue with
  | some _, some t => reached s.clock.site t
  | _, _ => false

/-- BEACON_DUE: a beacon is queued and the due time becomes absent; with CLASH set none is queued (R28, R41). -/
def execBeaconDue (s : State) : Host.Outcome State Fault Refusal :=
  .next (unlessHeld s fun s =>
    match s.config with
    | none => s
    | some c =>
      if beaconDueNow s then
        requestFrame (.beacon (ownBeacon c s)) (setClock { s.clock with beaconDue := none } s)
      else s)

/-! ### The running of time (R25, R36) -/

/-- An adjustment falls due: local time since the round start has reached adjustments made × q, q = floor(I / |c|), and
adjustments made is below |c| (R36). -/
def slewDue (s : State) : Bool :=
  s.config.isSome && decide (s.clock.made < s.clock.correction.natAbs) &&
    decide (s.clock.made * (intervalUs s / s.clock.correction.natAbs) ≤ s.clock.roundLocal)

/-- The safety pins are sampled, once in each microsecond of local time: a change that still stands has been seen (R173). -/
def sampleInputs (v : Vector SafetyInput 8) : Vector SafetyInput 8 := gen fun i => { v[i] with before := none }

/-- One microsecond of local time, in which site time advances by `us` (R25) and the safety pins are sampled once (R173). -/
def elapse (us : Nat) (s : State) : State :=
  let k := s.clock
  { setClock
      { k with
        site := plus k.site us
        roundLocal := k.roundLocal + 1
        sinceStep := stopAt beaconLength (k.sinceStep + 1) } s with
    score := { s.score with
      checkAge := if s.score.status = .checking then s.score.checkAge + 1 else s.score.checkAge }
    safety := sampleInputs s.safety }

/-- SLEW_ADJUSTMENT: the local microsecond of an adjustment, in which site time advances by two for a positive correction
and not at all for a negative one (R36). -/
def execSlewAdjustment (s : State) : Host.Outcome State Fault Refusal :=
  .next (unlessHeld s fun s =>
    if slewDue s then
      elapse (if 0 < s.clock.correction then 2 else 0) (setClock { s.clock with made := s.clock.made + 1 } s)
    else s)

/-! ### Number clash (R40, R41) -/

/-- A beacon with the node's own number: CLASH is set and raised again each time; at the moment it is set the transmit
queue is emptied, the frame on the line cut off, and a queued START-ASK counts as completed (R40, R41, R121). -/
def hearClash (s : State) : State :=
  if s.clock.clash then raise .clash s
  else askCompleted s.clock.site (setQueue [] (raise .clash (setClock { s.clock with clash := true } s)))

end Sys2Proof.Machine
end

