-- ==== Sys2Proof/Machine/SafetyInputs.lean ====
section
/-! DEFINITION. Safety monitor: debounce, halt assertion, reports. -/

namespace Sys2Proof.Machine

/-- Replaces one input's record. -/
def putInput (i : Fin 8) (inp : SafetyInput) (s : State) : State := { s with safety := put s.safety i inp }

/-- The pin of a configured input takes a new level. At its first change since the latest sample the level seen changes: SETTLED
becomes CHANGING from the present site time, CHANGING returns to SETTLED. A second change before the next sample reverts the
first, which is then not seen: the debounce goes on as it stood at the latest sample (R173; notes/assumptions/36.md). -/
def levelChanged (now : SiteTime) (high : Bool) (inp : SafetyInput) : SafetyInput :=
  match inp.before with
  | none => { inp with pin := high, since := if inp.since.isSome then none else some now, before := some inp.since }
  | some since => { inp with pin := high, since := since, before := none }

/-- An input's record at the acceptance of CONFIGURE (R172). -/
def configuredInput (c : ConfigRecord) (now : SiteTime) (i : Fin 8) (inp : SafetyInput) : SafetyInput :=
  { inp with stable := false, since := if levelSeen c i inp then some now else none, before := none }

/-- The debounce time of a CHANGING input has expired (R173). -/
def debounceDue (s : State) (i : Fin 8) : Bool :=
  match s.config, s.safety[i].since with
  | some c, some t => reached s.clock.site (plus t (1000 * (c.input[i].debounce : Int)))
  | _, _ => false

/-- The stable level takes the level seen, and the stable change acts: the halt assertion may rise (R175), the DRY mask
follows from the stable levels (R176), SAFETY is raised for a reported input (R177). -/
def stableChange (c : ConfigRecord) (i : Fin 8) (s : State) : State :=
  let before := haltAsserted s
  let s := raiseIf c.input[i].report .safety
    (putInput i { s.safety[i] with stable := levelSeen c i s.safety[i], since := none, before := none } s)
  if haltAsserted s && !before then ownHalt s else s

/-- SAFETY_LEVEL_CHANGE: the pin of an input takes a new level; a configured node's debounce starts or returns (R173). -/
def execSafetyLevelChange (input : Fin 8) (high : Bool) (s : State) : Host.Outcome State Fault Refusal :=
  .next (
    let inp := s.safety[input]
    if inp.pin = high then s
    else
      putInput input (if s.config.isSome then levelChanged s.clock.site high inp else { inp with pin := high }) s)

/-- DEBOUNCE_EXPIRY (R173, R175 to R177). -/
def execDebounceExpiry (input : Fin 8) (s : State) : Host.Outcome State Fault Refusal :=
  .next (unlessHeld s fun s =>
    match s.config with
    | none => s
    | some c => if debounceDue s input then stableChange c input s else s)

end Sys2Proof.Machine
end

