-- ==== Sys2Proof/Machine/HostCommands.lean ====
section
/-! DEFINITION. The host commands (R185 to R190). -/

namespace Sys2Proof.Machine

/-! ### CONFIGURE (R189) -/

/-- The bytes of the configuration record. -/
def recordSize : Nat := 605

/-- Stage 1: the record is stored, the horizon set, and the periodic work of the blocks begins at its next multiple. -/
def storeConfig (c : ConfigRecord) (s : State) : State :=
  { s with
    config := some c
    cue := { s.cue with horizon := horizonOf c }
    pump := { s.pump with next := multipleAfter s.clock.site 10000 }
    lamps := { s.lamps with next := multipleAfter s.clock.site 10000 }
    audio := { s.audio with nextGain := multipleAfter s.clock.site 10000 }
    wind := { s.wind with next := multipleAfter s.clock.site 1000000 } }

/-- Stage 2: the own record, and the ageing times of every record (R58, R59). -/
def configurePeers (c : ConfigRecord) (s : State) : State :=
  ageAll (putPeer c.own { Peer.cleared with presence := .fresh } s)

/-- Stage 3: the current round is entered part-way with both lock counts 0 (R27), the wind recomputed from f_applied 1,024, the
safety inputs read. -/
def configureBlocks (c : ConfigRecord) (s : State) : State :=
  let s := enterRound c s
  let s := setClock { s.clock with within := 0, outside := 0 } s
  let s := recomputeWind { s with wind := { s.wind with applied := 1024 } }
  { s with safety := gen fun i => configuredInput c s.clock.site i s.safety[i] }

/-- Stage 4: IDLE, then the halt test of R5. -/
def enterConfigured (s : State) : State :=
  let s := evaluateLamps (setShowState .idle s)
  if freshPeerHalts s then enterHalted false s else s

/-- The acceptance of CONFIGURE, in its stages (R189). -/
def acceptConfig (c : ConfigRecord) (s : State) : State :=
  enterConfigured (configureBlocks c (configurePeers c (storeConfig c s)))

/-- CONFIGURE's tests (R189, R190). -/
def configure (record : List Byte) (s : State) : State × Result × Option Nat :=
  if s.ctl.state ≠ .standby then refuse s .state
  else
    match firstFailure record with
    | some offset => (s, .param, some offset)
    | none => accept (acceptConfig (parseRecord record) s)

/-- A command that NCS cut short is discarded with INCOMPLETE, and its frame ends (R185, R187). -/
def incomplete (code : Byte) (s : State) : State := endFrame (unlessDeaf s (settle code .incomplete none))

/-! ### Arming and starting -/

/-- ARM's refusal, if any: the first cause met (R6). -/
def armRefusal (s : State) : Option Result :=
  if s.ctl.state ≠ .idle then some .state
  else if s.score.status ≠ .valid then some .state
  else if s.clock.clash then some .clash
  else if haltAsserted s then some .halt
  else none

/-- ARM accepted: ARMED; FREEZE SCORE, CUE REWIND, PUMP REARM (R6). -/
def enterArmed (s : State) : State :=
  evaluateLamps (pumpRearm (cueRewind (setFrozen true (audioQuiet (modesClose (setShowState .armed s))))))

/-- DISARM accepted: IDLE; THAW SCORE, CUE REWIND (R7). -/
def disarmed (s : State) : State :=
  evaluateLamps (cueRewind (setFrozen false (audioQuiet (modesClose (setShowState .idle s)))))

/-- Local GO's refusal, if any (R8). -/
def goRefusal (s : State) : Option Result :=
  if s.ctl.state ≠ .armed then some .state
  else if s.clock.clash then some .clash
  else if haltAsserted s then some .halt
  else if !s.clock.locked then some .lock
  else none

/-- The GO record of a local GO: start = now + 1000 × clamp(delay, 500, 60,000) µs (R8). -/
def localGo (delay : Nat) (s : State) : GoRecord where
  showId := s.score.showId
  checksum := s.score.checksum
  start := plus s.clock.site (1000 * clamp (delay : Int) 500 60000)

/-- Local GO accepted: COUNTDOWN with CUE START, and SEND GO (R8). -/
def startLocal (delay : Nat) (s : State) : State :=
  requestFrame (.go (localGo delay s)) (enterCountdown (localGo delay s) s)

/-- The time of 200 ms from now at which a STOP begins the coda (R14, R15). -/
def stopTime (s : State) : SiteTime := plus s.clock.site 200000

/-- SEND STOP with the GO record's show id and the coda time (R14, R15). -/
def sendStop (s : State) : State := requestFrame (.stop ⟨goShowId s, stopTime s⟩) s

/-- Local STOP (R14, R15). -/
def localStop (s : State) : State × Result × Option Nat :=
  match s.ctl.state with
  | .countdown => accept (stopCountdown (sendStop s))
  | .running => if s.ctl.pendingCoda.isSome then refuse s .state else accept (pendCoda (stopTime s) (sendStop s))
  | .standby | .idle | .armed | .coda | .halted => refuse s .state

/-- The three conditions of RELEASE (R22). -/
def releasable (s : State) : Bool :=
  s.ctl.state = .halted && !haltAsserted s && !freshPeerHalts s && allDriveZero s

/-- RELEASE accepted: the clears of `enterIdle`, and CUE REWIND (R22). -/
def released (s : State) : State := cueRewind (enterIdle s)

/-! ### Commands -/

/-- NOP: nothing, and no last result (R187). -/
def execNop (s : State) : Host.Outcome State Fault Refusal := .next s

/-- IDENT (R188). -/
def execIdent (s : State) : Host.Outcome State Fault Refusal := .next (unlessDeaf s (answer identReply))

/-- STATUS (R188, R191). -/
def execStatus (s : State) : Host.Outcome State Fault Refusal := .next (unlessDeaf s fun s => answer (statusReply s) s)

/-- CONFIGURE (R189). -/
def execConfigure (record : List Byte) (s : State) : Host.Outcome State Fault Refusal :=
  .next (if record.length < recordSize then incomplete 0x20 s else hostCommand 0x20 s (configure record))

/-- SCORE_OPEN (R64). -/
def execScoreOpen (header : List Byte) (s : State) : Host.Outcome State Fault Refusal :=
  .next (if header.length < 6 then incomplete 0x30 s else hostCommand 0x30 s (scoreOpen header))

/-- SCORE_DATA (R65). -/
def execScoreData (body : List Byte) (s : State) : Host.Outcome State Fault Refusal :=
  .next (if dataWhole body then hostCommand 0x31 s (scoreData body) else incomplete 0x31 s)

/-- SCORE_CLOSE (R67). -/
def execScoreClose (s : State) : Host.Outcome State Fault Refusal := .next (hostCommand 0x32 s scoreClose)

/-- ARM (R6). -/
def execArm (s : State) : Host.Outcome State Fault Refusal :=
  .next (hostCommand 0x40 s fun s =>
    match armRefusal s with
    | some r => refuse s r
    | none => accept (enterArmed s))

/-- DISARM (R7). -/
def execDisarm (s : State) : Host.Outcome State Fault Refusal :=
  .next (hostCommand 0x41 s fun s => if s.ctl.state = .armed then accept (disarmed s) else refuse s .state)

/-- GO (R8). -/
def execGo (delay : Word16) (s : State) : Host.Outcome State Fault Refusal :=
  .next (hostCommand 0x44 s fun s =>
    match goRefusal s with
    | some r => refuse s r
    | none => accept (startLocal delay.toNat s))

/-- STOP (R14, R15). -/
def execStop (s : State) : Host.Outcome State Fault Refusal := .next (hostCommand 0x45 s localStop)

/-- RELEASE (R22). -/
def execRelease (s : State) : Host.Outcome State Fault Refusal :=
  .next (hostCommand 0x48 s fun s => if releasable s then accept (released s) else refuse s .state)

/-- EVENTS (R181). -/
def execEvents (s : State) : Host.Outcome State Fault Refusal := .next (unlessDeaf s fun s => answer (eventsReply s) s)

/-- EVENT_CLEAR (R182). -/
def execEventClear (set : Word16) (s : State) : Host.Outcome State Fault Refusal :=
  .next (hostCommand 0x61 s fun s =>
    if s.ctl.state = .standby then refuse s .state
    else
      accept { s with events := { s.events with
        pending := s.events.pending &&& ~~~set
        overrun := s.events.overrun &&& ~~~set } })

/-- EVENT_MASK (R183). -/
def execEventMask (set : Word16) (s : State) : Host.Outcome State Fault Refusal :=
  .next (hostCommand 0x62 s fun s =>
    if s.ctl.state = .standby then refuse s .state
    else accept { s with events := { s.events with masked := set } })

/-- PEERS: the reply, or bytes 0x00 while a checksum computation runs (R186, R188). -/
def execPeers (s : State) : Host.Outcome State Fault Refusal :=
  .next (unlessDeaf s fun s =>
    answer (if s.score.status = .checking then refusedReply 1031 else peersReply s) s)

/-- PUMP: the reply, or bytes 0x00 where BUSY or the channel refuses it (R186, R188). -/
def execPump (channel : Byte) (s : State) : Host.Outcome State Fault Refusal :=
  .next (unlessDeaf s fun s =>
    if h : channel.toNat < 4 then
      answer (if s.score.status = .checking then refusedReply 68 else pumpReply s ⟨channel.toNat, h⟩) s
    else answer (refusedReply 68) s)

/-- UNKNOWN_COMMAND: refused with PARAM at the end of its byte, BUSY first (R185, R186). A listed code is no unknown
command. -/
def execUnknownCommand (code : Byte) (s : State) : Host.Outcome State Fault Refusal :=
  .next (if code ∈ knownCodes then s else hostCommand code s fun s => refuse s .param)

/-- COMMAND_INCOMPLETE: NCS rose before the command was taken; it is discarded, its frame ends, and INCOMPLETE is recorded for a
command that writes the record (R185, R187). -/
def execCommandIncomplete (code : Byte) (s : State) : Host.Outcome State Fault Refusal :=
  .next (if code ∈ recordedCodes then incomplete code s else endFrame s)

end Sys2Proof.Machine
end

