-- ==== Sys2Proof/Machine/Received.lean ====
section
/-! DEFINITION. Intact frames from the line, handed over by kind (R54). -/

namespace Sys2Proof.Machine

/-- A GO record names the show of the node's own score (R9, R13). -/
def matchesScore (g : GoRecord) (s : State) : Bool := g.showId = s.score.showId && g.checksum = s.score.checksum

/-- The node's own conditions for following a start: CLASH clear, own halt not asserted, LOCKED (R10, R13). -/
def mayFollow (s : State) : Bool := !s.clock.clash && !haltAsserted s && s.clock.locked

/-- The show result MISSED START (R3, R10). -/
def missStart (g : GoRecord) (s : State) : State := raise .state (writeResult .missedStart g.showId 0 s)

/-- A matching GO frame in ARMED (R10). The rows are told apart by the signed difference start − now; a start exactly 2^47 µs from
now, whose difference is −2^47 both ways, falls under "at or before now" here (DESIGN CHOICE, notes/assumptions/30.md). -/
def takeGo (c : ConfigRecord) (g : GoRecord) (s : State) : State :=
  let ahead := sdiff g.start s.clock.site
  if !mayFollow s then missStart g s
  else if 60000000 < ahead then missStart g s
  else if 0 < ahead then raise .state (enterCountdown g s)
  else if c.lateJoin then lateJoin c g s
  else missStart g s

/-- A matching GO frame in COUNTDOWN: an earlier start replaces the held one, every view shows its new time, the engine
tests its cue, and a start already reached is taken at once (R11, R80, R90). A start exactly 2^47 µs from the held one has the signed
difference -2^47 both ways, and R11 does not say whether it is earlier; DESIGN CHOICE: it is (notes/assumptions/30.md). -/
def advanceGo (g : GoRecord) (s : State) : State :=
  match s.ctl.go with
  | none => s
  | some held =>
    if sdiff g.start held.start < 0 then
      let s := waitForRoom (refreshAll (setCtl { s.ctl with go := some g } s))
      if startDue s then enterRunning s else s
    else s

/-- A GO frame, filtered by state and score (R9). -/
def heardGo (g : GoRecord) (s : State) : State :=
  match s.config, s.ctl.state with
  | some c, .armed => if matchesScore g s then takeGo c g s else raise .scoreMismatch s
  | some _, .countdown => if matchesScore g s then advanceGo g s else raise .scoreMismatch s
  | _, _ => s

/-- A STOP frame, by the receiver's state and show id (R16). -/
def heardStop (f : StopFrame) (s : State) : State :=
  match s.ctl.state, s.ctl.go with
  | .countdown, some g => if f.showId = g.showId then stopCountdown s else s
  | .running, some g =>
    if f.showId = g.showId then (if reached s.clock.site f.codaTime then enterCoda .stop s else pendCoda f.codaTime s)
    else s
  | _, _ => s

/-- The GO record of a peer in RUNNING, from its record (R13, R43). -/
def peerShow (p : Peer) : Option GoRecord :=
  if p.state = 4 then some ⟨p.showId, p.checksum, p.showStart⟩ else none

/-- The late-join test at a beacon's arrival (R13). -/
def joinTest (c : ConfigRecord) (i : Fin 32) (s : State) : State :=
  match peerShow s.peers[i] with
  | none => s
  | some g =>
    if s.ctl.state = .armed ∧ c.lateJoin ∧ mayFollow s ∧ matchesScore g s then lateJoin c g s else s

/-- An intact beacon from another node in a configured node: the peer table, then the site clock, then the show controller
(R54). -/
def peerBeacon (c : ConfigRecord) (i : Fin 32) (seq : Byte) (b : Beacon) (arrival : SiteTime) (s : State) : State :=
  let s := takeOffset c i b.stamp arrival (recordBeacon i b seq arrival s)
  joinTest c i (if s.peers[i].haltFlag then peerHalt s else s)

/-- BEACON_RECEIVED (R54, R57). -/
def execBeaconReceived (sender seq : Byte) (b : Beacon) (arrival : SiteTime) (s : State) :
    Host.Outcome State Fault Refusal :=
  .next (receiveFrame sender s fun i s =>
    match s.config with
    | none => recordBeacon i b seq arrival s
    | some c => if i = c.own then hearClash s else peerBeacon c i seq b arrival s)

/-- GO_FRAME_RECEIVED (R9). -/
def execGoFrameReceived (sender : Byte) (g : GoRecord) (s : State) : Host.Outcome State Fault Refusal :=
  .next (receiveFrame sender s fun _ s => heardGo g s)

/-- STOP_FRAME_RECEIVED (R16). -/
def execStopFrameReceived (sender : Byte) (f : StopFrame) (s : State) : Host.Outcome State Fault Refusal :=
  .next (receiveFrame sender s fun _ s => heardStop f s)

/-- HALT_FRAME_RECEIVED: last halt heard in every state, then a halt request (R20, R54). -/
def execHaltFrameReceived (sender inputs : Byte) (s : State) : Host.Outcome State Fault Refusal :=
  .next (receiveFrame sender s fun _ s =>
    peerHalt { s with line := { s.line with lastHalt := some (sender, inputs) } })

end Sys2Proof.Machine
end

