-- ==== Sys2Proof/Machine/Time.lean ====
section
/-! DEFINITION. The clock's own work: which occurrence is due at the present moment, and one microsecond of local time. -/

namespace Sys2Proof.Machine

/-- The command of an occurrence that is due, or none. -/
def whenDue (due : Bool) (i : Instr) : Option Instr := if due then some i else none

/-- The first of an indexed family of occurrences that is due. -/
def firstDue {n : Nat} (due : Fin n → Bool) (i : Fin n → Instr) : Option Instr :=
  ((List.finRange n).find? due).map i

/-- The step boundaries that are due. -/
def boundaryOccurrence (s : State) : Option Instr :=
  (firstDue (fun g => boundaryDue s g .valve) fun g => .figureStepBoundary g .valve).or
    (firstDue (fun g => boundaryDue s g .lamp) fun g => .figureStepBoundary g .lamp)

/-- The occurrence of site time that the node takes next at the present moment, none where time may run on. The manual
leaves the order of occurrences at one moment open ("either order"); this order is the model's own (DESIGN CHOICE,
notes/assumptions/3.md), and a sender that puts an occurrence into the queue itself has it taken first. -/
def dueOccurrence (s : State) : Option Instr :=
  [whenDue (startDue s) .startReached,
   whenDue (pendingCodaDue s) .pendingCodaReached,
   firstDue (debounceDue s) .debounceExpiry,
   firstDue (absentDue s) .peerAbsent,
   firstDue (staleDue s) .peerStale,
   whenDue (windowEndDue s) .holdWindowEnd,
   whenDue (checksumDue s) .checksumComplete,
   whenDue (actionDue s) .actionFires,
   whenDue (cueDue s) .cueTaken,
   boundaryOccurrence s,
   firstDue (figureEndDue s) .figureEnd,
   whenDue (windowDue s) .windowClose,
   whenDue (pumpDue s) (.pumpPeriod s.pump.feedback),
   whenDue (lampDue s) .lampPeriod,
   whenDue (gainDue s) .gainUpdate,
   whenDue (codaDeadlineDue s) .codaDeadline,
   whenDue (frameDue s) .frameInstant,
   whenDue (roundEndDue s) .roundEnd,
   whenDue (beaconDueNow s) .beaconDue,
   whenDue (slewDue s) .slewAdjustment].findSome? id

/-- One microsecond of local time with nothing due: site time advances by one (R25). Held in reset, time stands. -/
def tick (s : State) : State := if s.port.held then s else elapse 1 s

end Sys2Proof.Machine
end

