-- ==== Sys2Proof/Machine/Dispatch.lean ====
section
/-! DEFINITION. One arm for each command of the opcode table. -/

namespace Sys2Proof.Machine

def exec (i : Instr) (s : State) : Host.Outcome State Fault Refusal :=
  match i with
  | .nop => Sys2Proof.Machine.execNop s
  | .softReset => Sys2Proof.Machine.execSoftReset s
  | .ident => Sys2Proof.Machine.execIdent s
  | .status => Sys2Proof.Machine.execStatus s
  | .configure record => Sys2Proof.Machine.execConfigure record s
  | .scoreOpen header => Sys2Proof.Machine.execScoreOpen header s
  | .scoreData body => Sys2Proof.Machine.execScoreData body s
  | .scoreClose => Sys2Proof.Machine.execScoreClose s
  | .arm => Sys2Proof.Machine.execArm s
  | .disarm => Sys2Proof.Machine.execDisarm s
  | .go delay => Sys2Proof.Machine.execGo delay s
  | .stop => Sys2Proof.Machine.execStop s
  | .release => Sys2Proof.Machine.execRelease s
  | .audio start count => Sys2Proof.Machine.execAudio start count s
  | .events => Sys2Proof.Machine.execEvents s
  | .eventClear set => Sys2Proof.Machine.execEventClear set s
  | .eventMask set => Sys2Proof.Machine.execEventMask set s
  | .peers => Sys2Proof.Machine.execPeers s
  | .pump channel => Sys2Proof.Machine.execPump channel s
  | .unknownCommand code => Sys2Proof.Machine.execUnknownCommand code s
  | .commandIncomplete code => Sys2Proof.Machine.execCommandIncomplete code s
  | .audioEnd bytes => Sys2Proof.Machine.execAudioEnd bytes s
  | .powerOnReset => Sys2Proof.Machine.execPowerOnReset s
  | .pinReset => Sys2Proof.Machine.execPinReset s
  | .resetExit => Sys2Proof.Machine.execResetExit s
  | .beaconReceived sender seq beacon arrival => Sys2Proof.Machine.execBeaconReceived sender seq beacon arrival s
  | .goFrameReceived sender frame => Sys2Proof.Machine.execGoFrameReceived sender frame s
  | .stopFrameReceived sender frame => Sys2Proof.Machine.execStopFrameReceived sender frame s
  | .haltFrameReceived sender inputs => Sys2Proof.Machine.execHaltFrameReceived sender inputs s
  | .startAskReceived sender pumpNo arrival => Sys2Proof.Machine.execStartAskReceived sender pumpNo arrival s
  | .frameFault bytes => Sys2Proof.Machine.execFrameFault bytes s
  | .beaconDue => Sys2Proof.Machine.execBeaconDue s
  | .attemptStart idleBits => Sys2Proof.Machine.execAttemptStart idleBits s
  | .transmissionComplete => Sys2Proof.Machine.execTransmissionComplete s
  | .attemptFailed => Sys2Proof.Machine.execAttemptFailed s
  | .roundEnd => Sys2Proof.Machine.execRoundEnd s
  | .slewAdjustment => Sys2Proof.Machine.execSlewAdjustment s
  | .peerStale peer => Sys2Proof.Machine.execPeerStale peer s
  | .peerAbsent peer => Sys2Proof.Machine.execPeerAbsent peer s
  | .startReached => Sys2Proof.Machine.execStartReached s
  | .pendingCodaReached => Sys2Proof.Machine.execPendingCodaReached s
  | .codaDeadline => Sys2Proof.Machine.execCodaDeadline s
  | .checksumComplete => Sys2Proof.Machine.execChecksumComplete s
  | .cueTaken => Sys2Proof.Machine.execCueTaken s
  | .actionFires => Sys2Proof.Machine.execActionFires s
  | .figureStepBoundary group view => Sys2Proof.Machine.execFigureStepBoundary group view s
  | .figureEnd group => Sys2Proof.Machine.execFigureEnd group s
  | .pumpPeriod feedback => Sys2Proof.Machine.execPumpPeriod feedback s
  | .holdWindowEnd => Sys2Proof.Machine.execHoldWindowEnd s
  | .anemometerPulse => Sys2Proof.Machine.execAnemometerPulse s
  | .windowClose => Sys2Proof.Machine.execWindowClose s
  | .lampPeriod => Sys2Proof.Machine.execLampPeriod s
  | .gainUpdate => Sys2Proof.Machine.execGainUpdate s
  | .frameInstant => Sys2Proof.Machine.execFrameInstant s
  | .safetyLevelChange input high => Sys2Proof.Machine.execSafetyLevelChange input high s
  | .debounceExpiry input => Sys2Proof.Machine.execDebounceExpiry input s
  | .receiverReady idleBits => Sys2Proof.Machine.execReceiverReady idleBits s

end Sys2Proof.Machine
end

