-- ==== Sys2Proof/Machine/Step.lean ====
section
/-! DEFINITION. One step: the command at the front of the queue, or the clock's own work. -/

namespace Sys2Proof.Machine

/-- The step on an empty queue: the occurrence that is due at the present moment is taken; where none is, one microsecond of
local time passes (DESIGN CHOICE, notes/assumptions/1.md). A part held in reset idles. -/
def idle (s : State) : Host.Outcome State Fault Refusal :=
  if s.port.held then .next s
  else
    match dueOccurrence s with
    | some i => exec i s
    | none => .next (tick s)

/-- One step: the command at the front of the queue is run on the state with the queue's rest. -/
def step (s : State) : Host.Outcome State Fault Refusal :=
  match s.pending with
  | i :: rest => exec i { s with pending := rest }
  | [] => idle s

/-- The state with the command that a word spells by the table's bits put at the front of its queue; unchanged where the
word spells none. -/
def State.withFetchWord (s : State) (nbits w : Nat) : State :=
  match decodeTableWord nbits w with
  | some i => { s with pending := i :: s.pending }
  | none => s

end Sys2Proof.Machine
end

