-- ==== Sys2Proof/Machine/Port.lean ====
section
/-! DEFINITION. The pins of the host port: NCS, SCK and MOSI gather bits to bytes and bytes to commands, which are taken as their
last byte arrives; MISO is read in Machine/Outputs.lean. -/

namespace Sys2Proof.Machine

/-- The frame in progress replaced. -/
def setFrame (f : PortFrame) (s : State) : State := { s with port := { s.port with frame := some f } }

/-- The part takes a command (R185). -/
def takeCommand (i : Instr) (s : State) : State :=
  match exec i s with
  | .next t => t
  | .fault _ | .refused _ => s

/-- The command that is taken at the end of these bytes of a frame, none while more of it is to come (R185). -/
def takenBy (bytes : List Byte) : Option Instr :=
  match decodeCommandFrame bytes with
  | [] => none
  | .commandIncomplete _ :: _ => none
  | i :: _ => some i

/-- The commands with a reply (R188). -/
def isRead : Instr → Bool
  | .ident | .status | .events | .peers | .pump _ => true
  | _ => false

/-- How the frame goes on once its command is taken: AUDIO receives its frames (R159); the bytes after SOFT RESET are ignored
(R194); a read command sends one dummy byte and its reply, any other nothing but 0x00 (R184). -/
def phaseAfter (i : Instr) (reply : List Byte) : FramePhase :=
  match i with
  | .audio _ _ => .audio []
  | .softReset => .ignored
  | i => .over (if isRead i then 0 :: reply else [])

/-- A whole byte has arrived in a frame of phase `phase` (R184, R185). -/
def byteArrives (phase : FramePhase) (b : Byte) (s : State) : State :=
  match phase with
  | .ignored => setFrame { phase := .ignored, bits := [] } s
  | .over out => setFrame { phase := .over out.tail, bits := [] } s
  | .audio bytes => setFrame { phase := .audio (bytes ++ [b]), bits := [] } s
  | .gathering bytes =>
    match takenBy (bytes ++ [b]) with
    | none => setFrame { phase := .gathering (bytes ++ [b]), bits := [] } s
    | some i =>
      let t := takeCommand i s
      setFrame { phase := phaseAfter i t.port.reply, bits := [] } t

/-- Eight bits as a byte, most significant bit first (R184). -/
def byteOfBits (bits : List Bool) : Byte := bits.foldl (fun acc b => acc <<< 1 ||| (boolByte b)) 0

/-- NCS falls: a frame begins, but during a power-on or pin reset one that is ignored to its end (R184, R194). -/
def ncsFalls (s : State) : State :=
  match s.port.frame with
  | some _ => s
  | none => setFrame { phase := if s.port.held then .ignored else .gathering [], bits := [] } s

/-- One cycle of SCK takes one bit on its rising edge; eight make a byte (R184). While NCS is high, and while the part is held,
SCK and MOSI are ignored (R193). -/
def sckCycle (s : State) (mosi : Bool) : State :=
  unlessHeld s fun s =>
    match s.port.frame with
    | none => s
    | some f =>
      let bits := f.bits ++ [mosi]
      if bits.length < 8 then setFrame { f with bits := bits } s else byteArrives f.phase (byteOfBits bits) s

/-- NCS rises: a command not yet taken is discarded with INCOMPLETE, an AUDIO command ends, and the frame is over, a byte left
partial with it (R184, R185, R159). -/
def ncsRises (s : State) : State :=
  match s.port.frame with
  | none => s
  | some f =>
    match f.phase with
    | .ignored | .over _ => endFrame s
    | .audio bytes => endFrame (takeCommand (.audioEnd bytes) s)
    | .gathering bytes =>
      match decodeCommandFrame bytes with
      | .commandIncomplete code :: _ => endFrame (takeCommand (.commandIncomplete code) s)
      | _ => endFrame s

end Sys2Proof.Machine
end

