-- ==== Sys2Proof/Machine/Wire.lean ====
section
/-! DEFINITION. The peer line bit by bit: levels, idle time, the node's driven bits read back, and the receiver's gathering of a
frame; the occurrences of the line that the bits bring about are taken as the commands of those names. -/

namespace Sys2Proof.Machine

/-- The node's side of the two wires replaced. -/
def setWire (w : Wire) (s : State) : State := { s with line := { s.line with wire := w } }

/-- What the receiver has gathered, replaced. -/
def setGather (g : Option Gather) (s : State) : State := setWire { s.line.wire with gather := g } s

/-- The levels still to be driven, replaced. -/
def setOut (out : List Bool) (s : State) : State := setWire { s.line.wire with out := out } s

/-- The idle time of the line, replaced. -/
def setIdle (idle : Nat) (s : State) : State := setWire { s.line.wire with idle := idle } s

/-- The level seen on the line (R42): dominant while any node drives it dominant, where `noise` does not turn it over (R50).
Recessive is true, so that the line is recessive when every node leaves it so. -/
def lineLevel (driven others noise : Bool) : Bool := (driven && others) ^^ noise

/-- The line is within a byte: the node drives a bit, or the receiver has taken a start bit and not yet the stop bit. -/
def withinByte (s : State) : Bool :=
  !(bitsAhead s).isEmpty || (decide (s.line.rx = .receiving) && s.line.wire.gather.any fun g => !g.bits.isEmpty)

/-- The idle time after a bit time at `level`: the bit times for which the line has stayed recessive since the last dominant level
or the end of the last stop bit (R42). -/
def idleAfter (level : Bool) (s : State) : Nat := if level && !withinByte s then s.line.wire.idle + 1 else 0

/-! ### Sending (R49, R50) -/

/-- The node's own bit, read back: one that differs fails the attempt, and the driver lets go (R50); the last stop bit read back
without mismatch completes the transmission (R49). -/
def driveBit (level : Bool) (s : State) : State :=
  match bitsAhead s with
  | [] => setOut [] s
  | b :: rest =>
    if level ≠ b then setOut [] (takeCommand .attemptFailed s)
    else if rest.isEmpty then setOut [] (takeCommand .transmissionComplete s)
    else setOut rest s

/-! ### Receiving (R52, R53) -/

/-- The command of an intact frame (R54), with the arrival stamp taken at its start bit. -/
def handedOver (sender seq : Byte) (p : Payload) (arrival : SiteTime) : Instr :=
  match p with
  | .beacon b => .beaconReceived sender seq b arrival
  | .go g => .goFrameReceived sender g
  | .stop f => .stopFrameReceived sender f
  | .halt inputs => .haltFrameReceived sender inputs
  | .startAsk pump => .startAskReceived sender pump arrival

/-- A frame with a failure is counted and discarded (R53). -/
def failGather (g : Gather) (s : State) : State := setGather none (takeCommand (.frameFault g.bytes) s)

/-- A whole byte has been gathered: the frame is judged by the bytes so far, and goes on while they are only cut short (R52, R53). -/
def byteGathered (g : Gather) (s : State) : State :=
  match judge g.bytes with
  | .truncated => setGather (some g) s
  | .intact sender seq p => setGather none (takeCommand (handedOver sender seq p g.arrival) s)
  | .formatEarly | .checkError | .formatLength => failGather g s

/-- Between two bytes of a frame: a start bit, or an idle time that cuts the frame short at 10 bit times (R53). A receiver that has
not seen the start bit of the node's own attempt, for noise, is READY still. -/
def betweenBytes (level : Bool) (idle : Nat) (g : Gather) (s : State) : State :=
  if level = false then setGather (some { g with bits := [false] }) s
  else if g.bytes = [] then setGather none (setRx .ready s)
  else if 10 ≤ idle then failGather g s
  else setGather (some g) s

/-- A bit within a byte: eight data bits, then the stop bit, which if dominant cuts the frame short (R42, R53). -/
def gatherBit (level : Bool) (g : Gather) (s : State) : State :=
  if g.bits.length < 9 then setGather (some { g with bits := g.bits ++ [level] }) s
  else if level then byteGathered { g with bytes := g.bytes ++ [byteOfBits g.bits.tail], bits := [] } s
  else failGather g s

/-- The start of a frame at this bit time (R52). -/
def freshGather (s : State) : Gather := { arrival := s.clock.site, bytes := [], bits := [] }

/-- The receiver follows the line (R52): in HUNT a start bit begins no frame; in READY it does. -/
def receiveBit (level : Bool) (idle : Nat) (s : State) : State :=
  match s.line.rx with
  | .hunt => setGather none s
  | .ready =>
    if level then setGather none s
    else setGather (some { freshGather s with bits := [false] }) (setRx .receiving s)
  | .receiving =>
    let g := s.line.wire.gather.getD (freshGather s)
    if g.bits.isEmpty then betweenBytes level idle g s else gatherBit level g s

/-- One bit time of the line, of 1 µs, with the other nodes leaving it at `others`. An attempt whose wait has ended begins (R48);
the level is read back and received; and an idle line of 10 bit times lets the receiver leave HUNT (R52). While the part is held the
receiver does not follow the line (R193). -/
def bitTime (others noise : Bool) (s : State) : State :=
  unlessHeld s fun s =>
    let s := takeCommand (.attemptStart s.line.wire.idle) s
    let level := lineLevel (drivenLevel s) others noise
    let idle := idleAfter level s
    takeCommand (.receiverReady idle) (setIdle idle (receiveBit level idle (driveBit level s)))

end Sys2Proof.Machine
end

