-- ==== Sys2Proof/Machine/Outputs.lean ====
section
/-! DEFINITION. The outputs the board sees, read from the state (R193, R195). -/

namespace Sys2Proof.Machine

/-- The output pins (R195). -/
structure Outputs where
  /-- V0 to V63 by group: bit j of group g for valve 16g + j, open when set. -/
  valves : Vector Word16 4
  /-- RUN0 to RUN3, on when set. -/
  run : Vector Bool 4
  /-- REF0 to REF3 in steps of 2.5 mV: 2.5 V × d_out / 1,000 is d_out steps. -/
  reference : Vector Nat 4
  /-- The duties, in 4,095ths of the PWM period, of the three outputs of each lamp (R153). -/
  lamps : Vector Rgb 16
  /-- The audio output, left and right. -/
  audio : Int × Int
  /-- The level of NEVT, high when inactive (R180). -/
  nevtHigh : Bool
  /-- A frame of the node is on the peer line: its driver is not released to recessive. -/
  drivesLine : Bool
  /-- The node drives the peer line dominant (R42). -/
  drivesDominant : Bool
  /-- The level of MISO, none where it is not driven (R184, R193). -/
  miso : Option Bool
  deriving DecidableEq, Repr

/-- The byte that MISO carries: 0x00 during a frame, but for the dummy byte and the reply of a read command (R184). An ignored
frame carries 0x00 too (DEDUCED, notes/assumptions/37.md). -/
def misoByte (f : PortFrame) : Byte :=
  match f.phase with
  | .over out => out.headD 0
  | .gathering _ | .audio _ | .ignored => 0

/-- The level of MISO, most significant bit first: not driven while NCS is high or the part is held (R184, R193). -/
def misoLevel (p : HostPort) : Option Bool :=
  if p.held then none else p.frame.map fun f => (misoByte f).getLsbD (7 - f.bits.length)

/-- The outputs of a state. -/
def outputs (s : State) : Outputs where
  valves := gen (valveOutputs s)
  run := gen fun p => s.pump.chan[p].runOutput
  reference := gen fun p => s.pump.chan[p].dOut
  lamps := gen fun l => s.lamps.lamp[l].duty
  audio := (s.audio.outLeft, s.audio.outRight)
  nevtHigh := !nevtActive s.events
  drivesLine := (onLineFrame s).isSome
  drivesDominant := !drivenLevel s
  miso := misoLevel s.port

/-- The outputs at the moment any reset is taken, and while the part is held in one (R1, R193). MISO is not driven while the part
is held; a soft reset holds nothing, and a frame in progress still carries 0x00. -/
def Outputs.atReset (miso : Option Bool) : Outputs where
  valves := Vector.replicate 4 0
  run := Vector.replicate 4 false
  reference := Vector.replicate 4 0
  lamps := Vector.replicate 16 ⟨0, 0, 0⟩
  audio := (0, 0)
  nevtHigh := true
  drivesLine := false
  drivesDominant := false
  miso := miso

end Sys2Proof.Machine
end

