-- ==== Sys2Proof/Safety.lean ====
section
/-! DEFINITION. What every step keeps, and what a step leaves alone, in the terms the statements use. -/

namespace Sys2Proof.Safety

open Sys2Proof.Machine

/-! ### What a step leaves alone -/

/-- The parts of the node's state: its blocks (section 2.1 of the scope file), and the model's own queue and count. -/
inductive Part where
  | pending
  | port
  | config
  | ctl
  | clock
  | line
  | peers
  | score
  | cue
  | jets
  | pump
  | wind
  | lamps
  | audio
  | safety
  | events
  | draws
  deriving DecidableEq, Repr

/-- One part is the same in two states. -/
def samePart (s t : State) : Part → Prop
  | .pending => t.pending = s.pending
  | .port => t.port = s.port
  | .config => t.config = s.config
  | .ctl => t.ctl = s.ctl
  | .clock => t.clock = s.clock
  | .line => t.line = s.line
  | .peers => t.peers = s.peers
  | .score => t.score = s.score
  | .cue => t.cue = s.cue
  | .jets => t.jets = s.jets
  | .pump => t.pump = s.pump
  | .wind => t.wind = s.wind
  | .lamps => t.lamps = s.lamps
  | .audio => t.audio = s.audio
  | .safety => t.safety = s.safety
  | .events => t.events = s.events
  | .draws => t.draws = s.draws

/-- From `s` to `t` nothing changes but the parts listed. -/
def onlyChanges (parts : List Part) (s t : State) : Prop := ∀ p, p ∉ parts → samePart s t p

/-- The last result record after a command is settled (R187): its code, its result and its failure index, the rest of the port
as it was. -/
def recorded (code : Byte) (r : Result) (ix : Option Nat) (s t : State) : Prop :=
  t.port = { s.port with lastCommand := code, lastResult := r, failIndex := ix }

/-- The last result record of a command that the rise of NCS settles: as `recorded`, and the frame is over (R184, R185). -/
def recordedAtEnd (code : Byte) (r : Result) (ix : Option Nat) (s t : State) : Prop :=
  t.port = { s.port with lastCommand := code, lastResult := r, failIndex := ix, frame := none }

/-- Host commands reach the part: it is not held in reset, and no frame is being ignored (R193, R194). -/
abbrev listens (s : State) : Prop := s.port.held = false ∧ s.port.ignoring = false

/-- A host command that writes the record reaches its own tests: the part listens, and no checksum computation runs (R186). -/
abbrev commandTaken (s : State) : Prop := listens s ∧ s.score.status ≠ .checking

/-- The commands at which NCS rises: the end of AUDIO, and a command cut short (R159, R185). -/
def endsFrame : Instr → Bool
  | .commandIncomplete _ | .audioEnd _ => true
  | .configure record => decide (record.length < 605)
  | .scoreOpen header => decide (header.length < 6)
  | .scoreData body => decide (body.length < dataLength body)
  | _ => false

/-- A frame from record index `i` reaches its block: the part is not held, its receiver is not in HUNT, and the sender byte is the
node number of `i` (R52 to R54). -/
abbrev frameHandedOver (s : State) (sender : Byte) (i : Fin 32) : Prop :=
  s.port.held = false ∧ s.line.rx ≠ .hunt ∧ nodeIndex sender = some i

/-! ### What the statements name -/

/-- Entry to CODA from `s` (R18): the deadline and the cause; CUE STOP; every height, lamp and the gain ramp to 0 over the coda
length from their present values (R105, R142, R166), the lamps evaluated in the new state (R144); figures and the master level stand; STATE is
raised. -/
def codaEntered (c : ConfigRecord) (cause : CodaCause) (s t : State) : Prop :=
  t.ctl = { s.ctl with
    state := .coda, pendingCoda := none, codaCause := some cause, codaTested := false
    codaDeadline := some (s.clock.site + BitVec.ofNat 48 (1000 * c.codaLength)) } ∧
  t.cue = { s.cue with taking := false, queue := [], waiting := false } ∧
  t.pump = { s.pump with chan := t.pump.chan } ∧
  (∀ p : Fin 4, t.pump.chan[p] = { s.pump.chan[p] with height :=
    { start := s.pump.chan[p].height.present (showTime s), target := 0, anchor := showNow s, len := c.codaLength } }) ∧
  t.lamps = { s.lamps with lamp := t.lamps.lamp } ∧
  (∀ l : Fin 16, t.lamps.lamp[l] = { t.lamps.lamp[l] with
    start := s.lamps.lamp[l].colour (showTime s), target := black, anchor := showNow s, len := c.codaLength
    duty := lampDuty t c l }) ∧
  t.audio = { s.audio with
    gain := { start := s.audio.applied, target := 0, anchor := showNow s, len := c.codaLength }
    applied := if c.codaLength = 0 then 0 else s.audio.applied } ∧
  t.events = s.events.raised .state ∧ onlyChanges [.ctl, .cue, .pump, .lamps, .audio, .events] s t

/-- HALT entry from `s` (R21), what it does beside the line and the events: out of a show the result HALTED is written, the GO record
kept and the coda fields dropped; CUE STOP; every d_cmd is 0, the start list empty and the own ask vacated (R115); the valves of a
group whose pump still turns are held, every other group that followed its figure closes (R93); the gain fades to 0 over the halt
fade, and is 0 at once with no GO record (R166), its anchor then 0, which is the model's choice (notes/assumptions/40.md); the lamps
show safe light (R150). -/
def haltEntered (c : ConfigRecord) (s t : State) : Prop :=
  t.ctl =
    (if s.ctl.state.inShow then
      { s.ctl with
        state := .halted, pendingCoda := none, codaDeadline := none, codaCause := none, codaTested := false
        result := { kind := .halted, showId := (s.ctl.go.map (·.showId)).getD 0, endTime := showNow s } }
    else { s.ctl with state := .halted }) ∧
  t.cue = { s.cue with taking := false, queue := [], waiting := false } ∧
  t.pump = { s.pump with chan := t.pump.chan, startList := [], ask := t.pump.ask } ∧
  (∀ p : Fin 4, t.pump.chan[p] = { s.pump.chan[p] with
    dCmd := 0, stage := if s.pump.chan[p].stage = .on then .on else .off }) ∧
  t.pump.ask = (match s.pump.ask with
    | .none => .none
    | .queued _ => .queued none
    | .window e _ => .window e none) ∧
  (∀ g : Fin 4, t.jets[g] = { s.jets[g] with mode :=
    if s.jets[g].mode = .following then
      (if s.pump.chan[g].dOut = 0 then .closed else .holding (openSet s.score s.jets[g].valve))
    else s.jets[g].mode }) ∧
  t.lamps = { s.lamps with lamp := t.lamps.lamp } ∧
  (∀ l : Fin 16, t.lamps.lamp[l] = { s.lamps.lamp[l] with
    duty := if c.lamp[l].safety then { r := c.safeDuty, g := c.safeDuty, b := c.safeDuty } else black }) ∧
  t.audio = { s.audio with
    gain := { start := s.audio.applied, target := 0, anchor := showNow s, len := c.haltFade }
    applied := if c.haltFade = 0 ∨ s.ctl.go = none then 0 else s.audio.applied }

/-- The AUDIO command under reception after AUDIO CLEAR: one with kept frames is discarded (R159, R168), one trimmed entirely stays
(notes/assumptions/16.md). -/
def keptReception (s : State) : Option Reception :=
  s.audio.reception.filter fun r => !decide (r.keep < r.first + r.count)

/-- The sample of channel `p` at a pump period faults it (R122): the run output is on, the feedback is inactive, and the channel
was confirmed, or its confirm time is up. -/
def faultsAt (c : ConfigRecord) (s : State) (feedback : BitVec 4) (p : Fin 4) : Bool :=
  let ch := s.pump.chan[p]
  ch.runOutput && !feedback.getLsbD p &&
    (ch.phase = .confirmed ||
      ch.phase = .confirming && reached s.clock.site (ch.runOn + BitVec.ofNat 48 (1000 * c.pump[p].confirm)))

/-- Channel `p` computes a drive at a pump period: it is configured and not faulted, by its sample either (R100, R123). -/
def drivable (c : ConfigRecord) (s : State) (feedback : BitVec 4) (p : Fin 4) : Bool :=
  decide (c.pump[p].rated ≠ 0) && !s.pump.chan[p].faulted && !faultsAt c s feedback p

/-- Frame `k` of the zone audio is held in the queue, at ring position `pos` (R154). -/
def heldAt (a : AudioUnit) (k pos : Nat) : Prop :=
  ∃ b ∈ a.queue, b.start ≤ k ∧ k < b.start + b.count ∧ pos = (b.pos + (k - b.start)) % 16384

/-! ### What every step keeps -/

/-- The show controller (R2, R5, R61): a configuration is held in every state but STANDBY; an armed or playing node's score
is valid and frozen, and in STANDBY and IDLE it is not frozen; in a show the GO record is present and names that score, and
out of a show it is held in HALTED alone; the coda deadline and cause are held in CODA alone, the pending coda time in RUNNING
alone. -/
structure ShowInv (s : State) : Prop where
  configured : s.config.isSome = true ↔ s.ctl.state ≠ .standby
  armedValid : s.ctl.state = .armed ∨ s.ctl.state.inShow = true → s.score.status = .valid
  showHeld : s.ctl.state.inShow = true →
    ∃ g, s.ctl.go = some g ∧ g.showId = s.score.showId ∧ g.checksum = s.score.checksum
  goHeld : s.ctl.go.isSome = true → s.ctl.state.inShow = true ∨ s.ctl.state = .halted
  frozenHeld : s.ctl.state = .armed ∨ s.ctl.state.inShow = true → s.score.frozen = true
  thawed : s.ctl.state = .standby ∨ s.ctl.state = .idle → s.score.frozen = false
  deadlineHeld : s.ctl.codaDeadline.isSome = true ↔ s.ctl.state = .coda
  causeHeld : s.ctl.codaCause.isSome = true ↔ s.ctl.state = .coda
  pendingHeld : s.ctl.pendingCoda.isSome = true → s.ctl.state = .running

/-- The event unit (R179): overrun is set only while pending is set. -/
def EventInv (s : State) : Prop := s.events.overrun &&& ~~~s.events.pending = 0

/-- The own ask agrees with the stages: it carries channel `p` exactly while `p` is ASKING or ASKED (R116, R118). -/
def askCarries (a : Ask) (st : Stage) (p : Fin 4) : Prop :=
  (st = .asking ↔ a = .queued (some p)) ∧ (st = .asked ↔ ∃ t, a = .window t (some p))

/-- The pump controller: a channel whose run output is off has d_out = 0 (R114); the run output the lamps see is
on only where the channel runs (R95, R144); in HALTED every d_cmd is 0 (R115); the
start list holds exactly the channels WAITING, ASKING or ASKED, none twice, a channel ASKING or ASKED at its head (R101,
R116); the own ask agrees with the stages (R116, R118). -/
structure PumpInv (s : State) : Prop where
  stopped : ∀ p : Fin 4, s.pump.chan[p].runOutput = false → s.pump.chan[p].dOut = 0
  seen : ∀ p : Fin 4, s.pump.chan[p].ranAtPeriod = true → s.pump.chan[p].runOutput = true
  halted : s.ctl.state = .halted → ∀ p : Fin 4, s.pump.chan[p].dCmd = 0
  listed : ∀ p : Fin 4, p ∈ s.pump.startList ↔ s.pump.chan[p].stage.inList = true
  once : s.pump.startList.Nodup
  asks : ∀ p : Fin 4, askCarries s.pump.ask s.pump.chan[p].stage p
  atHead : ∀ p : Fin 4, s.pump.chan[p].stage = .asking ∨ s.pump.chan[p].stage = .asked → s.pump.startList.head? = some p

/-- The stores of bounded size: the transmit queue in class order (R45), the action queue in due-time order (R74), the lock counts (R24),
the window history and the applied wind factor (R126, R133), the canonical form of the two memories. -/
structure StoreInv (s : State) : Prop where
  frames : s.line.queue.length ≤ 8
  classOrder : s.line.queue.Pairwise fun f g => frameClass f.payload ≤ frameClass g.payload
  actions : s.cue.queue.length ≤ 64
  dueOrder : s.cue.queue.Pairwise fun a b => a.due ≤ b.due
  withinCount : s.clock.within ≤ 4
  outsideCount : s.clock.outside ≤ 2
  history : s.wind.history.length ≤ 8
  applied : s.wind.applied ≤ s.wind.factor
  scoreForm : s.score.mem.wf = true
  ringForm : s.audio.ring.wf = true

/-- The frames an AUDIO command under reception still has reserved (R158). -/
def reserved (r : Reception) : Nat := r.first + r.count - r.keep

/-- The audio unit (R154): at most 32 blocks, none empty, each beginning at or after the end of the one before it, and at
most 16,384 frames held, at positions of the ring; what a command under reception has reserved still fits behind them (R156 to
R158). -/
structure AudioInv (s : State) : Prop where
  blocks : s.audio.queue.length ≤ 32
  nonempty : ∀ b ∈ s.audio.queue, 0 < b.count
  ordered : s.audio.queue.Pairwise fun a b => a.start + a.count ≤ b.start
  fill : ringFill s.audio ≤ 16384
  positions : s.audio.writePos < 16384 ∧ ∀ b ∈ s.audio.queue, b.pos < 16384
  judged : ∀ r, s.audio.reception = some r → r.first ≤ r.keep ∧ r.count ≤ 4096 ∧ r.pos < 16384
  roomKept : ∀ r, s.audio.reception = some r → reserved r ≠ 0 →
    s.audio.queue.length < 32 ∧ ringFill s.audio + reserved r ≤ 16384 ∧ ∀ b ∈ s.audio.queue, b.start + b.count ≤ r.keep

end Sys2Proof.Safety
end

