-- ==== Sys2Proof/WellFormed.lean ====
section
/-! DEFINITION. Well-formed commands: those that the part's host port, line and pins can present with their operands. A
command that is not well-formed still has a meaning; what it does then is said where the meaning stands. -/

namespace Sys2Proof

/-- A node number of a sender, 1 to 32 (R43). -/
def isNodeNumber (b : Byte) : Bool := decide (1 ≤ b.toNat ∧ b.toNat ≤ 32)

/-- A command code that takes parameters, so that its frame can be cut short (R185, R187). -/
def takesParameters (code : Byte) : Bool := recordedCodes.contains code || code == 0x6C

/-- The frame bytes carry a failure of R53. -/
def isFailure : Machine.Verdict → Bool
  | .intact _ _ _ => false
  | .formatEarly | .truncated | .checkError | .formatLength => true

/-- The operands are ones that can be presented: byte lists of their command's length (R185, R187), a sender's number (R43),
a code of the right table, idle times at which an attempt or READY can come (R48, R52). -/
def Instr.wellFormed : Instr → Bool
  | .configure record => record.length == 605
  | .scoreOpen header => header.length == 6
  | .scoreData body => body.length == dataLength body
  | .unknownCommand code => !knownCodes.contains code
  | .commandIncomplete code => takesParameters code
  | .beaconReceived sender _ _ _ => isNodeNumber sender
  | .goFrameReceived sender _ => isNodeNumber sender
  | .stopFrameReceived sender _ => isNodeNumber sender
  | .haltFrameReceived sender _ => isNodeNumber sender
  | .startAskReceived sender _ _ => isNodeNumber sender
  | .frameFault bytes => isFailure (Machine.judge bytes)
  | .attemptStart idleBits => decide (10 ≤ idleBits)
  | .receiverReady idleBits => decide (10 ≤ idleBits)
  | .nop | .softReset | .ident | .status | .scoreClose | .arm | .disarm | .go _ | .stop | .release | .audio _ _
  | .events | .eventClear _ | .eventMask _ | .peers | .pump _ | .audioEnd _ | .powerOnReset | .pinReset | .resetExit
  | .beaconDue | .transmissionComplete | .attemptFailed | .roundEnd | .slewAdjustment | .peerStale _ | .peerAbsent _
  | .startReached | .pendingCodaReached | .codaDeadline | .checksumComplete | .cueTaken | .actionFires
  | .figureStepBoundary _ _ | .figureEnd _ | .pumpPeriod _ | .holdWindowEnd | .anemometerPulse | .windowClose
  | .lampPeriod | .gainUpdate | .frameInstant | .safetyLevelChange _ _ | .debounceExpiry _ => true

end Sys2Proof
end

