-- ==== Sys2Proof/Certificates/Slice0/Obligations.lean ====
section
/-! DEFINITION. The statements about the model, for the provers. -/

open Sys2Proof Sys2Proof.Machine Sys2Proof.Safety

/-! ### The step, resets and the port -/

/-- A step takes the command at the front of the queue and runs it on the state with the queue's rest. -/
def Obligations.StepRunsFrontCommand : Prop :=
  ∀ (c : Instr) (rest : List Instr) (s : State), s.pending = c :: rest → step s = exec c { s with pending := rest }

/-- With no command waiting a step takes the occurrence that is due, and where none is, one microsecond of local time passes:
site time advances by one, the safety pins are sampled (R173, notes/assumptions/36.md), and of the rest only local times and the age of
a checksum computation change. A part held in reset idles. The choice of what an empty queue does is the model's
(notes/assumptions/1.md). -/
def Obligations.IdleStepRunsClock : Prop :=
  ∀ s : State, s.pending = [] →
    (s.port.held = true → step s = .next s) ∧
    (s.port.held = false → ∀ i, dueOccurrence s = some i → step s = exec i s) ∧
    (s.port.held = false → dueOccurrence s = none → ∃ t, step s = .next t ∧
      t.clock.site = s.clock.site + 1 ∧
      t.clock = { s.clock with site := t.clock.site, roundLocal := t.clock.roundLocal, sinceStep := t.clock.sinceStep } ∧
      t.score = { s.score with checkAge := t.score.checkAge } ∧
      (∀ i : Fin 8, t.safety[i] = { s.safety[i] with before := none }) ∧
      onlyChanges [.clock, .score, .safety] s t)

/-- Resets. A power-on or pin reset puts every block at its reset value (R1, R24, R45, R56, R61, R71, R84, R91, R101, R126, R138, R154,
R172, R178, R187, R192) and holds the part; every output takes its reset value at once, and MISO is not driven (R193). SOFT RESET keeps
site time, score memory with a VALID status, the event mask, and the idle time of the line, which is no state of the part
(notes/assumptions/42.md); every other block takes its reset value, the outputs at once, and the part is not held. A command frame in
progress is ignored to its end after either (R194). The levels on the input pins and the queue of commands are the outside's (the model's
choice, notes/assumptions/5.md). That the first block of audio is entered at ring position 0 is the model's choice too
(notes/assumptions/16.md). -/
def Obligations.ResetsClear : Prop :=
  (∀ (s : State) (c : Instr) (cause : ResetCause),
    (c = .powerOnReset ∧ cause = .power) ∨ (c = .pinReset ∧ cause = .pin) →
    ∃ t, exec c s = .next t ∧
      t.ctl = .reset ∧ t.config = none ∧ t.clock = .reset ∧ t.line = .reset ∧ (∀ i : Fin 32, t.peers[i] = .cleared) ∧
      t.score = .reset ∧ t.cue = .reset ∧ (∀ g : Fin 4, t.jets[g] = .reset) ∧
      t.pump = { PumpController.reset with feedback := s.pump.feedback } ∧ t.wind = .reset ∧ t.lamps = .reset ∧
      t.audio = .reset ∧ t.events = .reset ∧
      (∀ i : Fin 8, t.safety[i] = { pin := s.safety[i].pin, stable := false, since := none, before := none }) ∧
      t.port = { HostPort.reset cause true with frame := s.port.frame.map fun _ => { phase := .ignored, bits := [] } } ∧
      outputs t = .atReset none ∧ onlyChanges
        [.ctl, .config, .clock, .line, .peers, .score, .cue, .jets, .pump, .wind, .lamps, .audio, .events, .safety, .port] s t) ∧
  ∀ s : State, listens s → ∃ t, exec .softReset s = .next t ∧
    t.ctl = .reset ∧ t.config = none ∧ t.clock = { Clock.reset with site := s.clock.site } ∧
    t.line = { LineController.reset with wire := { Wire.reset with idle := s.line.wire.idle } } ∧
    (∀ i : Fin 32, t.peers[i] = .cleared) ∧
    t.score = { s.score with status := t.score.status, frozen := false, checkAge := 0 } ∧
    (s.score.status = .valid → t.score.status = .valid) ∧ (s.score.status ≠ .valid → t.score.status = .none) ∧
    t.cue = .reset ∧ (∀ g : Fin 4, t.jets[g] = .reset) ∧ t.pump = { PumpController.reset with feedback := s.pump.feedback } ∧
    t.wind = .reset ∧ t.lamps = .reset ∧ t.audio = .reset ∧
    (∀ i : Fin 8, t.safety[i] = { pin := s.safety[i].pin, stable := false, since := none, before := none }) ∧
    t.events = { pending := 0, overrun := 0, masked := s.events.masked } ∧
    t.port = { HostPort.reset .soft false with frame := s.port.frame.map fun _ => { phase := .ignored, bits := [] } } ∧
    outputs t = .atReset (s.port.frame.map fun _ => false) ∧ onlyChanges
      [.ctl, .config, .clock, .line, .peers, .score, .cue, .jets, .pump, .wind, .lamps, .audio, .events, .safety, .port] s t

/-- While the part is held in a power-on or pin reset nothing but a reset, its end, and the level of a safety pin changes it (R193);
RESET_EXIT ends the hold and changes nothing else (R192). While the frame in progress is ignored no host command changes the part
(R194). In both cases a command at which NCS rises ends the frame, and writes no result. -/
def Obligations.HeldPartIgnoresCommands : Prop :=
  (∀ (c : Instr) (s : State), s.port.held = true → c ≠ .powerOnReset → c ≠ .pinReset → c ≠ .resetExit →
    (∀ i h, c ≠ .safetyLevelChange i h) → exec c s = .next (if endsFrame c then endFrame s else s)) ∧
  (∀ s : State, ∃ t, exec .resetExit s = .next t ∧ t.port = { s.port with held := false } ∧ onlyChanges [.port] s t) ∧
  ∀ (c : Instr) (s : State), s.port.ignoring = true → commandFrame c ≠ none ∨ (∃ bytes, c = .audioEnd bytes) →
    exec c s = .next (if endsFrame c then endFrame s else s)

/-- NOP changes nothing; IDENT, STATUS, EVENTS, PEERS and PUMP give their reply and change nothing else (R188); PEERS and PUMP answer
bytes 0x00 while a checksum computation runs, and PUMP for a channel above 3 (R186, R188; that neither writes a record then is the
model's reading, notes/assumptions/29.md). -/
def Obligations.ReadsAnswerAndKeep : Prop :=
  ∀ s : State, listens s →
    exec .nop s = .next s ∧
    (∀ c reply,
      (c = .ident ∧ reply = [0x6B, 0x40, 0x03]) ∨
      (c = .status ∧ reply = statusReply s) ∨
      (c = .events ∧ reply = eventsReply s) ∨
      (c = .peers ∧ s.score.status ≠ .checking ∧ reply = peersReply s) ∨
      (c = .peers ∧ s.score.status = .checking ∧ reply = List.replicate 1031 0) ∨
      (∃ p : Fin 4, c = .pump (BitVec.ofNat 8 p.val) ∧ s.score.status ≠ .checking ∧ reply = pumpReply s p) ∨
      (∃ n, c = .pump n ∧ (s.score.status = .checking ∨ 3 < n.toNat) ∧ reply = List.replicate 68 0) →
      ∃ t, exec c s = .next t ∧ t.port = { s.port with reply := reply } ∧ onlyChanges [.port] s t)

/-- The pins of the host port (R184, R185, R193, R194). NCS falling begins a frame, one to be ignored while the part is held. Eight cycles
of SCK bring one byte, most significant bit first, while MISO carries 0x00, or the next byte of a dummy byte and reply. The byte that
completes a command has it taken; before it only the frame's own bytes change. NCS rising ends the frame: a partial byte is discarded,
and a command not yet taken is INCOMPLETE. Of an ignored frame nothing is taken. Held, or with NCS high, SCK is ignored and MISO not
driven. That an ignored frame carries 0x00 is the model's reading (notes/assumptions/37.md). -/
def Obligations.PortFollowsPins : Prop :=
  (∀ s : State, s.port.frame = none →
    (ncsFalls s).port =
      { s.port with frame := some { phase := if s.port.held then .ignored else .gathering [], bits := [] } } ∧
    onlyChanges [.port] s (ncsFalls s) ∧ misoLevel s.port = none ∧ ncsRises s = s ∧ ∀ b, sckCycle s b = s) ∧
  (∀ s : State, s.port.held = true → misoLevel s.port = none ∧ ∀ b, sckCycle s b = s) ∧
  (∀ (s : State) (phase : FramePhase) (b : Byte), s.port.held = false → s.port.frame = some { phase := phase, bits := [] } →
    let bits := (List.range 8).map fun k => b.getLsbD (7 - k)
    let carried := fun next : State =>
      (∀ k, k < 8 → misoLevel ((bits.take k).foldl sckCycle s).port =
        some ((match phase with
          | .over (d :: _) => d
          | _ => 0).getLsbD (7 - k))) ∧
      bits.foldl sckCycle s = next
    let going := fun next : FramePhase => { s with port := { s.port with frame := some { phase := next, bits := [] } } }
    (phase = .ignored → carried (going .ignored)) ∧
    (∀ bytes, phase = .audio bytes → carried (going (.audio (bytes ++ [b])))) ∧
    (∀ out, phase = .over out → carried (going (.over out.tail))) ∧
    (∀ bytes, phase = .gathering bytes → takenBy (bytes ++ [b]) = none → carried (going (.gathering (bytes ++ [b])))) ∧
    (∀ bytes i, phase = .gathering bytes → takenBy (bytes ++ [b]) = some i → ∃ u, exec i s = .next u ∧
      let next : FramePhase := match i with
        | .audio _ _ => .audio []
        | .softReset => .ignored
        | .ident | .status | .events | .peers | .pump _ => .over (0 :: u.port.reply)
        | _ => .over []
      carried { u with port := { u.port with frame := some { phase := next, bits := [] } } })) ∧
  (∀ (s : State) (f : PortFrame), s.port.frame = some f →
    let ended := { s with port := { s.port with frame := none } }
    (f.phase = .ignored ∨ f.phase = .gathering [] ∨ (∃ out, f.phase = .over out) → ncsRises s = ended) ∧
    (∀ bytes, f.phase = .audio bytes → exec (.audioEnd bytes) s = .next (ncsRises s)) ∧
    (∀ bytes code, f.phase = .gathering bytes → decodeCommandFrame bytes = [.commandIncomplete code] →
      exec (.commandIncomplete code) s = .next (ncsRises s))) ∧
  ∀ (s : State) (bits : List Bool), s.port.ignoring = true →
    (bits.foldl sckCycle s).port.ignoring = true ∧ (bits.foldl sckCycle s).port = { s.port with
      frame := (bits.foldl sckCycle s).port.frame } ∧ onlyChanges [.port] s (bits.foldl sckCycle s)

/-- The replies, each field at its offset: the status record in 68 bytes (R191), EVENTS in 7, PEERS in 1,031 with its 32 records of 32
bytes, PUMP in 68 (R188). The bytes of a last offset beyond signed 32 bits are free (notes/assumptions/8.md), and the pump number of a
last ask that is absent reads 255 (the model's reading, notes/assumptions/21.md). -/
def Obligations.ReplyRecordLayouts : Prop :=
  ∀ s : State,
    let cut := fun (r : List Byte) (offset size : Nat) => (r.drop offset).take size
    (let r := statusReply s
      let at' := cut r
      r.length = 68 ∧
      at' 0 1 = le 1 s.ctl.state.code ∧ at' 1 1 = [statusFlags s] ∧ at' 2 1 = [s.port.cause.code] ∧
      at' 3 1 = [s.port.lastResult.code] ∧ at' 4 2 = le 2 (s.port.failIndex.getD 65535) ∧ at' 6 1 = [s.port.lastCommand] ∧
      at' 7 1 = le 1 ((topEvent s.events).getD 255) ∧ at' 8 6 = le 6 s.clock.site.toNat ∧
      (∀ g, s.ctl.go = some g →
        at' 14 6 = leInt 6 (sdiff s.clock.site g.start) ∧ at' 20 6 = le 6 g.start.toNat) ∧
      (s.ctl.go = none → at' 14 6 = le 6 0 ∧ at' 20 6 = le 6 0) ∧
      at' 26 1 = [s.score.status.code] ∧ at' 27 2 = le 2 s.score.showId.toNat ∧ at' 29 2 = le 2 s.score.checksum.toNat ∧
      at' 31 2 = le 2 s.cue.pointer ∧ at' 33 1 = le 1 s.cue.queue.length ∧ at' 34 2 = le 2 s.cue.lateCount ∧
      at' 36 1 = le 1 s.cue.lastMark ∧ at' 37 4 = le 4 (s.audio.play.getD 4294967295) ∧
      at' 41 2 = le 2 (s.audio.queue.map (·.count)).sum ∧ at' 43 1 = le 1 s.audio.queue.length ∧
      at' 44 2 = le 2 s.audio.underrunCount ∧ at' 46 4 = le 4 s.audio.skipCount ∧ at' 50 2 = le 2 s.wind.site ∧
      at' 52 2 = le 2 s.wind.applied ∧ at' 54 2 = le 2 s.pump.demand ∧ at' 56 2 = le 2 s.pump.grant ∧
      at' 58 1 = [stableSet s] ∧ at' 59 1 = [s.ctl.result.kind.code] ∧ at' 60 2 = le 2 s.ctl.result.showId.toNat ∧
      at' 62 6 = leInt 6 s.ctl.result.endTime) ∧
    (let r := eventsReply s
      let at' := cut r
      r.length = 7 ∧ at' 0 2 = le 2 s.events.pending.toNat ∧ at' 2 2 = le 2 s.events.overrun.toNat ∧
      at' 4 2 = le 2 s.events.masked.toNat ∧ at' 6 1 = le 1 ((topEvent s.events).getD 255)) ∧
    (let r := peersReply s
      let at' := cut r
      r.length = 1031 ∧
      (∀ i : Fin 32, let p := s.peers[i]
        let field := fun offset size => at' (32 * i.val + offset) size
        field 0 1 = [p.presence.code] ∧ field 1 1 = [p.state] ∧ field 2 1 = [p.flags] ∧ field 3 2 = le 2 p.showId.toNat ∧
        field 5 2 = le 2 p.checksum.toNat ∧ field 7 6 = le 6 p.showStart.toNat ∧ field 13 2 = le 2 p.demand.toNat ∧
        field 15 2 = le 2 p.wind.toNat ∧ field 17 1 = [p.interval] ∧ field 18 6 = le 6 p.lastArrival.toNat ∧
        field 24 1 = [p.lastSeq] ∧
        (-2147483648 ≤ p.lastOffset → p.lastOffset ≤ 2147483647 → field 25 4 = leInt 4 p.lastOffset) ∧
        field 29 1 = le 1 p.heard ∧ field 30 1 = le 1 p.missed ∧ field 31 1 = le 1 p.outliers) ∧
      at' 1024 1 = le 1 s.line.format ∧ at' 1025 1 = le 1 s.line.truncated ∧ at' 1026 1 = le 1 s.line.check ∧
      at' 1027 1 = le 1 s.line.collisions ∧ at' 1028 1 = le 1 s.line.drops ∧
      at' 1029 2 = (match s.line.lastHalt with
        | none => [0, 0]
        | some (sender, inputs) => [sender, inputs])) ∧
    (∀ p : Fin 4, let r := pumpReply s p
      let at' := cut r
      let ch := s.pump.chan[p]
      let absent := List.replicate 6 (255 : Byte)
      r.length = 68 ∧
      at' 0 1 = (match s.config with
        | none => [0]
        | some c => [if c.pump[p].rated = 0 then 0 else 1]) ∧
      at' 1 2 = le 2 ch.height.start ∧ at' 3 2 = le 2 ch.height.target ∧ at' 5 6 = leInt 6 ch.height.anchor ∧
      at' 11 2 = le 2 ch.height.len ∧ at' 13 2 = le 2 ch.hNow ∧ at' 15 2 = le 2 ch.hEff ∧ at' 17 2 = le 2 ch.dT ∧
      at' 19 2 = le 2 ch.dC ∧ at' 21 2 = le 2 ch.dCmd ∧ at' 23 2 = le 2 ch.dOut ∧ at' 25 1 = [ch.stage.code] ∧
      at' 26 1 = [if ch.runOutput then 1 else 0] ∧ at' 27 1 = [ch.phase.code] ∧ at' 28 6 = le 6 ch.runOn.toNat ∧
      at' 34 1 = [if ch.faulted then 1 else 0] ∧ at' 35 1 = [ch.cause.code] ∧ at' 36 4 = le 4 s.pump.viewSum ∧
      at' 40 2 = le 2 s.pump.grant ∧
      (∀ k, k < 4 → at' (42 + k) 1 = le 1 ((s.pump.startList[k]?.map (·.val)).getD 255)) ∧
      (s.pump.ask = .none → at' 46 2 = [0, 255] ∧ at' 48 6 = absent) ∧
      (∀ n, s.pump.ask = .queued n → at' 46 2 = 1 :: le 1 ((n.map (·.val)).getD 255) ∧ at' 48 6 = absent) ∧
      (∀ e n, s.pump.ask = .window e n → at' 46 2 = 2 :: le 1 ((n.map (·.val)).getD 255) ∧ at' 48 6 = le 6 e.toNat) ∧
      (s.pump.busyUntil = none → at' 54 6 = absent) ∧ (∀ u, s.pump.busyUntil = some u → at' 54 6 = le 6 u.toNat) ∧
      (s.pump.lastAsk = none → at' 60 8 = [255, 255] ++ absent) ∧
      (∀ a, s.pump.lastAsk = some a → at' 60 2 = [a.sender, a.pump] ∧ at' 62 6 = le 6 a.arrival.toNat))

/-- Refusals by the port itself. While a checksum computation runs every command that writes the last result record is refused with
BUSY and changes nothing else, an unknown command code too (R186). Otherwise a command code outside the command table is refused with
PARAM at the end of its byte; a command that NCS cut short is discarded with INCOMPLETE and has no effect, and one that writes no
record only ends its frame (R185, R187). -/
def Obligations.PortRefusesCommands : Prop :=
  (∀ (s : State) (code : Byte) (c : Instr), listens s → s.score.status = .checking →
      (code = 0x20 ∧ ∃ record, 605 ≤ record.length ∧ c = .configure record) ∨
      (code = 0x30 ∧ ∃ header, 6 ≤ header.length ∧ c = .scoreOpen header) ∨
      (code = 0x31 ∧ ∃ body, body.length = dataLength body ∧ c = .scoreData body) ∨
      (code = 0x32 ∧ c = .scoreClose) ∨ (code = 0x40 ∧ c = .arm) ∨ (code = 0x41 ∧ c = .disarm) ∨
      (code = 0x44 ∧ ∃ delay, c = .go delay) ∨ (code = 0x45 ∧ c = .stop) ∨ (code = 0x48 ∧ c = .release) ∨
      (code = 0x50 ∧ ∃ start count, c = .audio start count) ∨ (code = 0x61 ∧ ∃ set, c = .eventClear set) ∨
      (code = 0x62 ∧ ∃ set, c = .eventMask set) ∨ (code ∉ knownCodes ∧ c = .unknownCommand code) →
      ∃ t, exec c s = .next t ∧ recorded code .busy none s t ∧ onlyChanges [.port] s t) ∧
  ∀ (s : State) (code : Byte), listens s →
    (code ∉ knownCodes → s.score.status ≠ .checking →
      ∃ t, exec (.unknownCommand code) s = .next t ∧ recorded code .param none s t ∧ onlyChanges [.port] s t) ∧
    (code ∈ recordedCodes →
      ∃ t, exec (.commandIncomplete code) s = .next t ∧ recordedAtEnd code .incomplete none s t ∧ onlyChanges [.port] s t) ∧
    (code ∉ recordedCodes → exec (.commandIncomplete code) s = .next (endFrame s))

/-! ### Configuration and loading -/

/-- CONFIGURE in STANDBY with a record that passes every check is accepted with OK, in the stages of R189, which end in state `u`: the record
is stored; the own record is FRESH and clear, every other record ages at the new interval, and PEER is raised for each that becomes
ABSENT (R57 to R59); the round is entered part-way (R27, R28); f_applied starts from 1,024 (R131, R133); the safety inputs are read
(R172); the horizon is set (R72); the show state is IDLE, its lamps dark. The periods of 10 ms and the wind windows begin at their next
multiple (the model's reading, notes/assumptions/10.md). Where a FRESH record then carries the halt flag the node passes on to HALTED
with HALT entry, and STATE and HALT are raised (R4, R5, R21); the gain record's anchor is then 0, no GO record being held (the model's
choice, notes/assumptions/40.md). -/
def Obligations.ConfigureAccepted : Prop :=
  ∀ (s : State) (record : List Byte), commandTaken s → s.ctl.state = .standby → 605 ≤ record.length →
    firstFailure record = none →
    let c := parseRecord record
    let stored := { s with config := some c }
    let next := multipleAfter s.clock.site 10000
    ∃ u t, exec (.configure record) s = .next t ∧ recorded 0x20 .ok none s t ∧
      u.config = some c ∧ u.cue = { s.cue with horizon := horizonOf c } ∧
      u.peers[c.own] = { Peer.cleared with presence := .fresh } ∧
      (∀ i : Fin 32, i ≠ c.own → u.peers[i] =
        if absentDue stored i then Peer.cleared
        else if staleDue stored i then { s.peers[i] with presence := .stale } else s.peers[i]) ∧
      u.events = ((List.finRange 32).filter fun i => absentDue stored i).foldl (fun e _ => e.raised .peer) s.events ∧
      u.ctl = { s.ctl with state := .idle } ∧
      u.clock = { s.clock with
        roundStart := some (multipleBelow s.clock.site (1000 * c.interval))
        offsets := Vector.replicate 32 none
        beaconDue :=
          let due := plus (multipleBelow s.clock.site (1000 * c.interval)) ((c.own.val * (1000 * c.interval) / 32 : Nat) : Int)
          if reached s.clock.site due then none else some due
        correction := 0
        made := 0
        within := 0
        outside := 0
        roundLocal := 0 } ∧
      u.wind = { s.wind with
        site := siteWind c u, factor := windFactor c (siteWind c u), applied := min 1024 (windFactor c (siteWind c u))
        next := multipleAfter s.clock.site 1000000 } ∧
      (∀ i : Fin 8, u.safety[i] =
        { pin := s.safety[i].pin, stable := false, before := none
          since := if levelSeen c i s.safety[i] then some s.clock.site else none }) ∧
      u.pump = { s.pump with next := next } ∧ u.audio = { s.audio with nextGain := next } ∧
      u.lamps = { s.lamps with next := next, lamp := u.lamps.lamp } ∧
      (∀ l : Fin 16, u.lamps.lamp[l] = { s.lamps.lamp[l] with duty := black }) ∧
      onlyChanges [.config, .cue, .peers, .events, .ctl, .clock, .wind, .safety, .pump, .audio, .lamps] s u ∧
      (freshPeerHalts u = false → onlyChanges [.port] u t) ∧
      (freshPeerHalts u = true → haltEntered c u t ∧ t.events = (u.events.raised .state).raised .halt ∧
        onlyChanges [.port, .ctl, .cue, .jets, .pump, .lamps, .audio, .events] u t)

/-- Refusals of CONFIGURE and SCORE DATA. CONFIGURE out of STANDBY is refused with STATE; in STANDBY a record that fails a check is refused
with PARAM and the offset of the first failing field as failure index; nothing else changes, so the node stays in STANDBY with no
configuration (R5, R189). SCORE DATA out of IDLE, with the score frozen, or with a status other than LOADING is refused with STATE; with
a part byte outside 1 and 2 or a count outside 1 to 32 it is refused with PARAM and leaves the load as it was (R63, R65). Either cut
short is discarded with INCOMPLETE, and its frame ends (R185). -/
def Obligations.LongCommandsRefused : Prop :=
  (∀ (s : State) (record : List Byte),
      (commandTaken s → 605 ≤ record.length → s.ctl.state ≠ .standby →
        ∃ t, exec (.configure record) s = .next t ∧ recorded 0x20 .state none s t ∧ onlyChanges [.port] s t) ∧
      (commandTaken s → 605 ≤ record.length → s.ctl.state = .standby → ∀ offset, firstFailure record = some offset →
        ∃ t, exec (.configure record) s = .next t ∧ recorded 0x20 .param (some offset) s t ∧ onlyChanges [.port] s t) ∧
      (listens s → record.length < 605 →
        ∃ t, exec (.configure record) s = .next t ∧ recordedAtEnd 0x20 .incomplete none s t ∧ onlyChanges [.port] s t)) ∧
  ∀ (s : State) (body : List Byte),
    (commandTaken s → body.length = dataLength body → s.ctl.state ≠ .idle ∨ s.score.frozen = true ∨ s.score.status ≠ .loading →
      ∃ t, exec (.scoreData body) s = .next t ∧ recorded 0x31 .state none s t ∧ onlyChanges [.port] s t) ∧
    (commandTaken s → body.length = dataLength body → s.ctl.state = .idle → s.score.frozen = false → s.score.status = .loading →
      (byteAt body 0 = 0 ∨ 2 < byteAt body 0 ∨ byteAt body 1 = 0 ∨ 32 < byteAt body 1) →
      ∃ t, exec (.scoreData body) s = .next t ∧ recorded 0x31 .param none s t ∧ onlyChanges [.port] s t) ∧
    (listens s → body.length < dataLength body →
      ∃ t, exec (.scoreData body) s = .next t ∧ recordedAtEnd 0x31 .incomplete none s t ∧ onlyChanges [.port] s t)

/-- SCORE OPEN and SCORE CLOSE. SCORE OPEN in IDLE with the score not frozen: a header in range is stored, the load counts, previous cue time
and checksum become 0 and the status LOADING, records and rows are not cleared; a header out of range is refused with PARAM, one cut short
with INCOMPLETE. SCORE CLOSE in LOADING (R67): with every record loaded, an END at the last index, and every FIGURE cue reaching only loaded
rows it is accepted with OK and the status becomes CHECKING; the first test that fails refuses it with PARAM, with the first FIGURE cue
that does not as failure index, and the status stays LOADING. In any other state, and with the score frozen, both are refused with STATE;
so is SCORE CLOSE with a status other than LOADING. A refusal changes nothing else (R63, R64). -/
def Obligations.ScoreOpenAndClose : Prop :=
  (∀ (s : State) (header : List Byte), commandTaken s → 6 ≤ header.length →
      let cues := leAt header 2 2
      let rows := leAt header 4 2
      (s.ctl.state = .idle → s.score.frozen = false → 1 ≤ cues → cues ≤ 2048 → rows ≤ 1024 →
        ∃ t, exec (.scoreOpen header) s = .next t ∧ recorded 0x30 .ok none s t ∧
          t.score = { s.score with
            showId := BitVec.ofNat 16 (leAt header 0 2), cueCount := cues, rowCount := rows, cuesLoaded := 0, rowsLoaded := 0
            prevTime := 0, checksum := 0, status := .loading } ∧
          onlyChanges [.port, .score] s t) ∧
      (s.ctl.state = .idle → s.score.frozen = false → cues = 0 ∨ 2048 < cues ∨ 1024 < rows →
        ∃ t, exec (.scoreOpen header) s = .next t ∧ recorded 0x30 .param none s t ∧ onlyChanges [.port] s t) ∧
      (s.ctl.state ≠ .idle ∨ s.score.frozen = true →
        ∃ t, exec (.scoreOpen header) s = .next t ∧ recorded 0x30 .state none s t ∧ onlyChanges [.port] s t)) ∧
  (∀ (s : State) (header : List Byte), listens s → header.length < 6 →
    ∃ t, exec (.scoreOpen header) s = .next t ∧ recordedAtEnd 0x30 .incomplete none s t ∧ onlyChanges [.port] s t) ∧
  ∀ s : State, commandTaken s →
    let sc := s.score
    let open' := s.ctl.state = .idle ∧ sc.frozen = false ∧ sc.status = .loading
    let loaded := sc.cuesLoaded = sc.cueCount ∧ sc.rowsLoaded = sc.rowCount
    let ended := byteAt (cueBytes sc (sc.cueCount - 1)) 0 = 0x0F
    let reaches := fun i => isFigureKind (byteAt (cueBytes sc i) 0) = true →
      ∀ k, k < (cueFigure (cueBytes sc i)).steps →
        figureRow (cueFigure (cueBytes sc i)).startRow (cueFigure (cueBytes sc i)).pitch k < sc.rowCount
    (open' → loaded → ended → (∀ i, i < sc.cueCount → reaches i) →
      ∃ t, exec .scoreClose s = .next t ∧ recorded 0x32 .ok none s t ∧
        t.score = { sc with status := .checking, checkAge := 0 } ∧ onlyChanges [.port, .score] s t) ∧
    (open' → ¬ (loaded ∧ ended) →
      ∃ t, exec .scoreClose s = .next t ∧ recorded 0x32 .param none s t ∧ onlyChanges [.port] s t) ∧
    (open' → loaded → ended → ∀ i, i < sc.cueCount → ¬ reaches i → (∀ j, j < i → reaches j) →
      ∃ t, exec .scoreClose s = .next t ∧ recorded 0x32 .param (some i) s t ∧ onlyChanges [.port] s t) ∧
    (¬ open' → ∃ t, exec .scoreClose s = .next t ∧ recorded 0x32 .state none s t ∧ onlyChanges [.port] s t)

/-- SCORE DATA with `n` cue records, of which the first `m` pass their checks: those are stored at the next indices with their
clamped values, and every other byte of score memory reads as before; where `m` is `n` the result is OK and the status stays
LOADING, and where record `m` fails a check the first failed check gives the result, the index it would have taken is the failure
index, and the status becomes FAILED (R65, R66). -/
def Obligations.ScoreDataStoresCues : Prop :=
  ∀ (s : State) (n m : Nat) (records : List Byte),
    let sc := s.score
    let cue := fun k => (records.drop (16 * k)).take 16
    let before := fun k => if k = 0 then sc.prevTime else cueTime (cue (k - 1))
    let ordered := fun k => sc.cuesLoaded + k = 0 ∨ before k ≤ cueTime (cue k)
    commandTaken s → s.ctl.state = .idle → sc.frozen = false → sc.status = .loading → sc.mem.wf = true →
    1 ≤ n → n ≤ 32 → records.length = 16 * n → m ≤ n →
    (∀ k, k < m →
      sc.cuesLoaded + k < sc.cueCount ∧ cueLegal sc.cueCount (sc.cuesLoaded + k) (cue k) = true ∧ ordered k) →
    ∀ (r : Result) (status : ScoreStatus) (ix : Option Nat),
      (m = n ∧ r = .ok ∧ status = .loading ∧ ix = none) ∨
      (m < n ∧ status = .failed ∧ ix = some (sc.cuesLoaded + m) ∧
        ((sc.cueCount ≤ sc.cuesLoaded + m ∧ r = .space) ∨
         (sc.cuesLoaded + m < sc.cueCount ∧ cueLegal sc.cueCount (sc.cuesLoaded + m) (cue m) = false ∧ r = .param) ∨
         (sc.cuesLoaded + m < sc.cueCount ∧ cueLegal sc.cueCount (sc.cuesLoaded + m) (cue m) = true ∧ ¬ ordered m ∧
           r = .order))) →
      ∃ t, exec (.scoreData ([1, BitVec.ofNat 8 n] ++ records)) s = .next t ∧ recorded 0x31 r ix s t ∧
        t.score = { sc with mem := t.score.mem, cuesLoaded := sc.cuesLoaded + m, prevTime := before m, status := status } ∧
        (∀ a, cueAddress sc.cuesLoaded ≤ a → a < cueAddress (sc.cuesLoaded + m) →
          (t.score.mem.read a).toNat =
            byteAt (cueClamped (cue ((a - cueAddress sc.cuesLoaded) / 16))) ((a - cueAddress sc.cuesLoaded) % 16)) ∧
        (∀ a, a < cueAddress sc.cuesLoaded ∨ cueAddress (sc.cuesLoaded + m) ≤ a → t.score.mem.read a = sc.mem.read a) ∧
        onlyChanges [.port, .score] s t

/-- SCORE DATA with `n` pattern rows, of which `m` find a place: those are stored at the next indices, and every other byte of
score memory reads as before; the rest fails with SPACE (R65). -/
def Obligations.ScoreDataStoresRows : Prop :=
  ∀ (s : State) (n m : Nat) (records : List Byte),
    let sc := s.score
    commandTaken s → s.ctl.state = .idle → sc.frozen = false → sc.status = .loading → sc.mem.wf = true →
    1 ≤ n → n ≤ 32 → records.length = 2 * n → m ≤ n → sc.rowsLoaded + m ≤ sc.rowCount →
    ∀ (r : Result) (status : ScoreStatus) (ix : Option Nat),
      (m = n ∧ r = .ok ∧ status = .loading ∧ ix = none) ∨
      (m < n ∧ sc.rowsLoaded + m = sc.rowCount ∧ r = .space ∧ status = .failed ∧ ix = some (sc.rowsLoaded + m)) →
      ∃ t, exec (.scoreData ([2, BitVec.ofNat 8 n] ++ records)) s = .next t ∧ recorded 0x31 r ix s t ∧
        t.score = { sc with mem := t.score.mem, rowsLoaded := sc.rowsLoaded + m, status := status } ∧
        (∀ a, rowAddress sc.rowsLoaded ≤ a → a < rowAddress (sc.rowsLoaded + m) →
          (t.score.mem.read a).toNat = byteAt records (a - rowAddress sc.rowsLoaded)) ∧
        (∀ a, a < rowAddress sc.rowsLoaded ∨ rowAddress (sc.rowsLoaded + m) ≤ a → t.score.mem.read a = sc.mem.read a) ∧
        onlyChanges [.port, .score] s t

/-- The checksum computation's end, at any time within its bound: the checksum is the sum of the score image's 16-bit words
modulo 65,536, the status becomes VALID, and no event is raised (R68). -/
def Obligations.ChecksumMakesValid : Prop :=
  ∀ s : State, s.port.held = false → s.score.status = .checking →
    let sc := s.score
    let word := fun a => (sc.mem.read a).toNat + 256 * (sc.mem.read (a + 1)).toNat
    ∃ t, exec .checksumComplete s = .next t ∧
      t.score = { sc with
        status := .valid
        checksum := BitVec.ofNat 16 (sc.showId.toNat + sc.cueCount + sc.rowCount +
          ((List.range (8 * sc.cueCount)).map fun i => word (cueAddress 0 + 2 * i)).sum +
          ((List.range sc.rowCount).map fun i => word (rowAddress i)).sum) } ∧
      onlyChanges [.score, .draws] s t

/-! ### Show commands -/

/-- ARM, DISARM and the refusals of GO. ARM in IDLE with a valid score, CLASH clear and no halt asserted (R6): ARMED with OK; FREEZE SCORE,
CUE REWIND and PUMP REARM, which clears the fault of every channel (R124); the show result is left as it was. ARM and GO are otherwise
refused by the first cause met (R6, R8). DISARM in ARMED is accepted with OK and gives IDLE with THAW SCORE and CUE REWIND, the queued
audio blocks kept; elsewhere it is refused with STATE (R7). -/
def Obligations.ArmGoDisarm : Prop :=
  ∀ (s : State) (delay : Word16), commandTaken s →
    (s.ctl.state = .idle → s.score.status = .valid → s.clock.clash = false → haltAsserted s = false →
      ∃ t, exec .arm s = .next t ∧ recorded 0x40 .ok none s t ∧
        t.ctl = { s.ctl with state := .armed } ∧ t.score = { s.score with frozen := true } ∧
        t.cue = { s.cue with queue := [], pointer := 0, waiting := false, taking := false } ∧
        (∀ p : Fin 4, t.pump.chan[p] = { s.pump.chan[p] with faulted := false, cause := .none }) ∧
        t.pump = { s.pump with chan := t.pump.chan } ∧
        t.audio.queue = s.audio.queue ∧ t.audio.ring = s.audio.ring ∧
        onlyChanges [.port, .ctl, .score, .cue, .pump, .jets, .lamps, .audio] s t) ∧
    (s.ctl.state ≠ .idle ∨ s.score.status ≠ .valid →
      ∃ t, exec .arm s = .next t ∧ recorded 0x40 .state none s t ∧ onlyChanges [.port] s t) ∧
    (s.ctl.state = .idle → s.score.status = .valid → s.clock.clash = true →
      ∃ t, exec .arm s = .next t ∧ recorded 0x40 .clash none s t ∧ onlyChanges [.port] s t) ∧
    (s.ctl.state = .idle → s.score.status = .valid → s.clock.clash = false → haltAsserted s = true →
      ∃ t, exec .arm s = .next t ∧ recorded 0x40 .halt none s t ∧ onlyChanges [.port] s t) ∧
    (s.ctl.state = .armed →
      ∃ t, exec .disarm s = .next t ∧ recorded 0x41 .ok none s t ∧
        t.ctl = { s.ctl with state := .idle } ∧ t.score = { s.score with frozen := false } ∧
        t.cue = { s.cue with queue := [], pointer := 0, waiting := false, taking := false } ∧
        t.audio.queue = s.audio.queue ∧ t.audio.ring = s.audio.ring ∧
        onlyChanges [.port, .ctl, .score, .cue, .jets, .lamps, .audio] s t) ∧
    (s.ctl.state ≠ .armed →
      ∃ t, exec .disarm s = .next t ∧ recorded 0x41 .state none s t ∧ onlyChanges [.port] s t) ∧
    (s.ctl.state ≠ .armed →
      ∃ t, exec (.go delay) s = .next t ∧ recorded 0x44 .state none s t ∧ onlyChanges [.port] s t) ∧
    (s.ctl.state = .armed → s.clock.clash = true →
      ∃ t, exec (.go delay) s = .next t ∧ recorded 0x44 .clash none s t ∧ onlyChanges [.port] s t) ∧
    (s.ctl.state = .armed → s.clock.clash = false → haltAsserted s = true →
      ∃ t, exec (.go delay) s = .next t ∧ recorded 0x44 .halt none s t ∧ onlyChanges [.port] s t) ∧
    (s.ctl.state = .armed → s.clock.clash = false → haltAsserted s = false → s.clock.locked = false →
      ∃ t, exec (.go delay) s = .next t ∧ recorded 0x44 .lock none s t ∧ onlyChanges [.port] s t)

/-- GO in ARMED with CLASH clear, no halt asserted and the clock LOCKED (R8): the GO record takes the node's own score and a start
of now + 1000 × clamp(delay, 500, 60,000) µs, the state is COUNTDOWN, cues are taken from the pointer, every CLOSED valve group
follows its figure (R91), next frame is 0 (R160), and with room in the transmit queue and no GO or STOP in it a GO frame with the
record's fields joins it behind the HALT frames. -/
def Obligations.GoEntersCountdown : Prop :=
  ∀ (s : State) (delay : Word16), commandTaken s → s.ctl.state = .armed → s.clock.clash = false → haltAsserted s = false →
    s.clock.locked = true →
    let g : GoRecord :=
      { showId := s.score.showId, checksum := s.score.checksum
        start := s.clock.site + BitVec.ofNat 48 (1000 * min (max delay.toNat 500) 60000) }
    ∃ t, exec (.go delay) s = .next t ∧ recorded 0x44 .ok none s t ∧
      t.ctl = { s.ctl with state := .countdown, go := some g } ∧
      t.cue = { s.cue with taking := true, lateCount := 0, lastMark := 0 } ∧
      (∀ i : Fin 4, t.jets[i] = { s.jets[i] with
        mode := if s.jets[i].mode = .closed then .following else s.jets[i].mode }) ∧
      t.audio = { s.audio with next := 0, play := none, underrunCount := 0, skipCount := 0 } ∧
      (s.line.queue.length < 8 → (∀ f ∈ s.line.queue, frameClass f.payload ≠ 2) →
        t.line = { s.line with queue :=
          s.line.queue.takeWhile (fun f => frameClass f.payload ≤ 2) ++ freshFrame (.go g) ::
            s.line.queue.dropWhile (fun f => frameClass f.payload ≤ 2) }) ∧
      onlyChanges [.port, .ctl, .cue, .jets, .lamps, .audio, .line, .pump, .events] s t

/-- Local STOP. In COUNTDOWN (R14): OK, the show result STOPPED with the GO record's show id and the present show time, the GO record
removed, ARMED; CUE REWIND, FIGURES CLEAR and PUMP CLEAR, and a STOP frame asked for; the score stays frozen and the audio blocks are
kept. In RUNNING with no pending coda time (R15) it sets that time to now + 200,000 µs with OK and asks for a STOP frame with it; with
one held, and in every state but COUNTDOWN and RUNNING, it is refused with STATE and changes nothing. -/
def Obligations.LocalStop : Prop :=
  ∀ s : State, commandTaken s →
    (∀ g, s.ctl.state = .countdown → s.ctl.go = some g →
      ∃ t, exec .stop s = .next t ∧ recorded 0x45 .ok none s t ∧
        t.ctl = { s.ctl with
          state := .armed, go := none, pendingCoda := none, codaDeadline := none, codaCause := none, codaTested := false
          result := { kind := .stopped, showId := g.showId, endTime := sdiff s.clock.site g.start } } ∧
        t.cue = { s.cue with queue := [], pointer := 0, waiting := false, taking := false } ∧
        (∀ i : Fin 4, t.jets[i].valve = .empty ∧ t.jets[i].lamp = .empty) ∧
        (∀ p : Fin 4, t.pump.chan[p].height = .zero) ∧
        t.audio.queue = s.audio.queue ∧ t.audio.ring = s.audio.ring ∧
        t.line = (requestFrame (.stop { showId := g.showId, codaTime := s.clock.site + 200000 }) s).line ∧
        onlyChanges [.port, .ctl, .cue, .jets, .pump, .lamps, .audio, .line, .events] s t) ∧
    (∀ g, s.ctl.state = .running → s.ctl.go = some g → s.ctl.pendingCoda = none →
      ∃ t, exec .stop s = .next t ∧ recorded 0x45 .ok none s t ∧
        t.ctl = { s.ctl with pendingCoda := some (s.clock.site + 200000) } ∧
        t.line = (requestFrame (.stop { showId := g.showId, codaTime := s.clock.site + 200000 }) s).line ∧
        onlyChanges [.port, .ctl, .line, .pump, .events] s t) ∧
    (s.ctl.state ≠ .countdown → (s.ctl.state = .running → s.ctl.pendingCoda ≠ none) →
      ∃ t, exec .stop s = .next t ∧ recorded 0x45 .state none s t ∧ onlyChanges [.port] s t)

/-- RELEASE in HALTED, with no halt asserted, no FRESH peer record halting and every d_out 0, gives IDLE with OK: the GO record removed,
the score thawed, the cue engine rewound, every figure and height cleared, the lamps black with master 1,024, the audio unit cleared with
the underrun and skip counts kept, the show result as it was. A block under reception that has kept frames is discarded (R159, R168); that
a command trimmed entirely stays and that the next block is entered at ring position 0 are the model's choices (notes/assumptions/16.md).
Elsewhere, and when any of these fails, it is refused with STATE and changes nothing (R22). -/
def Obligations.ReleaseEntersIdle : Prop :=
  ∀ s : State, commandTaken s →
    let clear := s.ctl.state = .halted ∧ haltAsserted s = false ∧ freshPeerHalts s = false ∧ ∀ p : Fin 4, s.pump.chan[p].dOut = 0
    (clear → ∃ t, exec .release s = .next t ∧
        recorded 0x48 .ok none s t ∧
        t.ctl = { s.ctl with
          state := .idle, go := none, pendingCoda := none, codaDeadline := none, codaCause := none, codaTested := false } ∧
        t.score = { s.score with frozen := false } ∧
        t.cue = { s.cue with queue := [], pointer := 0, waiting := false, taking := false } ∧
        (∀ i : Fin 4, t.jets[i].valve = .empty ∧ t.jets[i].lamp = .empty) ∧
        t.pump = { s.pump with chan := t.pump.chan } ∧
        (∀ p : Fin 4, t.pump.chan[p] = { s.pump.chan[p] with height := .zero }) ∧
        t.lamps.master = .fullMaster ∧
        (∀ l : Fin 16, t.lamps.lamp[l].target = black ∧ t.lamps.lamp[l].len = 0) ∧
        t.audio = { AudioUnit.reset with
          underrunCount := s.audio.underrunCount, skipCount := s.audio.skipCount, nextGain := s.audio.nextGain
          reception := keptReception s } ∧
        onlyChanges [.port, .ctl, .score, .cue, .jets, .pump, .lamps, .audio] s t) ∧
    (¬ clear → ∃ t, exec .release s = .next t ∧ recorded 0x48 .state none s t ∧ onlyChanges [.port] s t)

/-! ### Frames from peers -/

/-- An intact beacon from a node whose number is not the own one is written into its sender's record, which becomes FRESH, and no
other record changes (R57); a state or flag byte is kept as carried (the model's reading, notes/assumptions/27.md). A configured node
gives it an offset in the record and in the round's set (R30, R31), unless a step of the clock has caught it: that a step of less than
300 µs of local time ago has is the model's reading of R30 (notes/assumptions/15.md). A node in STANDBY takes none (R5). The rest of the
clock is unchanged. A configured node recomputes its site wind, the factor and the applied factor (R131). -/
def Obligations.BeaconWritesRecord : Prop :=
  ∀ (s : State) (sender seq : Byte) (b : Beacon) (arrival : SiteTime) (i : Fin 32), frameHandedOver s sender i →
    (∀ c, s.config = some c → i ≠ c.own) →
    ∃ t, exec (.beaconReceived sender seq b arrival) s = .next t ∧
      t.peers[i] =
        { presence := .fresh, state := b.state, flags := b.flags, showId := b.showId, checksum := b.checksum
          showStart := b.showStart, demand := b.demand, wind := b.wind, interval := b.interval, lastArrival := arrival
          lastSeq := seq
          lastOffset := match s.config with
            | none => s.peers[i].lastOffset
            | some c =>
              if s.clock.sinceStep < 300 then s.peers[i].lastOffset else sdiff (b.stamp + BitVec.ofNat 48 c.lineDelay) arrival
          heard := min 255 (s.peers[i].heard + 1)
          missed := if s.peers[i].presence = .absent then s.peers[i].missed
            else min 255 (s.peers[i].missed + (seq - s.peers[i].lastSeq - 1).toNat)
          outliers := s.peers[i].outliers } ∧
      (∀ j : Fin 32, j ≠ i → t.peers[j] = s.peers[j]) ∧
      (s.peers[i].presence = .absent → t.events.pending.getLsbD 14 = true) ∧
      (s.config = none → t.clock = s.clock) ∧
      (∀ c, s.config = some c → t.clock = { s.clock with offsets := t.clock.offsets } ∧
        (∀ j : Fin 32, j ≠ i → t.clock.offsets[j] = s.clock.offsets[j]) ∧
        t.clock.offsets[i] =
          if s.clock.sinceStep < 300 then s.clock.offsets[i]
          else some (sdiff (b.stamp + BitVec.ofNat 48 c.lineDelay) arrival)) ∧
      (s.config = none → t.wind = s.wind) ∧
      (∀ c, s.config = some c → t.wind = { s.wind with
        site := siteWind c t, factor := windFactor c (siteWind c t), applied := min s.wind.applied (windFactor c (siteWind c t)) }) ∧
      t.line = { s.line with rx := .ready } ∧
      onlyChanges [.peers, .clock, .line, .wind, .events, .ctl, .cue, .jets, .pump, .lamps, .audio] s t

/-- What a peer's beacon does to the show of a configured node: with its halt flag set it halts every show state but STANDBY and HALTED
(R20, R21); without it, an ARMED node with late join enabled, LOCKED, CLASH clear and no halt asserted joins a RUNNING peer of its own
score with the peer's show start (R13), as `lateJoin` says: in COUNTDOWN where the start is ahead, else by a seek; otherwise the show
controller, cues, figures, pumps, lamps and audio are unchanged. A start exactly 2^47 µs from now counts as ahead, which is the model's
choice (notes/assumptions/30.md), as is the gain record's anchor of 0 at a halt with no GO record (notes/assumptions/40.md). -/
def Obligations.BeaconActsOnShow : Prop :=
  ∀ (s : State) (c : ConfigRecord) (sender seq : Byte) (b : Beacon) (arrival : SiteTime) (i : Fin 32),
    frameHandedOver s sender i → s.config = some c → i ≠ c.own →
    let matching := b.state = 4 ∧ b.showId = s.score.showId ∧ b.checksum = s.score.checksum
    let joins := s.ctl.state = .armed ∧ c.lateJoin = true ∧ s.clock.locked = true ∧ s.clock.clash = false ∧
      haltAsserted s = false ∧ matching
    let g : GoRecord := { showId := b.showId, checksum := b.checksum, start := b.showStart }
    let halting := b.flags.getLsbD 1 = true ∧ s.ctl.state ≠ .standby ∧ s.ctl.state ≠ .halted
    let base := if s.peers[i].presence = .absent then s.events.raised .peer else s.events
    ∃ u t, exec (.beaconReceived sender seq b arrival) s = .next t ∧
      onlyChanges [.peers, .clock, .line, .wind, .events] s u ∧ u.events = base ∧
      u.clock = { s.clock with offsets := u.clock.offsets } ∧
      (halting → haltEntered c u t ∧ t.events = (base.raised .state).raised .halt ∧
        onlyChanges [.ctl, .cue, .jets, .pump, .lamps, .audio, .events] u t) ∧
      (¬ halting → joins → t = lateJoin c g u) ∧
      (¬ halting → joins → reached s.clock.site b.showStart = false →
        t.ctl = { s.ctl with state := .countdown, go := some g } ∧ t.events = base.raised .state ∧
        t.cue = { s.cue with taking := true, lateCount := 0, lastMark := 0 }) ∧
      (¬ halting → ¬ joins → t = u)

/-- A beacon with the node's own number sets CLASH and raises its event (R40); at the moment CLASH is set every frame leaves the
transmit queue (R41), and a queued START-ASK counts as completed then, so that its hold window of 100 ms opens (R121). A second one
raises the event again. No peer record changes. -/
def Obligations.OwnNumberSetsClash : Prop :=
  ∀ (s : State) (c : ConfigRecord) (sender seq : Byte) (b : Beacon) (arrival : SiteTime),
    frameHandedOver s sender c.own → s.config = some c →
    ∃ t, exec (.beaconReceived sender seq b arrival) s = .next t ∧
      t.clock = { s.clock with clash := true } ∧ t.events = s.events.raised .clash ∧
      (s.clock.clash = false → t.line = { s.line with rx := .ready, queue := [] } ∧
        (∀ p, s.pump.ask = .queued (some p) →
          t.pump.ask = .window (s.clock.site + 100000) (some p) ∧ t.pump.chan[p].stage = .asked) ∧
        (s.pump.ask = .none → t.pump = s.pump)) ∧
      (s.clock.clash = true → t.line = { s.line with rx := .ready } ∧ t.pump = s.pump) ∧
      onlyChanges [.clock, .events, .line, .pump] s t

/-- A matching GO frame in ARMED (R10). With CLASH set, halt asserted or the clock not LOCKED, with a start more than 60,000,000 µs
ahead, or with a start reached and late join disabled, the node stays ARMED and writes MISSED START with the frame's show id; with
a start ahead within that bound it enters COUNTDOWN with the frame's record, starts its cues and follows its figures; with a start
reached and late join enabled it joins as `lateJoin` says (R13). It sends no frame. A start exactly 2^47 µs from now counts as reached
for R10 and as ahead for R13, which is the model's choice (notes/assumptions/30.md). -/
def Obligations.GoFrameInArmed : Prop :=
  ∀ (s : State) (c : ConfigRecord) (sender : Byte) (i : Fin 32) (g : GoRecord), frameHandedOver s sender i → s.config = some c →
    s.ctl.state = .armed → g.showId = s.score.showId → g.checksum = s.score.checksum →
    let ready := s.clock.clash = false ∧ haltAsserted s = false ∧ s.clock.locked = true
    let ahead := sdiff g.start s.clock.site
    ∃ t, exec (.goFrameReceived sender g) s = .next t ∧ t.line = { s.line with rx := .ready } ∧
      (¬ ready ∨ 60000000 < ahead ∨ (ahead ≤ 0 ∧ c.lateJoin = false) →
        t.ctl = { s.ctl with result := { kind := .missedStart, showId := g.showId, endTime := 0 } } ∧
        t.events = s.events.raised .state ∧ onlyChanges [.ctl, .events, .line] s t) ∧
      (ready → 0 < ahead → ahead ≤ 60000000 →
        t.ctl = { s.ctl with state := .countdown, go := some g } ∧ t.events = s.events.raised .state ∧
        t.cue = { s.cue with taking := true, lateCount := 0, lastMark := 0 } ∧
        (∀ j : Fin 4, t.jets[j] = { s.jets[j] with
          mode := if s.jets[j].mode = .closed then .following else s.jets[j].mode }) ∧
        t.audio = { s.audio with next := 0, play := none, underrunCount := 0, skipCount := 0 } ∧
        onlyChanges [.ctl, .events, .line, .cue, .jets, .lamps, .audio] s t) ∧
      (ready → ahead ≤ 0 → c.lateJoin = true → t = lateJoin c g { s with line := { s.line with rx := .ready } }) ∧
      (ready → ahead ≤ 0 → reached s.clock.site g.start = true → c.lateJoin = true →
        t.ctl.go = some g ∧ (t.ctl.state = .running ∨ t.ctl.state = .coda))

/-- A GO frame elsewhere. In ARMED and COUNTDOWN one of another score is ignored and raises SCORE MISMATCH; in STANDBY, where there is no
configuration, and in IDLE, RUNNING, CODA and HALTED every one is ignored without an event (R9). In COUNTDOWN an earlier start replaces
the held one, the state becomes RUNNING where that start is already reached, and one not earlier changes nothing (R11). A start exactly
2^47 µs from the held one counts as earlier, which is the model's choice (notes/assumptions/30.md). -/
def Obligations.GoFrameElsewhere : Prop :=
  ∀ (s : State) (sender : Byte) (i : Fin 32) (g : GoRecord), frameHandedOver s sender i →
    let matching := g.showId = s.score.showId ∧ g.checksum = s.score.checksum
    let follows := s.config ≠ none ∧ (s.ctl.state = .armed ∨ s.ctl.state = .countdown)
    let countdown := s.config ≠ none ∧ s.ctl.state = .countdown
    ∃ t, exec (.goFrameReceived sender g) s = .next t ∧ t.line = { s.line with rx := .ready } ∧
      (follows → ¬ matching → t.events = s.events.raised .scoreMismatch ∧ onlyChanges [.events, .line] s t) ∧
      (¬ follows → onlyChanges [.line] s t) ∧
      (∀ held, countdown → matching → s.ctl.go = some held → 0 ≤ sdiff g.start held.start → onlyChanges [.line] s t) ∧
      (∀ held, countdown → matching → s.ctl.go = some held → sdiff g.start held.start < 0 →
        t.ctl = { s.ctl with
          go := some g, state := if reached s.clock.site g.start then .running else .countdown } ∧
        onlyChanges [.ctl, .events, .line, .cue, .jets, .lamps] s t)

/-- A STOP frame (R16) with the GO record's show id. In COUNTDOWN it acts as a local STOP without a frame (R14): result STOPPED, the GO
record removed, ARMED; the cue engine rewound, every view EMPTY and every following group closed, every height 0, the lamps dark, the
audio output 0 with queue, ring and gain kept (R163), STATE raised. In RUNNING, with its coda time reached, CODA is entered with cause
STOP, with all that its entry does (R18); not reached, the pending coda time becomes it, or the earlier of the two. With another show id,
and in every other state, it is ignored. Of two coda times exactly 2^47 µs apart the frame's counts as the earlier, which is the model's
choice (notes/assumptions/30.md). -/
def Obligations.StopFrameByState : Prop :=
  ∀ (s : State) (sender : Byte) (i : Fin 32) (f : StopFrame), frameHandedOver s sender i →
    ∃ t, exec (.stopFrameReceived sender f) s = .next t ∧ t.line = { s.line with rx := .ready } ∧
      (∀ g, s.ctl.go = some g → f.showId = g.showId →
        (s.ctl.state = .countdown → t.ctl = { s.ctl with
          state := .armed, go := none, pendingCoda := none, codaDeadline := none, codaCause := none, codaTested := false
          result := { kind := .stopped, showId := g.showId, endTime := sdiff s.clock.site g.start } } ∧
          t.cue = { s.cue with queue := [], pointer := 0, waiting := false, taking := false } ∧
          (∀ j : Fin 4, t.jets[j] =
            { mode := if s.jets[j].mode = .following then .closed else s.jets[j].mode, valve := .empty, lamp := .empty }) ∧
          t.pump = { s.pump with chan := t.pump.chan } ∧
          (∀ p : Fin 4, t.pump.chan[p] = { s.pump.chan[p] with height := .zero }) ∧
          (s.config ≠ none → t.lamps = { s.lamps with lamp := t.lamps.lamp } ∧
            ∀ l : Fin 16, t.lamps.lamp[l] = { s.lamps.lamp[l] with duty := black }) ∧
          t.audio = { s.audio with outLeft := 0, outRight := 0, decay := none, underrun := false, skip := false } ∧
          t.events = s.events.raised .state) ∧
        (∀ c, s.config = some c → s.ctl.state = .running → reached s.clock.site f.codaTime = true →
          codaEntered c .stop { s with line := { s.line with rx := .ready } } t) ∧
        (s.ctl.state = .running → reached s.clock.site f.codaTime = false →
          t.ctl = { s.ctl with pendingCoda := some (match s.ctl.pendingCoda with
            | none => f.codaTime
            | some u => if sdiff f.codaTime u < 0 then f.codaTime else u) } ∧ onlyChanges [.ctl, .line] s t)) ∧
      ((s.ctl.state ≠ .countdown ∧ s.ctl.state ≠ .running) ∨ (∀ g, s.ctl.go = some g → f.showId ≠ g.showId) →
        onlyChanges [.line] s t) ∧
      onlyChanges [.ctl, .line, .cue, .jets, .pump, .lamps, .audio, .events] s t

/-- A HALT frame is kept as last halt heard in every state (R54). In STANDBY and HALTED nothing else happens; in every other state the
node enters HALTED without sending (R20, R21), with all of HALT entry: cues stop, every d_cmd becomes 0, the start list empties and
the own ask is vacated (R115), the valves of a group whose pump still turns hold the open set of that moment and every other group that
followed its figure closes (R93), the gain fades from the applied gain to 0 over the halt fade (R166), the lamps show safe light (R150),
and out of a show the result HALTED is written, the GO record kept and the coda fields dropped; STATE and HALT are raised (R4). With no
GO record the gain record's anchor is 0, which is the model's choice (notes/assumptions/40.md). -/
def Obligations.HaltFrameEntersHalted : Prop :=
  ∀ (s : State) (sender inputs : Byte) (i : Fin 32), frameHandedOver s sender i →
    ∃ t, exec (.haltFrameReceived sender inputs) s = .next t ∧
      t.line = { s.line with rx := .ready, lastHalt := some (sender, inputs) } ∧
      (s.ctl.state = .standby ∨ s.ctl.state = .halted → onlyChanges [.line] s t) ∧
      (∀ c, s.config = some c → s.ctl.state ≠ .standby → s.ctl.state ≠ .halted →
        haltEntered c s t ∧ t.events = (s.events.raised .state).raised .halt) ∧
      onlyChanges [.ctl, .line, .cue, .jets, .pump, .lamps, .audio, .events] s t

/-- A START-ASK heard by a configured node (R119) with none of its own unsent: busy-until becomes the latest of the held value and
the arrival stamp + 1000 × S, last ask heard takes sender, pump number and stamp; an own window with a channel is deferred to a
lower sender, its channel back at the head of the start list as WAITING, and nothing else changes. An unsent START-ASK of the node
is withdrawn first, its channel back at the head (R47, R118); in STANDBY the ask is not handed to the pump controller (R54). Of two times
exactly 2^47 µs apart the new busy-until counts as the later, which is the model's choice (notes/assumptions/30.md). -/
def Obligations.StartAskHeard : Prop :=
  ∀ (s : State) (sender pumpNo : Byte) (arrival : SiteTime) (i : Fin 32), frameHandedOver s sender i →
    ∃ t, exec (.startAskReceived sender pumpNo arrival) s = .next t ∧
      t.line = { s.line with rx := .ready, queue := s.line.queue.filter fun f => !isUnsentAsk f } ∧
      (s.config = none → (∀ f ∈ s.line.queue, isUnsentAsk f = false) → t.pump = s.pump) ∧
      (∀ c, s.config = some c → t.pump.lastAsk = some { sender := sender, pump := pumpNo, arrival := arrival } ∧
        t.pump.busyUntil = (let e := arrival + BitVec.ofNat 48 (1000 * c.settle)
          match s.pump.busyUntil with
          | none => some e
          | some b => some (if reached b e then b else e))) ∧
      (∀ c e p, s.config = some c → (∀ f ∈ s.line.queue, isUnsentAsk f = false) → s.pump.ask = .window e (some p) → i < c.own →
        t.pump.ask = .none ∧ t.pump.startList = p :: s.pump.startList.erase p ∧ t.pump.chan[p].stage = .waiting) ∧
      (∀ c, s.config = some c → (∀ f ∈ s.line.queue, isUnsentAsk f = false) →
        (c.own ≤ i ∨ ∀ e p, s.pump.ask ≠ .window e (some p)) →
        t.pump = { s.pump with lastAsk := t.pump.lastAsk, busyUntil := t.pump.busyUntil }) ∧
      (∀ p, (∃ f ∈ s.line.queue, isUnsentAsk f = true) → s.pump.ask = .queued (some p) →
        t.pump.ask = .none ∧ t.pump.startList = p :: s.pump.startList.erase p ∧ t.pump.chan[p].stage = .waiting) ∧
      onlyChanges [.line, .pump] s t

/-- A received frame with a failure is discarded and counted under the first failure found (R53): a byte wrong in form, at that byte, as a
format error; then bytes that end before the frame does, as truncated; then a check that differs, as a check error; then a length that is
not the kind's, as a format error. The receiver goes to HUNT after the first two, to READY after the last two; nothing in the frame
reaches another block. In HUNT no frame begins; the receiver leaves HUNT for READY when the line has been idle for 10 bit times (R52). Bit
by bit, with no bit of its own to drive: a dominant stop bit cuts the frame short at that bit, and an idle time of 10 bit times between
two bytes at its tenth, after which the receiver is READY at once (R52, R53); in HUNT a dominant level begins nothing and ends the idle
time. That a byte wrong in form with a dominant stop bit is none of these bytes (notes/assumptions/32.md), and that bytes with no failure
do nothing here (notes/assumptions/18.md), are the model's choices. -/
def Obligations.FailedFramesAreCounted : Prop :=
  ∀ (s : State) (bytes : List Byte), s.port.held = false →
    let n := byteAt bytes 4
    let form := (1 ≤ bytes.length ∧ byteAt bytes 0 ≠ 0xC3) ∨
      (2 ≤ bytes.length ∧ (byteAt bytes 1 = 0 ∨ 32 < byteAt bytes 1)) ∨
      (3 ≤ bytes.length ∧ byteAt bytes 2 ∉ [0x10, 0x21, 0x22, 0x30, 0x41]) ∨ (5 ≤ bytes.length ∧ 32 < n)
    let short := bytes.length < 5 ∨ bytes.length < n + 7
    let check := (frameCheck ((bytes.drop 1).take (n + 4))).toNat = 256 * byteAt bytes (n + 5) + byteAt bytes (n + 6)
    let size := (byteAt bytes 2, n) ∈ [(0x10, 23), (0x21, 10), (0x22, 8), (0x30, 1), (0x41, 1)]
    (s.line.rx ≠ .hunt → ∃ t, exec (.frameFault bytes) s = .next t ∧ onlyChanges [.line] s t ∧
      (form → t.line = { s.line with rx := .hunt, format := min 255 (s.line.format + 1) }) ∧
      (¬ form → short → t.line = { s.line with rx := .hunt, truncated := min 255 (s.line.truncated + 1) }) ∧
      (¬ form → ¬ short → ¬ check → t.line = { s.line with rx := .ready, check := min 255 (s.line.check + 1) }) ∧
      (¬ form → ¬ short → check → ¬ size → t.line = { s.line with rx := .ready, format := min 255 (s.line.format + 1) }) ∧
      (¬ form → ¬ short → check → size → t.line = s.line)) ∧
    (s.line.rx = .hunt → exec (.frameFault bytes) s = .next s) ∧
    (s.line.rx = .hunt → ∀ idle, 10 ≤ idle →
      ∃ t, exec (.receiverReady idle) s = .next t ∧ t.line = { s.line with rx := .ready } ∧ onlyChanges [.line] s t) ∧
    ((∀ f ∈ s.line.queue, f.onLine = false) → attemptDue s s.line.wire.idle = false →
      let cut := fun (rx : RxState) (idle : Nat) => { s with line := { s.line with
        rx := rx, truncated := min 255 (s.line.truncated + 1), wire := { idle := idle, gather := none, out := [] } } }
      let hunting := fun (rx : RxState) (idle : Nat) => { s with line := { s.line with
        rx := rx, wire := { idle := idle, gather := none, out := [] } } }
      (∀ g, s.line.rx = .receiving → s.line.wire.gather = some g → judge g.bytes = .truncated →
        (g.bits.length = 9 → bitTime false false s = cut .hunt 0) ∧
        (g.bits = [] → g.bytes ≠ [] → 9 ≤ s.line.wire.idle → bitTime true false s = cut .ready (s.line.wire.idle + 1))) ∧
      (s.line.rx = .hunt →
        bitTime false false s = hunting .hunt 0 ∧
        bitTime true false s =
          hunting (if 9 ≤ s.line.wire.idle then .ready else .hunt) (s.line.wire.idle + 1)))

/-- A frame of a node, whole and uncut, is judged intact with its sender, sequence and payload, for every node number, every sequence
number and every payload: the check and the length a sender writes are those a receiver tests, and every field is read where it is written
(R43, R44, R53). Its bits, each byte a dominant start bit, eight data bits with the most significant first and a recessive stop bit, with
no gap (R42), bring a READY receiver with no bit of its own to drive to RECEIVING at the first of them and, at the last, to the frame's
own command with the site time of the first as its arrival stamp (R52 to R54). -/
def Obligations.FrameJudgedIntact : Prop :=
  ∀ (sender seq : Byte) (p : Payload), isNodeNumber sender = true →
    judge (frameBytes sender seq p) = .intact sender seq p ∧
    ∀ s : State, s.port.held = false → s.line.rx = .ready → (∀ f ∈ s.line.queue, f.onLine = false) →
      attemptDue s s.line.wire.idle = false →
      let bits := (frameBytes sender seq p).flatMap fun b =>
        [false, b.getLsbD 7, b.getLsbD 6, b.getLsbD 5, b.getLsbD 4, b.getLsbD 3, b.getLsbD 2, b.getLsbD 1, b.getLsbD 0, true]
      let command := match p with
        | .beacon b => Instr.beaconReceived sender seq b s.clock.site
        | .go g => .goFrameReceived sender g
        | .stop f => .stopFrameReceived sender f
        | .halt inputs => .haltFrameReceived sender inputs
        | .startAsk pump => .startAskReceived sender pump s.clock.site
      ∃ u v, onlyChanges [.line] s u ∧ u.line = { s.line with rx := .receiving, wire := u.line.wire } ∧
        exec command u = .next v ∧
        bits.foldl (fun x level => bitTime level false x) s =
          { v with line := { v.line with wire := { v.line.wire with idle := 0, gather := none } } }

/-! ### Audio and events -/

/-- AUDIO's start frame and count, judged as soon as both have arrived: refused with STATE in STANDBY and with PARAM out of range
(R156); its frames at or below the tail block's last frame are trimmed (R157); the kept part is refused with SPACE where 32 blocks are
queued or it exceeds the room, and otherwise its room is reserved (R158). A command that is taken, one trimmed entirely too, writes no
record yet. -/
def Obligations.AudioJudged : Prop :=
  ∀ (s : State) (start : BitVec 32) (count : Word16), commandTaken s →
    let first := start.toNat
    let n := count.toNat
    let legal := 1 ≤ n ∧ n ≤ 4096 ∧ first ≤ 172800000
    let tail := match s.audio.queue.getLast? with
      | none => 0
      | some b => b.start + b.count
    let keep := max first tail
    let kept := first + n - keep
    let full := 32 ≤ s.audio.queue.length ∨ 16384 - (s.audio.queue.map (·.count)).sum < kept
    (s.ctl.state = .standby →
      ∃ t, exec (.audio start count) s = .next t ∧ recorded 0x50 .state none s t ∧ onlyChanges [.port] s t) ∧
    (s.ctl.state ≠ .standby → ¬ legal →
      ∃ t, exec (.audio start count) s = .next t ∧ recorded 0x50 .param none s t ∧ onlyChanges [.port] s t) ∧
    (s.ctl.state ≠ .standby → legal → kept ≠ 0 → full →
      ∃ t, exec (.audio start count) s = .next t ∧ recorded 0x50 .space none s t ∧ onlyChanges [.port] s t) ∧
    (s.ctl.state ≠ .standby → legal → kept = 0 ∨ ¬ full →
      ∃ t, exec (.audio start count) s = .next t ∧
        t.audio = { s.audio with
          reception := some { first := first, count := n, keep := keep, pos := s.audio.writePos } } ∧
        onlyChanges [.audio] s t)

/-- The end of a taken AUDIO command (R159): its kept frames received whole enter the queue as one block behind the tail, each frame's
four bytes at its ring position, every other position as before; with none received whole no block enters; the result is OK. The
refill condition is tested when a block enters, and AUDIO REFILL raised where it newly holds (R167). With no command under reception the
bytes are ignored. Either way the frame is over. -/
def Obligations.AudioEndEntersBlock : Prop :=
  ∀ (s : State) (bytes : List Byte), listens s → AudioInv s → s.audio.ring.wf = true →
    (s.audio.reception = none → exec (.audioEnd bytes) s = .next (endFrame s)) ∧
    (∀ r, s.audio.reception = some r →
      let n := r.first + min r.count (bytes.length / 4) - r.keep
      ∃ t, exec (.audioEnd bytes) s = .next t ∧ recordedAtEnd 0x50 .ok none s t ∧ onlyChanges [.port, .audio, .events] s t ∧
        (n = 0 → t.audio = { s.audio with reception := none } ∧ t.events = s.events) ∧
        (n ≠ 0 →
          t.audio = { s.audio with
            reception := none, ring := t.audio.ring, refillHeld := t.audio.refillHeld
            queue := s.audio.queue ++ [{ start := r.keep, count := n, pos := r.pos }]
            writePos := (r.pos + n) % 16384 } ∧
          (∀ j i, j < n → i < 4 → (t.audio.ring.read (4 * ((r.pos + j) % 16384) + i)).toNat =
            byteAt bytes (4 * (r.keep - r.first + j) + i)) ∧
          (∀ a, (∀ j, j < n → a / 4 ≠ (r.pos + j) % 16384) → t.audio.ring.read a = s.audio.ring.read a) ∧
          (t.audio.refillHeld = true ↔
            8192 ≤ 16384 - (t.audio.queue.map (·.count)).sum ∧ t.audio.queue.length < 32) ∧
          t.events = if t.audio.refillHeld = true ∧ s.audio.refillHeld = false then s.events.raised .audioRefill else s.events))

/-- EVENT CLEAR clears pending and overrun of the sources in its set and leaves the others (R182); EVENT MASK makes its set the masked
set and touches neither pending nor overrun (R183); both are accepted with OK, and NEVT is active, low, exactly while some source is
pending and not masked (R180). In STANDBY both are refused with STATE. -/
def Obligations.EventCommands : Prop :=
  ∀ (s : State) (set : Word16), commandTaken s →
    (s.ctl.state = .standby →
      (∃ t, exec (.eventClear set) s = .next t ∧ recorded 0x61 .state none s t ∧ onlyChanges [.port] s t) ∧
      ∃ t, exec (.eventMask set) s = .next t ∧ recorded 0x62 .state none s t ∧ onlyChanges [.port] s t) ∧
    (s.ctl.state ≠ .standby →
      (∃ t, exec (.eventClear set) s = .next t ∧ recorded 0x61 .ok none s t ∧ onlyChanges [.port, .events] s t ∧
        t.events.masked = s.events.masked ∧
        (∀ i, i < 16 → t.events.pending.getLsbD i = (s.events.pending.getLsbD i && !set.getLsbD i) ∧
          t.events.overrun.getLsbD i = (s.events.overrun.getLsbD i && !set.getLsbD i)) ∧
        ((outputs t).nevtHigh = false ↔
          ∃ i, i < 16 ∧ t.events.pending.getLsbD i = true ∧ t.events.masked.getLsbD i = false)) ∧
      ∃ t, exec (.eventMask set) s = .next t ∧ recorded 0x62 .ok none s t ∧ onlyChanges [.port, .events] s t ∧
        t.events = { s.events with masked := set } ∧
        ((outputs t).nevtHigh = false ↔
          ∃ i, i < 16 ∧ s.events.pending.getLsbD i = true ∧ set.getLsbD i = false))

/-! ### Sending -/

/-- BEACON_DUE (R28): with the due time reached the due time becomes absent and a beacon is queued with its fields of that moment (R23,
R29, R125, R129): in place of an unsent beacon, else at the queue's end; with the queue full it is dropped, the drop counted and LINE
raised (R46). With CLASH set none is queued (R41). Before the due time, and with none held, nothing happens. -/
def Obligations.BeaconIsQueued : Prop :=
  ∀ (s : State) (c : ConfigRecord), s.port.held = false → s.config = some c →
    let show' : Word16 × Word16 := match s.ctl.go with
      | some g => (g.showId, g.checksum)
      | none => if s.score.status = .valid then (s.score.showId, s.score.checksum) else (0, 0)
    let b : Beacon :=
      { stamp := 0, state := BitVec.ofNat 8 s.ctl.state.code, flags := beaconFlags s, showId := show'.1, checksum := show'.2
        showStart := match s.ctl.go with
          | some g => if s.ctl.state.inShow then g.start else 0
          | none => 0
        demand := BitVec.ofNat 16 s.pump.demand, wind := BitVec.ofNat 16 (s.wind.node.getD 0)
        interval := BitVec.ofNat 8 c.interval }
    let unsent := fun f : TxFrame => !f.onLine && decide (frameClass f.payload = 4)
    (∀ due, s.clock.beaconDue = some due → reached s.clock.site due = true →
      ∃ t, exec .beaconDue s = .next t ∧ t.clock = { s.clock with beaconDue := none } ∧
        onlyChanges [.clock, .line, .events] s t ∧
        (s.clock.clash = true → onlyChanges [.clock] s t) ∧
        (s.clock.clash = false → (∃ f ∈ s.line.queue, unsent f = true) → t.events = s.events ∧
          t.line = { s.line with queue := s.line.queue.map fun f => if unsent f then freshFrame (.beacon b) else f }) ∧
        (s.clock.clash = false → (∀ f ∈ s.line.queue, unsent f = false) → s.line.queue.length < 8 → t.events = s.events ∧
          t.line = { s.line with queue := s.line.queue ++ [freshFrame (.beacon b)] }) ∧
        (s.clock.clash = false → (∀ f ∈ s.line.queue, unsent f = false) → 8 ≤ s.line.queue.length →
          t.events = s.events.raised .line ∧ t.line = { s.line with drops := min 255 (s.line.drops + 1) })) ∧
    ((∀ due, s.clock.beaconDue = some due → reached s.clock.site due = false) → exec .beaconDue s = .next s)

/-- A block asks for a frame (R45, R46). With CLASH set the request is discarded (R41, R51). A BEACON or HALT takes the place of the unsent
one of its kind. With room a frame joins behind the frames of its class and of those before it. With 8 frames queued the newest unsent frame
of the highest class number is dropped for it where that number is above its own; else the new frame is dropped. A drop is counted and
raises LINE (R50), and the pump controller is told of a START-ASK's: its own ask ends, and a channel it carried returns to the head of the
start list as WAITING (R47, R118). -/
def Obligations.FramesAreQueued : Prop :=
  ∀ (s : State) (p : Payload),
    let q := s.line.queue
    let t := requestFrame p s
    let replaced := fun f : TxFrame => !f.onLine && decide (payloadKind f.payload = payloadKind p) &&
      (decide (frameClass p = 1) || decide (frameClass p = 4))
    let joined := fun frames : List TxFrame => frames.takeWhile (fun f => frameClass f.payload ≤ frameClass p) ++
      freshFrame p :: frames.dropWhile (fun f => frameClass f.payload ≤ frameClass p)
    let dropped := fun (payload : Payload) (frames : List TxFrame) =>
      t.line = { s.line with queue := frames, drops := min 255 (s.line.drops + 1) } ∧ t.events = s.events.raised .line ∧
      (frameClass payload ≠ 3 ∨ (∀ ch, s.pump.ask ≠ .queued ch) → t.pump = s.pump) ∧
      (frameClass payload = 3 → s.pump.ask = .queued none → t.pump = { s.pump with ask := .none }) ∧
      (∀ ch, frameClass payload = 3 → s.pump.ask = .queued (some ch) →
        t.pump = { s.pump with ask := .none, startList := ch :: s.pump.startList.erase ch, chan := t.pump.chan } ∧
        t.pump.chan[ch] = { s.pump.chan[ch] with stage := .waiting } ∧
        ∀ p : Fin 4, p ≠ ch → t.pump.chan[p] = s.pump.chan[p])
    (s.clock.clash = true → t = s) ∧
    (s.clock.clash = false → onlyChanges [.line, .pump, .events] s t ∧
      ((∃ f ∈ q, replaced f = true) → onlyChanges [.line] s t ∧
        t.line = { s.line with queue := q.map fun f => if replaced f then freshFrame p else f }) ∧
      ((∀ f ∈ q, replaced f = false) → q.length < 8 → onlyChanges [.line] s t ∧ t.line = { s.line with queue := joined q }) ∧
      ((∀ f ∈ q, replaced f = false) → 8 ≤ q.length → q.Pairwise (fun f g => frameClass f.payload ≤ frameClass g.payload) →
        (∀ before v behind, q = before ++ v :: behind → v.onLine = false → frameClass p < frameClass v.payload →
          (∀ f ∈ q, f.onLine = false → frameClass f.payload ≤ frameClass v.payload) →
          (∀ f ∈ behind, f.onLine = false → frameClass f.payload < frameClass v.payload) →
          dropped v.payload (joined (before ++ behind))) ∧
        ((∀ f ∈ q, f.onLine = false → frameClass f.payload ≤ frameClass p) → dropped p q)))

/-- ATTEMPT_START (R48, R49): with nothing in transmission, a head frame whose gap (10 bit times for HALT, 20 for the others) and 40 bit
times for each unit of its draw have passed on an idle line goes on the line: its attempt count rises, it takes the sequence counter at
its first attempt and keeps its number at a retry, and a beacon takes the present site time as its transmit stamp; the receiver gathers
it, and all its bits are ahead. That the receiver has left HUNT by then, at one moment with a HALT frame's gap too, is the model's choice
(notes/assumptions/41.md). Where the line's own idle time is the wait's, the next bit time begins the attempt, and drives the start bit of
the delimiter. Otherwise nothing happens. -/
def Obligations.AttemptStarts : Prop :=
  ∀ (s : State) (idle : Nat), s.port.held = false →
    (∀ f rest, s.line.queue = f :: rest → (∀ g ∈ s.line.queue, g.onLine = false) →
      let wait := (match f.payload with
        | .halt _ => 10
        | .go _ | .stop _ | .startAsk _ | .beacon _ => 20) + 40 * f.draw
      (idle < wait → exec (.attemptStart idle) s = .next s) ∧
      (wait ≤ idle → ∃ t, exec (.attemptStart idle) s = .next t ∧ onlyChanges [.line] s t ∧
        t.line = { s.line with
          rx := .receiving
          wire := { s.line.wire with gather := none, out := [] }
          seqCounter := if f.seq = none then s.line.seqCounter + 1 else s.line.seqCounter
          queue :=
            { payload := match f.payload with
                | .beacon b => .beacon { b with stamp := s.clock.site }
                | .go g => .go g
                | .stop u => .stop u
                | .halt i => .halt i
                | .startAsk p => .startAsk p
              attempts := f.attempts + 1, draw := f.draw, onLine := true
              seq := match f.seq with
                | none => some s.line.seqCounter
                | some q => some q } :: rest } ∧
        ∀ c, s.config = some c →
          let bits := frameBits (frameBytes (BitVec.ofNat 8 (c.own.val + 1)) (f.seq.getD s.line.seqCounter)
            (match f.payload with
              | .beacon b => .beacon { b with stamp := s.clock.site }
              | other => other))
          bitsAhead t = bits ∧
          (idle = s.line.wire.idle → bitTime true false s = { t with line := { t.line with
            wire := { idle := 0, gather := some { arrival := s.clock.site, bytes := [], bits := [false] }, out := bits.tail } } }))) ∧
    (s.line.queue = [] ∨ (∃ g ∈ s.line.queue, g.onLine = true) → exec (.attemptStart idle) s = .next s)

/-- The end of an attempt. Complete (R49): the frame leaves the queue, its bytes having gone out whole under the node's own number; a
beacon is written into the own record as sent (R58), a START-ASK opens its hold window of 100 ms and makes the slot busy (R118). That the
own heard count stops at 255 (notes/assumptions/39.md), and which of two busy times 2^47 µs apart is the later (notes/assumptions/30.md),
are the model's choices. Failed (R50): the collision is counted; a beacon or HALT beside which a newer one stands unsent leaves silently
(R46), its collision counted too, which is the model's reading (notes/assumptions/23.md); below 8 attempts the frame stays unsent with a
new draw below 2^min(k, 5), of which nothing else is known; at 8 it is dropped, the drop counted and LINE raised, and the channel of a
START-ASK returns to the head of the start list as WAITING. A bit read back that differs from the bit driven fails the attempt at that
bit, and the last one read back without mismatch completes it (R49, R50); the line is dominant while any node drives it so (R42). With no
frame on the line nothing happens. -/
def Obligations.AttemptEnds : Prop :=
  ∀ (s : State) (c : ConfigRecord), s.port.held = false → s.config = some c →
    let others := s.line.queue.filter fun g => !g.onLine
    ((∀ f ∈ s.line.queue, f.onLine = false) →
      exec .transmissionComplete s = .next s ∧ exec .attemptFailed s = .next s) ∧
    (∀ f, s.line.queue.find? (·.onLine) = some f →
      (∃ t, exec .transmissionComplete s = .next t ∧ onlyChanges [.line, .peers, .pump] s t ∧
        t.line = { s.line with
          queue := others, rx := if s.line.rx = .receiving then .ready else s.line.rx
          sent := frameBytes (BitVec.ofNat 8 (c.own.val + 1)) (f.seq.getD 0) f.payload } ∧
        (∀ b, f.payload = .beacon b → t.pump = s.pump ∧ (∀ i : Fin 32, i ≠ c.own → t.peers[i] = s.peers[i]) ∧
          t.peers[c.own] = { s.peers[c.own] with
            presence := .fresh, state := b.state, flags := b.flags, showId := b.showId, checksum := b.checksum
            showStart := b.showStart, demand := b.demand, wind := b.wind, interval := b.interval, lastArrival := b.stamp
            lastSeq := f.seq.getD 0, heard := min 255 (s.peers[c.own].heard + 1) }) ∧
        (frameClass f.payload = 3 → t.peers = s.peers ∧
          (∀ ch, s.pump.ask = .queued ch →
            t.pump.ask = .window (s.clock.site + 100000) ch ∧ t.pump.startList = s.pump.startList ∧
            t.pump.busyUntil = (let e := s.clock.site + BitVec.ofNat 48 (1000 * c.settle)
              match s.pump.busyUntil with
              | none => some e
              | some u => some (if reached u e then u else e)) ∧
            (∀ p : Fin 4, t.pump.chan[p] =
              { s.pump.chan[p] with stage := if ch = some p then .asked else s.pump.chan[p].stage })) ∧
          ((∀ ch, s.pump.ask ≠ .queued ch) → t.pump = s.pump)) ∧
        (frameClass f.payload < 3 → onlyChanges [.line] s t)) ∧
      (∃ t, exec .attemptFailed s = .next t ∧ onlyChanges [.line, .draws, .events, .pump] s t ∧
        let newer := replaceable f.payload = true ∧ ∃ g ∈ others, payloadKind g.payload = payloadKind f.payload
        (newer → onlyChanges [.line] s t ∧
          t.line = { s.line with collisions := min 255 (s.line.collisions + 1), queue := others }) ∧
        (¬ newer → f.attempts < 8 → onlyChanges [.line, .draws] s t ∧ ∃ r, r < 2 ^ min f.attempts 5 ∧
          t.line = { s.line with
            collisions := min 255 (s.line.collisions + 1)
            queue := s.line.queue.map fun g => if g.onLine then { g with onLine := false, draw := r } else g }) ∧
        (¬ newer → 8 ≤ f.attempts → t.events = s.events.raised .line ∧ t.draws = s.draws ∧
          t.line = { s.line with
            collisions := min 255 (s.line.collisions + 1), queue := others, drops := min 255 (s.line.drops + 1) } ∧
          (frameClass f.payload ≠ 3 → t.pump = s.pump) ∧
          (∀ p, frameClass f.payload = 3 → s.pump.ask = .queued (some p) →
            t.pump.ask = .none ∧ t.pump.startList = p :: s.pump.startList.erase p ∧ t.pump.chan[p].stage = .waiting))) ∧
      (∀ (b : Bool) (rest : List Bool) (level : Bool), bitsAhead s = b :: rest →
        let stopped := fun v : State => { v with line := { v.line with wire := { v.line.wire with out := [] } } }
        (level ≠ b → ∃ v, exec .attemptFailed s = .next v ∧ driveBit level s = stopped v) ∧
        (level = b → rest = [] → ∃ v, exec .transmissionComplete s = .next v ∧ driveBit level s = stopped v) ∧
        (level = b → rest ≠ [] →
          driveBit level s = { s with line := { s.line with wire := { s.line.wire with out := rest } } }))) ∧
    ∀ driven others : Bool, lineLevel driven others false = true ↔ driven = true ∧ others = true

/-! ### Site time and the peer table -/

/-- The round mean (R33): of three members or more, one smallest and one largest are removed; the mean is the sum of the rest by their
number, truncated toward zero, and the order of the members does not matter. One member is its own mean, two give half their sum, three
their median. -/
def Obligations.RoundMeanTrims : Prop :=
  (∀ members : List Int, members ≠ [] → members.length < 3 → meanOf members = Int.tdiv members.sum members.length) ∧
  (∀ (members : List Int) (lo hi : Int), 3 ≤ members.length → lo ∈ members → hi ∈ members →
    (∀ x ∈ members, lo ≤ x ∧ x ≤ hi) →
    meanOf members = Int.tdiv (members.sum - lo - hi) ((members.length : Int) - 2)) ∧
  (∀ a b : List Int, a.Perm b → meanOf a = meanOf b) ∧
  meanOf [0] = 0 ∧ (∀ e, meanOf [0, e] = Int.tdiv e 2) ∧ (∀ x y z, x ≤ y → y ≤ z → meanOf [x, y, z] = y)

/-- ROUND_END of a configured node (R27, R31 to R39). In COUNTDOWN, RUNNING and CODA every member whose magnitude exceeds the outlier
limit leaves the set, each counted up to 255 in its record (R32). The mean of own 0 and the members left gives the round's class from the
lock windows, none where the set is empty while a peer is FRESH or STALE (R38); LOCKED is set at within count 4 and cleared at outside
count 2, and each change raises LOCK (R39). Out of a show and out of STANDBY a mean above 1,000 µs steps site time by it, and the round of
the stepped value is entered part-way with no correction (R34), the wind window abandoned (R127), and after a backward step the periods of
10 ms recur from the new value (R26). Otherwise the next round begins with half the mean, held within the slew limit, as its correction
(R35). What `sinceStep` becomes is the model's own mark of a step (notes/assumptions/15.md); that the next wind window and the periods of
10 ms begin at their next multiples is the model's reading (notes/assumptions/11.md, notes/assumptions/10.md). -/
def Obligations.RoundEnds : Prop :=
  ∀ (s : State) (c : ConfigRecord) (start : SiteTime), s.port.held = false → s.config = some c → s.clock.roundStart = some start →
    s.ctl.state ≠ .standby →
    let us := 1000 * c.interval
    let next := multipleAfter start us
    let kept : Fin 32 → Option Int := fun i => match s.clock.offsets[i] with
      | none => none
      | some e =>
        if (s.ctl.state = .countdown ∨ s.ctl.state = .running ∨ s.ctl.state = .coda) ∧ c.outlier < e.natAbs then none else some e
    let members := (List.finRange 32).filterMap kept
    let mean := meanOf (0 :: members)
    let unclassed := members = [] ∧ ∃ i : Fin 32, i ≠ c.own ∧ s.peers[i].presence ≠ .absent
    let stays := s.ctl.state.inShow = true ∨ mean.natAbs ≤ 1000
    let stepped := s.clock.site + BitVec.ofInt 48 mean
    let beaconAt := fun roundStart : SiteTime => roundStart + BitVec.ofNat 48 (c.own.val * us / 32)
    (reached s.clock.site next = false → exec .roundEnd s = .next s) ∧
    (reached s.clock.site next = true →
      ∃ t, exec .roundEnd s = .next t ∧
        (unclassed → t.clock.within = s.clock.within ∧ t.clock.outside = s.clock.outside ∧ t.clock.locked = s.clock.locked) ∧
        (¬ unclassed → mean.natAbs ≤ c.lockWindow →
          t.clock.within = min 4 (s.clock.within + 1) ∧ t.clock.outside = 0 ∧
          t.clock.locked = (s.clock.locked || decide (3 ≤ s.clock.within))) ∧
        (¬ unclassed → c.lockWindow < mean.natAbs → mean.natAbs ≤ c.unlockWindow →
          t.clock.within = 0 ∧ t.clock.outside = 0 ∧ t.clock.locked = s.clock.locked) ∧
        (¬ unclassed → c.lockWindow < mean.natAbs → c.unlockWindow < mean.natAbs →
          t.clock.within = 0 ∧ t.clock.outside = min 2 (s.clock.outside + 1) ∧
          t.clock.locked = (s.clock.locked && decide (s.clock.outside = 0))) ∧
        t.events = (if t.clock.locked = s.clock.locked then s.events else s.events.raised .lock) ∧
        (∀ i : Fin 32, t.peers[i] =
          if (s.clock.offsets[i]).isSome = true ∧ (kept i).isNone = true
          then { s.peers[i] with outliers := min 255 (s.peers[i].outliers + 1) } else s.peers[i]) ∧
        t.clock.offsets = Vector.replicate 32 none ∧ t.clock.made = 0 ∧ t.clock.roundLocal = 0 ∧
        t.clock.clash = s.clock.clash ∧
        (stays → t.clock.site = s.clock.site ∧ t.clock.roundStart = some next ∧ t.clock.beaconDue = some (beaconAt next) ∧
          t.clock.correction = clamp (Int.tdiv mean 2) (-(c.slewLimit : Int)) c.slewLimit ∧
          t.clock.sinceStep = s.clock.sinceStep ∧ onlyChanges [.clock, .peers, .events] s t) ∧
        (¬ stays → t.clock.site = stepped ∧ t.clock.roundStart = some (multipleBelow stepped us) ∧ t.clock.correction = 0 ∧
          t.clock.beaconDue = (if reached stepped (beaconAt (multipleBelow stepped us)) then none
            else some (beaconAt (multipleBelow stepped us))) ∧
          t.clock.sinceStep = 0 ∧
          t.wind = { s.wind with window := none, count := 0, next := multipleAfter stepped 1000000 } ∧
          t.pump = { s.pump with next := if mean < 0 then multipleAfter stepped 10000 else s.pump.next } ∧
          t.lamps = { s.lamps with next := if mean < 0 then multipleAfter stepped 10000 else s.lamps.next } ∧
          t.audio = { s.audio with nextGain := if mean < 0 then multipleAfter stepped 10000 else s.audio.nextGain } ∧
          onlyChanges [.clock, .events, .wind, .pump, .lamps, .audio] s t))

/-- SLEW_ADJUSTMENT (R36): with q = floor(I / |c|), an adjustment falls while fewer than |c| are made and local time since the round start
has reached adjustments made × q; in its microsecond of local time site time advances by two for a positive correction and not at all
for a negative one. The safety pins are sampled in it as in any other (R173). Otherwise nothing happens. -/
def Obligations.SlewAdjusts : Prop :=
  ∀ (s : State) (c : ConfigRecord), s.port.held = false → s.config = some c →
    let size := s.clock.correction.natAbs
    let due := s.clock.made < size ∧ s.clock.made * (1000 * c.interval / size) ≤ s.clock.roundLocal
    (¬ due → exec .slewAdjustment s = .next s) ∧
    (due → ∃ t, exec .slewAdjustment s = .next t ∧ onlyChanges [.clock, .score, .safety] s t ∧
      (∀ i : Fin 8, t.safety[i] = { s.safety[i] with before := none }) ∧
      t.clock = { s.clock with
        site := if 0 < s.clock.correction then s.clock.site + 2 else s.clock.site
        made := s.clock.made + 1, roundLocal := s.clock.roundLocal + 1, sinceStep := min 300 (s.clock.sinceStep + 1) } ∧
      t.score = { s.score with checkAge := if s.score.status = .checking then s.score.checkAge + 1 else s.score.checkAge })

/-- Ageing of a peer record by the node's own site time and interval I, 50,000 µs in STANDBY (R27, R59): FRESH becomes STALE at last arrival
+ 3 × I and keeps its fields; FRESH or STALE becomes ABSENT at + 20 × I, its fields clear and PEER is raised; before, and for the own
record, nothing happens. A configured node recomputes its site wind at each (R131). -/
def Obligations.RecordsAge : Prop :=
  ∀ (s : State) (i : Fin 32), s.port.held = false →
    let us := match s.config with
      | none => 50000
      | some c => 1000 * c.interval
    let peer := ∀ c, s.config = some c → i ≠ c.own
    let stale := reached s.clock.site (s.peers[i].lastArrival + BitVec.ofNat 48 (3 * us)) = true
    let absent := reached s.clock.site (s.peers[i].lastArrival + BitVec.ofNat 48 (20 * us)) = true
    let windFollows := fun t : State => (s.config = none → t.wind = s.wind) ∧ ∀ c, s.config = some c →
      t.wind = { s.wind with
        site := siteWind c t, factor := windFactor c (siteWind c t)
        applied := min s.wind.applied (windFactor c (siteWind c t)) }
    (peer → s.peers[i].presence = .fresh → stale → ¬ absent →
      ∃ t, exec (.peerStale i) s = .next t ∧ t.peers[i] = { s.peers[i] with presence := .stale } ∧
        (∀ j : Fin 32, j ≠ i → t.peers[j] = s.peers[j]) ∧ windFollows t ∧ onlyChanges [.peers, .wind] s t) ∧
    (peer → s.peers[i].presence ≠ .absent → absent →
      ∃ t, exec (.peerAbsent i) s = .next t ∧ t.peers[i] = .cleared ∧ t.events = s.events.raised .peer ∧
        (∀ j : Fin 32, j ≠ i → t.peers[j] = s.peers[j]) ∧ windFollows t ∧ onlyChanges [.peers, .wind, .events] s t) ∧
    (¬ peer ∨ s.peers[i].presence ≠ .fresh ∨ ¬ stale ∨ absent → exec (.peerStale i) s = .next s) ∧
    (¬ peer ∨ s.peers[i].presence = .absent ∨ ¬ absent → exec (.peerAbsent i) s = .next s)

/-! ### The course of a show -/

/-- Show times reached. In COUNTDOWN the start of the GO record gives RUNNING with no request issued, the lamps evaluated in the new state
(R12, R144); in RUNNING the pending coda time gives CODA with cause STOP (R15, R18). Before its time, and elsewhere, neither does
anything. -/
def Obligations.ShowTimesReached : Prop :=
  ∀ (s : State) (c : ConfigRecord) (g : GoRecord), s.port.held = false → s.config = some c → s.ctl.go = some g →
    (s.ctl.state = .countdown → reached s.clock.site g.start = true →
      ∃ t, exec .startReached s = .next t ∧ t.ctl = { s.ctl with state := .running } ∧ t.events = s.events.raised .state ∧
        t.lamps = { s.lamps with lamp := t.lamps.lamp } ∧
        (∀ l : Fin 16, t.lamps.lamp[l] = { s.lamps.lamp[l] with duty := lampDuty t c l }) ∧
        onlyChanges [.ctl, .events, .lamps] s t) ∧
    (s.ctl.state ≠ .countdown ∨ reached s.clock.site g.start = false → exec .startReached s = .next s) ∧
    (∀ u, s.ctl.state = .running → s.ctl.pendingCoda = some u → reached s.clock.site u = true →
      ∃ t, exec .pendingCodaReached s = .next t ∧ codaEntered c .stop s t) ∧
    (s.ctl.state ≠ .running ∨ (∀ u, s.ctl.pendingCoda = some u → reached s.clock.site u = false) →
      exec .pendingCodaReached s = .next s)

/-- CODA_DEADLINE (R19): with every channel at d_out 0 and its run output off, the show result COMPLETE for cause END, STOPPED for cause
STOP, is written with the GO record's show id and the show time, the GO record and the coda fields removed, and IDLE entered with every
figure, height, lamp and audio frame cleared and the score thawed. AUDIO CLEAR discards an AUDIO command under reception, with result
STATE (R159, R168); that one trimmed entirely stays, and that the next block is entered at ring position 0, are the model's choices
(notes/assumptions/16.md). With a pump still turning only the model's own mark that the test was made is set (notes/assumptions/13.md). -/
def Obligations.CodaCompletes : Prop :=
  ∀ (s : State) (c : ConfigRecord) (g : GoRecord) (d : SiteTime), s.port.held = false → s.config = some c →
    s.ctl.state = .coda → s.ctl.go = some g → s.ctl.codaDeadline = some d → reached s.clock.site d = true → s.ctl.codaTested = false →
    let stopped := ∀ p : Fin 4, s.pump.chan[p].dOut = 0 ∧ s.pump.chan[p].runOutput = false
    (¬ stopped → ∃ t, exec .codaDeadline s = .next t ∧ t.ctl = { s.ctl with codaTested := true } ∧ onlyChanges [.ctl] s t) ∧
    (stopped → ∃ t, exec .codaDeadline s = .next t ∧
      t.ctl = { s.ctl with
        state := .idle, go := none, pendingCoda := none, codaDeadline := none, codaCause := none, codaTested := false
        result :=
          { kind := if s.ctl.codaCause = some .stop then .stopped else .complete, showId := g.showId
            endTime := sdiff s.clock.site g.start } } ∧
      t.events = s.events.raised .state ∧ t.score = { s.score with frozen := false } ∧
      (∀ i : Fin 4, t.jets[i].valve = .empty ∧ t.jets[i].lamp = .empty ∧ t.jets[i].mode ≠ .following) ∧
      t.pump = { s.pump with chan := t.pump.chan } ∧
      (∀ p : Fin 4, t.pump.chan[p] = { s.pump.chan[p] with height := .zero }) ∧
      t.lamps.master = .fullMaster ∧
      (∀ l : Fin 16, t.lamps.lamp[l] = { start := black, target := black, anchor := 0, len := 0, duty := black }) ∧
      t.audio = { AudioUnit.reset with
        underrunCount := s.audio.underrunCount, skipCount := s.audio.skipCount, nextGain := s.audio.nextGain
        reception := keptReception s } ∧
      (keptReception s = s.audio.reception → t.port = s.port) ∧
      (keptReception s ≠ s.audio.reception → t.audio.reception = none ∧ recorded 0x50 .state none s t) ∧
      onlyChanges [.ctl, .events, .score, .jets, .pump, .lamps, .audio, .port] s t)

/-- CUE_TAKEN (R73, R74): in TAKING, with show time at 1000 × (t − H) of the cue at the pointer and room for its actions, they join the
queue: it stays in due-time order, the actions of each due time in score order behind those queued before, and the pointer moves on by
one. Where the next cue is reached too and has no room, it waits at once (the model's choice where the cue just taken holds actions
already due, notes/assumptions/33.md). A cue without room waits, and QUEUE FULL is raised once. Before its time nothing happens. The
actions of a cue are those of its kind, in the order and with the due times of R70, each with its counted mark clear (R71). -/
def Obligations.CueTaken : Prop :=
  ∀ (s : State) (c : ConfigRecord) (g : GoRecord), s.port.held = false → s.config = some c → s.ctl.go = some g →
    s.cue.queue.Pairwise (fun a b => a.due ≤ b.due) →
    let acts := cueActions c s.score s.cue.pointer
    let due := s.cue.taking = true ∧ s.cue.pointer < s.score.cueCount ∧
      1000 * ((cueTime (cueBytes s.score s.cue.pointer) : Int) - s.cue.horizon) ≤ sdiff s.clock.site g.start
    (due → s.cue.queue.length + acts.length ≤ 64 →
      ∃ t, exec .cueTaken s = .next t ∧ onlyChanges [.cue, .events] s t ∧
        t.cue = { s.cue with pointer := s.cue.pointer + 1, queue := t.cue.queue, waiting := t.cue.waiting } ∧
        t.cue.queue.Perm (s.cue.queue ++ acts) ∧ t.cue.queue.Pairwise (fun a b => a.due ≤ b.due) ∧
        (∀ d, t.cue.queue.filter (fun a => decide (a.due = d)) =
          s.cue.queue.filter (fun a => decide (a.due = d)) ++ acts.filter fun a => decide (a.due = d)) ∧
        (t.cue.waiting = true ↔ s.cue.pointer + 1 < s.score.cueCount ∧
          1000 * ((cueTime (cueBytes s.score (s.cue.pointer + 1)) : Int) - s.cue.horizon) ≤ sdiff s.clock.site g.start ∧
          64 < t.cue.queue.length + (cueActions c s.score (s.cue.pointer + 1)).length) ∧
        t.events = if t.cue.waiting then s.events.raised .queueFull else s.events) ∧
    (due → 64 < s.cue.queue.length + acts.length →
      ∃ t, exec .cueTaken s = .next t ∧ onlyChanges [.cue, .events] s t ∧ t.cue = { s.cue with waiting := true } ∧
        t.events = if s.cue.waiting then s.events else s.events.raised .queueFull) ∧
    (¬ due → exec .cueTaken s = .next s) ∧
    ∀ cue : Nat,
      let b := cueBytes s.score cue
      let t : Int := 1000 * (cueTime b : Int)
      let action := fun (due : Int) (act : Act) => ({ due := due, act := act, cue := cue, counted := false } : Action)
      let gives := fun kind : Nat => byteAt b 0 = kind
      (gives 0x01 → cueActions c s.score cue = (List.finRange 4).filterMap fun p : Fin 4 =>
        if (byteAt b 4).testBit p then some (action (t - 1000 * c.pump[p].lead) (.height p (leAt b 5 2) (leAt b 7 2))) else none) ∧
      (∀ g : Fin 4, gives (0x20 + g) ∨ gives (0x28 + g) → cueActions c s.score cue =
        [action (t - 1000 * c.valveLead[g]) (.figure .valve g (cueFigure b)), action t (.figure .lamp g (cueFigure b))]) ∧
      (gives 0x02 → cueActions c s.score cue =
        [action t (.colour (BitVec.ofNat 16 (leAt b 4 2)) { r := byteAt b 6, g := byteAt b 7, b := byteAt b 8 } (leAt b 9 2))]) ∧
      (gives 0x03 → cueActions c s.score cue = [action t (.master (leAt b 4 2) (leAt b 6 2))]) ∧
      (gives 0x04 → cueActions c s.score cue = [action (t + (c.zoneDelay * 125 / 6 : Nat)) (.level (leAt b 4 2) (leAt b 6 2))]) ∧
      (gives 0x05 → cueActions c s.score cue = [action t (.mark (byteAt b 4))]) ∧
      (gives 0x0F → cueActions c s.score cue = [action t .endShow])

/-- ACTION_FIRES (R75 to R78): in TAKING the head action leaves the queue when its due time is reached. More than 10,000 µs late, with its
counted mark clear, it raises CUE LATE, counts once, and marks every action left of its cue (R76). A MARK sets the last mark and raises
MARK; a HEIGHT starts its channel's ramp from the present height (R104); a figure writes one view of its group (R85); in COUNTDOWN and
RUNNING a COLOUR, MASTER or LEVEL starts its fade from the present value (R139, R141, R164). An END enters CODA in RUNNING; in COUNTDOWN it
enters RUNNING and then CODA, STATE raised at both changes (the model's reading, notes/assumptions/22.md); elsewhere it is ignored (R12,
R17). All that is state `u`; a cue held for want of room is then taken where room has come (R73). Before the due time nothing happens. -/
def Obligations.ActionFires : Prop :=
  ∀ (s : State) (c : ConfigRecord) (g : GoRecord) (a : Action) (rest : List Action), s.port.held = false → s.config = some c →
    s.ctl.go = some g → s.cue.queue = a :: rest →
    let now := sdiff s.clock.site g.start
    let late := 10000 < now - a.due ∧ a.counted = false
    let cue := { s.cue with
      queue := if late then rest.map fun b => if b.cue = a.cue then { b with counted := true } else b else rest
      lateCount := if late then min 65535 (s.cue.lateCount + 1) else s.cue.lateCount }
    let events := if late then s.events.raised .cueLate else s.events
    let fading := s.ctl.state = .countdown ∨ s.ctl.state = .running
    (s.cue.taking = false ∨ now < a.due → exec .actionFires s = .next s) ∧
    (s.cue.taking = true → a.due ≤ now → ∃ u t, exec .actionFires s = .next t ∧
      (a.act ≠ .endShow → (∀ n, a.act ≠ .mark n) → u.cue = cue) ∧
      (∀ n, a.act = .mark n →
        u.cue = { cue with lastMark := n } ∧ u.events = events.raised .mark ∧ onlyChanges [.cue, .events] s u) ∧
      (∀ p target len, a.act = .height p target len →
        u.pump = { s.pump with chan := u.pump.chan } ∧ (∀ q : Fin 4, q ≠ p → u.pump.chan[q] = s.pump.chan[q]) ∧
        u.pump.chan[p] = { s.pump.chan[p] with height :=
          { start := s.pump.chan[p].height.present (some now), target := target, anchor := a.due, len := len } } ∧
        u.events = events ∧ onlyChanges [.cue, .events, .pump] s u) ∧
      (∀ v i f, a.act = .figure v i f →
        let phase := evalFigure (some f) (some (match v with
          | .lamp => now
          | .valve => now + 1000 * (c.valveLead[i] : Int)))
        (∀ j : Fin 4, j ≠ i → u.jets[j] = s.jets[j]) ∧
        u.jets[i] = s.jets[i].withView v
          { presence := .held, figure := f, origin := .fired, shown := phase
            endReported := decide (v = .lamp ∧ phase = .ended) } ∧
        u.events = (if v = .lamp ∧ phase = .ended then events.raised .figureEnd else events) ∧
        onlyChanges [.cue, .events, .jets] s u) ∧
      (∀ set colour len, a.act = .colour set colour len →
        u.lamps = { s.lamps with lamp := u.lamps.lamp } ∧
        (∀ l : Fin 16, u.lamps.lamp[l] =
          if fading ∧ set.getLsbD l = true then
            { start := s.lamps.lamp[l].colour (some now), target := colour, anchor := a.due, len := len
              duty := s.lamps.lamp[l].duty }
          else s.lamps.lamp[l]) ∧
        u.events = events ∧ onlyChanges [.cue, .events, .lamps] s u) ∧
      (∀ level len, a.act = .master level len →
        u.lamps = { s.lamps with master :=
          if fading then { start := s.lamps.master.present (some now), target := level, anchor := a.due, len := len }
          else s.lamps.master } ∧
        u.events = events ∧ onlyChanges [.cue, .events, .lamps] s u) ∧
      (∀ gain len, a.act = .level gain len →
        let record : Fade := { start := s.audio.gain.present (some now), target := gain, anchor := a.due, len := len }
        u.audio = (if fading then { s.audio with gain := record, applied := record.present (some now) } else s.audio) ∧
        u.events = events ∧ onlyChanges [.cue, .events, .audio] s u) ∧
      (a.act = .endShow →
        let fired := { s with cue := cue, events := events }
        (s.ctl.state = .running → codaEntered c .endCue fired u) ∧
        (s.ctl.state = .countdown → codaEntered c .endCue
          { fired with events := events.raised .state, ctl := { s.ctl with state := .running } } u) ∧
        (s.ctl.state ≠ .running → s.ctl.state ≠ .countdown → u = fired)) ∧
      let retried := u.cue.waiting = true ∧ s.cue.pointer < s.score.cueCount ∧
        1000 * ((cueTime (cueBytes s.score s.cue.pointer) : Int) - s.cue.horizon) ≤ now ∧
        u.cue.queue.length + (cueActions c s.score s.cue.pointer).length ≤ 64
      (retried → exec .cueTaken u = .next t) ∧ (¬ retried → t = u))

/-- A late join at or after the start (R13): the node is RUNNING with the GO record, its valve groups follow, next frame is 0, and CUE SEEK
hands over (R81, R82). State `u` is what the hand-overs leave. Of the actions of the passed cues with due times reached, each channel
takes the latest HEIGHT, each group's views the latest FIGURE with origin SEEK and no event (R99), each lamp the latest COLOUR naming it, the
master and the gain their latest MASTER and LEVEL (R152, R169); a target none names keeps its value. The LEVELs still ahead, the 64 latest
of them, are the queue. With END passed CODA is entered, the pointer at the cue count, STATE raised at both changes (the model's reading,
notes/assumptions/22.md). Otherwise TAKING goes on from the first cue not passed. That the lamps are evaluated after the hand-overs is
the model's choice (notes/assumptions/34.md). -/
def Obligations.SeekHandsOver : Prop :=
  ∀ (s : State) (c : ConfigRecord) (g : GoRecord), s.config = some c → reached s.clock.site g.start = true →
    (∀ i j, i ≤ j → j < s.score.cueCount → cueTime (cueBytes s.score i) ≤ cueTime (cueBytes s.score j)) →
    let now := sdiff s.clock.site g.start
    let passed := fun i => 1000 * (cueTime (cueBytes s.score i) : Int) ≤ now
    let acts := ((List.range s.score.cueCount).filter fun i => decide (passed i)).flatMap (cueActions c s.score)
    let latest := fun names : Act → Bool => (acts.filter fun a => decide (a.due ≤ now) && names a.act).getLast?
    let ahead := acts.filter fun a => isLevel a.act && decide (now < a.due)
    let queued := ahead.drop (ahead.length - 64)
    let t := lateJoin c g s
    ∃ u,
      onlyChanges [.ctl, .cue, .jets, .pump, .lamps, .audio, .events] s u ∧
      u.ctl = { s.ctl with state := .running, go := some g } ∧ u.events = s.events.raised .state ∧
      u.cue = { s.cue with lateCount := 0, lastMark := 0, queue := u.cue.queue } ∧
      u.cue.queue.Perm queued ∧ u.cue.queue.Pairwise (fun a b => a.due ≤ b.due) ∧
      (∀ d, u.cue.queue.filter (fun a => decide (a.due = d)) = queued.filter fun a => decide (a.due = d)) ∧
      u.pump = { s.pump with chan := u.pump.chan } ∧
      (∀ p : Fin 4, u.pump.chan[p] =
        match latest (fun | .height q _ _ => decide (q = p) | _ => false) with
        | some { due := due, act := .height _ target len, cue := _, counted := _ } => { s.pump.chan[p] with height :=
            { start := s.pump.chan[p].height.present (some now), target := target, anchor := due, len := len } }
        | _ => s.pump.chan[p]) ∧
      (∀ i : Fin 4, u.jets[i].mode = (if s.jets[i].mode = .closed then .following else s.jets[i].mode) ∧
        ∀ v : View, u.jets[i].view v =
          match latest (fun | .figure w j _ => decide (w = v ∧ j = i) | _ => false) with
          | some { due := _, act := .figure _ _ f, cue := _, counted := _ } =>
            let phase := evalFigure (some f) (some (match v with
              | .lamp => now
              | .valve => now + 1000 * (c.valveLead[i] : Int)))
            { presence := .held, figure := f, origin := .seek, shown := phase
              endReported := decide (v = .lamp ∧ phase = .ended) }
          | _ => s.jets[i].view v) ∧
      u.lamps = { s.lamps with lamp := u.lamps.lamp, master := u.lamps.master } ∧
      u.lamps.master =
        (match latest (fun | .master _ _ => true | _ => false) with
        | some { due := due, act := .master level len, cue := _, counted := _ } =>
          { start := s.lamps.master.present (some now), target := level, anchor := due, len := len }
        | _ => s.lamps.master) ∧
      (∀ l : Fin 16, u.lamps.lamp[l] =
        match latest (fun | .colour set _ _ => set.getLsbD l | _ => false) with
        | some { due := due, act := .colour _ colour len, cue := _, counted := _ } =>
          { start := s.lamps.lamp[l].colour (some now), target := colour, anchor := due, len := len
            duty := s.lamps.lamp[l].duty }
        | _ => s.lamps.lamp[l]) ∧
      u.audio =
        (let joined := { s.audio with next := 0, play := none, underrunCount := 0, skipCount := 0 }
        match latest isLevel with
        | some { due := due, act := .level gain len, cue := _, counted := _ } =>
          let record : Fade := { start := s.audio.gain.present (some now), target := gain, anchor := due, len := len }
          { joined with gain := record, applied := record.present (some now) }
        | _ => joined) ∧
      ((∃ a ∈ acts, a.act = .endShow) →
        codaEntered c .endCue { u with cue := { u.cue with pointer := s.score.cueCount } } t) ∧
      ((∀ a ∈ acts, a.act ≠ .endShow) →
        t.cue = { u.cue with taking := true, pointer := t.cue.pointer } ∧
        t.cue.pointer ≤ s.score.cueCount ∧ (∀ i, i < t.cue.pointer → passed i) ∧
        (t.cue.pointer < s.score.cueCount → ¬ passed t.cue.pointer) ∧
        t.lamps = { u.lamps with lamp := t.lamps.lamp } ∧
        (∀ l : Fin 16, t.lamps.lamp[l] = { u.lamps.lamp[l] with duty := lampDuty t c l }) ∧ onlyChanges [.cue, .lamps] u t)

/-- The evaluation of a figure at a show time (R87): EMPTY with no figure; NOT BEGUN before its start; and during the millisecond span of
step k of pass n, PLAYING at step k while passes are endless or n is below them, else ENDED; a figure with passes ends exactly at its
start + 1000 × period × steps × passes. A view that is not PLAYING opens no valve; one that plays step k opens the row of that step
where its window, which may wrap, holds k (R88, R89). That a held figure with no show time has not begun is the model's choice
(notes/assumptions/38.md). -/
def Obligations.FigurePhase : Prop :=
  (∀ tau, evalFigure none tau = .empty) ∧ (∀ f, evalFigure (some f) none = .notBegun) ∧
  (∀ (f : Figure) (tau : Int), 0 < f.period → 0 < f.steps →
    (tau < f.start → evalFigure (some f) (some tau) = .notBegun) ∧
    (∀ k n : Nat, k < f.steps → f.start + 1000 * ((f.period * (f.steps * n + k) : Nat) : Int) ≤ tau →
      tau < f.start + 1000 * ((f.period * (f.steps * n + k + 1) : Nat) : Int) →
      evalFigure (some f) (some tau) = if f.passes = 0 ∨ n < f.passes then .playing k n else .ended) ∧
    (0 < f.passes → (evalFigure (some f) (some tau) = .ended ↔
      f.start + 1000 * ((f.period * f.steps * f.passes : Nat) : Int) ≤ tau))) ∧
  ∀ (sc : Score) (v : ViewRecord),
    (v.presence = .empty ∨ (∀ k n, v.shown ≠ .playing k n) → openSet sc v = 0) ∧
    ∀ k n, v.presence = .held → v.shown = .playing k n →
      let f := v.figure
      openSet sc v =
        if (f.wStart ≤ f.wEnd ∧ f.wStart ≤ k ∧ k ≤ f.wEnd) ∨ (f.wEnd < f.wStart ∧ (f.wStart ≤ k ∨ k ≤ f.wEnd))
        then rowSet sc (256 * (f.startRow / 256) + (f.startRow % 256 + k * f.pitch) % 256) else 0

/-- Moments of a view, in COUNTDOWN, RUNNING and CODA: where its evaluation has left what it shows, FIGURE_STEP_BOUNDARY makes it show that
from then on, and nothing else changes (R90); where a lamp view has ended unreported, FIGURE_END raises FIGURE END and marks it reported
(R98). Otherwise neither does anything. -/
def Obligations.FigureMoments : Prop :=
  ∀ (s : State) (c : ConfigRecord) (i : Fin 4), s.port.held = false → s.config = some c →
    let now := fun v : View => (showTime s).map fun tau => match v with
      | .lamp => tau
      | .valve => tau + 1000 * (c.valveLead[i] : Int)
    (∀ v, let view := s.jets[i].view v
      let phase := evalFigure view.fig (now v)
      (s.ctl.state.inShow = true → view.shown ≠ phase →
        ∃ t, exec (.figureStepBoundary i v) s = .next t ∧ t.jets[i] = s.jets[i].withView v { view with shown := phase } ∧
          (∀ j : Fin 4, j ≠ i → t.jets[j] = s.jets[j]) ∧ onlyChanges [.jets] s t) ∧
      (s.ctl.state.inShow = false ∨ view.shown = phase → exec (.figureStepBoundary i v) s = .next s)) ∧
    (let view := s.jets[i].lamp
      let ends := s.ctl.state.inShow = true ∧ view.endReported = false ∧ evalFigure view.fig (now .lamp) = .ended
      (ends → ∃ t, exec (.figureEnd i) s = .next t ∧ t.events = s.events.raised .figureEnd ∧
        t.jets[i] = { s.jets[i] with lamp := { view with shown := .ended, endReported := true } } ∧
        (∀ j : Fin 4, j ≠ i → t.jets[j] = s.jets[j]) ∧ onlyChanges [.jets, .events] s t) ∧
      (¬ ends → exec (.figureEnd i) s = .next s))

/-! ### Pumps -/

/-- The pump period's drives (R103, R106 to R111, R133), with p configured and not faulted, by this period's sample either: h_now is the
present height, h_eff what the applied wind factor leaves of it, d_t the lift curve's drive; the demand sums P(d_t) over the channels
ON or in the start list; the view sum adds the demands of FRESH and STALE peers, each held to 20,000; the grant is the demand, or its
share of the budget; d_c is d_t, or the largest drive to it whose power is within its cap. Any other channel has h_eff, d_t and d_c 0.
Before the period nothing happens. -/
def Obligations.PumpPeriodDrives : Prop :=
  ∀ (s : State) (c : ConfigRecord) (feedback : BitVec 4), s.port.held = false → s.config = some c →
    (reached s.clock.site s.pump.next = false → exec (.pumpPeriod feedback) s = .next s) ∧
    (reached s.clock.site s.pump.next = true →
      ∃ t, exec (.pumpPeriod feedback) s = .next t ∧
        t.pump.next = multipleAfter s.clock.site 10000 ∧ t.pump.feedback = feedback ∧
        t.wind = { s.wind with applied := min s.wind.factor (s.wind.applied + c.fRise) } ∧
        (let q := t.pump
          let power := fun (p : Fin 4) (d : Nat) => c.pump[p].rated * d ^ 3 / 1000000000
          q.demand = sumOver (fun p : Fin 4 =>
            if drivable c s feedback p = true ∧ s.pump.chan[p].stage ≠ .off then power p q.chan[p].dT else 0) ∧
          q.viewSum = q.demand + sumOver (fun i : Fin 32 =>
            if i ≠ c.own ∧ s.peers[i].presence ≠ .absent then min 20000 s.peers[i].demand.toNat else 0) ∧
          q.grant =
            (if q.demand = 0 then 0 else if q.viewSum ≤ c.budget then q.demand else c.budget * q.demand / q.viewSum) ∧
          ∀ p : Fin 4,
            q.chan[p].hNow = s.pump.chan[p].height.present (showTime s) ∧
            (drivable c s feedback p = true →
              q.chan[p].hEff = (if c.pump[p].exposed then q.chan[p].hNow * t.wind.applied / 1024 else q.chan[p].hNow) ∧
              (q.chan[p].hEff = 0 → q.chan[p].dT = 0) ∧
              (0 < q.chan[p].hEff → q.chan[p].hEff < 1024 → ∀ seg, (hs : seg < 16) → seg = q.chan[p].hEff / 64 →
                q.chan[p].dT = c.pump[p].lift[seg] +
                  (c.pump[p].lift[seg + 1] - c.pump[p].lift[seg]) * (q.chan[p].hEff % 64) / 64) ∧
              (1024 ≤ q.chan[p].hEff → q.chan[p].dT = c.pump[p].lift[16]) ∧
              (q.demand ≤ q.grant → q.chan[p].dC = q.chan[p].dT) ∧
              (q.grant < q.demand → q.chan[p].dC ≤ q.chan[p].dT ∧
                power p q.chan[p].dC ≤ q.grant * power p q.chan[p].dT / q.demand ∧
                ∀ d, q.chan[p].dC < d → d ≤ q.chan[p].dT → q.grant * power p q.chan[p].dT / q.demand < power p d)) ∧
            (drivable c s feedback p = false → q.chan[p].hEff = 0 ∧ q.chan[p].dT = 0 ∧ q.chan[p].dC = 0)))

/-- The pump period's commands (R112 to R118, R122, R123). A channel whose sample faults it stops at once and raises PUMP FAULT. A running
channel takes d_c as its command, 0 where d_c is below d_min, a DRY input covers it, it computes no drive, or there is no show; d_out
moves toward the command by at most its ramp, and at 0 with command 0 the channel leaves ON; the run output left is the one the lamps see
until the next period (R144). Every other channel has d_cmd and d_out 0 and stands in the start list while its command would be above 0.
With the slot free the head is asked for; while it is busy nothing is asked. The sum of P(d_cmd) never exceeds the grant (R110). Out of
CODA the show is unchanged and a holding group closes when its pump's d_out is 0 (R94); in CODA the test for its end follows (R19). -/
def Obligations.PumpPeriodCommands : Prop :=
  ∀ (s : State) (c : ConfigRecord) (feedback : BitVec 4), s.port.held = false → s.config = some c → PumpInv s →
    reached s.clock.site s.pump.next = true →
    ∃ t, exec (.pumpPeriod feedback) s = .next t ∧
      (let q := t.pump
        let ok := drivable c s feedback
        let was := fun p : Fin 4 => s.pump.chan[p]
        let running := fun p : Fin 4 => (was p).runOutput = true ∧ faultsAt c s feedback p = false
        let command := fun p : Fin 4 =>
          if q.chan[p].dC < c.pump[p].dMin ∨ dryCovers s p = true ∨ ok p = false ∨ s.ctl.state.inShow = false then 0
          else q.chan[p].dC
        let joins := (List.finRange 4).filter fun p => decide ((was p).stage = .off ∧ command p ≠ 0)
        let free := s.pump.ask = .none ∧ ∀ u, s.pump.busyUntil = some u → reached s.clock.site u = true
        (∀ p : Fin 4,
          q.chan[p].dCmd = (if running p then command p else 0) ∧
          (q.chan[p].dCmd = 0 ∨ c.pump[p].dMin ≤ q.chan[p].dCmd) ∧ q.chan[p].dCmd ≤ q.chan[p].dT ∧
          (running p → q.chan[p].dOut =
            (if (was p).dOut < command p then min (command p) ((was p).dOut + c.pump[p].rampUp)
            else max (command p) ((was p).dOut - if s.ctl.state = .halted then c.pump[p].haltRamp else c.pump[p].rampDown))) ∧
          (¬ running p → q.chan[p].dOut = 0) ∧ q.chan[p].ranAtPeriod = q.chan[p].runOutput ∧
          (running p → q.chan[p].stage = (if command p = 0 ∧ q.chan[p].dOut = 0 then .off else .on)) ∧
          (¬ running p → command p = 0 → q.chan[p].stage = .off) ∧
          (¬ running p → command p ≠ 0 → q.chan[p].stage.inList = true) ∧
          (faultsAt c s feedback p = true → q.chan[p].faulted = true ∧ t.events.pending.getLsbD 2 = true ∧
            q.chan[p].cause = if (was p).phase = .confirmed then .lost else .noConfirm) ∧
          (faultsAt c s feedback p = false → q.chan[p].faulted = (was p).faulted ∧ q.chan[p].cause = (was p).cause)) ∧
        sumOver (fun p : Fin 4 => c.pump[p].rated * q.chan[p].dCmd ^ 3 / 1000000000) ≤ q.grant ∧
        q.startList = s.pump.startList.filter (fun p => decide (command p ≠ 0)) ++ joins ∧
        (free → ∀ p rest, q.startList = p :: rest → s.clock.clash = false → s.line.queue.length < 8 →
          q.ask = .queued (some p) ∧ q.chan[p].stage = .asking ∧ q.busyUntil = s.pump.busyUntil ∧
          t.line = { s.line with queue :=
            s.line.queue.takeWhile (fun f => frameClass f.payload ≤ 3) ++ freshFrame (.startAsk (BitVec.ofNat 8 p)) ::
              s.line.queue.dropWhile (fun f => frameClass f.payload ≤ 3) }) ∧
        (free → ∀ p rest, q.startList = p :: rest → s.clock.clash = true →
          q.ask = .window (s.clock.site + 100000) (some p) ∧ q.chan[p].stage = .asked ∧ t.line = s.line) ∧
        (free → q.startList = [] → q.ask = .none ∧ t.line = s.line) ∧
        (¬ free → t.line = s.line ∧ q.busyUntil = s.pump.busyUntil ∧
          q.ask = match s.pump.ask with
            | .queued (some p) => .queued (if command p = 0 then none else some p)
            | .window e (some p) => .window e (if command p = 0 then none else some p)
            | other => other)) ∧
      (s.ctl.state ≠ .coda → onlyChanges [.pump, .wind, .line, .jets, .events] s t ∧
        ∀ g : Fin 4, t.jets[g] = { s.jets[g] with mode := match s.jets[g].mode with
          | .holding held => if t.pump.chan[g].dOut = 0 then .closed else .holding held
          | .closed => .closed
          | .following => .following }) ∧
      (s.ctl.state = .coda →
        let ends := (∃ d, s.ctl.codaDeadline = some d ∧ reached s.clock.site d = true) ∧
          ∀ p : Fin 4, t.pump.chan[p].dOut = 0 ∧ t.pump.chan[p].runOutput = false
        (ends → t.ctl.state = .idle) ∧ (¬ ends → t.ctl = s.ctl))

/-- HOLD_WINDOW_END (R120): at the window's end the own ask becomes NONE, and a channel in it is granted: it leaves the start list, its
run output turns on with d_out and d_cmd 0, its run-on time is now, and its feedback phase is CONFIRMING where its confirm time is above
0. The lamps do not see the run output before the next pump period (R144). A vacant window grants nothing; before the end nothing happens.
-/
def Obligations.HoldWindowEnds : Prop :=
  ∀ (s : State) (c : ConfigRecord), s.port.held = false → s.config = some c →
    (∀ e p, s.pump.ask = .window e (some p) → reached s.clock.site e = true →
      ∃ t, exec .holdWindowEnd s = .next t ∧ onlyChanges [.pump] s t ∧
        t.pump = { s.pump with ask := .none, startList := s.pump.startList.erase p, chan := t.pump.chan } ∧
        (∀ q : Fin 4, q ≠ p → t.pump.chan[q] = s.pump.chan[q]) ∧ t.pump.chan[p].runOutput = true ∧
        t.pump.chan[p] = { s.pump.chan[p] with
          stage := .on, dOut := 0, dCmd := 0, runOn := s.clock.site
          phase := if c.pump[p].confirm = 0 then .none else .confirming }) ∧
    (∀ e, s.pump.ask = .window e none → reached s.clock.site e = true →
      ∃ t, exec .holdWindowEnd s = .next t ∧ t.pump = { s.pump with ask := .none } ∧ onlyChanges [.pump] s t) ∧
    ((∀ e ch, s.pump.ask = .window e ch → reached s.clock.site e = false) → exec .holdWindowEnd s = .next s)

/-! ### Wind -/

/-- The wind factor by band (R132), with W_low < W_high ≤ W_cut and F_min at most 1,024 as CONFIGURE demands: 1,024 to W_low, sloping to
F_min below W_high, F_min from there, 0 from W_cut. In the sloping band it lies from F_min to 1,024, and it does not rise as the wind
grows. -/
def Obligations.WindFactorByBand : Prop :=
  ∀ c : ConfigRecord, c.wLow < c.wHigh → c.wHigh ≤ c.wCut → c.fMin ≤ 1024 →
    (∀ w, w ≤ c.wLow → windFactor c w = 1024) ∧
    (∀ w, c.wLow < w → w < c.wHigh →
      windFactor c w = 1024 - (1024 - c.fMin) * (w - c.wLow) / (c.wHigh - c.wLow) ∧
      c.fMin ≤ windFactor c w ∧ windFactor c w ≤ 1024) ∧
    (∀ w, c.wHigh ≤ w → w < c.wCut → windFactor c w = c.fMin) ∧
    (∀ w, c.wCut ≤ w → windFactor c w = 0) ∧
    ∀ v w, v ≤ w → windFactor c w ≤ windFactor c v

/-- Windows of the wind (R127 to R131, R133). A pulse counts in the window in progress, up to 65,535. At a multiple of 1,000,000 µs a
window opens with count 0; one that was counted whole enters the history with speed min(600, floor(p × k / 1000)), the oldest of 8
leaving, the node wind becomes the mean of the newest entries, and site wind, factor and applied factor follow. Otherwise nothing happens.
The site wind of a state is the largest of its node wind and, each held to 600, the winds of its FRESH peers with wind present; with none
of them it is the fallback wind (R130). -/
def Obligations.WindWindows : Prop :=
  ∀ (s : State) (c : ConfigRecord), s.port.held = false → s.config = some c → s.wind.history.length ≤ 8 →
    (s.wind.window = none → exec .anemometerPulse s = .next s) ∧
    (s.wind.window ≠ none → ∃ t, exec .anemometerPulse s = .next t ∧
      t.wind = { s.wind with count := min 65535 (s.wind.count + 1) } ∧ onlyChanges [.wind] s t) ∧
    (c.windScale = 0 ∨ reached s.clock.site s.wind.next = false → exec .windowClose s = .next s) ∧
    (c.windScale ≠ 0 → reached s.clock.site s.wind.next = true →
      ∃ t, exec .windowClose s = .next t ∧ onlyChanges [.wind] s t ∧
        t.wind.window = some (multipleBelow s.clock.site 1000000) ∧ t.wind.count = 0 ∧
        t.wind.next = multipleAfter s.clock.site 1000000 ∧
        (s.wind.window = none → t.wind = { s.wind with
          window := t.wind.window, count := t.wind.count, next := t.wind.next }) ∧
        (s.wind.window ≠ none →
          let speed := min 600 (s.wind.count * c.windScale / 1000)
          t.wind.history = (if s.wind.history.length = 8 then s.wind.history.tail else s.wind.history) ++ [speed] ∧
          (1 ≤ c.depth →
            let m := min c.depth t.wind.history.length
            t.wind.node = some ((t.wind.history.reverse.take m).sum / m)) ∧
          t.wind.site = siteWind c t ∧ t.wind.factor = windFactor c t.wind.site ∧
          t.wind.applied = min s.wind.applied t.wind.factor)) ∧
    (let source := fun w : Nat => s.wind.node = some w ∨
      ∃ i : Fin 32, i ≠ c.own ∧ s.peers[i].presence = .fresh ∧ s.peers[i].flags.getLsbD 2 = true ∧ w = min 600 s.peers[i].wind.toNat
     ((∀ w, ¬ source w) → siteWind c s = c.fallback) ∧
     ((∃ w, source w) → source (siteWind c s) ∧ ∀ w, source w → w ≤ siteWind c s))

/-! ### Lamps and frames -/

/-- The lamp period and the gain update, at the multiples of 10,000 µs (R144, R165). Each lamp's duties follow the show state (R149,
R150): 0 in STANDBY, IDLE and ARMED; in HALTED the safe duty for a safety lamp, else 0; in a show, for a free lamp or a lamp whose valve
has water present (the lamp view opens it, d_out is at or above the visible threshold and the run output was on, both as the latest pump
period left them: R95, R144), each channel v of its colour, or of its active accent before CODA (R145, R146), through its gamma curve
(R147), scaled by the master level, raised to min duty (R148). A channel with v = 0 has duty 0 also on a curve whose first point is above
0, which is the model's reading of R148 (notes/assumptions/9.md). The applied gain takes the present gain; in HALTED it never rises, also
where a backward step has made the present gain the higher one (R166; the model's reading, notes/assumptions/35.md). Before its multiple
neither does anything. -/
def Obligations.LampAndGainPeriods : Prop :=
  ∀ (s : State) (c : ConfigRecord), s.port.held = false → s.config = some c →
    let master := s.lamps.master.present (showTime s)
    let gamma := fun (l : Fin 16) (v : Nat) =>
      let lo := (c.gamma[c.lamp[l].curve][v / 8]?).getD 0
      let hi := (c.gamma[c.lamp[l].curve][v / 8 + 1]?).getD 0
      lo + (hi - lo) * (v % 8) / 8
    let level := fun (l : Fin 16) (v : Nat) =>
      if v = 0 then 0
      else if master = 0 then 0
      else max (gamma l v * master / 1024) c.minDuty
    let lit := fun (l : Fin 16) (v : Rgb) => ({ r := level l v.r, g := level l v.g, b := level l v.b } : Rgb)
    let colour := fun l : Fin 16 => s.lamps.lamp[l].colour (showTime s)
    let water := fun v : Fin 64 =>
      let p := valveGroup v
      lampOpen s v = true ∧ c.pump[p].visible ≤ s.pump.chan[p].dOut ∧ s.pump.chan[p].ranAtPeriod = true
    (reached s.clock.site s.lamps.next = false → exec .lampPeriod s = .next s) ∧
    (reached s.clock.site s.lamps.next = true →
      ∃ t, exec .lampPeriod s = .next t ∧ onlyChanges [.lamps] s t ∧
        t.lamps.master = s.lamps.master ∧ t.lamps.next = multipleAfter s.clock.site 10000 ∧
        ∀ l : Fin 16, t.lamps.lamp[l] = { s.lamps.lamp[l] with duty := t.lamps.lamp[l].duty } ∧
          (s.ctl.state = .standby ∨ s.ctl.state = .idle ∨ s.ctl.state = .armed → t.lamps.lamp[l].duty = black) ∧
          (s.ctl.state = .halted → t.lamps.lamp[l].duty =
            if c.lamp[l].safety then { r := c.safeDuty, g := c.safeDuty, b := c.safeDuty } else black) ∧
          (s.ctl.state.inShow = true → c.lamp[l].valve = none → t.lamps.lamp[l].duty = lit l (colour l)) ∧
          (∀ v, s.ctl.state.inShow = true → c.lamp[l].valve = some v →
            (¬ water v → t.lamps.lamp[l].duty = black) ∧
            (water v → t.lamps.lamp[l].duty = lit l (match accentAt s v with
              | none => colour l
              | some accent => if s.ctl.state = .coda then colour l else accent)))) ∧
    (reached s.clock.site s.audio.nextGain = false → exec .gainUpdate s = .next s) ∧
    (reached s.clock.site s.audio.nextGain = true →
      ∃ t, exec .gainUpdate s = .next t ∧ onlyChanges [.audio] s t ∧
        t.audio = { s.audio with
          applied := if s.ctl.state = .halted then min s.audio.applied (s.audio.gain.present (showTime s))
            else s.audio.gain.present (showTime s)
          nextGain := multipleAfter s.clock.site 10000 })

/-- FRAME_INSTANT (R160 to R162), in RUNNING, CODA and HALTED with the GO record present: taken for the highest frame n whose instant is
reached. Frames below n are discarded and counted, AUDIO SKIP raised once an episode; frame n, where it is held, leaves the queue and its
samples, scaled by the applied gain, are the output; every later frame stays at its ring position. On an empty queue an underrun begins in
RUNNING and the output decays over 48 frames; a gap gives 0, or goes on with a decay. At the instant past the last frame, alone or with
earlier ones, the frames end: the output is 0, decay absent, the underrun episode clear, and so they stay. Before the instant of next
frame nothing happens. -/
def Obligations.FrameInstantServes : Prop :=
  ∀ (s : State) (c : ConfigRecord) (g : GoRecord), s.port.held = false → s.config = some c → s.ctl.go = some g → AudioInv s →
    s.ctl.state = .running ∨ s.ctl.state = .coda ∨ s.ctl.state = .halted →
    let now := sdiff s.clock.site g.start
    let instant := fun k : Nat => ((c.zoneDelay * 125 / 6 + k * 125 / 6 : Nat) : Int)
    (now < instant s.audio.next → exec .frameInstant s = .next s) ∧
    (instant s.audio.next ≤ now →
      ∃ t, exec .frameInstant s = .next t ∧ onlyChanges [.audio, .events] s t ∧ t.audio.ring = s.audio.ring ∧
        t.audio.gain = s.audio.gain ∧ t.audio.applied = s.audio.applied ∧
        ∀ n, instant n ≤ now → now < instant (n + 1) →
          (172804096 ≤ n → t.events = s.events ∧ t.audio = { s.audio with
            next := 172804096, outLeft := 0, outRight := 0, decay := none, underrun := false }) ∧
          (n < 172804096 →
            let dropped := (s.audio.queue.map fun b => min b.count (n - b.start)).sum
            let decay := s.audio.decay.getD { left := s.audio.outLeft, right := s.audio.outRight, elapsed := 0 }
            let fades := t.audio.decay = some { decay with elapsed := min 48 (decay.elapsed + 1) } ∧
              t.audio.outLeft = Int.tdiv (decay.left * ((47 - decay.elapsed : Nat) : Int)) 48 ∧
              t.audio.outRight = Int.tdiv (decay.right * ((47 - decay.elapsed : Nat) : Int)) 48
            let empty := ∀ k pos, heldAt s.audio k pos → k < n
            t.audio.play = some n ∧ t.audio.next = n + 1 ∧
            (∀ k pos, heldAt t.audio k pos ↔ heldAt s.audio k pos ∧ n < k) ∧
            t.audio.skipCount = min 4294967295 (s.audio.skipCount + dropped) ∧ t.audio.skip = decide (0 < dropped) ∧
            (0 < dropped → s.audio.skip = false → t.events.pending.getLsbD 12 = true) ∧
            (∀ pos, heldAt s.audio n pos →
              t.audio.outLeft = Int.tdiv (sampleAt s.audio.ring (4 * pos) * s.audio.applied) 1024 ∧
              t.audio.outRight = Int.tdiv (sampleAt s.audio.ring (4 * pos + 2) * s.audio.applied) 1024 ∧
              t.audio.decay = none ∧ t.audio.underrun = false ∧ t.audio.underrunCount = s.audio.underrunCount) ∧
            (empty → fades) ∧
            (empty → s.ctl.state = .running → s.audio.underrun = false →
              t.audio.underrun = true ∧ t.audio.underrunCount = min 65535 (s.audio.underrunCount + 1) ∧
              t.events.pending.getLsbD 11 = true) ∧
            (empty → s.ctl.state ≠ .running ∨ s.audio.underrun = true →
              t.audio.underrun = s.audio.underrun ∧ t.audio.underrunCount = s.audio.underrunCount) ∧
            (¬ empty → (∀ pos, ¬ heldAt s.audio n pos) →
              t.audio.underrun = s.audio.underrun ∧ t.audio.underrunCount = s.audio.underrunCount ∧
              (s.audio.decay = none → t.audio.decay = none ∧ t.audio.outLeft = 0 ∧ t.audio.outRight = 0) ∧
              (s.audio.decay ≠ none → fades))))

/-! ### Safety inputs -/

/-- Safety inputs (R172 to R177). A change of a pin's level takes a configured input from SETTLED to CHANGING at the present site time and
back; one that has reverted before the next microsecond is not seen (R173; notes/assumptions/36.md). When the level has held for the
debounce time the stable level takes it, the input is SETTLED, and a reported input raises SAFETY: state `v`. Where the halt assertion
rises by it, every state from IDLE to CODA passes to HALTED with HALT entry, STATE and HALT raised; while CLASH is clear every unsent GO
and STOP is withdrawn first and the HALT frame with the stable-active HALT inputs asked for, which goes ahead of every frame of another
class (R20, R21, R45, R47, R175); with no GO record the gain record's anchor is 0 (the model's choice, notes/assumptions/40.md). In HALTED
the frame is asked for and HALT raised (R4, R20). Before the expiry nothing happens. -/
def Obligations.SafetyInputs : Prop :=
  ∀ (s : State) (i : Fin 8) (high : Bool),
    (s.safety[i].pin = high → exec (.safetyLevelChange i high) s = .next s) ∧
    (s.safety[i].pin ≠ high → ∃ t, exec (.safetyLevelChange i high) s = .next t ∧ onlyChanges [.safety] s t ∧
      (∀ j : Fin 8, j ≠ i → t.safety[j] = s.safety[j]) ∧
      (s.config = none → t.safety[i] = { s.safety[i] with pin := high }) ∧
      (s.config ≠ none → s.safety[i].before = none →
        t.safety[i] = { s.safety[i] with
          pin := high, since := if s.safety[i].since = none then some s.clock.site else none, before := some s.safety[i].since } ∧
        exec (.safetyLevelChange i (!high)) t = .next s) ∧
      (∀ since, s.config ≠ none → s.safety[i].before = some since →
        t.safety[i] = { s.safety[i] with pin := high, since := since, before := none })) ∧
    (∀ c, s.port.held = false → s.config = some c →
      let expires := ∃ u, s.safety[i].since = some u ∧
        reached s.clock.site (u + BitVec.ofNat 48 (1000 * c.input[i].debounce)) = true
      (¬ expires → exec (.debounceExpiry i) s = .next s) ∧
      (expires → ∃ v t, exec (.debounceExpiry i) s = .next t ∧
        (∀ j : Fin 8, j ≠ i → v.safety[j] = s.safety[j]) ∧
        v.safety[i] = { s.safety[i] with
          stable := s.safety[i].pin == c.input[i].activeHigh, since := none, before := none } ∧
        v.events = (if c.input[i].report then s.events.raised .safety else s.events) ∧ onlyChanges [.safety, .events] s v ∧
        let rises := haltAsserted s = false ∧ haltAsserted v = true
        let kept := s.line.queue.filter fun f => f.onLine || decide (frameClass f.payload ≠ 2)
        (¬ rises ∨ s.ctl.state = .standby → t = v) ∧
        (rises → s.ctl.state = .halted →
          let u := requestFrame (.halt (haltSet v)) v
          t = { u with events := u.events.raised .halt }) ∧
        (rises → s.ctl.state ≠ .standby → s.ctl.state ≠ .halted →
          let u := if s.clock.clash then v
            else requestFrame (.halt (haltSet v)) { v with line := { v.line with queue := kept } }
          haltEntered c u t ∧ t.events = (u.events.raised .state).raised .halt ∧ t.line = u.line ∧
          onlyChanges [.line, .ctl, .cue, .jets, .pump, .lamps, .audio, .events] v t ∧
          (s.clock.clash = true → t.line = s.line) ∧
          (s.clock.clash = false → kept.length < 8 → (∀ f ∈ kept, f.onLine = true ∨ frameClass f.payload ≠ 1) →
            t.line = { s.line with
              queue := kept.takeWhile (fun f => frameClass f.payload ≤ 1) ++ freshFrame (.halt (haltSet v)) ::
                kept.dropWhile (fun f => frameClass f.payload ≤ 1) }))))

/-! ### What every step keeps -/

/-- The machine after reset has every invariant below. -/
def Obligations.InvariantsAtReset : Prop :=
  ShowInv State.reset ∧ EventInv State.reset ∧ PumpInv State.reset ∧ StoreInv State.reset ∧ AudioInv State.reset

/-- Every step keeps the show controller's invariant, from every state that has it: a configuration is held exactly out of STANDBY, an
armed or playing node's score is valid and frozen, the GO record names it, and each coda field is held in its own state alone (R2, R5,
R61). -/
def Obligations.StepKeepsShow : Prop := ∀ s t : State, ShowInv s → step s = .next t → ShowInv t

/-- Every step keeps the event unit's invariant: a source's overrun flag is set only while its pending flag is set (R179). -/
def Obligations.StepKeepsEvents : Prop := ∀ s t : State, EventInv s → step s = .next t → EventInv t

/-- Every step keeps the pump controller's invariant: a channel whose run output is off has d_out 0 (R114), the run output the lamps see
is on only where the channel runs (R95, R144), in HALTED every d_cmd is 0
(R115), the start list holds each waiting channel once with an asking one at its head (R116), and the own ask agrees with the
stages (R118). -/
def Obligations.StepKeepsPumps : Prop := ∀ s t : State, PumpInv s → step s = .next t → PumpInv t

/-- Every step keeps the bounds of the stores: at most 8 frames in the transmit queue (R45), at most 64 actions in due-time order (R74),
the lock counts, the window history, the applied wind factor never above the factor (R133), and the canonical form of both
memories. -/
def Obligations.StepKeepsStores : Prop := ∀ s t : State, StoreInv s → step s = .next t → StoreInv t

/-- Every step keeps the audio unit's invariant: at most 32 blocks, none empty, in rising order without a shared frame, at most 16,384
frames held (R154), and the room reserved for a command under reception (R158). -/
def Obligations.StepKeepsAudio : Prop := ∀ s t : State, AudioInv s → step s = .next t → AudioInv t
end

