-- ==== Sys2Proof/Laws/State.lean ====
section
/-! SUPPORT. What each update writes: one lemma for each part that a basic update changes, and reading a table. -/

namespace Sys2Proof.Machine

/-! ### Tables -/

@[simp] theorem gen_get {α : Type} {n : Nat} (f : Fin n → α) (i : Nat) (h : i < n) : (gen f)[i] = f ⟨i, h⟩ := by
  simp [gen]

theorem gen_get_fin {α : Type} {n : Nat} (f : Fin n → α) (i : Fin n) : (gen f)[i] = f i := by
  simp

theorem put_get {α : Type} {n : Nat} (v : Vector α n) (i j : Fin n) (x : α) :
    (put v i x)[j] = if j = i then x else v[j] := by
  by_cases h : j = i
  · subst h; simp [put]
  · have : i.val ≠ j.val := fun e => h (Fin.ext e.symm)
    simp [put, h, Vector.getElem_set_ne _ _ this]

@[simp] theorem put_get_val {α : Type} {n : Nat} (v : Vector α n) (i : Fin n) (j : Nat) (hj : j < n) (x : α) :
    (put v i x)[j] = if j = i.val then x else v[j] := by
  have := put_get v i ⟨j, hj⟩ x
  simpa [Fin.ext_iff] using this

@[simp] theorem put_get_self {α : Type} {n : Nat} (v : Vector α n) (i : Fin n) (x : α) : (put v i x)[i.val] = x := by
  simp

theorem put_get_ne {α : Type} {n : Nat} (v : Vector α n) (i j : Fin n) (x : α) (h : j ≠ i) : (put v i x)[j] = v[j] := by
  rw [put_get, if_neg h]

/-! ### Events and host port -/

@[simp] theorem raise_events (src : Source) (s : State) : (raise src s).events = s.events.raised src := rfl

@[simp] theorem raiseIf_events (b : Bool) (src : Source) (s : State) :
    (raiseIf b src s).events = if b then s.events.raised src else s.events := by
  cases b <;> rfl

@[simp] theorem raised_pending (e : EventUnit) (src : Source) : (e.raised src).pending = e.pending ||| src.bit := rfl

@[simp] theorem raised_overrun (e : EventUnit) (src : Source) :
    (e.raised src).overrun = e.overrun ||| (e.pending &&& src.bit) := rfl

@[simp] theorem raised_masked (e : EventUnit) (src : Source) : (e.raised src).masked = e.masked := rfl

@[simp] theorem settle_port (code : Byte) (r : Result) (f : Option Nat) (s : State) :
    (settle code r f s).port = { s.port with lastCommand := code, lastResult := r, failIndex := f } := rfl

@[simp] theorem answer_port (reply : List Byte) (s : State) : (answer reply s).port = { s.port with reply := reply } := rfl

@[simp] theorem endFrame_port (s : State) : (endFrame s).port = { s.port with frame := none } := rfl

@[simp] theorem setFrame_port (f : PortFrame) (s : State) : (setFrame f s).port = { s.port with frame := some f } := rfl

@[simp] theorem ignoring_settle (code : Byte) (r : Result) (f : Option Nat) (s : State) :
    (settle code r f s).port.ignoring = s.port.ignoring := rfl

/-- No frame is ignored while NCS is high. -/
theorem ignoring_none (p : HostPort) (h : p.frame = none) : p.ignoring = false := by simp [HostPort.ignoring, h]

/-! ### Show controller -/

@[simp] theorem setCtl_ctl (k : Controller) (s : State) : (setCtl k s).ctl = k := rfl

@[simp] theorem setShowState_ctl (st : ShowState) (s : State) : (setShowState st s).ctl = { s.ctl with state := st } := rfl

@[simp] theorem writeResult_ctl (k : ResultKind) (i : Word16) (e : Int) (s : State) :
    (writeResult k i e s).ctl = { s.ctl with result := ⟨k, i, e⟩ } := rfl

@[simp] theorem dropGo_ctl (s : State) : (dropGo s).ctl =
    { s.ctl with go := none, pendingCoda := none, codaDeadline := none, codaCause := none, codaTested := false } := rfl

@[simp] theorem dropCoda_ctl (s : State) : (dropCoda s).ctl =
    { s.ctl with pendingCoda := none, codaDeadline := none, codaCause := none, codaTested := false } := rfl

/-! ### Score, cue engine, clock, line, peers -/

@[simp] theorem setFrozen_score (b : Bool) (s : State) : (setFrozen b s).score = { s.score with frozen := b } := rfl

@[simp] theorem setScore_score (sc : Score) (s : State) : (setScore sc s).score = sc := rfl

@[simp] theorem cueRewind_cue (s : State) : (cueRewind s).cue =
    { s.cue with queue := [], pointer := 0, waiting := false, taking := false } := rfl

@[simp] theorem cueStart_cue (s : State) : (cueStart s).cue = { s.cue with taking := true, lateCount := 0, lastMark := 0 } :=
  rfl

@[simp] theorem cueStop_cue (s : State) : (cueStop s).cue = { s.cue with taking := false, queue := [], waiting := false } :=
  rfl

@[simp] theorem setClock_clock (k : Clock) (s : State) : (setClock k s).clock = k := rfl

@[simp] theorem elapse_clock (us : Nat) (s : State) : (elapse us s).clock =
    { s.clock with
      site := plus s.clock.site us
      roundLocal := s.clock.roundLocal + 1
      sinceStep := stopAt beaconLength (s.clock.sinceStep + 1) } := rfl

@[simp] theorem elapse_safety (us : Nat) (s : State) : (elapse us s).safety = sampleInputs s.safety := rfl

@[simp] theorem setQueue_line (q : List TxFrame) (s : State) : (setQueue q s).line = { s.line with queue := q } := rfl

@[simp] theorem setWire_line (w : Wire) (s : State) : (setWire w s).line = { s.line with wire := w } := rfl

@[simp] theorem setGather_line (g : Option Gather) (s : State) :
    (setGather g s).line = { s.line with wire := { s.line.wire with gather := g } } := rfl

@[simp] theorem setOut_line (out : List Bool) (s : State) :
    (setOut out s).line = { s.line with wire := { s.line.wire with out := out } } := rfl

@[simp] theorem setIdle_line (idle : Nat) (s : State) :
    (setIdle idle s).line = { s.line with wire := { s.line.wire with idle := idle } } := rfl

@[simp] theorem lineLevel_quiet (driven : Bool) : lineLevel driven true false = driven := by cases driven <;> rfl

@[simp] theorem byteBits_length (b : Byte) : (byteBits b).length = 10 := rfl

theorem frameBits_cons (b : Byte) (rest : List Byte) : frameBits (b :: rest) = byteBits b ++ frameBits rest := rfl

@[simp] theorem setRx_line (rx : RxState) (s : State) : (setRx rx s).line = { s.line with rx := rx } := rfl

@[simp] theorem putPeer_peers (i : Fin 32) (p : Peer) (s : State) : (putPeer i p s).peers = put s.peers i p := rfl

/-! ### Pumps, jets, lamps, audio, safety -/

@[simp] theorem setStage_pump (p : Fin 4) (st : Stage) (s : State) : (setStage p st s).pump =
    { s.pump with chan := put s.pump.chan p { s.pump.chan[p] with stage := st } } := rfl

@[simp] theorem setAsk_pump (a : Ask) (s : State) : (setAsk a s).pump = { s.pump with ask := a } := rfl

@[simp] theorem mapChannels_pump (f : Fin 4 → Channel → Channel) (s : State) : (mapChannels f s).pump =
    { s.pump with chan := gen fun p => f p s.pump.chan[p] } := rfl

@[simp] theorem putGroup_jets (g : Fin 4) (grp : ValveGroup) (s : State) : (putGroup g grp s).jets = put s.jets g grp := rfl

@[simp] theorem fig_empty : ViewRecord.empty.fig = none := rfl

/-- A record holds a figure exactly while it is HELD (R84). -/
theorem fig_eq_some (v : ViewRecord) (f : Figure) : v.fig = some f ↔ v.presence = .held ∧ v.figure = f := by
  unfold ViewRecord.fig
  cases v.presence <;> simp

@[simp] theorem mapModes_jets (f : Fin 4 → ValveMode → ValveMode) (s : State) : (mapModes f s).jets =
    gen fun g => { s.jets[g] with mode := f g s.jets[g].mode } := rfl

@[simp] theorem mapLamps_lamps (f : Fin 16 → Lamp → Lamp) (s : State) : (mapLamps f s).lamps =
    { s.lamps with lamp := gen fun l => f l s.lamps.lamp[l] } := rfl

@[simp] theorem evaluateLamps_lamps (s : State) (c : ConfigRecord) (h : s.config = some c) :
    (evaluateLamps s).lamps =
      { s.lamps with lamp := gen fun l => { s.lamps.lamp[l] with duty := lampDuty s c l } } := by
  simp [evaluateLamps, h]

@[simp] theorem applyGain_audio (s : State) : (applyGain s).audio =
    { s.audio with applied := s.audio.gain.present (showTime s) } := rfl

@[simp] theorem audioQuiet_audio (s : State) : (audioQuiet s).audio =
    { s.audio with outLeft := 0, outRight := 0, decay := none, underrun := false, skip := false } := rfl

@[simp] theorem audioStart_audio (s : State) : (audioStart s).audio =
    { s.audio with next := 0, play := none, underrunCount := 0, skipCount := 0 } := rfl

@[simp] theorem putInput_safety (i : Fin 8) (inp : SafetyInput) (s : State) :
    (putInput i inp s).safety = put s.safety i inp := rfl

/-- The first change of a pin since its latest sample moves the debounce (R173). -/
theorem levelChanged_first (now : SiteTime) (high : Bool) (inp : SafetyInput) (h : inp.before = none) :
    levelChanged now high inp =
      { inp with pin := high, since := if inp.since.isSome then none else some now, before := some inp.since } := by
  simp [levelChanged, h]

/-- A change that reverts before the next sample leaves the debounce as it was (R173). -/
theorem levelChanged_reverts (now : SiteTime) (inp : SafetyInput) (h : inp.before = none) :
    levelChanged now inp.pin (levelChanged now (!inp.pin) inp) = inp := by
  cases inp
  simp_all [levelChanged]

/-! ### The wrappers of the commands -/

@[simp] theorem unlessHeld_free (s : State) (f : State → State) (h : s.port.held = false) : unlessHeld s f = f s := by
  simp [unlessHeld, h]

@[simp] theorem unlessHeld_held (s : State) (f : State → State) (h : s.port.held = true) : unlessHeld s f = s := by
  simp [unlessHeld, h]

@[simp] theorem unlessDeaf_listening (s : State) (f : State → State) (h : s.port.held = false) (hi : s.port.ignoring = false) :
    unlessDeaf s f = f s := by
  simp [unlessDeaf, h, hi]

/-- Held, or in a frame that is ignored, the part takes no command (R193, R194). -/
theorem unlessDeaf_deaf (s : State) (f : State → State) (h : s.port.held = true ∨ s.port.ignoring = true) :
    unlessDeaf s f = s := by
  rcases h with h | h <;> simp [unlessDeaf, h]

/-- A host command that is taken: its own tests and effect decide, and its record is settled (R185, R187). -/
theorem hostCommand_taken (code : Byte) (s : State) (body : State → State × Result × Option Nat)
    (h : s.port.held = false) (hi : s.port.ignoring = false) (hc : s.score.status ≠ .checking) :
    hostCommand code s body = settle code (body s).2.1 (body s).2.2 (body s).1 := by
  simp [hostCommand, h, hi, hc]

/-- While a checksum computation runs a host command is refused with BUSY (R186). -/
theorem hostCommand_busy (code : Byte) (s : State) (body : State → State × Result × Option Nat)
    (h : s.port.held = false) (hi : s.port.ignoring = false) (hc : s.score.status = .checking) :
    hostCommand code s body = settle code .busy none s := by
  simp [hostCommand, h, hi, hc]

/-- A frame from a node number reaches its block with the receiver back in READY (R52, R54). -/
theorem receiveFrame_handed (sender : Byte) (i : Fin 32) (s : State) (f : Fin 32 → State → State)
    (h : s.port.held = false) (hr : s.line.rx ≠ .hunt) (hi : nodeIndex sender = some i) :
    receiveFrame sender s f = f i (setRx .ready s) := by
  simp [receiveFrame, h, hr, hi]

end Sys2Proof.Machine
end

