-- ==== Sys2Proof/Laws/Frames.lean ====
section
/-! SUPPORT. Frames: for each shared operation, one lemma that names every part of the state it leaves alone. -/

namespace Sys2Proof.Machine

/-- What every operation of a fold leaves alone, the fold leaves alone. -/
theorem foldl_keeps {α β : Type} (f : State → α → State) (g : State → β) (h : ∀ s a, g (f s a) = g s) (l : List α) (s : State) :
    g (l.foldl f s) = g s := by
  induction l generalizing s with
  | nil => rfl
  | cons a l ih => simp [List.foldl, ih, h]

@[simp] theorem raise_frame (src : Source) (s : State) :
    (raise src s).pending = s.pending ∧ (raise src s).port = s.port ∧ (raise src s).config = s.config ∧
    (raise src s).ctl = s.ctl ∧ (raise src s).clock = s.clock ∧ (raise src s).line = s.line ∧
    (raise src s).peers = s.peers ∧ (raise src s).score = s.score ∧ (raise src s).cue = s.cue ∧
    (raise src s).jets = s.jets ∧ (raise src s).pump = s.pump ∧ (raise src s).wind = s.wind ∧
    (raise src s).lamps = s.lamps ∧ (raise src s).audio = s.audio ∧ (raise src s).safety = s.safety ∧
    (raise src s).draws = s.draws :=
  ⟨rfl, rfl, rfl, rfl, rfl, rfl, rfl, rfl, rfl, rfl, rfl, rfl, rfl, rfl, rfl, rfl⟩

@[simp] theorem raiseIf_frame (b : Bool) (src : Source) (s : State) :
    (raiseIf b src s).pending = s.pending ∧ (raiseIf b src s).port = s.port ∧ (raiseIf b src s).config = s.config ∧
    (raiseIf b src s).ctl = s.ctl ∧ (raiseIf b src s).clock = s.clock ∧ (raiseIf b src s).line = s.line ∧
    (raiseIf b src s).peers = s.peers ∧ (raiseIf b src s).score = s.score ∧ (raiseIf b src s).cue = s.cue ∧
    (raiseIf b src s).jets = s.jets ∧ (raiseIf b src s).pump = s.pump ∧ (raiseIf b src s).wind = s.wind ∧
    (raiseIf b src s).lamps = s.lamps ∧ (raiseIf b src s).audio = s.audio ∧ (raiseIf b src s).safety = s.safety ∧
    (raiseIf b src s).draws = s.draws := by
  unfold raiseIf
  split <;> simp

@[simp] theorem settle_frame (code : Byte) (r : Result) (f : Option Nat) (s : State) :
    (settle code r f s).pending = s.pending ∧ (settle code r f s).config = s.config ∧
    (settle code r f s).ctl = s.ctl ∧ (settle code r f s).clock = s.clock ∧ (settle code r f s).line = s.line ∧
    (settle code r f s).peers = s.peers ∧ (settle code r f s).score = s.score ∧ (settle code r f s).cue = s.cue ∧
    (settle code r f s).jets = s.jets ∧ (settle code r f s).pump = s.pump ∧ (settle code r f s).wind = s.wind ∧
    (settle code r f s).lamps = s.lamps ∧ (settle code r f s).audio = s.audio ∧
    (settle code r f s).safety = s.safety ∧ (settle code r f s).events = s.events ∧
    (settle code r f s).draws = s.draws :=
  ⟨rfl, rfl, rfl, rfl, rfl, rfl, rfl, rfl, rfl, rfl, rfl, rfl, rfl, rfl, rfl, rfl⟩

@[simp] theorem answer_frame (reply : List Byte) (s : State) :
    (answer reply s).pending = s.pending ∧ (answer reply s).config = s.config ∧ (answer reply s).ctl = s.ctl ∧
    (answer reply s).clock = s.clock ∧ (answer reply s).line = s.line ∧ (answer reply s).peers = s.peers ∧
    (answer reply s).score = s.score ∧ (answer reply s).cue = s.cue ∧ (answer reply s).jets = s.jets ∧
    (answer reply s).pump = s.pump ∧ (answer reply s).wind = s.wind ∧ (answer reply s).lamps = s.lamps ∧
    (answer reply s).audio = s.audio ∧ (answer reply s).safety = s.safety ∧ (answer reply s).events = s.events ∧
    (answer reply s).draws = s.draws :=
  ⟨rfl, rfl, rfl, rfl, rfl, rfl, rfl, rfl, rfl, rfl, rfl, rfl, rfl, rfl, rfl, rfl⟩

@[simp] theorem endFrame_frame (s : State) :
    (endFrame s).pending = s.pending ∧ (endFrame s).config = s.config ∧ (endFrame s).ctl = s.ctl ∧
    (endFrame s).clock = s.clock ∧ (endFrame s).line = s.line ∧ (endFrame s).peers = s.peers ∧
    (endFrame s).score = s.score ∧ (endFrame s).cue = s.cue ∧ (endFrame s).jets = s.jets ∧
    (endFrame s).pump = s.pump ∧ (endFrame s).wind = s.wind ∧ (endFrame s).lamps = s.lamps ∧
    (endFrame s).audio = s.audio ∧ (endFrame s).safety = s.safety ∧ (endFrame s).events = s.events ∧
    (endFrame s).draws = s.draws :=
  ⟨rfl, rfl, rfl, rfl, rfl, rfl, rfl, rfl, rfl, rfl, rfl, rfl, rfl, rfl, rfl, rfl⟩

@[simp] theorem setFrame_frame (f : PortFrame) (s : State) :
    (setFrame f s).pending = s.pending ∧ (setFrame f s).config = s.config ∧ (setFrame f s).ctl = s.ctl ∧
    (setFrame f s).clock = s.clock ∧ (setFrame f s).line = s.line ∧ (setFrame f s).peers = s.peers ∧
    (setFrame f s).score = s.score ∧ (setFrame f s).cue = s.cue ∧ (setFrame f s).jets = s.jets ∧
    (setFrame f s).pump = s.pump ∧ (setFrame f s).wind = s.wind ∧ (setFrame f s).lamps = s.lamps ∧
    (setFrame f s).audio = s.audio ∧ (setFrame f s).safety = s.safety ∧ (setFrame f s).events = s.events ∧
    (setFrame f s).draws = s.draws :=
  ⟨rfl, rfl, rfl, rfl, rfl, rfl, rfl, rfl, rfl, rfl, rfl, rfl, rfl, rfl, rfl, rfl⟩

@[simp] theorem setCtl_frame (k : Controller) (s : State) :
    (setCtl k s).pending = s.pending ∧ (setCtl k s).port = s.port ∧ (setCtl k s).config = s.config ∧
    (setCtl k s).clock = s.clock ∧ (setCtl k s).line = s.line ∧ (setCtl k s).peers = s.peers ∧
    (setCtl k s).score = s.score ∧ (setCtl k s).cue = s.cue ∧ (setCtl k s).jets = s.jets ∧
    (setCtl k s).pump = s.pump ∧ (setCtl k s).wind = s.wind ∧ (setCtl k s).lamps = s.lamps ∧
    (setCtl k s).audio = s.audio ∧ (setCtl k s).safety = s.safety ∧ (setCtl k s).events = s.events ∧
    (setCtl k s).draws = s.draws :=
  ⟨rfl, rfl, rfl, rfl, rfl, rfl, rfl, rfl, rfl, rfl, rfl, rfl, rfl, rfl, rfl, rfl⟩

@[simp] theorem setShowState_frame (st : ShowState) (s : State) :
    (setShowState st s).pending = s.pending ∧ (setShowState st s).port = s.port ∧
    (setShowState st s).config = s.config ∧ (setShowState st s).clock = s.clock ∧ (setShowState st s).line = s.line ∧
    (setShowState st s).peers = s.peers ∧ (setShowState st s).score = s.score ∧ (setShowState st s).cue = s.cue ∧
    (setShowState st s).jets = s.jets ∧ (setShowState st s).pump = s.pump ∧ (setShowState st s).wind = s.wind ∧
    (setShowState st s).lamps = s.lamps ∧ (setShowState st s).audio = s.audio ∧
    (setShowState st s).safety = s.safety ∧ (setShowState st s).events = s.events ∧
    (setShowState st s).draws = s.draws :=
  ⟨rfl, rfl, rfl, rfl, rfl, rfl, rfl, rfl, rfl, rfl, rfl, rfl, rfl, rfl, rfl, rfl⟩

@[simp] theorem writeResult_frame (k : ResultKind) (i : Word16) (e : Int) (s : State) :
    (writeResult k i e s).pending = s.pending ∧ (writeResult k i e s).port = s.port ∧
    (writeResult k i e s).config = s.config ∧ (writeResult k i e s).clock = s.clock ∧
    (writeResult k i e s).line = s.line ∧ (writeResult k i e s).peers = s.peers ∧
    (writeResult k i e s).score = s.score ∧ (writeResult k i e s).cue = s.cue ∧ (writeResult k i e s).jets = s.jets ∧
    (writeResult k i e s).pump = s.pump ∧ (writeResult k i e s).wind = s.wind ∧
    (writeResult k i e s).lamps = s.lamps ∧ (writeResult k i e s).audio = s.audio ∧
    (writeResult k i e s).safety = s.safety ∧ (writeResult k i e s).events = s.events ∧
    (writeResult k i e s).draws = s.draws :=
  ⟨rfl, rfl, rfl, rfl, rfl, rfl, rfl, rfl, rfl, rfl, rfl, rfl, rfl, rfl, rfl, rfl⟩

@[simp] theorem dropGo_frame (s : State) :
    (dropGo s).pending = s.pending ∧ (dropGo s).port = s.port ∧ (dropGo s).config = s.config ∧
    (dropGo s).clock = s.clock ∧ (dropGo s).line = s.line ∧ (dropGo s).peers = s.peers ∧ (dropGo s).score = s.score ∧
    (dropGo s).cue = s.cue ∧ (dropGo s).jets = s.jets ∧ (dropGo s).pump = s.pump ∧ (dropGo s).wind = s.wind ∧
    (dropGo s).lamps = s.lamps ∧ (dropGo s).audio = s.audio ∧ (dropGo s).safety = s.safety ∧
    (dropGo s).events = s.events ∧ (dropGo s).draws = s.draws :=
  ⟨rfl, rfl, rfl, rfl, rfl, rfl, rfl, rfl, rfl, rfl, rfl, rfl, rfl, rfl, rfl, rfl⟩

@[simp] theorem dropCoda_frame (s : State) :
    (dropCoda s).pending = s.pending ∧ (dropCoda s).port = s.port ∧ (dropCoda s).config = s.config ∧
    (dropCoda s).clock = s.clock ∧ (dropCoda s).line = s.line ∧ (dropCoda s).peers = s.peers ∧
    (dropCoda s).score = s.score ∧ (dropCoda s).cue = s.cue ∧ (dropCoda s).jets = s.jets ∧
    (dropCoda s).pump = s.pump ∧ (dropCoda s).wind = s.wind ∧ (dropCoda s).lamps = s.lamps ∧
    (dropCoda s).audio = s.audio ∧ (dropCoda s).safety = s.safety ∧ (dropCoda s).events = s.events ∧
    (dropCoda s).draws = s.draws :=
  ⟨rfl, rfl, rfl, rfl, rfl, rfl, rfl, rfl, rfl, rfl, rfl, rfl, rfl, rfl, rfl, rfl⟩

@[simp] theorem setFrozen_frame (b : Bool) (s : State) :
    (setFrozen b s).pending = s.pending ∧ (setFrozen b s).port = s.port ∧ (setFrozen b s).config = s.config ∧
    (setFrozen b s).ctl = s.ctl ∧ (setFrozen b s).clock = s.clock ∧ (setFrozen b s).line = s.line ∧
    (setFrozen b s).peers = s.peers ∧ (setFrozen b s).cue = s.cue ∧ (setFrozen b s).jets = s.jets ∧
    (setFrozen b s).pump = s.pump ∧ (setFrozen b s).wind = s.wind ∧ (setFrozen b s).lamps = s.lamps ∧
    (setFrozen b s).audio = s.audio ∧ (setFrozen b s).safety = s.safety ∧ (setFrozen b s).events = s.events ∧
    (setFrozen b s).draws = s.draws :=
  ⟨rfl, rfl, rfl, rfl, rfl, rfl, rfl, rfl, rfl, rfl, rfl, rfl, rfl, rfl, rfl, rfl⟩

@[simp] theorem pendCoda_frame (u : SiteTime) (s : State) :
    (pendCoda u s).pending = s.pending ∧ (pendCoda u s).port = s.port ∧ (pendCoda u s).config = s.config ∧
    (pendCoda u s).clock = s.clock ∧ (pendCoda u s).line = s.line ∧ (pendCoda u s).peers = s.peers ∧
    (pendCoda u s).score = s.score ∧ (pendCoda u s).cue = s.cue ∧ (pendCoda u s).jets = s.jets ∧
    (pendCoda u s).pump = s.pump ∧ (pendCoda u s).wind = s.wind ∧ (pendCoda u s).lamps = s.lamps ∧
    (pendCoda u s).audio = s.audio ∧ (pendCoda u s).safety = s.safety ∧ (pendCoda u s).events = s.events ∧
    (pendCoda u s).draws = s.draws :=
  ⟨rfl, rfl, rfl, rfl, rfl, rfl, rfl, rfl, rfl, rfl, rfl, rfl, rfl, rfl, rfl, rfl⟩

@[simp] theorem setClock_frame (k : Clock) (s : State) :
    (setClock k s).pending = s.pending ∧ (setClock k s).port = s.port ∧ (setClock k s).config = s.config ∧
    (setClock k s).ctl = s.ctl ∧ (setClock k s).line = s.line ∧ (setClock k s).peers = s.peers ∧
    (setClock k s).score = s.score ∧ (setClock k s).cue = s.cue ∧ (setClock k s).jets = s.jets ∧
    (setClock k s).pump = s.pump ∧ (setClock k s).wind = s.wind ∧ (setClock k s).lamps = s.lamps ∧
    (setClock k s).audio = s.audio ∧ (setClock k s).safety = s.safety ∧ (setClock k s).events = s.events ∧
    (setClock k s).draws = s.draws :=
  ⟨rfl, rfl, rfl, rfl, rfl, rfl, rfl, rfl, rfl, rfl, rfl, rfl, rfl, rfl, rfl, rfl⟩

@[simp] theorem setScore_frame (sc : Score) (s : State) :
    (setScore sc s).pending = s.pending ∧ (setScore sc s).port = s.port ∧ (setScore sc s).config = s.config ∧
    (setScore sc s).ctl = s.ctl ∧ (setScore sc s).clock = s.clock ∧ (setScore sc s).line = s.line ∧
    (setScore sc s).peers = s.peers ∧ (setScore sc s).cue = s.cue ∧ (setScore sc s).jets = s.jets ∧
    (setScore sc s).pump = s.pump ∧ (setScore sc s).wind = s.wind ∧ (setScore sc s).lamps = s.lamps ∧
    (setScore sc s).audio = s.audio ∧ (setScore sc s).safety = s.safety ∧ (setScore sc s).events = s.events ∧
    (setScore sc s).draws = s.draws :=
  ⟨rfl, rfl, rfl, rfl, rfl, rfl, rfl, rfl, rfl, rfl, rfl, rfl, rfl, rfl, rfl, rfl⟩

@[simp] theorem setQueue_frame (q : List TxFrame) (s : State) :
    (setQueue q s).pending = s.pending ∧ (setQueue q s).port = s.port ∧ (setQueue q s).config = s.config ∧
    (setQueue q s).ctl = s.ctl ∧ (setQueue q s).clock = s.clock ∧ (setQueue q s).peers = s.peers ∧
    (setQueue q s).score = s.score ∧ (setQueue q s).cue = s.cue ∧ (setQueue q s).jets = s.jets ∧
    (setQueue q s).pump = s.pump ∧ (setQueue q s).wind = s.wind ∧ (setQueue q s).lamps = s.lamps ∧
    (setQueue q s).audio = s.audio ∧ (setQueue q s).safety = s.safety ∧ (setQueue q s).events = s.events ∧
    (setQueue q s).draws = s.draws :=
  ⟨rfl, rfl, rfl, rfl, rfl, rfl, rfl, rfl, rfl, rfl, rfl, rfl, rfl, rfl, rfl, rfl⟩

@[simp] theorem setRx_frame (rx : RxState) (s : State) :
    (setRx rx s).pending = s.pending ∧ (setRx rx s).port = s.port ∧ (setRx rx s).config = s.config ∧
    (setRx rx s).ctl = s.ctl ∧ (setRx rx s).clock = s.clock ∧ (setRx rx s).peers = s.peers ∧
    (setRx rx s).score = s.score ∧ (setRx rx s).cue = s.cue ∧ (setRx rx s).jets = s.jets ∧
    (setRx rx s).pump = s.pump ∧ (setRx rx s).wind = s.wind ∧ (setRx rx s).lamps = s.lamps ∧
    (setRx rx s).audio = s.audio ∧ (setRx rx s).safety = s.safety ∧ (setRx rx s).events = s.events ∧
    (setRx rx s).draws = s.draws :=
  ⟨rfl, rfl, rfl, rfl, rfl, rfl, rfl, rfl, rfl, rfl, rfl, rfl, rfl, rfl, rfl, rfl⟩

@[simp] theorem setWire_frame (w : Wire) (s : State) :
    (setWire w s).pending = s.pending ∧ (setWire w s).port = s.port ∧ (setWire w s).config = s.config ∧
    (setWire w s).ctl = s.ctl ∧ (setWire w s).clock = s.clock ∧ (setWire w s).peers = s.peers ∧
    (setWire w s).score = s.score ∧ (setWire w s).cue = s.cue ∧ (setWire w s).jets = s.jets ∧
    (setWire w s).pump = s.pump ∧ (setWire w s).wind = s.wind ∧ (setWire w s).lamps = s.lamps ∧
    (setWire w s).audio = s.audio ∧ (setWire w s).safety = s.safety ∧ (setWire w s).events = s.events ∧
    (setWire w s).draws = s.draws :=
  ⟨rfl, rfl, rfl, rfl, rfl, rfl, rfl, rfl, rfl, rfl, rfl, rfl, rfl, rfl, rfl, rfl⟩

/-- One bit time of a held part changes nothing: its receiver does not follow the line (R193). -/
theorem bitTime_held (others noise : Bool) (s : State) (h : s.port.held = true) : bitTime others noise s = s := by
  simp [bitTime, unlessHeld, h]

@[simp] theorem setStage_frame (p : Fin 4) (st : Stage) (s : State) :
    (setStage p st s).pending = s.pending ∧ (setStage p st s).port = s.port ∧ (setStage p st s).config = s.config ∧
    (setStage p st s).ctl = s.ctl ∧ (setStage p st s).clock = s.clock ∧ (setStage p st s).line = s.line ∧
    (setStage p st s).peers = s.peers ∧ (setStage p st s).score = s.score ∧ (setStage p st s).cue = s.cue ∧
    (setStage p st s).jets = s.jets ∧ (setStage p st s).wind = s.wind ∧ (setStage p st s).lamps = s.lamps ∧
    (setStage p st s).audio = s.audio ∧ (setStage p st s).safety = s.safety ∧ (setStage p st s).events = s.events ∧
    (setStage p st s).draws = s.draws :=
  ⟨rfl, rfl, rfl, rfl, rfl, rfl, rfl, rfl, rfl, rfl, rfl, rfl, rfl, rfl, rfl, rfl⟩

@[simp] theorem extendBusy_frame (u : SiteTime) (s : State) :
    (extendBusy u s).pending = s.pending ∧ (extendBusy u s).port = s.port ∧ (extendBusy u s).config = s.config ∧
    (extendBusy u s).ctl = s.ctl ∧ (extendBusy u s).clock = s.clock ∧ (extendBusy u s).line = s.line ∧
    (extendBusy u s).peers = s.peers ∧ (extendBusy u s).score = s.score ∧ (extendBusy u s).cue = s.cue ∧
    (extendBusy u s).jets = s.jets ∧ (extendBusy u s).wind = s.wind ∧ (extendBusy u s).lamps = s.lamps ∧
    (extendBusy u s).audio = s.audio ∧ (extendBusy u s).safety = s.safety ∧ (extendBusy u s).events = s.events ∧
    (extendBusy u s).draws = s.draws :=
  ⟨rfl, rfl, rfl, rfl, rfl, rfl, rfl, rfl, rfl, rfl, rfl, rfl, rfl, rfl, rfl, rfl⟩

@[simp] theorem setAsk_frame (a : Ask) (s : State) :
    (setAsk a s).pending = s.pending ∧ (setAsk a s).port = s.port ∧ (setAsk a s).config = s.config ∧
    (setAsk a s).ctl = s.ctl ∧ (setAsk a s).clock = s.clock ∧ (setAsk a s).line = s.line ∧
    (setAsk a s).peers = s.peers ∧ (setAsk a s).score = s.score ∧ (setAsk a s).cue = s.cue ∧
    (setAsk a s).jets = s.jets ∧ (setAsk a s).wind = s.wind ∧ (setAsk a s).lamps = s.lamps ∧
    (setAsk a s).audio = s.audio ∧ (setAsk a s).safety = s.safety ∧ (setAsk a s).events = s.events ∧
    (setAsk a s).draws = s.draws :=
  ⟨rfl, rfl, rfl, rfl, rfl, rfl, rfl, rfl, rfl, rfl, rfl, rfl, rfl, rfl, rfl, rfl⟩

@[simp] theorem putPeer_frame (i : Fin 32) (p : Peer) (s : State) :
    (putPeer i p s).pending = s.pending ∧ (putPeer i p s).port = s.port ∧ (putPeer i p s).config = s.config ∧
    (putPeer i p s).ctl = s.ctl ∧ (putPeer i p s).clock = s.clock ∧ (putPeer i p s).line = s.line ∧
    (putPeer i p s).score = s.score ∧ (putPeer i p s).cue = s.cue ∧ (putPeer i p s).jets = s.jets ∧
    (putPeer i p s).pump = s.pump ∧ (putPeer i p s).wind = s.wind ∧ (putPeer i p s).lamps = s.lamps ∧
    (putPeer i p s).audio = s.audio ∧ (putPeer i p s).safety = s.safety ∧ (putPeer i p s).events = s.events ∧
    (putPeer i p s).draws = s.draws :=
  ⟨rfl, rfl, rfl, rfl, rfl, rfl, rfl, rfl, rfl, rfl, rfl, rfl, rfl, rfl, rfl, rfl⟩

@[simp] theorem putGroup_frame (g : Fin 4) (grp : ValveGroup) (s : State) :
    (putGroup g grp s).pending = s.pending ∧ (putGroup g grp s).port = s.port ∧
    (putGroup g grp s).config = s.config ∧ (putGroup g grp s).ctl = s.ctl ∧ (putGroup g grp s).clock = s.clock ∧
    (putGroup g grp s).line = s.line ∧ (putGroup g grp s).peers = s.peers ∧ (putGroup g grp s).score = s.score ∧
    (putGroup g grp s).cue = s.cue ∧ (putGroup g grp s).pump = s.pump ∧ (putGroup g grp s).wind = s.wind ∧
    (putGroup g grp s).lamps = s.lamps ∧ (putGroup g grp s).audio = s.audio ∧ (putGroup g grp s).safety = s.safety ∧
    (putGroup g grp s).events = s.events ∧ (putGroup g grp s).draws = s.draws :=
  ⟨rfl, rfl, rfl, rfl, rfl, rfl, rfl, rfl, rfl, rfl, rfl, rfl, rfl, rfl, rfl, rfl⟩

@[simp] theorem putInput_frame (i : Fin 8) (inp : SafetyInput) (s : State) :
    (putInput i inp s).pending = s.pending ∧ (putInput i inp s).port = s.port ∧
    (putInput i inp s).config = s.config ∧ (putInput i inp s).ctl = s.ctl ∧ (putInput i inp s).clock = s.clock ∧
    (putInput i inp s).line = s.line ∧ (putInput i inp s).peers = s.peers ∧ (putInput i inp s).score = s.score ∧
    (putInput i inp s).cue = s.cue ∧ (putInput i inp s).jets = s.jets ∧ (putInput i inp s).pump = s.pump ∧
    (putInput i inp s).wind = s.wind ∧ (putInput i inp s).lamps = s.lamps ∧ (putInput i inp s).audio = s.audio ∧
    (putInput i inp s).events = s.events ∧ (putInput i inp s).draws = s.draws :=
  ⟨rfl, rfl, rfl, rfl, rfl, rfl, rfl, rfl, rfl, rfl, rfl, rfl, rfl, rfl, rfl, rfl⟩

@[simp] theorem mapModes_frame (f : Fin 4 → ValveMode → ValveMode) (s : State) :
    (mapModes f s).pending = s.pending ∧ (mapModes f s).port = s.port ∧ (mapModes f s).config = s.config ∧
    (mapModes f s).ctl = s.ctl ∧ (mapModes f s).clock = s.clock ∧ (mapModes f s).line = s.line ∧
    (mapModes f s).peers = s.peers ∧ (mapModes f s).score = s.score ∧ (mapModes f s).cue = s.cue ∧
    (mapModes f s).pump = s.pump ∧ (mapModes f s).wind = s.wind ∧ (mapModes f s).lamps = s.lamps ∧
    (mapModes f s).audio = s.audio ∧ (mapModes f s).safety = s.safety ∧ (mapModes f s).events = s.events ∧
    (mapModes f s).draws = s.draws :=
  ⟨rfl, rfl, rfl, rfl, rfl, rfl, rfl, rfl, rfl, rfl, rfl, rfl, rfl, rfl, rfl, rfl⟩

@[simp] theorem mapLamps_frame (f : Fin 16 → Lamp → Lamp) (s : State) :
    (mapLamps f s).pending = s.pending ∧ (mapLamps f s).port = s.port ∧ (mapLamps f s).config = s.config ∧
    (mapLamps f s).ctl = s.ctl ∧ (mapLamps f s).clock = s.clock ∧ (mapLamps f s).line = s.line ∧
    (mapLamps f s).peers = s.peers ∧ (mapLamps f s).score = s.score ∧ (mapLamps f s).cue = s.cue ∧
    (mapLamps f s).jets = s.jets ∧ (mapLamps f s).pump = s.pump ∧ (mapLamps f s).wind = s.wind ∧
    (mapLamps f s).audio = s.audio ∧ (mapLamps f s).safety = s.safety ∧ (mapLamps f s).events = s.events ∧
    (mapLamps f s).draws = s.draws :=
  ⟨rfl, rfl, rfl, rfl, rfl, rfl, rfl, rfl, rfl, rfl, rfl, rfl, rfl, rfl, rfl, rfl⟩

@[simp] theorem mapChannels_frame (f : Fin 4 → Channel → Channel) (s : State) :
    (mapChannels f s).pending = s.pending ∧ (mapChannels f s).port = s.port ∧ (mapChannels f s).config = s.config ∧
    (mapChannels f s).ctl = s.ctl ∧ (mapChannels f s).clock = s.clock ∧ (mapChannels f s).line = s.line ∧
    (mapChannels f s).peers = s.peers ∧ (mapChannels f s).score = s.score ∧ (mapChannels f s).cue = s.cue ∧
    (mapChannels f s).jets = s.jets ∧ (mapChannels f s).wind = s.wind ∧ (mapChannels f s).lamps = s.lamps ∧
    (mapChannels f s).audio = s.audio ∧ (mapChannels f s).safety = s.safety ∧ (mapChannels f s).events = s.events ∧
    (mapChannels f s).draws = s.draws :=
  ⟨rfl, rfl, rfl, rfl, rfl, rfl, rfl, rfl, rfl, rfl, rfl, rfl, rfl, rfl, rfl, rfl⟩

@[simp] theorem elapse_frame (us : Nat) (s : State) :
    (elapse us s).pending = s.pending ∧ (elapse us s).port = s.port ∧ (elapse us s).config = s.config ∧
    (elapse us s).ctl = s.ctl ∧ (elapse us s).line = s.line ∧ (elapse us s).peers = s.peers ∧
    (elapse us s).cue = s.cue ∧ (elapse us s).jets = s.jets ∧ (elapse us s).pump = s.pump ∧
    (elapse us s).wind = s.wind ∧ (elapse us s).lamps = s.lamps ∧ (elapse us s).audio = s.audio ∧
    (elapse us s).events = s.events ∧ (elapse us s).draws = s.draws :=
  ⟨rfl, rfl, rfl, rfl, rfl, rfl, rfl, rfl, rfl, rfl, rfl, rfl, rfl, rfl⟩

@[simp] theorem openWindow_frame (s : State) :
    (openWindow s).pending = s.pending ∧ (openWindow s).port = s.port ∧ (openWindow s).config = s.config ∧
    (openWindow s).ctl = s.ctl ∧ (openWindow s).clock = s.clock ∧ (openWindow s).line = s.line ∧
    (openWindow s).peers = s.peers ∧ (openWindow s).score = s.score ∧ (openWindow s).cue = s.cue ∧
    (openWindow s).jets = s.jets ∧ (openWindow s).pump = s.pump ∧ (openWindow s).lamps = s.lamps ∧
    (openWindow s).audio = s.audio ∧ (openWindow s).safety = s.safety ∧ (openWindow s).events = s.events ∧
    (openWindow s).draws = s.draws :=
  ⟨rfl, rfl, rfl, rfl, rfl, rfl, rfl, rfl, rfl, rfl, rfl, rfl, rfl, rfl, rfl, rfl⟩

@[simp] theorem abandonWindow_frame (s : State) :
    (abandonWindow s).pending = s.pending ∧ (abandonWindow s).port = s.port ∧ (abandonWindow s).config = s.config ∧
    (abandonWindow s).ctl = s.ctl ∧ (abandonWindow s).clock = s.clock ∧ (abandonWindow s).line = s.line ∧
    (abandonWindow s).peers = s.peers ∧ (abandonWindow s).score = s.score ∧ (abandonWindow s).cue = s.cue ∧
    (abandonWindow s).jets = s.jets ∧ (abandonWindow s).pump = s.pump ∧ (abandonWindow s).lamps = s.lamps ∧
    (abandonWindow s).audio = s.audio ∧ (abandonWindow s).safety = s.safety ∧ (abandonWindow s).events = s.events ∧
    (abandonWindow s).draws = s.draws :=
  ⟨rfl, rfl, rfl, rfl, rfl, rfl, rfl, rfl, rfl, rfl, rfl, rfl, rfl, rfl, rfl, rfl⟩

@[simp] theorem riseWind_frame (c : ConfigRecord) (s : State) :
    (riseWind c s).pending = s.pending ∧ (riseWind c s).port = s.port ∧ (riseWind c s).config = s.config ∧
    (riseWind c s).ctl = s.ctl ∧ (riseWind c s).clock = s.clock ∧ (riseWind c s).line = s.line ∧
    (riseWind c s).peers = s.peers ∧ (riseWind c s).score = s.score ∧ (riseWind c s).cue = s.cue ∧
    (riseWind c s).jets = s.jets ∧ (riseWind c s).pump = s.pump ∧ (riseWind c s).lamps = s.lamps ∧
    (riseWind c s).audio = s.audio ∧ (riseWind c s).safety = s.safety ∧ (riseWind c s).events = s.events ∧
    (riseWind c s).draws = s.draws :=
  ⟨rfl, rfl, rfl, rfl, rfl, rfl, rfl, rfl, rfl, rfl, rfl, rfl, rfl, rfl, rfl, rfl⟩

@[simp] theorem recomputeWind_frame (s : State) :
    (recomputeWind s).pending = s.pending ∧ (recomputeWind s).port = s.port ∧ (recomputeWind s).config = s.config ∧
    (recomputeWind s).ctl = s.ctl ∧ (recomputeWind s).clock = s.clock ∧ (recomputeWind s).line = s.line ∧
    (recomputeWind s).peers = s.peers ∧ (recomputeWind s).score = s.score ∧ (recomputeWind s).cue = s.cue ∧
    (recomputeWind s).jets = s.jets ∧ (recomputeWind s).pump = s.pump ∧ (recomputeWind s).lamps = s.lamps ∧
    (recomputeWind s).audio = s.audio ∧ (recomputeWind s).safety = s.safety ∧ (recomputeWind s).events = s.events ∧
    (recomputeWind s).draws = s.draws := by
  unfold recomputeWind
  split <;> simp

@[simp] theorem enterWindow_frame (c : ConfigRecord) (s : State) :
    (enterWindow c s).pending = s.pending ∧ (enterWindow c s).port = s.port ∧ (enterWindow c s).config = s.config ∧
    (enterWindow c s).ctl = s.ctl ∧ (enterWindow c s).clock = s.clock ∧ (enterWindow c s).line = s.line ∧
    (enterWindow c s).peers = s.peers ∧ (enterWindow c s).score = s.score ∧ (enterWindow c s).cue = s.cue ∧
    (enterWindow c s).jets = s.jets ∧ (enterWindow c s).pump = s.pump ∧ (enterWindow c s).lamps = s.lamps ∧
    (enterWindow c s).audio = s.audio ∧ (enterWindow c s).safety = s.safety ∧ (enterWindow c s).events = s.events ∧
    (enterWindow c s).draws = s.draws := by simp [enterWindow]

@[simp] theorem closeWindow_frame (c : ConfigRecord) (s : State) :
    (closeWindow c s).pending = s.pending ∧ (closeWindow c s).port = s.port ∧ (closeWindow c s).config = s.config ∧
    (closeWindow c s).ctl = s.ctl ∧ (closeWindow c s).clock = s.clock ∧ (closeWindow c s).line = s.line ∧
    (closeWindow c s).peers = s.peers ∧ (closeWindow c s).score = s.score ∧ (closeWindow c s).cue = s.cue ∧
    (closeWindow c s).jets = s.jets ∧ (closeWindow c s).pump = s.pump ∧ (closeWindow c s).lamps = s.lamps ∧
    (closeWindow c s).audio = s.audio ∧ (closeWindow c s).safety = s.safety ∧ (closeWindow c s).events = s.events ∧
    (closeWindow c s).draws = s.draws := by
  unfold closeWindow
  split <;> simp

@[simp] theorem recordBeacon_frame (i : Fin 32) (b : Beacon) (seq : Byte) (arrival : SiteTime) (s : State) :
    (recordBeacon i b seq arrival s).pending = s.pending ∧ (recordBeacon i b seq arrival s).port = s.port ∧
    (recordBeacon i b seq arrival s).config = s.config ∧ (recordBeacon i b seq arrival s).ctl = s.ctl ∧
    (recordBeacon i b seq arrival s).clock = s.clock ∧ (recordBeacon i b seq arrival s).line = s.line ∧
    (recordBeacon i b seq arrival s).score = s.score ∧ (recordBeacon i b seq arrival s).cue = s.cue ∧
    (recordBeacon i b seq arrival s).jets = s.jets ∧ (recordBeacon i b seq arrival s).pump = s.pump ∧
    (recordBeacon i b seq arrival s).lamps = s.lamps ∧ (recordBeacon i b seq arrival s).audio = s.audio ∧
    (recordBeacon i b seq arrival s).safety = s.safety ∧ (recordBeacon i b seq arrival s).draws = s.draws := by simp [recordBeacon]

@[simp] theorem recordOwnBeacon_frame (c : ConfigRecord) (b : Beacon) (seq : Byte) (s : State) :
    (recordOwnBeacon c b seq s).pending = s.pending ∧ (recordOwnBeacon c b seq s).port = s.port ∧
    (recordOwnBeacon c b seq s).config = s.config ∧ (recordOwnBeacon c b seq s).ctl = s.ctl ∧
    (recordOwnBeacon c b seq s).clock = s.clock ∧ (recordOwnBeacon c b seq s).line = s.line ∧
    (recordOwnBeacon c b seq s).score = s.score ∧ (recordOwnBeacon c b seq s).cue = s.cue ∧
    (recordOwnBeacon c b seq s).jets = s.jets ∧ (recordOwnBeacon c b seq s).pump = s.pump ∧
    (recordOwnBeacon c b seq s).wind = s.wind ∧ (recordOwnBeacon c b seq s).lamps = s.lamps ∧
    (recordOwnBeacon c b seq s).audio = s.audio ∧ (recordOwnBeacon c b seq s).safety = s.safety ∧
    (recordOwnBeacon c b seq s).events = s.events ∧ (recordOwnBeacon c b seq s).draws = s.draws :=
  ⟨rfl, rfl, rfl, rfl, rfl, rfl, rfl, rfl, rfl, rfl, rfl, rfl, rfl, rfl, rfl, rfl⟩

@[simp] theorem makeStale_frame (i : Fin 32) (s : State) :
    (makeStale i s).pending = s.pending ∧ (makeStale i s).port = s.port ∧ (makeStale i s).config = s.config ∧
    (makeStale i s).ctl = s.ctl ∧ (makeStale i s).clock = s.clock ∧ (makeStale i s).line = s.line ∧
    (makeStale i s).score = s.score ∧ (makeStale i s).cue = s.cue ∧ (makeStale i s).jets = s.jets ∧
    (makeStale i s).pump = s.pump ∧ (makeStale i s).wind = s.wind ∧ (makeStale i s).lamps = s.lamps ∧
    (makeStale i s).audio = s.audio ∧ (makeStale i s).safety = s.safety ∧ (makeStale i s).events = s.events ∧
    (makeStale i s).draws = s.draws :=
  ⟨rfl, rfl, rfl, rfl, rfl, rfl, rfl, rfl, rfl, rfl, rfl, rfl, rfl, rfl, rfl, rfl⟩

@[simp] theorem makeAbsent_frame (i : Fin 32) (s : State) :
    (makeAbsent i s).pending = s.pending ∧ (makeAbsent i s).port = s.port ∧ (makeAbsent i s).config = s.config ∧
    (makeAbsent i s).ctl = s.ctl ∧ (makeAbsent i s).clock = s.clock ∧ (makeAbsent i s).line = s.line ∧
    (makeAbsent i s).score = s.score ∧ (makeAbsent i s).cue = s.cue ∧ (makeAbsent i s).jets = s.jets ∧
    (makeAbsent i s).pump = s.pump ∧ (makeAbsent i s).wind = s.wind ∧ (makeAbsent i s).lamps = s.lamps ∧
    (makeAbsent i s).audio = s.audio ∧ (makeAbsent i s).safety = s.safety ∧ (makeAbsent i s).draws = s.draws :=
  ⟨rfl, rfl, rfl, rfl, rfl, rfl, rfl, rfl, rfl, rfl, rfl, rfl, rfl, rfl, rfl⟩

@[simp] theorem ageRecord_frame (i : Fin 32) (s : State) :
    (ageRecord s i).pending = s.pending ∧ (ageRecord s i).port = s.port ∧ (ageRecord s i).config = s.config ∧
    (ageRecord s i).ctl = s.ctl ∧ (ageRecord s i).clock = s.clock ∧ (ageRecord s i).line = s.line ∧
    (ageRecord s i).score = s.score ∧ (ageRecord s i).cue = s.cue ∧ (ageRecord s i).jets = s.jets ∧
    (ageRecord s i).pump = s.pump ∧ (ageRecord s i).wind = s.wind ∧ (ageRecord s i).lamps = s.lamps ∧
    (ageRecord s i).audio = s.audio ∧ (ageRecord s i).safety = s.safety ∧ (ageRecord s i).draws = s.draws := by
  unfold ageRecord
  split
  · simp
  · split <;> simp

@[simp] theorem refreshView_frame (g : Fin 4) (v : View) (s : State) :
    (refreshView g v s).pending = s.pending ∧ (refreshView g v s).port = s.port ∧
    (refreshView g v s).config = s.config ∧ (refreshView g v s).ctl = s.ctl ∧ (refreshView g v s).clock = s.clock ∧
    (refreshView g v s).line = s.line ∧ (refreshView g v s).peers = s.peers ∧ (refreshView g v s).score = s.score ∧
    (refreshView g v s).cue = s.cue ∧ (refreshView g v s).pump = s.pump ∧ (refreshView g v s).wind = s.wind ∧
    (refreshView g v s).lamps = s.lamps ∧ (refreshView g v s).audio = s.audio ∧
    (refreshView g v s).safety = s.safety ∧ (refreshView g v s).events = s.events ∧
    (refreshView g v s).draws = s.draws :=
  ⟨rfl, rfl, rfl, rfl, rfl, rfl, rfl, rfl, rfl, rfl, rfl, rfl, rfl, rfl, rfl, rfl⟩

@[simp] theorem refreshAll_frame (s : State) :
    (refreshAll s).pending = s.pending ∧ (refreshAll s).port = s.port ∧ (refreshAll s).config = s.config ∧
    (refreshAll s).ctl = s.ctl ∧ (refreshAll s).clock = s.clock ∧ (refreshAll s).line = s.line ∧
    (refreshAll s).peers = s.peers ∧ (refreshAll s).score = s.score ∧ (refreshAll s).cue = s.cue ∧
    (refreshAll s).pump = s.pump ∧ (refreshAll s).wind = s.wind ∧ (refreshAll s).lamps = s.lamps ∧
    (refreshAll s).audio = s.audio ∧ (refreshAll s).safety = s.safety ∧ (refreshAll s).events = s.events ∧
    (refreshAll s).draws = s.draws := by
  refine ⟨?_, ?_, ?_, ?_, ?_, ?_, ?_, ?_, ?_, ?_, ?_, ?_, ?_, ?_, ?_, ?_⟩ <;> (apply foldl_keeps; simp)

@[simp] theorem writeView_frame (g : Fin 4) (v : View) (f : Figure) (o : Origin) (s : State) :
    (writeView g v f o s).pending = s.pending ∧ (writeView g v f o s).port = s.port ∧
    (writeView g v f o s).config = s.config ∧ (writeView g v f o s).ctl = s.ctl ∧
    (writeView g v f o s).clock = s.clock ∧ (writeView g v f o s).line = s.line ∧
    (writeView g v f o s).peers = s.peers ∧ (writeView g v f o s).score = s.score ∧
    (writeView g v f o s).cue = s.cue ∧ (writeView g v f o s).pump = s.pump ∧ (writeView g v f o s).wind = s.wind ∧
    (writeView g v f o s).lamps = s.lamps ∧ (writeView g v f o s).audio = s.audio ∧
    (writeView g v f o s).safety = s.safety ∧ (writeView g v f o s).draws = s.draws := by simp [writeView]

@[simp] theorem modesFollow_frame (s : State) :
    (modesFollow s).pending = s.pending ∧ (modesFollow s).port = s.port ∧ (modesFollow s).config = s.config ∧
    (modesFollow s).ctl = s.ctl ∧ (modesFollow s).clock = s.clock ∧ (modesFollow s).line = s.line ∧
    (modesFollow s).peers = s.peers ∧ (modesFollow s).score = s.score ∧ (modesFollow s).cue = s.cue ∧
    (modesFollow s).pump = s.pump ∧ (modesFollow s).wind = s.wind ∧ (modesFollow s).lamps = s.lamps ∧
    (modesFollow s).audio = s.audio ∧ (modesFollow s).safety = s.safety ∧ (modesFollow s).events = s.events ∧
    (modesFollow s).draws = s.draws :=
  ⟨rfl, rfl, rfl, rfl, rfl, rfl, rfl, rfl, rfl, rfl, rfl, rfl, rfl, rfl, rfl, rfl⟩

@[simp] theorem modesClose_frame (s : State) :
    (modesClose s).pending = s.pending ∧ (modesClose s).port = s.port ∧ (modesClose s).config = s.config ∧
    (modesClose s).ctl = s.ctl ∧ (modesClose s).clock = s.clock ∧ (modesClose s).line = s.line ∧
    (modesClose s).peers = s.peers ∧ (modesClose s).score = s.score ∧ (modesClose s).cue = s.cue ∧
    (modesClose s).pump = s.pump ∧ (modesClose s).wind = s.wind ∧ (modesClose s).lamps = s.lamps ∧
    (modesClose s).audio = s.audio ∧ (modesClose s).safety = s.safety ∧ (modesClose s).events = s.events ∧
    (modesClose s).draws = s.draws :=
  ⟨rfl, rfl, rfl, rfl, rfl, rfl, rfl, rfl, rfl, rfl, rfl, rfl, rfl, rfl, rfl, rfl⟩

@[simp] theorem figuresHold_frame (s : State) :
    (figuresHold s).pending = s.pending ∧ (figuresHold s).port = s.port ∧ (figuresHold s).config = s.config ∧
    (figuresHold s).ctl = s.ctl ∧ (figuresHold s).clock = s.clock ∧ (figuresHold s).line = s.line ∧
    (figuresHold s).peers = s.peers ∧ (figuresHold s).score = s.score ∧ (figuresHold s).cue = s.cue ∧
    (figuresHold s).pump = s.pump ∧ (figuresHold s).wind = s.wind ∧ (figuresHold s).lamps = s.lamps ∧
    (figuresHold s).audio = s.audio ∧ (figuresHold s).safety = s.safety ∧ (figuresHold s).events = s.events ∧
    (figuresHold s).draws = s.draws :=
  ⟨rfl, rfl, rfl, rfl, rfl, rfl, rfl, rfl, rfl, rfl, rfl, rfl, rfl, rfl, rfl, rfl⟩

@[simp] theorem closeStopped_frame (s : State) :
    (closeStopped s).pending = s.pending ∧ (closeStopped s).port = s.port ∧ (closeStopped s).config = s.config ∧
    (closeStopped s).ctl = s.ctl ∧ (closeStopped s).clock = s.clock ∧ (closeStopped s).line = s.line ∧
    (closeStopped s).peers = s.peers ∧ (closeStopped s).score = s.score ∧ (closeStopped s).cue = s.cue ∧
    (closeStopped s).pump = s.pump ∧ (closeStopped s).wind = s.wind ∧ (closeStopped s).lamps = s.lamps ∧
    (closeStopped s).audio = s.audio ∧ (closeStopped s).safety = s.safety ∧ (closeStopped s).events = s.events ∧
    (closeStopped s).draws = s.draws :=
  ⟨rfl, rfl, rfl, rfl, rfl, rfl, rfl, rfl, rfl, rfl, rfl, rfl, rfl, rfl, rfl, rfl⟩

@[simp] theorem figuresClear_frame (s : State) :
    (figuresClear s).pending = s.pending ∧ (figuresClear s).port = s.port ∧ (figuresClear s).config = s.config ∧
    (figuresClear s).ctl = s.ctl ∧ (figuresClear s).clock = s.clock ∧ (figuresClear s).line = s.line ∧
    (figuresClear s).peers = s.peers ∧ (figuresClear s).score = s.score ∧ (figuresClear s).cue = s.cue ∧
    (figuresClear s).pump = s.pump ∧ (figuresClear s).wind = s.wind ∧ (figuresClear s).lamps = s.lamps ∧
    (figuresClear s).audio = s.audio ∧ (figuresClear s).safety = s.safety ∧ (figuresClear s).events = s.events ∧
    (figuresClear s).draws = s.draws :=
  ⟨rfl, rfl, rfl, rfl, rfl, rfl, rfl, rfl, rfl, rfl, rfl, rfl, rfl, rfl, rfl, rfl⟩

@[simp] theorem reportEnd_frame (g : Fin 4) (s : State) :
    (reportEnd g s).pending = s.pending ∧ (reportEnd g s).port = s.port ∧ (reportEnd g s).config = s.config ∧
    (reportEnd g s).ctl = s.ctl ∧ (reportEnd g s).clock = s.clock ∧ (reportEnd g s).line = s.line ∧
    (reportEnd g s).peers = s.peers ∧ (reportEnd g s).score = s.score ∧ (reportEnd g s).cue = s.cue ∧
    (reportEnd g s).pump = s.pump ∧ (reportEnd g s).wind = s.wind ∧ (reportEnd g s).lamps = s.lamps ∧
    (reportEnd g s).audio = s.audio ∧ (reportEnd g s).safety = s.safety ∧ (reportEnd g s).draws = s.draws :=
  ⟨rfl, rfl, rfl, rfl, rfl, rfl, rfl, rfl, rfl, rfl, rfl, rfl, rfl, rfl, rfl⟩

@[simp] theorem evaluateLamps_frame (s : State) :
    (evaluateLamps s).pending = s.pending ∧ (evaluateLamps s).port = s.port ∧ (evaluateLamps s).config = s.config ∧
    (evaluateLamps s).ctl = s.ctl ∧ (evaluateLamps s).clock = s.clock ∧ (evaluateLamps s).line = s.line ∧
    (evaluateLamps s).peers = s.peers ∧ (evaluateLamps s).score = s.score ∧ (evaluateLamps s).cue = s.cue ∧
    (evaluateLamps s).jets = s.jets ∧ (evaluateLamps s).pump = s.pump ∧ (evaluateLamps s).wind = s.wind ∧
    (evaluateLamps s).audio = s.audio ∧ (evaluateLamps s).safety = s.safety ∧ (evaluateLamps s).events = s.events ∧
    (evaluateLamps s).draws = s.draws := by
  unfold evaluateLamps
  split <;> simp

@[simp] theorem lampColour_frame (set : Word16) (c : Rgb) (len : Nat) (anchor : Int) (s : State) :
    (lampColour set c len anchor s).pending = s.pending ∧ (lampColour set c len anchor s).port = s.port ∧
    (lampColour set c len anchor s).config = s.config ∧ (lampColour set c len anchor s).ctl = s.ctl ∧
    (lampColour set c len anchor s).clock = s.clock ∧ (lampColour set c len anchor s).line = s.line ∧
    (lampColour set c len anchor s).peers = s.peers ∧ (lampColour set c len anchor s).score = s.score ∧
    (lampColour set c len anchor s).cue = s.cue ∧ (lampColour set c len anchor s).jets = s.jets ∧
    (lampColour set c len anchor s).pump = s.pump ∧ (lampColour set c len anchor s).wind = s.wind ∧
    (lampColour set c len anchor s).audio = s.audio ∧ (lampColour set c len anchor s).safety = s.safety ∧
    (lampColour set c len anchor s).events = s.events ∧ (lampColour set c len anchor s).draws = s.draws := by
  unfold lampColour
  split <;> simp

@[simp] theorem lampMaster_frame (level len : Nat) (anchor : Int) (s : State) :
    (lampMaster level len anchor s).pending = s.pending ∧ (lampMaster level len anchor s).port = s.port ∧
    (lampMaster level len anchor s).config = s.config ∧ (lampMaster level len anchor s).ctl = s.ctl ∧
    (lampMaster level len anchor s).clock = s.clock ∧ (lampMaster level len anchor s).line = s.line ∧
    (lampMaster level len anchor s).peers = s.peers ∧ (lampMaster level len anchor s).score = s.score ∧
    (lampMaster level len anchor s).cue = s.cue ∧ (lampMaster level len anchor s).jets = s.jets ∧
    (lampMaster level len anchor s).pump = s.pump ∧ (lampMaster level len anchor s).wind = s.wind ∧
    (lampMaster level len anchor s).audio = s.audio ∧ (lampMaster level len anchor s).safety = s.safety ∧
    (lampMaster level len anchor s).events = s.events ∧ (lampMaster level len anchor s).draws = s.draws := by
  unfold lampMaster
  split <;> simp

@[simp] theorem lampCoda_frame (len : Nat) (s : State) :
    (lampCoda len s).pending = s.pending ∧ (lampCoda len s).port = s.port ∧ (lampCoda len s).config = s.config ∧
    (lampCoda len s).ctl = s.ctl ∧ (lampCoda len s).clock = s.clock ∧ (lampCoda len s).line = s.line ∧
    (lampCoda len s).peers = s.peers ∧ (lampCoda len s).score = s.score ∧ (lampCoda len s).cue = s.cue ∧
    (lampCoda len s).jets = s.jets ∧ (lampCoda len s).pump = s.pump ∧ (lampCoda len s).wind = s.wind ∧
    (lampCoda len s).audio = s.audio ∧ (lampCoda len s).safety = s.safety ∧ (lampCoda len s).events = s.events ∧
    (lampCoda len s).draws = s.draws :=
  ⟨rfl, rfl, rfl, rfl, rfl, rfl, rfl, rfl, rfl, rfl, rfl, rfl, rfl, rfl, rfl, rfl⟩

@[simp] theorem lampClear_frame (s : State) :
    (lampClear s).pending = s.pending ∧ (lampClear s).port = s.port ∧ (lampClear s).config = s.config ∧
    (lampClear s).ctl = s.ctl ∧ (lampClear s).clock = s.clock ∧ (lampClear s).line = s.line ∧
    (lampClear s).peers = s.peers ∧ (lampClear s).score = s.score ∧ (lampClear s).cue = s.cue ∧
    (lampClear s).jets = s.jets ∧ (lampClear s).pump = s.pump ∧ (lampClear s).wind = s.wind ∧
    (lampClear s).audio = s.audio ∧ (lampClear s).safety = s.safety ∧ (lampClear s).events = s.events ∧
    (lampClear s).draws = s.draws :=
  ⟨rfl, rfl, rfl, rfl, rfl, rfl, rfl, rfl, rfl, rfl, rfl, rfl, rfl, rfl, rfl, rfl⟩

@[simp] theorem returnToHead_frame (p : Fin 4) (s : State) :
    (returnToHead p s).pending = s.pending ∧ (returnToHead p s).port = s.port ∧
    (returnToHead p s).config = s.config ∧ (returnToHead p s).ctl = s.ctl ∧ (returnToHead p s).clock = s.clock ∧
    (returnToHead p s).line = s.line ∧ (returnToHead p s).peers = s.peers ∧ (returnToHead p s).score = s.score ∧
    (returnToHead p s).cue = s.cue ∧ (returnToHead p s).jets = s.jets ∧ (returnToHead p s).wind = s.wind ∧
    (returnToHead p s).lamps = s.lamps ∧ (returnToHead p s).audio = s.audio ∧ (returnToHead p s).safety = s.safety ∧
    (returnToHead p s).events = s.events ∧ (returnToHead p s).draws = s.draws :=
  ⟨rfl, rfl, rfl, rfl, rfl, rfl, rfl, rfl, rfl, rfl, rfl, rfl, rfl, rfl, rfl, rfl⟩

@[simp] theorem askCompleted_frame (u : SiteTime) (s : State) :
    (askCompleted u s).pending = s.pending ∧ (askCompleted u s).port = s.port ∧
    (askCompleted u s).config = s.config ∧ (askCompleted u s).ctl = s.ctl ∧ (askCompleted u s).clock = s.clock ∧
    (askCompleted u s).line = s.line ∧ (askCompleted u s).peers = s.peers ∧ (askCompleted u s).score = s.score ∧
    (askCompleted u s).cue = s.cue ∧ (askCompleted u s).jets = s.jets ∧ (askCompleted u s).wind = s.wind ∧
    (askCompleted u s).lamps = s.lamps ∧ (askCompleted u s).audio = s.audio ∧ (askCompleted u s).safety = s.safety ∧
    (askCompleted u s).events = s.events ∧ (askCompleted u s).draws = s.draws := by
  unfold askCompleted
  split <;> simp

@[simp] theorem askLost_frame (s : State) :
    (askLost s).pending = s.pending ∧ (askLost s).port = s.port ∧ (askLost s).config = s.config ∧
    (askLost s).ctl = s.ctl ∧ (askLost s).clock = s.clock ∧ (askLost s).line = s.line ∧ (askLost s).peers = s.peers ∧
    (askLost s).score = s.score ∧ (askLost s).cue = s.cue ∧ (askLost s).jets = s.jets ∧ (askLost s).wind = s.wind ∧
    (askLost s).lamps = s.lamps ∧ (askLost s).audio = s.audio ∧ (askLost s).safety = s.safety ∧
    (askLost s).events = s.events ∧ (askLost s).draws = s.draws := by
  unfold askLost
  split <;> simp

@[simp] theorem dropFrame_frame (p : Payload) (s : State) :
    (dropFrame p s).pending = s.pending ∧ (dropFrame p s).port = s.port ∧ (dropFrame p s).config = s.config ∧
    (dropFrame p s).ctl = s.ctl ∧ (dropFrame p s).clock = s.clock ∧ (dropFrame p s).peers = s.peers ∧
    (dropFrame p s).score = s.score ∧ (dropFrame p s).cue = s.cue ∧ (dropFrame p s).jets = s.jets ∧
    (dropFrame p s).wind = s.wind ∧ (dropFrame p s).lamps = s.lamps ∧ (dropFrame p s).audio = s.audio ∧
    (dropFrame p s).safety = s.safety ∧ (dropFrame p s).draws = s.draws := by
  unfold dropFrame
  split <;> simp

@[simp] theorem enqueue_frame (p : Payload) (s : State) :
    (enqueue p s).pending = s.pending ∧ (enqueue p s).port = s.port ∧ (enqueue p s).config = s.config ∧
    (enqueue p s).ctl = s.ctl ∧ (enqueue p s).clock = s.clock ∧ (enqueue p s).peers = s.peers ∧
    (enqueue p s).score = s.score ∧ (enqueue p s).cue = s.cue ∧ (enqueue p s).jets = s.jets ∧
    (enqueue p s).wind = s.wind ∧ (enqueue p s).lamps = s.lamps ∧ (enqueue p s).audio = s.audio ∧
    (enqueue p s).safety = s.safety ∧ (enqueue p s).draws = s.draws := by
  simp only [enqueue]
  repeat' split
  all_goals simp

@[simp] theorem requestFrame_frame (p : Payload) (s : State) :
    (requestFrame p s).pending = s.pending ∧ (requestFrame p s).port = s.port ∧
    (requestFrame p s).config = s.config ∧ (requestFrame p s).ctl = s.ctl ∧ (requestFrame p s).clock = s.clock ∧
    (requestFrame p s).peers = s.peers ∧ (requestFrame p s).score = s.score ∧ (requestFrame p s).cue = s.cue ∧
    (requestFrame p s).jets = s.jets ∧ (requestFrame p s).wind = s.wind ∧ (requestFrame p s).lamps = s.lamps ∧
    (requestFrame p s).audio = s.audio ∧ (requestFrame p s).safety = s.safety ∧ (requestFrame p s).draws = s.draws := by
  unfold requestFrame
  split <;> simp

@[simp] theorem requestAsk_frame (p : Fin 4) (s : State) :
    (requestAsk p s).pending = s.pending ∧ (requestAsk p s).port = s.port ∧ (requestAsk p s).config = s.config ∧
    (requestAsk p s).ctl = s.ctl ∧ (requestAsk p s).clock = s.clock ∧ (requestAsk p s).peers = s.peers ∧
    (requestAsk p s).score = s.score ∧ (requestAsk p s).cue = s.cue ∧ (requestAsk p s).jets = s.jets ∧
    (requestAsk p s).wind = s.wind ∧ (requestAsk p s).lamps = s.lamps ∧ (requestAsk p s).audio = s.audio ∧
    (requestAsk p s).safety = s.safety ∧ (requestAsk p s).draws = s.draws := by
  unfold requestAsk
  split <;> simp

@[simp] theorem withdrawShowFrames_frame (s : State) :
    (withdrawShowFrames s).pending = s.pending ∧ (withdrawShowFrames s).port = s.port ∧
    (withdrawShowFrames s).config = s.config ∧ (withdrawShowFrames s).ctl = s.ctl ∧
    (withdrawShowFrames s).clock = s.clock ∧ (withdrawShowFrames s).peers = s.peers ∧
    (withdrawShowFrames s).score = s.score ∧ (withdrawShowFrames s).cue = s.cue ∧
    (withdrawShowFrames s).jets = s.jets ∧ (withdrawShowFrames s).pump = s.pump ∧
    (withdrawShowFrames s).wind = s.wind ∧ (withdrawShowFrames s).lamps = s.lamps ∧
    (withdrawShowFrames s).audio = s.audio ∧ (withdrawShowFrames s).safety = s.safety ∧
    (withdrawShowFrames s).events = s.events ∧ (withdrawShowFrames s).draws = s.draws :=
  ⟨rfl, rfl, rfl, rfl, rfl, rfl, rfl, rfl, rfl, rfl, rfl, rfl, rfl, rfl, rfl, rfl⟩

@[simp] theorem withdrawAsk_frame (s : State) :
    (withdrawAsk s).pending = s.pending ∧ (withdrawAsk s).port = s.port ∧ (withdrawAsk s).config = s.config ∧
    (withdrawAsk s).ctl = s.ctl ∧ (withdrawAsk s).clock = s.clock ∧ (withdrawAsk s).peers = s.peers ∧
    (withdrawAsk s).score = s.score ∧ (withdrawAsk s).cue = s.cue ∧ (withdrawAsk s).jets = s.jets ∧
    (withdrawAsk s).wind = s.wind ∧ (withdrawAsk s).lamps = s.lamps ∧ (withdrawAsk s).audio = s.audio ∧
    (withdrawAsk s).safety = s.safety ∧ (withdrawAsk s).events = s.events ∧ (withdrawAsk s).draws = s.draws := by
  unfold withdrawAsk
  split <;> simp

@[simp] theorem startAttempt_frame (s : State) :
    (startAttempt s).pending = s.pending ∧ (startAttempt s).port = s.port ∧ (startAttempt s).config = s.config ∧
    (startAttempt s).ctl = s.ctl ∧ (startAttempt s).clock = s.clock ∧ (startAttempt s).peers = s.peers ∧
    (startAttempt s).score = s.score ∧ (startAttempt s).cue = s.cue ∧ (startAttempt s).jets = s.jets ∧
    (startAttempt s).pump = s.pump ∧ (startAttempt s).wind = s.wind ∧ (startAttempt s).lamps = s.lamps ∧
    (startAttempt s).audio = s.audio ∧ (startAttempt s).safety = s.safety ∧ (startAttempt s).events = s.events ∧
    (startAttempt s).draws = s.draws := by
  unfold startAttempt
  split <;> simp

@[simp] theorem reportSent_frame (c : ConfigRecord) (f : TxFrame) (s : State) :
    (reportSent c f s).pending = s.pending ∧ (reportSent c f s).port = s.port ∧
    (reportSent c f s).config = s.config ∧ (reportSent c f s).ctl = s.ctl ∧ (reportSent c f s).clock = s.clock ∧
    (reportSent c f s).line = s.line ∧ (reportSent c f s).score = s.score ∧ (reportSent c f s).cue = s.cue ∧
    (reportSent c f s).jets = s.jets ∧ (reportSent c f s).wind = s.wind ∧ (reportSent c f s).lamps = s.lamps ∧
    (reportSent c f s).audio = s.audio ∧ (reportSent c f s).safety = s.safety ∧
    (reportSent c f s).events = s.events ∧ (reportSent c f s).draws = s.draws := by
  unfold reportSent
  split <;> simp

@[simp] theorem completeAttempt_frame (c : ConfigRecord) (f : TxFrame) (s : State) :
    (completeAttempt c f s).pending = s.pending ∧ (completeAttempt c f s).port = s.port ∧
    (completeAttempt c f s).config = s.config ∧ (completeAttempt c f s).ctl = s.ctl ∧
    (completeAttempt c f s).clock = s.clock ∧ (completeAttempt c f s).score = s.score ∧
    (completeAttempt c f s).cue = s.cue ∧ (completeAttempt c f s).jets = s.jets ∧
    (completeAttempt c f s).wind = s.wind ∧ (completeAttempt c f s).lamps = s.lamps ∧
    (completeAttempt c f s).audio = s.audio ∧ (completeAttempt c f s).safety = s.safety ∧
    (completeAttempt c f s).events = s.events ∧ (completeAttempt c f s).draws = s.draws := by simp [completeAttempt]

@[simp] theorem failAttempt_frame (f : TxFrame) (s : State) :
    (failAttempt f s).pending = s.pending ∧ (failAttempt f s).port = s.port ∧ (failAttempt f s).config = s.config ∧
    (failAttempt f s).ctl = s.ctl ∧ (failAttempt f s).clock = s.clock ∧ (failAttempt f s).peers = s.peers ∧
    (failAttempt f s).score = s.score ∧ (failAttempt f s).cue = s.cue ∧ (failAttempt f s).jets = s.jets ∧
    (failAttempt f s).wind = s.wind ∧ (failAttempt f s).lamps = s.lamps ∧ (failAttempt f s).audio = s.audio ∧
    (failAttempt f s).safety = s.safety := by
  simp only [failAttempt]
  repeat' split
  all_goals simp

@[simp] theorem countFailure_frame (v : Verdict) (s : State) :
    (countFailure v s).pending = s.pending ∧ (countFailure v s).port = s.port ∧
    (countFailure v s).config = s.config ∧ (countFailure v s).ctl = s.ctl ∧ (countFailure v s).clock = s.clock ∧
    (countFailure v s).peers = s.peers ∧ (countFailure v s).score = s.score ∧ (countFailure v s).cue = s.cue ∧
    (countFailure v s).jets = s.jets ∧ (countFailure v s).pump = s.pump ∧ (countFailure v s).wind = s.wind ∧
    (countFailure v s).lamps = s.lamps ∧ (countFailure v s).audio = s.audio ∧ (countFailure v s).safety = s.safety ∧
    (countFailure v s).events = s.events ∧ (countFailure v s).draws = s.draws := by
  unfold countFailure
  split <;> simp

@[simp] theorem pumpHeight_frame (p : Fin 4) (target len : Nat) (anchor : Int) (s : State) :
    (pumpHeight p target len anchor s).pending = s.pending ∧ (pumpHeight p target len anchor s).port = s.port ∧
    (pumpHeight p target len anchor s).config = s.config ∧ (pumpHeight p target len anchor s).ctl = s.ctl ∧
    (pumpHeight p target len anchor s).clock = s.clock ∧ (pumpHeight p target len anchor s).line = s.line ∧
    (pumpHeight p target len anchor s).peers = s.peers ∧ (pumpHeight p target len anchor s).score = s.score ∧
    (pumpHeight p target len anchor s).cue = s.cue ∧ (pumpHeight p target len anchor s).jets = s.jets ∧
    (pumpHeight p target len anchor s).wind = s.wind ∧ (pumpHeight p target len anchor s).lamps = s.lamps ∧
    (pumpHeight p target len anchor s).audio = s.audio ∧ (pumpHeight p target len anchor s).safety = s.safety ∧
    (pumpHeight p target len anchor s).events = s.events ∧ (pumpHeight p target len anchor s).draws = s.draws :=
  ⟨rfl, rfl, rfl, rfl, rfl, rfl, rfl, rfl, rfl, rfl, rfl, rfl, rfl, rfl, rfl, rfl⟩

@[simp] theorem pumpCoda_frame (len : Nat) (s : State) :
    (pumpCoda len s).pending = s.pending ∧ (pumpCoda len s).port = s.port ∧ (pumpCoda len s).config = s.config ∧
    (pumpCoda len s).ctl = s.ctl ∧ (pumpCoda len s).clock = s.clock ∧ (pumpCoda len s).line = s.line ∧
    (pumpCoda len s).peers = s.peers ∧ (pumpCoda len s).score = s.score ∧ (pumpCoda len s).cue = s.cue ∧
    (pumpCoda len s).jets = s.jets ∧ (pumpCoda len s).wind = s.wind ∧ (pumpCoda len s).lamps = s.lamps ∧
    (pumpCoda len s).audio = s.audio ∧ (pumpCoda len s).safety = s.safety ∧ (pumpCoda len s).events = s.events ∧
    (pumpCoda len s).draws = s.draws :=
  ⟨rfl, rfl, rfl, rfl, rfl, rfl, rfl, rfl, rfl, rfl, rfl, rfl, rfl, rfl, rfl, rfl⟩

@[simp] theorem pumpClear_frame (s : State) :
    (pumpClear s).pending = s.pending ∧ (pumpClear s).port = s.port ∧ (pumpClear s).config = s.config ∧
    (pumpClear s).ctl = s.ctl ∧ (pumpClear s).clock = s.clock ∧ (pumpClear s).line = s.line ∧
    (pumpClear s).peers = s.peers ∧ (pumpClear s).score = s.score ∧ (pumpClear s).cue = s.cue ∧
    (pumpClear s).jets = s.jets ∧ (pumpClear s).wind = s.wind ∧ (pumpClear s).lamps = s.lamps ∧
    (pumpClear s).audio = s.audio ∧ (pumpClear s).safety = s.safety ∧ (pumpClear s).events = s.events ∧
    (pumpClear s).draws = s.draws :=
  ⟨rfl, rfl, rfl, rfl, rfl, rfl, rfl, rfl, rfl, rfl, rfl, rfl, rfl, rfl, rfl, rfl⟩

@[simp] theorem pumpRearm_frame (s : State) :
    (pumpRearm s).pending = s.pending ∧ (pumpRearm s).port = s.port ∧ (pumpRearm s).config = s.config ∧
    (pumpRearm s).ctl = s.ctl ∧ (pumpRearm s).clock = s.clock ∧ (pumpRearm s).line = s.line ∧
    (pumpRearm s).peers = s.peers ∧ (pumpRearm s).score = s.score ∧ (pumpRearm s).cue = s.cue ∧
    (pumpRearm s).jets = s.jets ∧ (pumpRearm s).wind = s.wind ∧ (pumpRearm s).lamps = s.lamps ∧
    (pumpRearm s).audio = s.audio ∧ (pumpRearm s).safety = s.safety ∧ (pumpRearm s).events = s.events ∧
    (pumpRearm s).draws = s.draws :=
  ⟨rfl, rfl, rfl, rfl, rfl, rfl, rfl, rfl, rfl, rfl, rfl, rfl, rfl, rfl, rfl, rfl⟩

@[simp] theorem pumpHalt_frame (s : State) :
    (pumpHalt s).pending = s.pending ∧ (pumpHalt s).port = s.port ∧ (pumpHalt s).config = s.config ∧
    (pumpHalt s).ctl = s.ctl ∧ (pumpHalt s).clock = s.clock ∧ (pumpHalt s).line = s.line ∧
    (pumpHalt s).peers = s.peers ∧ (pumpHalt s).score = s.score ∧ (pumpHalt s).cue = s.cue ∧
    (pumpHalt s).jets = s.jets ∧ (pumpHalt s).wind = s.wind ∧ (pumpHalt s).lamps = s.lamps ∧
    (pumpHalt s).audio = s.audio ∧ (pumpHalt s).safety = s.safety ∧ (pumpHalt s).events = s.events ∧
    (pumpHalt s).draws = s.draws :=
  ⟨rfl, rfl, rfl, rfl, rfl, rfl, rfl, rfl, rfl, rfl, rfl, rfl, rfl, rfl, rfl, rfl⟩

@[simp] theorem stageFeedback_frame (c : ConfigRecord) (fb : BitVec 4) (s : State) :
    (stageFeedback c fb s).pending = s.pending ∧ (stageFeedback c fb s).port = s.port ∧
    (stageFeedback c fb s).config = s.config ∧ (stageFeedback c fb s).ctl = s.ctl ∧
    (stageFeedback c fb s).clock = s.clock ∧ (stageFeedback c fb s).line = s.line ∧
    (stageFeedback c fb s).peers = s.peers ∧ (stageFeedback c fb s).score = s.score ∧
    (stageFeedback c fb s).cue = s.cue ∧ (stageFeedback c fb s).jets = s.jets ∧
    (stageFeedback c fb s).wind = s.wind ∧ (stageFeedback c fb s).lamps = s.lamps ∧
    (stageFeedback c fb s).audio = s.audio ∧ (stageFeedback c fb s).safety = s.safety ∧
    (stageFeedback c fb s).draws = s.draws := by
  refine ⟨?_, ?_, ?_, ?_, ?_, ?_, ?_, ?_, ?_, ?_, ?_, ?_, ?_, ?_, ?_⟩ <;> (apply foldl_keeps; simp)

@[simp] theorem stageHeights_frame (c : ConfigRecord) (s : State) :
    (stageHeights c s).pending = s.pending ∧ (stageHeights c s).port = s.port ∧
    (stageHeights c s).config = s.config ∧ (stageHeights c s).ctl = s.ctl ∧ (stageHeights c s).clock = s.clock ∧
    (stageHeights c s).line = s.line ∧ (stageHeights c s).peers = s.peers ∧ (stageHeights c s).score = s.score ∧
    (stageHeights c s).cue = s.cue ∧ (stageHeights c s).jets = s.jets ∧ (stageHeights c s).wind = s.wind ∧
    (stageHeights c s).lamps = s.lamps ∧ (stageHeights c s).audio = s.audio ∧ (stageHeights c s).safety = s.safety ∧
    (stageHeights c s).events = s.events ∧ (stageHeights c s).draws = s.draws :=
  ⟨rfl, rfl, rfl, rfl, rfl, rfl, rfl, rfl, rfl, rfl, rfl, rfl, rfl, rfl, rfl, rfl⟩

@[simp] theorem stageGrant_frame (c : ConfigRecord) (s : State) :
    (stageGrant c s).pending = s.pending ∧ (stageGrant c s).port = s.port ∧ (stageGrant c s).config = s.config ∧
    (stageGrant c s).ctl = s.ctl ∧ (stageGrant c s).clock = s.clock ∧ (stageGrant c s).line = s.line ∧
    (stageGrant c s).peers = s.peers ∧ (stageGrant c s).score = s.score ∧ (stageGrant c s).cue = s.cue ∧
    (stageGrant c s).jets = s.jets ∧ (stageGrant c s).wind = s.wind ∧ (stageGrant c s).lamps = s.lamps ∧
    (stageGrant c s).audio = s.audio ∧ (stageGrant c s).safety = s.safety ∧ (stageGrant c s).events = s.events ∧
    (stageGrant c s).draws = s.draws :=
  ⟨rfl, rfl, rfl, rfl, rfl, rfl, rfl, rfl, rfl, rfl, rfl, rfl, rfl, rfl, rfl, rfl⟩

@[simp] theorem stageCaps_frame (c : ConfigRecord) (s : State) :
    (stageCaps c s).pending = s.pending ∧ (stageCaps c s).port = s.port ∧ (stageCaps c s).config = s.config ∧
    (stageCaps c s).ctl = s.ctl ∧ (stageCaps c s).clock = s.clock ∧ (stageCaps c s).line = s.line ∧
    (stageCaps c s).peers = s.peers ∧ (stageCaps c s).score = s.score ∧ (stageCaps c s).cue = s.cue ∧
    (stageCaps c s).jets = s.jets ∧ (stageCaps c s).wind = s.wind ∧ (stageCaps c s).lamps = s.lamps ∧
    (stageCaps c s).audio = s.audio ∧ (stageCaps c s).safety = s.safety ∧ (stageCaps c s).events = s.events ∧
    (stageCaps c s).draws = s.draws :=
  ⟨rfl, rfl, rfl, rfl, rfl, rfl, rfl, rfl, rfl, rfl, rfl, rfl, rfl, rfl, rfl, rfl⟩

@[simp] theorem commandChannel_frame (c : ConfigRecord) (p : Fin 4) (s : State) :
    (commandChannel c s p).pending = s.pending ∧ (commandChannel c s p).port = s.port ∧
    (commandChannel c s p).config = s.config ∧ (commandChannel c s p).ctl = s.ctl ∧
    (commandChannel c s p).clock = s.clock ∧ (commandChannel c s p).line = s.line ∧
    (commandChannel c s p).peers = s.peers ∧ (commandChannel c s p).score = s.score ∧
    (commandChannel c s p).cue = s.cue ∧ (commandChannel c s p).jets = s.jets ∧
    (commandChannel c s p).wind = s.wind ∧ (commandChannel c s p).lamps = s.lamps ∧
    (commandChannel c s p).audio = s.audio ∧ (commandChannel c s p).safety = s.safety ∧
    (commandChannel c s p).events = s.events ∧ (commandChannel c s p).draws = s.draws := by
  simp only [commandChannel]
  repeat' split
  all_goals simp

@[simp] theorem stageAsk_frame (s : State) :
    (stageAsk s).pending = s.pending ∧ (stageAsk s).port = s.port ∧ (stageAsk s).config = s.config ∧
    (stageAsk s).ctl = s.ctl ∧ (stageAsk s).clock = s.clock ∧ (stageAsk s).peers = s.peers ∧
    (stageAsk s).score = s.score ∧ (stageAsk s).cue = s.cue ∧ (stageAsk s).jets = s.jets ∧
    (stageAsk s).wind = s.wind ∧ (stageAsk s).lamps = s.lamps ∧ (stageAsk s).audio = s.audio ∧
    (stageAsk s).safety = s.safety ∧ (stageAsk s).draws = s.draws := by
  unfold stageAsk
  split
  · simp
  · split <;> simp

@[simp] theorem stageSlew_frame (c : ConfigRecord) (s : State) :
    (stageSlew c s).pending = s.pending ∧ (stageSlew c s).port = s.port ∧ (stageSlew c s).config = s.config ∧
    (stageSlew c s).ctl = s.ctl ∧ (stageSlew c s).clock = s.clock ∧ (stageSlew c s).line = s.line ∧
    (stageSlew c s).peers = s.peers ∧ (stageSlew c s).score = s.score ∧ (stageSlew c s).cue = s.cue ∧
    (stageSlew c s).jets = s.jets ∧ (stageSlew c s).wind = s.wind ∧ (stageSlew c s).lamps = s.lamps ∧
    (stageSlew c s).audio = s.audio ∧ (stageSlew c s).safety = s.safety ∧ (stageSlew c s).events = s.events ∧
    (stageSlew c s).draws = s.draws :=
  ⟨rfl, rfl, rfl, rfl, rfl, rfl, rfl, rfl, rfl, rfl, rfl, rfl, rfl, rfl, rfl, rfl⟩

@[simp] theorem grantChannel_frame (p : Fin 4) (s : State) :
    (grantChannel p s).pending = s.pending ∧ (grantChannel p s).port = s.port ∧
    (grantChannel p s).config = s.config ∧ (grantChannel p s).ctl = s.ctl ∧ (grantChannel p s).clock = s.clock ∧
    (grantChannel p s).line = s.line ∧ (grantChannel p s).peers = s.peers ∧ (grantChannel p s).score = s.score ∧
    (grantChannel p s).cue = s.cue ∧ (grantChannel p s).jets = s.jets ∧ (grantChannel p s).wind = s.wind ∧
    (grantChannel p s).lamps = s.lamps ∧ (grantChannel p s).audio = s.audio ∧ (grantChannel p s).safety = s.safety ∧
    (grantChannel p s).events = s.events ∧ (grantChannel p s).draws = s.draws :=
  ⟨rfl, rfl, rfl, rfl, rfl, rfl, rfl, rfl, rfl, rfl, rfl, rfl, rfl, rfl, rfl, rfl⟩

@[simp] theorem endWindow_frame (s : State) :
    (endWindow s).pending = s.pending ∧ (endWindow s).port = s.port ∧ (endWindow s).config = s.config ∧
    (endWindow s).ctl = s.ctl ∧ (endWindow s).clock = s.clock ∧ (endWindow s).line = s.line ∧
    (endWindow s).peers = s.peers ∧ (endWindow s).score = s.score ∧ (endWindow s).cue = s.cue ∧
    (endWindow s).jets = s.jets ∧ (endWindow s).wind = s.wind ∧ (endWindow s).lamps = s.lamps ∧
    (endWindow s).audio = s.audio ∧ (endWindow s).safety = s.safety ∧ (endWindow s).events = s.events ∧
    (endWindow s).draws = s.draws := by
  unfold endWindow
  split <;> simp

@[simp] theorem askHeard_frame (c : ConfigRecord) (i : Fin 32) (n : Byte) (arrival : SiteTime) (s : State) :
    (askHeard c i n arrival s).pending = s.pending ∧ (askHeard c i n arrival s).port = s.port ∧
    (askHeard c i n arrival s).config = s.config ∧ (askHeard c i n arrival s).ctl = s.ctl ∧
    (askHeard c i n arrival s).clock = s.clock ∧ (askHeard c i n arrival s).line = s.line ∧
    (askHeard c i n arrival s).peers = s.peers ∧ (askHeard c i n arrival s).score = s.score ∧
    (askHeard c i n arrival s).cue = s.cue ∧ (askHeard c i n arrival s).jets = s.jets ∧
    (askHeard c i n arrival s).wind = s.wind ∧ (askHeard c i n arrival s).lamps = s.lamps ∧
    (askHeard c i n arrival s).audio = s.audio ∧ (askHeard c i n arrival s).safety = s.safety ∧
    (askHeard c i n arrival s).events = s.events ∧ (askHeard c i n arrival s).draws = s.draws := by
  simp only [askHeard]
  repeat' split
  all_goals simp

@[simp] theorem refillTest_frame (s : State) :
    (refillTest s).pending = s.pending ∧ (refillTest s).port = s.port ∧ (refillTest s).config = s.config ∧
    (refillTest s).ctl = s.ctl ∧ (refillTest s).clock = s.clock ∧ (refillTest s).line = s.line ∧
    (refillTest s).peers = s.peers ∧ (refillTest s).score = s.score ∧ (refillTest s).cue = s.cue ∧
    (refillTest s).jets = s.jets ∧ (refillTest s).pump = s.pump ∧ (refillTest s).wind = s.wind ∧
    (refillTest s).lamps = s.lamps ∧ (refillTest s).safety = s.safety ∧ (refillTest s).draws = s.draws := by simp [refillTest]

@[simp] theorem enterBlock_frame (r : Reception) (bytes : List Byte) (s : State) :
    (enterBlock r bytes s).pending = s.pending ∧ (enterBlock r bytes s).port = s.port ∧
    (enterBlock r bytes s).config = s.config ∧ (enterBlock r bytes s).ctl = s.ctl ∧
    (enterBlock r bytes s).clock = s.clock ∧ (enterBlock r bytes s).line = s.line ∧
    (enterBlock r bytes s).peers = s.peers ∧ (enterBlock r bytes s).score = s.score ∧
    (enterBlock r bytes s).cue = s.cue ∧ (enterBlock r bytes s).jets = s.jets ∧
    (enterBlock r bytes s).pump = s.pump ∧ (enterBlock r bytes s).wind = s.wind ∧
    (enterBlock r bytes s).lamps = s.lamps ∧ (enterBlock r bytes s).safety = s.safety ∧
    (enterBlock r bytes s).draws = s.draws := by
  simp only [enterBlock]
  split <;> simp

@[simp] theorem dropLate_frame (n : Nat) (s : State) :
    (dropLate n s).pending = s.pending ∧ (dropLate n s).port = s.port ∧ (dropLate n s).config = s.config ∧
    (dropLate n s).ctl = s.ctl ∧ (dropLate n s).clock = s.clock ∧ (dropLate n s).line = s.line ∧
    (dropLate n s).peers = s.peers ∧ (dropLate n s).score = s.score ∧ (dropLate n s).cue = s.cue ∧
    (dropLate n s).jets = s.jets ∧ (dropLate n s).pump = s.pump ∧ (dropLate n s).wind = s.wind ∧
    (dropLate n s).lamps = s.lamps ∧ (dropLate n s).safety = s.safety ∧ (dropLate n s).draws = s.draws := by simp [dropLate]

@[simp] theorem serveFrame_frame (b : Block) (rest : List Block) (s : State) :
    (serveFrame b rest s).pending = s.pending ∧ (serveFrame b rest s).port = s.port ∧
    (serveFrame b rest s).config = s.config ∧ (serveFrame b rest s).ctl = s.ctl ∧
    (serveFrame b rest s).clock = s.clock ∧ (serveFrame b rest s).line = s.line ∧
    (serveFrame b rest s).peers = s.peers ∧ (serveFrame b rest s).score = s.score ∧
    (serveFrame b rest s).cue = s.cue ∧ (serveFrame b rest s).jets = s.jets ∧ (serveFrame b rest s).pump = s.pump ∧
    (serveFrame b rest s).wind = s.wind ∧ (serveFrame b rest s).lamps = s.lamps ∧
    (serveFrame b rest s).safety = s.safety ∧ (serveFrame b rest s).events = s.events ∧
    (serveFrame b rest s).draws = s.draws :=
  ⟨rfl, rfl, rfl, rfl, rfl, rfl, rfl, rfl, rfl, rfl, rfl, rfl, rfl, rfl, rfl, rfl⟩

@[simp] theorem playSilence_frame (s : State) :
    (playSilence s).pending = s.pending ∧ (playSilence s).port = s.port ∧ (playSilence s).config = s.config ∧
    (playSilence s).ctl = s.ctl ∧ (playSilence s).clock = s.clock ∧ (playSilence s).line = s.line ∧
    (playSilence s).peers = s.peers ∧ (playSilence s).score = s.score ∧ (playSilence s).cue = s.cue ∧
    (playSilence s).jets = s.jets ∧ (playSilence s).pump = s.pump ∧ (playSilence s).wind = s.wind ∧
    (playSilence s).lamps = s.lamps ∧ (playSilence s).safety = s.safety ∧ (playSilence s).events = s.events ∧
    (playSilence s).draws = s.draws := by
  unfold playSilence
  split <;> simp

@[simp] theorem emptyInstant_frame (s : State) :
    (emptyInstant s).pending = s.pending ∧ (emptyInstant s).port = s.port ∧ (emptyInstant s).config = s.config ∧
    (emptyInstant s).ctl = s.ctl ∧ (emptyInstant s).clock = s.clock ∧ (emptyInstant s).line = s.line ∧
    (emptyInstant s).peers = s.peers ∧ (emptyInstant s).score = s.score ∧ (emptyInstant s).cue = s.cue ∧
    (emptyInstant s).jets = s.jets ∧ (emptyInstant s).pump = s.pump ∧ (emptyInstant s).wind = s.wind ∧
    (emptyInstant s).lamps = s.lamps ∧ (emptyInstant s).safety = s.safety ∧ (emptyInstant s).draws = s.draws := by simp [emptyInstant]

@[simp] theorem serveOrSilence_frame (n : Nat) (s : State) :
    (serveOrSilence n s).pending = s.pending ∧ (serveOrSilence n s).port = s.port ∧
    (serveOrSilence n s).config = s.config ∧ (serveOrSilence n s).ctl = s.ctl ∧
    (serveOrSilence n s).clock = s.clock ∧ (serveOrSilence n s).line = s.line ∧
    (serveOrSilence n s).peers = s.peers ∧ (serveOrSilence n s).score = s.score ∧ (serveOrSilence n s).cue = s.cue ∧
    (serveOrSilence n s).jets = s.jets ∧ (serveOrSilence n s).pump = s.pump ∧ (serveOrSilence n s).wind = s.wind ∧
    (serveOrSilence n s).lamps = s.lamps ∧ (serveOrSilence n s).safety = s.safety ∧
    (serveOrSilence n s).draws = s.draws := by
  unfold serveOrSilence
  split
  · simp
  · split <;> simp

@[simp] theorem takeInstant_frame (n : Nat) (s : State) :
    (takeInstant n s).pending = s.pending ∧ (takeInstant n s).port = s.port ∧ (takeInstant n s).config = s.config ∧
    (takeInstant n s).ctl = s.ctl ∧ (takeInstant n s).clock = s.clock ∧ (takeInstant n s).line = s.line ∧
    (takeInstant n s).peers = s.peers ∧ (takeInstant n s).score = s.score ∧ (takeInstant n s).cue = s.cue ∧
    (takeInstant n s).jets = s.jets ∧ (takeInstant n s).pump = s.pump ∧ (takeInstant n s).wind = s.wind ∧
    (takeInstant n s).lamps = s.lamps ∧ (takeInstant n s).safety = s.safety ∧ (takeInstant n s).draws = s.draws := by
  simp only [takeInstant]
  split <;> simp

@[simp] theorem endFrames_frame (s : State) :
    (endFrames s).pending = s.pending ∧ (endFrames s).port = s.port ∧ (endFrames s).config = s.config ∧
    (endFrames s).ctl = s.ctl ∧ (endFrames s).clock = s.clock ∧ (endFrames s).line = s.line ∧
    (endFrames s).peers = s.peers ∧ (endFrames s).score = s.score ∧ (endFrames s).cue = s.cue ∧
    (endFrames s).jets = s.jets ∧ (endFrames s).pump = s.pump ∧ (endFrames s).wind = s.wind ∧
    (endFrames s).lamps = s.lamps ∧ (endFrames s).safety = s.safety ∧ (endFrames s).events = s.events ∧
    (endFrames s).draws = s.draws :=
  ⟨rfl, rfl, rfl, rfl, rfl, rfl, rfl, rfl, rfl, rfl, rfl, rfl, rfl, rfl, rfl, rfl⟩

@[simp] theorem frameInstant_frame (c : ConfigRecord) (tau : Int) (s : State) :
    (frameInstant c tau s).pending = s.pending ∧ (frameInstant c tau s).port = s.port ∧
    (frameInstant c tau s).config = s.config ∧ (frameInstant c tau s).ctl = s.ctl ∧
    (frameInstant c tau s).clock = s.clock ∧ (frameInstant c tau s).line = s.line ∧
    (frameInstant c tau s).peers = s.peers ∧ (frameInstant c tau s).score = s.score ∧
    (frameInstant c tau s).cue = s.cue ∧ (frameInstant c tau s).jets = s.jets ∧
    (frameInstant c tau s).pump = s.pump ∧ (frameInstant c tau s).wind = s.wind ∧
    (frameInstant c tau s).lamps = s.lamps ∧ (frameInstant c tau s).safety = s.safety ∧
    (frameInstant c tau s).draws = s.draws := by
  simp only [frameInstant]
  split <;> simp

@[simp] theorem applyGain_frame (s : State) :
    (applyGain s).pending = s.pending ∧ (applyGain s).port = s.port ∧ (applyGain s).config = s.config ∧
    (applyGain s).ctl = s.ctl ∧ (applyGain s).clock = s.clock ∧ (applyGain s).line = s.line ∧
    (applyGain s).peers = s.peers ∧ (applyGain s).score = s.score ∧ (applyGain s).cue = s.cue ∧
    (applyGain s).jets = s.jets ∧ (applyGain s).pump = s.pump ∧ (applyGain s).wind = s.wind ∧
    (applyGain s).lamps = s.lamps ∧ (applyGain s).safety = s.safety ∧ (applyGain s).events = s.events ∧
    (applyGain s).draws = s.draws :=
  ⟨rfl, rfl, rfl, rfl, rfl, rfl, rfl, rfl, rfl, rfl, rfl, rfl, rfl, rfl, rfl, rfl⟩

@[simp] theorem audioLevel_frame (gain len : Nat) (anchor : Int) (s : State) :
    (audioLevel gain len anchor s).pending = s.pending ∧ (audioLevel gain len anchor s).port = s.port ∧
    (audioLevel gain len anchor s).config = s.config ∧ (audioLevel gain len anchor s).ctl = s.ctl ∧
    (audioLevel gain len anchor s).clock = s.clock ∧ (audioLevel gain len anchor s).line = s.line ∧
    (audioLevel gain len anchor s).peers = s.peers ∧ (audioLevel gain len anchor s).score = s.score ∧
    (audioLevel gain len anchor s).cue = s.cue ∧ (audioLevel gain len anchor s).jets = s.jets ∧
    (audioLevel gain len anchor s).pump = s.pump ∧ (audioLevel gain len anchor s).wind = s.wind ∧
    (audioLevel gain len anchor s).lamps = s.lamps ∧ (audioLevel gain len anchor s).safety = s.safety ∧
    (audioLevel gain len anchor s).events = s.events ∧ (audioLevel gain len anchor s).draws = s.draws := by
  unfold audioLevel
  split <;> simp

@[simp] theorem audioFadeOut_frame (len : Nat) (s : State) :
    (audioFadeOut len s).pending = s.pending ∧ (audioFadeOut len s).port = s.port ∧
    (audioFadeOut len s).config = s.config ∧ (audioFadeOut len s).ctl = s.ctl ∧
    (audioFadeOut len s).clock = s.clock ∧ (audioFadeOut len s).line = s.line ∧
    (audioFadeOut len s).peers = s.peers ∧ (audioFadeOut len s).score = s.score ∧ (audioFadeOut len s).cue = s.cue ∧
    (audioFadeOut len s).jets = s.jets ∧ (audioFadeOut len s).pump = s.pump ∧ (audioFadeOut len s).wind = s.wind ∧
    (audioFadeOut len s).lamps = s.lamps ∧ (audioFadeOut len s).safety = s.safety ∧
    (audioFadeOut len s).events = s.events ∧ (audioFadeOut len s).draws = s.draws :=
  ⟨rfl, rfl, rfl, rfl, rfl, rfl, rfl, rfl, rfl, rfl, rfl, rfl, rfl, rfl, rfl, rfl⟩

@[simp] theorem audioStart_frame (s : State) :
    (audioStart s).pending = s.pending ∧ (audioStart s).port = s.port ∧ (audioStart s).config = s.config ∧
    (audioStart s).ctl = s.ctl ∧ (audioStart s).clock = s.clock ∧ (audioStart s).line = s.line ∧
    (audioStart s).peers = s.peers ∧ (audioStart s).score = s.score ∧ (audioStart s).cue = s.cue ∧
    (audioStart s).jets = s.jets ∧ (audioStart s).pump = s.pump ∧ (audioStart s).wind = s.wind ∧
    (audioStart s).lamps = s.lamps ∧ (audioStart s).safety = s.safety ∧ (audioStart s).events = s.events ∧
    (audioStart s).draws = s.draws :=
  ⟨rfl, rfl, rfl, rfl, rfl, rfl, rfl, rfl, rfl, rfl, rfl, rfl, rfl, rfl, rfl, rfl⟩

@[simp] theorem audioQuiet_frame (s : State) :
    (audioQuiet s).pending = s.pending ∧ (audioQuiet s).port = s.port ∧ (audioQuiet s).config = s.config ∧
    (audioQuiet s).ctl = s.ctl ∧ (audioQuiet s).clock = s.clock ∧ (audioQuiet s).line = s.line ∧
    (audioQuiet s).peers = s.peers ∧ (audioQuiet s).score = s.score ∧ (audioQuiet s).cue = s.cue ∧
    (audioQuiet s).jets = s.jets ∧ (audioQuiet s).pump = s.pump ∧ (audioQuiet s).wind = s.wind ∧
    (audioQuiet s).lamps = s.lamps ∧ (audioQuiet s).safety = s.safety ∧ (audioQuiet s).events = s.events ∧
    (audioQuiet s).draws = s.draws :=
  ⟨rfl, rfl, rfl, rfl, rfl, rfl, rfl, rfl, rfl, rfl, rfl, rfl, rfl, rfl, rfl, rfl⟩

@[simp] theorem discardReception_frame (s : State) :
    (discardReception s).pending = s.pending ∧ (discardReception s).config = s.config ∧
    (discardReception s).ctl = s.ctl ∧ (discardReception s).clock = s.clock ∧ (discardReception s).line = s.line ∧
    (discardReception s).peers = s.peers ∧ (discardReception s).score = s.score ∧ (discardReception s).cue = s.cue ∧
    (discardReception s).jets = s.jets ∧ (discardReception s).pump = s.pump ∧ (discardReception s).wind = s.wind ∧
    (discardReception s).lamps = s.lamps ∧ (discardReception s).safety = s.safety ∧
    (discardReception s).events = s.events ∧ (discardReception s).draws = s.draws := by
  unfold discardReception
  split
  · simp
  · split <;> simp

@[simp] theorem audioClear_frame (s : State) :
    (audioClear s).pending = s.pending ∧ (audioClear s).config = s.config ∧ (audioClear s).ctl = s.ctl ∧
    (audioClear s).clock = s.clock ∧ (audioClear s).line = s.line ∧ (audioClear s).peers = s.peers ∧
    (audioClear s).score = s.score ∧ (audioClear s).cue = s.cue ∧ (audioClear s).jets = s.jets ∧
    (audioClear s).pump = s.pump ∧ (audioClear s).wind = s.wind ∧ (audioClear s).lamps = s.lamps ∧
    (audioClear s).safety = s.safety ∧ (audioClear s).events = s.events ∧ (audioClear s).draws = s.draws := by simp [audioClear]

@[simp] theorem cueRewind_frame (s : State) :
    (cueRewind s).pending = s.pending ∧ (cueRewind s).port = s.port ∧ (cueRewind s).config = s.config ∧
    (cueRewind s).ctl = s.ctl ∧ (cueRewind s).clock = s.clock ∧ (cueRewind s).line = s.line ∧
    (cueRewind s).peers = s.peers ∧ (cueRewind s).score = s.score ∧ (cueRewind s).jets = s.jets ∧
    (cueRewind s).pump = s.pump ∧ (cueRewind s).wind = s.wind ∧ (cueRewind s).lamps = s.lamps ∧
    (cueRewind s).audio = s.audio ∧ (cueRewind s).safety = s.safety ∧ (cueRewind s).events = s.events ∧
    (cueRewind s).draws = s.draws :=
  ⟨rfl, rfl, rfl, rfl, rfl, rfl, rfl, rfl, rfl, rfl, rfl, rfl, rfl, rfl, rfl, rfl⟩

@[simp] theorem cueStart_frame (s : State) :
    (cueStart s).pending = s.pending ∧ (cueStart s).port = s.port ∧ (cueStart s).config = s.config ∧
    (cueStart s).ctl = s.ctl ∧ (cueStart s).clock = s.clock ∧ (cueStart s).line = s.line ∧
    (cueStart s).peers = s.peers ∧ (cueStart s).score = s.score ∧ (cueStart s).jets = s.jets ∧
    (cueStart s).pump = s.pump ∧ (cueStart s).wind = s.wind ∧ (cueStart s).lamps = s.lamps ∧
    (cueStart s).audio = s.audio ∧ (cueStart s).safety = s.safety ∧ (cueStart s).events = s.events ∧
    (cueStart s).draws = s.draws :=
  ⟨rfl, rfl, rfl, rfl, rfl, rfl, rfl, rfl, rfl, rfl, rfl, rfl, rfl, rfl, rfl, rfl⟩

@[simp] theorem cueStop_frame (s : State) :
    (cueStop s).pending = s.pending ∧ (cueStop s).port = s.port ∧ (cueStop s).config = s.config ∧
    (cueStop s).ctl = s.ctl ∧ (cueStop s).clock = s.clock ∧ (cueStop s).line = s.line ∧ (cueStop s).peers = s.peers ∧
    (cueStop s).score = s.score ∧ (cueStop s).jets = s.jets ∧ (cueStop s).pump = s.pump ∧ (cueStop s).wind = s.wind ∧
    (cueStop s).lamps = s.lamps ∧ (cueStop s).audio = s.audio ∧ (cueStop s).safety = s.safety ∧
    (cueStop s).events = s.events ∧ (cueStop s).draws = s.draws :=
  ⟨rfl, rfl, rfl, rfl, rfl, rfl, rfl, rfl, rfl, rfl, rfl, rfl, rfl, rfl, rfl, rfl⟩

@[simp] theorem takeCue_frame (s : State) :
    (takeCue s).pending = s.pending ∧ (takeCue s).port = s.port ∧ (takeCue s).config = s.config ∧
    (takeCue s).ctl = s.ctl ∧ (takeCue s).clock = s.clock ∧ (takeCue s).line = s.line ∧ (takeCue s).peers = s.peers ∧
    (takeCue s).score = s.score ∧ (takeCue s).jets = s.jets ∧ (takeCue s).pump = s.pump ∧ (takeCue s).wind = s.wind ∧
    (takeCue s).lamps = s.lamps ∧ (takeCue s).audio = s.audio ∧ (takeCue s).safety = s.safety ∧
    (takeCue s).events = s.events ∧ (takeCue s).draws = s.draws :=
  ⟨rfl, rfl, rfl, rfl, rfl, rfl, rfl, rfl, rfl, rfl, rfl, rfl, rfl, rfl, rfl, rfl⟩

@[simp] theorem waitForRoom_frame (s : State) :
    (waitForRoom s).pending = s.pending ∧ (waitForRoom s).port = s.port ∧ (waitForRoom s).config = s.config ∧
    (waitForRoom s).ctl = s.ctl ∧ (waitForRoom s).clock = s.clock ∧ (waitForRoom s).line = s.line ∧
    (waitForRoom s).peers = s.peers ∧ (waitForRoom s).score = s.score ∧ (waitForRoom s).jets = s.jets ∧
    (waitForRoom s).pump = s.pump ∧ (waitForRoom s).wind = s.wind ∧ (waitForRoom s).lamps = s.lamps ∧
    (waitForRoom s).audio = s.audio ∧ (waitForRoom s).safety = s.safety ∧ (waitForRoom s).draws = s.draws := by
  unfold waitForRoom
  split <;> simp

@[simp] theorem retryHeldCue_frame (s : State) :
    (retryHeldCue s).pending = s.pending ∧ (retryHeldCue s).port = s.port ∧ (retryHeldCue s).config = s.config ∧
    (retryHeldCue s).ctl = s.ctl ∧ (retryHeldCue s).clock = s.clock ∧ (retryHeldCue s).line = s.line ∧
    (retryHeldCue s).peers = s.peers ∧ (retryHeldCue s).score = s.score ∧ (retryHeldCue s).jets = s.jets ∧
    (retryHeldCue s).pump = s.pump ∧ (retryHeldCue s).wind = s.wind ∧ (retryHeldCue s).lamps = s.lamps ∧
    (retryHeldCue s).audio = s.audio ∧ (retryHeldCue s).safety = s.safety ∧ (retryHeldCue s).draws = s.draws := by
  unfold retryHeldCue
  split <;> simp

@[simp] theorem countLate_frame (a : Action) (s : State) :
    (countLate a s).pending = s.pending ∧ (countLate a s).port = s.port ∧ (countLate a s).config = s.config ∧
    (countLate a s).ctl = s.ctl ∧ (countLate a s).clock = s.clock ∧ (countLate a s).line = s.line ∧
    (countLate a s).peers = s.peers ∧ (countLate a s).score = s.score ∧ (countLate a s).jets = s.jets ∧
    (countLate a s).pump = s.pump ∧ (countLate a s).wind = s.wind ∧ (countLate a s).lamps = s.lamps ∧
    (countLate a s).audio = s.audio ∧ (countLate a s).safety = s.safety ∧ (countLate a s).draws = s.draws := by
  unfold countLate
  split <;> simp

@[simp] theorem enterCountdown_frame (g : GoRecord) (s : State) :
    (enterCountdown g s).pending = s.pending ∧ (enterCountdown g s).port = s.port ∧
    (enterCountdown g s).config = s.config ∧ (enterCountdown g s).clock = s.clock ∧
    (enterCountdown g s).line = s.line ∧ (enterCountdown g s).peers = s.peers ∧
    (enterCountdown g s).score = s.score ∧ (enterCountdown g s).pump = s.pump ∧ (enterCountdown g s).wind = s.wind ∧
    (enterCountdown g s).safety = s.safety ∧ (enterCountdown g s).events = s.events ∧
    (enterCountdown g s).draws = s.draws := by simp [enterCountdown]

@[simp] theorem enterRunning_frame (s : State) :
    (enterRunning s).pending = s.pending ∧ (enterRunning s).port = s.port ∧ (enterRunning s).config = s.config ∧
    (enterRunning s).clock = s.clock ∧ (enterRunning s).line = s.line ∧ (enterRunning s).peers = s.peers ∧
    (enterRunning s).score = s.score ∧ (enterRunning s).cue = s.cue ∧ (enterRunning s).jets = s.jets ∧
    (enterRunning s).pump = s.pump ∧ (enterRunning s).wind = s.wind ∧ (enterRunning s).audio = s.audio ∧
    (enterRunning s).safety = s.safety ∧ (enterRunning s).draws = s.draws := by simp [enterRunning]

@[simp] theorem enterCoda_frame (cause : CodaCause) (s : State) :
    (enterCoda cause s).pending = s.pending ∧ (enterCoda cause s).port = s.port ∧
    (enterCoda cause s).config = s.config ∧ (enterCoda cause s).clock = s.clock ∧ (enterCoda cause s).line = s.line ∧
    (enterCoda cause s).peers = s.peers ∧ (enterCoda cause s).score = s.score ∧ (enterCoda cause s).jets = s.jets ∧
    (enterCoda cause s).wind = s.wind ∧ (enterCoda cause s).safety = s.safety ∧ (enterCoda cause s).draws = s.draws := by simp [enterCoda]

@[simp] theorem fireEnd_frame (s : State) :
    (fireEnd s).pending = s.pending ∧ (fireEnd s).port = s.port ∧ (fireEnd s).config = s.config ∧
    (fireEnd s).clock = s.clock ∧ (fireEnd s).line = s.line ∧ (fireEnd s).peers = s.peers ∧
    (fireEnd s).score = s.score ∧ (fireEnd s).jets = s.jets ∧ (fireEnd s).wind = s.wind ∧
    (fireEnd s).safety = s.safety ∧ (fireEnd s).draws = s.draws := by
  unfold fireEnd
  split <;> simp

@[simp] theorem enterIdle_frame (s : State) :
    (enterIdle s).pending = s.pending ∧ (enterIdle s).config = s.config ∧ (enterIdle s).clock = s.clock ∧
    (enterIdle s).line = s.line ∧ (enterIdle s).peers = s.peers ∧ (enterIdle s).cue = s.cue ∧
    (enterIdle s).wind = s.wind ∧ (enterIdle s).safety = s.safety ∧ (enterIdle s).events = s.events ∧
    (enterIdle s).draws = s.draws := by simp [enterIdle]

@[simp] theorem completeCoda_frame (s : State) :
    (completeCoda s).pending = s.pending ∧ (completeCoda s).config = s.config ∧ (completeCoda s).clock = s.clock ∧
    (completeCoda s).line = s.line ∧ (completeCoda s).peers = s.peers ∧ (completeCoda s).cue = s.cue ∧
    (completeCoda s).wind = s.wind ∧ (completeCoda s).safety = s.safety ∧ (completeCoda s).draws = s.draws := by simp [completeCoda]

@[simp] theorem codaTest_frame (s : State) :
    (codaTest s).pending = s.pending ∧ (codaTest s).config = s.config ∧ (codaTest s).clock = s.clock ∧
    (codaTest s).line = s.line ∧ (codaTest s).peers = s.peers ∧ (codaTest s).cue = s.cue ∧
    (codaTest s).wind = s.wind ∧ (codaTest s).safety = s.safety ∧ (codaTest s).draws = s.draws := by
  unfold codaTest
  split <;> simp

@[simp] theorem stopCountdown_frame (s : State) :
    (stopCountdown s).pending = s.pending ∧ (stopCountdown s).port = s.port ∧ (stopCountdown s).config = s.config ∧
    (stopCountdown s).clock = s.clock ∧ (stopCountdown s).line = s.line ∧ (stopCountdown s).peers = s.peers ∧
    (stopCountdown s).score = s.score ∧ (stopCountdown s).wind = s.wind ∧ (stopCountdown s).safety = s.safety ∧
    (stopCountdown s).draws = s.draws := by simp [stopCountdown]

@[simp] theorem sendHalt_frame (s : State) :
    (sendHalt s).pending = s.pending ∧ (sendHalt s).port = s.port ∧ (sendHalt s).config = s.config ∧
    (sendHalt s).ctl = s.ctl ∧ (sendHalt s).clock = s.clock ∧ (sendHalt s).peers = s.peers ∧
    (sendHalt s).score = s.score ∧ (sendHalt s).cue = s.cue ∧ (sendHalt s).jets = s.jets ∧
    (sendHalt s).wind = s.wind ∧ (sendHalt s).lamps = s.lamps ∧ (sendHalt s).audio = s.audio ∧
    (sendHalt s).safety = s.safety ∧ (sendHalt s).draws = s.draws := by simp [sendHalt]

@[simp] theorem haltResult_frame (s : State) :
    (haltResult s).pending = s.pending ∧ (haltResult s).port = s.port ∧ (haltResult s).config = s.config ∧
    (haltResult s).clock = s.clock ∧ (haltResult s).line = s.line ∧ (haltResult s).peers = s.peers ∧
    (haltResult s).score = s.score ∧ (haltResult s).cue = s.cue ∧ (haltResult s).jets = s.jets ∧
    (haltResult s).pump = s.pump ∧ (haltResult s).wind = s.wind ∧ (haltResult s).lamps = s.lamps ∧
    (haltResult s).audio = s.audio ∧ (haltResult s).safety = s.safety ∧ (haltResult s).events = s.events ∧
    (haltResult s).draws = s.draws := by
  unfold haltResult
  split <;> simp

@[simp] theorem enterHalted_frame (own : Bool) (s : State) :
    (enterHalted own s).pending = s.pending ∧ (enterHalted own s).port = s.port ∧
    (enterHalted own s).config = s.config ∧ (enterHalted own s).clock = s.clock ∧
    (enterHalted own s).peers = s.peers ∧ (enterHalted own s).score = s.score ∧ (enterHalted own s).wind = s.wind ∧
    (enterHalted own s).safety = s.safety ∧ (enterHalted own s).draws = s.draws := by
  unfold enterHalted
  split <;> simp

@[simp] theorem ownHalt_frame (s : State) :
    (ownHalt s).pending = s.pending ∧ (ownHalt s).port = s.port ∧ (ownHalt s).config = s.config ∧
    (ownHalt s).clock = s.clock ∧ (ownHalt s).peers = s.peers ∧ (ownHalt s).score = s.score ∧
    (ownHalt s).wind = s.wind ∧ (ownHalt s).safety = s.safety ∧ (ownHalt s).draws = s.draws := by
  unfold ownHalt
  split <;> simp

@[simp] theorem peerHalt_frame (s : State) :
    (peerHalt s).pending = s.pending ∧ (peerHalt s).port = s.port ∧ (peerHalt s).config = s.config ∧
    (peerHalt s).clock = s.clock ∧ (peerHalt s).peers = s.peers ∧ (peerHalt s).score = s.score ∧
    (peerHalt s).wind = s.wind ∧ (peerHalt s).safety = s.safety ∧ (peerHalt s).draws = s.draws := by
  unfold peerHalt
  split <;> simp

@[simp] theorem deliver_frame (o : Origin) (due : Int) (act : Act) (s : State) :
    (deliver o due act s).pending = s.pending ∧ (deliver o due act s).port = s.port ∧
    (deliver o due act s).config = s.config ∧ (deliver o due act s).clock = s.clock ∧
    (deliver o due act s).line = s.line ∧ (deliver o due act s).peers = s.peers ∧
    (deliver o due act s).score = s.score ∧ (deliver o due act s).wind = s.wind ∧
    (deliver o due act s).safety = s.safety ∧ (deliver o due act s).draws = s.draws := by
  unfold deliver
  split <;> simp

@[simp] theorem fireHead_frame (s : State) :
    (fireHead s).pending = s.pending ∧ (fireHead s).port = s.port ∧ (fireHead s).config = s.config ∧
    (fireHead s).clock = s.clock ∧ (fireHead s).line = s.line ∧ (fireHead s).peers = s.peers ∧
    (fireHead s).score = s.score ∧ (fireHead s).wind = s.wind ∧ (fireHead s).safety = s.safety ∧
    (fireHead s).draws = s.draws := by
  unfold fireHead
  split <;> simp

@[simp] theorem beginRound_frame (c : ConfigRecord) (start : SiteTime) (corr : Int) (s : State) :
    (beginRound c start corr s).pending = s.pending ∧ (beginRound c start corr s).port = s.port ∧
    (beginRound c start corr s).config = s.config ∧ (beginRound c start corr s).ctl = s.ctl ∧
    (beginRound c start corr s).line = s.line ∧ (beginRound c start corr s).peers = s.peers ∧
    (beginRound c start corr s).score = s.score ∧ (beginRound c start corr s).cue = s.cue ∧
    (beginRound c start corr s).jets = s.jets ∧ (beginRound c start corr s).pump = s.pump ∧
    (beginRound c start corr s).wind = s.wind ∧ (beginRound c start corr s).lamps = s.lamps ∧
    (beginRound c start corr s).audio = s.audio ∧ (beginRound c start corr s).safety = s.safety ∧
    (beginRound c start corr s).events = s.events ∧ (beginRound c start corr s).draws = s.draws :=
  ⟨rfl, rfl, rfl, rfl, rfl, rfl, rfl, rfl, rfl, rfl, rfl, rfl, rfl, rfl, rfl, rfl⟩

@[simp] theorem enterRound_frame (c : ConfigRecord) (s : State) :
    (enterRound c s).pending = s.pending ∧ (enterRound c s).port = s.port ∧ (enterRound c s).config = s.config ∧
    (enterRound c s).ctl = s.ctl ∧ (enterRound c s).line = s.line ∧ (enterRound c s).peers = s.peers ∧
    (enterRound c s).score = s.score ∧ (enterRound c s).cue = s.cue ∧ (enterRound c s).jets = s.jets ∧
    (enterRound c s).pump = s.pump ∧ (enterRound c s).wind = s.wind ∧ (enterRound c s).lamps = s.lamps ∧
    (enterRound c s).audio = s.audio ∧ (enterRound c s).safety = s.safety ∧ (enterRound c s).events = s.events ∧
    (enterRound c s).draws = s.draws := by
  simp only [enterRound]
  split <;> simp

@[simp] theorem takeOffset_frame (c : ConfigRecord) (i : Fin 32) (stamp arrival : SiteTime) (s : State) :
    (takeOffset c i stamp arrival s).pending = s.pending ∧ (takeOffset c i stamp arrival s).port = s.port ∧
    (takeOffset c i stamp arrival s).config = s.config ∧ (takeOffset c i stamp arrival s).ctl = s.ctl ∧
    (takeOffset c i stamp arrival s).line = s.line ∧ (takeOffset c i stamp arrival s).score = s.score ∧
    (takeOffset c i stamp arrival s).cue = s.cue ∧ (takeOffset c i stamp arrival s).jets = s.jets ∧
    (takeOffset c i stamp arrival s).pump = s.pump ∧ (takeOffset c i stamp arrival s).wind = s.wind ∧
    (takeOffset c i stamp arrival s).lamps = s.lamps ∧ (takeOffset c i stamp arrival s).audio = s.audio ∧
    (takeOffset c i stamp arrival s).safety = s.safety ∧ (takeOffset c i stamp arrival s).events = s.events ∧
    (takeOffset c i stamp arrival s).draws = s.draws := by
  unfold takeOffset
  split <;> simp

@[simp] theorem removeOutliers_frame (c : ConfigRecord) (s : State) :
    (removeOutliers c s).pending = s.pending ∧ (removeOutliers c s).port = s.port ∧
    (removeOutliers c s).config = s.config ∧ (removeOutliers c s).ctl = s.ctl ∧ (removeOutliers c s).line = s.line ∧
    (removeOutliers c s).score = s.score ∧ (removeOutliers c s).cue = s.cue ∧ (removeOutliers c s).jets = s.jets ∧
    (removeOutliers c s).pump = s.pump ∧ (removeOutliers c s).wind = s.wind ∧ (removeOutliers c s).lamps = s.lamps ∧
    (removeOutliers c s).audio = s.audio ∧ (removeOutliers c s).safety = s.safety ∧
    (removeOutliers c s).events = s.events ∧ (removeOutliers c s).draws = s.draws :=
  ⟨rfl, rfl, rfl, rfl, rfl, rfl, rfl, rfl, rfl, rfl, rfl, rfl, rfl, rfl, rfl⟩

@[simp] theorem classifyRound_frame (c : ConfigRecord) (mean : Int) (s : State) :
    (classifyRound c mean s).pending = s.pending ∧ (classifyRound c mean s).port = s.port ∧
    (classifyRound c mean s).config = s.config ∧ (classifyRound c mean s).ctl = s.ctl ∧
    (classifyRound c mean s).line = s.line ∧ (classifyRound c mean s).peers = s.peers ∧
    (classifyRound c mean s).score = s.score ∧ (classifyRound c mean s).cue = s.cue ∧
    (classifyRound c mean s).jets = s.jets ∧ (classifyRound c mean s).pump = s.pump ∧
    (classifyRound c mean s).wind = s.wind ∧ (classifyRound c mean s).lamps = s.lamps ∧
    (classifyRound c mean s).audio = s.audio ∧ (classifyRound c mean s).safety = s.safety ∧
    (classifyRound c mean s).draws = s.draws := by
  unfold classifyRound
  split <;> simp

@[simp] theorem stepClock_frame (c : ConfigRecord) (mean : Int) (s : State) :
    (stepClock c mean s).pending = s.pending ∧ (stepClock c mean s).port = s.port ∧
    (stepClock c mean s).config = s.config ∧ (stepClock c mean s).ctl = s.ctl ∧ (stepClock c mean s).line = s.line ∧
    (stepClock c mean s).peers = s.peers ∧ (stepClock c mean s).score = s.score ∧ (stepClock c mean s).cue = s.cue ∧
    (stepClock c mean s).jets = s.jets ∧ (stepClock c mean s).safety = s.safety ∧
    (stepClock c mean s).events = s.events ∧ (stepClock c mean s).draws = s.draws := by simp [stepClock]

@[simp] theorem endRound_frame (c : ConfigRecord) (start : SiteTime) (s : State) :
    (endRound c start s).pending = s.pending ∧ (endRound c start s).port = s.port ∧
    (endRound c start s).config = s.config ∧ (endRound c start s).ctl = s.ctl ∧ (endRound c start s).line = s.line ∧
    (endRound c start s).score = s.score ∧ (endRound c start s).cue = s.cue ∧ (endRound c start s).jets = s.jets ∧
    (endRound c start s).safety = s.safety ∧ (endRound c start s).draws = s.draws := by
  simp only [endRound]
  split <;> simp

@[simp] theorem hearClash_frame (s : State) :
    (hearClash s).pending = s.pending ∧ (hearClash s).port = s.port ∧ (hearClash s).config = s.config ∧
    (hearClash s).ctl = s.ctl ∧ (hearClash s).peers = s.peers ∧ (hearClash s).score = s.score ∧
    (hearClash s).cue = s.cue ∧ (hearClash s).jets = s.jets ∧ (hearClash s).wind = s.wind ∧
    (hearClash s).lamps = s.lamps ∧ (hearClash s).audio = s.audio ∧ (hearClash s).safety = s.safety ∧
    (hearClash s).draws = s.draws := by
  unfold hearClash
  split <;> simp

@[simp] theorem stableChange_frame (c : ConfigRecord) (i : Fin 8) (s : State) :
    (stableChange c i s).pending = s.pending ∧ (stableChange c i s).port = s.port ∧
    (stableChange c i s).config = s.config ∧ (stableChange c i s).clock = s.clock ∧
    (stableChange c i s).peers = s.peers ∧ (stableChange c i s).score = s.score ∧
    (stableChange c i s).wind = s.wind ∧ (stableChange c i s).draws = s.draws := by
  simp only [stableChange]
  split <;> simp

@[simp] theorem missStart_frame (g : GoRecord) (s : State) :
    (missStart g s).pending = s.pending ∧ (missStart g s).port = s.port ∧ (missStart g s).config = s.config ∧
    (missStart g s).clock = s.clock ∧ (missStart g s).line = s.line ∧ (missStart g s).peers = s.peers ∧
    (missStart g s).score = s.score ∧ (missStart g s).cue = s.cue ∧ (missStart g s).jets = s.jets ∧
    (missStart g s).pump = s.pump ∧ (missStart g s).wind = s.wind ∧ (missStart g s).lamps = s.lamps ∧
    (missStart g s).audio = s.audio ∧ (missStart g s).safety = s.safety ∧ (missStart g s).draws = s.draws :=
  ⟨rfl, rfl, rfl, rfl, rfl, rfl, rfl, rfl, rfl, rfl, rfl, rfl, rfl, rfl, rfl⟩

@[simp] theorem storeConfig_frame (c : ConfigRecord) (s : State) :
    (storeConfig c s).pending = s.pending ∧ (storeConfig c s).port = s.port ∧ (storeConfig c s).ctl = s.ctl ∧
    (storeConfig c s).clock = s.clock ∧ (storeConfig c s).line = s.line ∧ (storeConfig c s).peers = s.peers ∧
    (storeConfig c s).score = s.score ∧ (storeConfig c s).jets = s.jets ∧ (storeConfig c s).safety = s.safety ∧
    (storeConfig c s).events = s.events ∧ (storeConfig c s).draws = s.draws :=
  ⟨rfl, rfl, rfl, rfl, rfl, rfl, rfl, rfl, rfl, rfl, rfl⟩

@[simp] theorem configureBlocks_frame (c : ConfigRecord) (s : State) :
    (configureBlocks c s).pending = s.pending ∧ (configureBlocks c s).port = s.port ∧
    (configureBlocks c s).config = s.config ∧ (configureBlocks c s).ctl = s.ctl ∧
    (configureBlocks c s).line = s.line ∧ (configureBlocks c s).peers = s.peers ∧
    (configureBlocks c s).score = s.score ∧ (configureBlocks c s).cue = s.cue ∧ (configureBlocks c s).jets = s.jets ∧
    (configureBlocks c s).pump = s.pump ∧ (configureBlocks c s).lamps = s.lamps ∧
    (configureBlocks c s).audio = s.audio ∧ (configureBlocks c s).events = s.events ∧
    (configureBlocks c s).draws = s.draws := by simp [configureBlocks]

@[simp] theorem enterArmed_frame (s : State) :
    (enterArmed s).pending = s.pending ∧ (enterArmed s).port = s.port ∧ (enterArmed s).config = s.config ∧
    (enterArmed s).clock = s.clock ∧ (enterArmed s).line = s.line ∧ (enterArmed s).peers = s.peers ∧
    (enterArmed s).wind = s.wind ∧ (enterArmed s).safety = s.safety ∧ (enterArmed s).events = s.events ∧
    (enterArmed s).draws = s.draws := by simp [enterArmed]

@[simp] theorem disarmed_frame (s : State) :
    (disarmed s).pending = s.pending ∧ (disarmed s).port = s.port ∧ (disarmed s).config = s.config ∧
    (disarmed s).clock = s.clock ∧ (disarmed s).line = s.line ∧ (disarmed s).peers = s.peers ∧
    (disarmed s).pump = s.pump ∧ (disarmed s).wind = s.wind ∧ (disarmed s).safety = s.safety ∧
    (disarmed s).events = s.events ∧ (disarmed s).draws = s.draws := by simp [disarmed]

@[simp] theorem startLocal_frame (delay : Nat) (s : State) :
    (startLocal delay s).pending = s.pending ∧ (startLocal delay s).port = s.port ∧
    (startLocal delay s).config = s.config ∧ (startLocal delay s).clock = s.clock ∧
    (startLocal delay s).peers = s.peers ∧ (startLocal delay s).score = s.score ∧
    (startLocal delay s).wind = s.wind ∧ (startLocal delay s).safety = s.safety ∧ (startLocal delay s).draws = s.draws := by simp [startLocal]

@[simp] theorem sendStop_frame (s : State) :
    (sendStop s).pending = s.pending ∧ (sendStop s).port = s.port ∧ (sendStop s).config = s.config ∧
    (sendStop s).ctl = s.ctl ∧ (sendStop s).clock = s.clock ∧ (sendStop s).peers = s.peers ∧
    (sendStop s).score = s.score ∧ (sendStop s).cue = s.cue ∧ (sendStop s).jets = s.jets ∧
    (sendStop s).wind = s.wind ∧ (sendStop s).lamps = s.lamps ∧ (sendStop s).audio = s.audio ∧
    (sendStop s).safety = s.safety ∧ (sendStop s).draws = s.draws := by simp [sendStop]

@[simp] theorem released_frame (s : State) :
    (released s).pending = s.pending ∧ (released s).config = s.config ∧ (released s).clock = s.clock ∧
    (released s).line = s.line ∧ (released s).peers = s.peers ∧ (released s).wind = s.wind ∧
    (released s).safety = s.safety ∧ (released s).events = s.events ∧ (released s).draws = s.draws := by simp [released]

end Sys2Proof.Machine
end

