-- ==== Sys2Proof/Laws/Memory.lean ====
section
/-! SUPPORT. Memory: read after write, and every write keeps the canonical form. -/

namespace Sys2Proof.Machine

/-- The canonical form as a proposition. -/
theorem Memory.wf_iff (m : Memory) :
    Memory.wf m = true ↔ m.Pairwise (fun x y => x.1 < y.1) ∧ ∀ c ∈ m, c.2 ≠ 0 := by
  simp [Memory.wf]

/-- A listed cell of a canonical memory is what its address reads as. -/
theorem Memory.read_below {m : Memory} {a : Nat} (h : ∀ c ∈ m, a < c.1) : Memory.read m a = 0 := by
  induction m with
  | nil => rfl
  | cons c rest ih =>
    obtain ⟨k, v⟩ := c
    have hk : a < k := h (k, v) (by simp)
    have hne : k ≠ a := by omega
    simp only [Memory.read, hne, if_false]
    exact ih fun c hc => h c (by simp [hc])

/-- The byte just written is read back. -/
theorem Memory.read_write_self (m : Memory) (a : Nat) (v : Byte) (h : Memory.wf m = true) : (m.write a v).read a = v := by
  induction m with
  | nil => unfold Memory.write; split <;> simp_all [Memory.read]
  | cons c rest ih =>
    obtain ⟨k, w⟩ := c
    have hw := (Memory.wf_iff _).1 h
    have hrest : Memory.wf rest = true := by
      rw [Memory.wf_iff]
      exact ⟨(List.pairwise_cons.1 hw.1).2, fun c hc => hw.2 c (by simp [hc])⟩
    have hlow : ∀ c ∈ rest, k < c.1 := (List.pairwise_cons.1 hw.1).1
    simp only [Memory.write]
    split
    · next hlt =>
      split
      · next hv =>
        rw [hv]
        exact Memory.read_below fun c hc => by
          rcases List.mem_cons.1 hc with rfl | hc
          · exact hlt
          · exact lt_trans hlt (hlow c hc)
      · simp [Memory.read]
    · split
      · next heq =>
        split
        · next hv =>
          rw [hv, heq]
          exact Memory.read_below hlow
        · simp [Memory.read]
      · next hne =>
        have : k ≠ a := fun e => hne e.symm
        simp [Memory.read, this, ih hrest]

/-- Every other byte reads as before. -/
theorem Memory.read_write_ne (m : Memory) (a b : Nat) (v : Byte) (h : b ≠ a) : (m.write a v).read b = m.read b := by
  induction m with
  | nil => unfold Memory.write; split <;> simp [Memory.read, h.symm]
  | cons c rest ih =>
    obtain ⟨k, w⟩ := c
    simp only [Memory.write]
    split
    · split
      · rfl
      · simp [Memory.read, h.symm]
    · split
      · next heq =>
        subst heq
        split <;> simp [Memory.read, h.symm]
      · simp only [Memory.read, ih]

/-- The cells of a memory after a write are cells it had, or the one written. -/
theorem Memory.mem_write {m : Memory} {a : Nat} {v : Byte} {c : Host.Cell} (h : c ∈ m.write a v) :
    c ∈ m ∨ (c = (a, v) ∧ v ≠ 0) := by
  induction m with
  | nil => unfold Memory.write at h; split at h <;> simp_all
  | cons d rest ih =>
    obtain ⟨k, w⟩ := d
    simp only [Memory.write] at h
    split at h
    · split at h
      · exact .inl h
      · next hv =>
        rcases List.mem_cons.1 h with rfl | h
        · exact .inr ⟨rfl, hv⟩
        · exact .inl h
    · split at h
      · split at h
        · exact .inl (by simp [h])
        · next hv =>
          rcases List.mem_cons.1 h with rfl | h
          · exact .inr ⟨rfl, hv⟩
          · exact .inl (by simp [h])
      · rcases List.mem_cons.1 h with rfl | h
        · exact .inl (by simp)
        · rcases ih h with h | h
          · exact .inl (by simp [h])
          · exact .inr h

/-- A write keeps the canonical form. -/
theorem Memory.write_wf (m : Memory) (a : Nat) (v : Byte) (h : Memory.wf m = true) : Memory.wf (m.write a v) = true := by
  induction m with
  | nil => unfold Memory.write; split <;> simp_all [Memory.wf]
  | cons c rest ih =>
    obtain ⟨k, w⟩ := c
    rw [Memory.wf_iff] at h
    obtain ⟨hp, hz⟩ := h
    obtain ⟨hlow, hp'⟩ := List.pairwise_cons.1 hp
    have hrest : Memory.wf rest = true := (Memory.wf_iff _).2 ⟨hp', fun c hc => hz c (by simp [hc])⟩
    simp only [Memory.write]
    split
    · next hlt =>
      split
      · exact (Memory.wf_iff _).2 ⟨hp, hz⟩
      · next hv =>
        refine (Memory.wf_iff _).2 ⟨List.pairwise_cons.2 ⟨fun c hc => ?_, hp⟩, fun c hc => ?_⟩
        · rcases List.mem_cons.1 hc with rfl | hc
          · exact hlt
          · exact lt_trans hlt (hlow c hc)
        · rcases List.mem_cons.1 hc with rfl | hc
          · exact hv
          · exact hz c hc
    · split
      · next heq =>
        split
        · exact hrest
        · next hv =>
          refine (Memory.wf_iff _).2 ⟨List.pairwise_cons.2 ⟨fun c hc => heq ▸ hlow c hc, hp'⟩, fun c hc => ?_⟩
          rcases List.mem_cons.1 hc with rfl | hc
          · exact hv
          · exact hz c (by simp [hc])
      · next hnlt hne =>
        have hw := (Memory.wf_iff _).1 (ih hrest)
        refine (Memory.wf_iff _).2 ⟨List.pairwise_cons.2 ⟨fun c hc => ?_, hw.1⟩, fun c hc => ?_⟩
        · rcases Memory.mem_write hc with hc | ⟨rfl, -⟩
          · exact hlow c hc
          · show k < a
            omega
        · rcases List.mem_cons.1 hc with rfl | hc
          · exact hz _ (by simp)
          · exact hw.2 c hc

/-- Writing a run of bytes keeps the canonical form. -/
theorem Memory.writeAll_wf (m : Memory) (a : Nat) (bytes : List Byte) (h : Memory.wf m = true) :
    Memory.wf (m.writeAll a bytes) = true := by
  induction bytes generalizing m a with
  | nil => exact h
  | cons b rest ih => exact ih _ _ (Memory.write_wf m a b h)

/-- Writing a run of bytes leaves every byte outside the run. -/
theorem Memory.read_writeAll_outside (m : Memory) (a b : Nat) (bytes : List Byte) (h : b < a ∨ a + bytes.length ≤ b) :
    (m.writeAll a bytes).read b = m.read b := by
  induction bytes generalizing m a with
  | nil => rfl
  | cons x rest ih =>
    have hlen : (x :: rest).length = rest.length + 1 := rfl
    rw [Memory.writeAll, ih _ _ (by omega), Memory.read_write_ne _ _ _ _ (by omega)]

/-- A run of bytes just written is read back. -/
theorem Memory.read_writeAll_inside (m : Memory) (a i : Nat) (bytes : List Byte) (h : Memory.wf m = true)
    (hi : i < bytes.length) : (m.writeAll a bytes).read (a + i) = bytes[i] := by
  induction bytes generalizing m a i with
  | nil => simp at hi
  | cons x rest ih =>
    rw [Memory.writeAll]
    cases i with
    | zero =>
      rw [Memory.read_writeAll_outside _ _ _ _ (by omega)]
      exact Memory.read_write_self m a x h
    | succ j =>
      have := ih (m.write a x) (a + 1) j (Memory.write_wf m a x h) (by simpa using hi)
      simpa [Nat.add_assoc, Nat.add_comm 1 j] using this

end Sys2Proof.Machine
end

