-- ==== Sys2Proof/Laws/PerInstr.lean ====
section
/-! SUPPORT. The family stated of every command: a well-formed host command's frame is read back as that command. -/

namespace Sys2Proof.Laws

/-- What a host sends for a well-formed command, the command decoder reads as that command (R184, R185, R187). -/
def Coded.Statement (i : Instr) : Prop :=
  i.wellFormed = true → ∀ bytes, commandFrame i = some bytes → (decodeCommandFrame bytes).head? = some i

/-- Two bytes low first give the number they carry. -/
theorem lowFirst_two (v : Word16) :
    BitVec.ofNat 16 (lowFirst 2 [BitVec.ofNat 8 v.toNat, BitVec.ofNat 8 (v.toNat / 256)]) = v := by
  apply BitVec.eq_of_toNat_eq
  have := v.isLt
  simp [lowFirst]
  omega

/-- Four bytes low first give the number they carry. -/
theorem lowFirst_four (v : BitVec 32) :
    BitVec.ofNat 32 (lowFirst 4 [BitVec.ofNat 8 v.toNat, BitVec.ofNat 8 (v.toNat / 256), BitVec.ofNat 8 (v.toNat / 256 / 256),
      BitVec.ofNat 8 (v.toNat / 256 / 256 / 256)]) = v := by
  apply BitVec.eq_of_toNat_eq
  have := v.isLt
  simp [lowFirst]
  omega

/-- A command that no frame gives. -/
theorem coded_of_none {i : Instr} (h : commandFrame i = none) : Coded.Statement i := by
  intro _ bytes hb
  rw [h] at hb
  cases hb

theorem Coded.nop : Coded.Statement .nop := by
  intro _ bytes h
  cases h
  rfl

theorem Coded.softReset : Coded.Statement .softReset := by
  intro _ bytes h
  cases h
  rfl

theorem Coded.ident : Coded.Statement .ident := by
  intro _ bytes h
  cases h
  rfl

theorem Coded.status : Coded.Statement .status := by
  intro _ bytes h
  cases h
  rfl

theorem Coded.configure (record : List Byte) : Coded.Statement (.configure record) := by
  intro hw bytes h
  simp only [Instr.wellFormed, beq_iff_eq] at hw
  simp only [commandFrame, Option.some.injEq] at h
  subst h
  simp [decodeCommandFrame, fixedLength, hw, List.take_of_length_le]

theorem Coded.scoreOpen (header : List Byte) : Coded.Statement (.scoreOpen header) := by
  intro hw bytes h
  simp only [Instr.wellFormed, beq_iff_eq] at hw
  simp only [commandFrame, Option.some.injEq] at h
  subst h
  simp [decodeCommandFrame, fixedLength, hw, List.take_of_length_le]

theorem Coded.scoreData (body : List Byte) : Coded.Statement (.scoreData body) := by
  intro hw bytes h
  simp only [Instr.wellFormed, beq_iff_eq] at hw
  simp only [commandFrame, Option.some.injEq] at h
  subst h
  simp [decodeCommandFrame, fixedLength, ← hw, List.take_of_length_le]

theorem Coded.scoreClose : Coded.Statement .scoreClose := by
  intro _ bytes h
  cases h
  rfl

theorem Coded.arm : Coded.Statement .arm := by
  intro _ bytes h
  cases h
  rfl

theorem Coded.disarm : Coded.Statement .disarm := by
  intro _ bytes h
  cases h
  rfl

theorem Coded.go (delay : Word16) : Coded.Statement (.go delay) := by
  intro _ bytes h
  simp only [commandFrame, Option.some.injEq] at h
  subst h
  simpa [decodeCommandFrame, fixedLength, lowBytes] using lowFirst_two delay

theorem Coded.stop : Coded.Statement .stop := by
  intro _ bytes h
  cases h
  rfl

theorem Coded.release : Coded.Statement .release := by
  intro _ bytes h
  cases h
  rfl

theorem Coded.audio (start : BitVec 32) (count : Word16) : Coded.Statement (.audio start count) := by
  intro _ bytes h
  simp only [commandFrame, Option.some.injEq] at h
  subst h
  simpa [decodeCommandFrame, audioFrame, lowBytes, lowFirst] using ⟨lowFirst_four start, lowFirst_two count⟩

theorem Coded.events : Coded.Statement .events := by
  intro _ bytes h
  cases h
  rfl

theorem Coded.eventClear (set : Word16) : Coded.Statement (.eventClear set) := by
  intro _ bytes h
  simp only [commandFrame, Option.some.injEq] at h
  subst h
  simpa [decodeCommandFrame, fixedLength, lowBytes] using lowFirst_two set

theorem Coded.eventMask (set : Word16) : Coded.Statement (.eventMask set) := by
  intro _ bytes h
  simp only [commandFrame, Option.some.injEq] at h
  subst h
  simpa [decodeCommandFrame, fixedLength, lowBytes] using lowFirst_two set

theorem Coded.peers : Coded.Statement .peers := by
  intro _ bytes h
  cases h
  rfl

theorem Coded.pump (channel : Byte) : Coded.Statement (.pump channel) := by
  intro _ bytes h
  cases h
  rfl

theorem Coded.unknownCommand (code : Byte) : Coded.Statement (.unknownCommand code) := by
  intro hw bytes h
  simp only [commandFrame, Option.some.injEq] at h
  subst h
  simp [Instr.wellFormed, knownCodes] at hw
  simp [decodeCommandFrame, hw]

theorem Coded.commandIncomplete (code : Byte) : Coded.Statement (.commandIncomplete code) := by
  intro hw bytes h
  simp only [commandFrame, Option.some.injEq] at h
  subst h
  simp only [Instr.wellFormed, takesParameters, recordedCodes, List.contains_eq_mem, List.mem_cons, List.not_mem_nil, or_false,
    Bool.or_eq_true, decide_eq_true_eq, beq_iff_eq] at hw
  rcases hw with (rfl | rfl | rfl | rfl | rfl | rfl | rfl) | rfl <;> rfl

theorem Coded.audioEnd (bytes : List Byte) : Coded.Statement (.audioEnd bytes) := coded_of_none rfl

theorem Coded.powerOnReset : Coded.Statement .powerOnReset := coded_of_none rfl

theorem Coded.pinReset : Coded.Statement .pinReset := coded_of_none rfl

theorem Coded.resetExit : Coded.Statement .resetExit := coded_of_none rfl

theorem Coded.beaconReceived (sender : Byte) (seq : Byte) (beacon : Beacon) (arrival : SiteTime) : Coded.Statement (.beaconReceived sender seq beacon arrival) := coded_of_none rfl

theorem Coded.goFrameReceived (sender : Byte) (frame : GoRecord) : Coded.Statement (.goFrameReceived sender frame) := coded_of_none rfl

theorem Coded.stopFrameReceived (sender : Byte) (frame : StopFrame) : Coded.Statement (.stopFrameReceived sender frame) := coded_of_none rfl

theorem Coded.haltFrameReceived (sender : Byte) (inputs : Byte) : Coded.Statement (.haltFrameReceived sender inputs) := coded_of_none rfl

theorem Coded.startAskReceived (sender : Byte) (pumpNo : Byte) (arrival : SiteTime) : Coded.Statement (.startAskReceived sender pumpNo arrival) := coded_of_none rfl

theorem Coded.frameFault (bytes : List Byte) : Coded.Statement (.frameFault bytes) := coded_of_none rfl

theorem Coded.beaconDue : Coded.Statement .beaconDue := coded_of_none rfl

theorem Coded.attemptStart (idleBits : Nat) : Coded.Statement (.attemptStart idleBits) := coded_of_none rfl

theorem Coded.transmissionComplete : Coded.Statement .transmissionComplete := coded_of_none rfl

theorem Coded.attemptFailed : Coded.Statement .attemptFailed := coded_of_none rfl

theorem Coded.roundEnd : Coded.Statement .roundEnd := coded_of_none rfl

theorem Coded.slewAdjustment : Coded.Statement .slewAdjustment := coded_of_none rfl

theorem Coded.peerStale (peer : Fin 32) : Coded.Statement (.peerStale peer) := coded_of_none rfl

theorem Coded.peerAbsent (peer : Fin 32) : Coded.Statement (.peerAbsent peer) := coded_of_none rfl

theorem Coded.startReached : Coded.Statement .startReached := coded_of_none rfl

theorem Coded.pendingCodaReached : Coded.Statement .pendingCodaReached := coded_of_none rfl

theorem Coded.codaDeadline : Coded.Statement .codaDeadline := coded_of_none rfl

theorem Coded.checksumComplete : Coded.Statement .checksumComplete := coded_of_none rfl

theorem Coded.cueTaken : Coded.Statement .cueTaken := coded_of_none rfl

theorem Coded.actionFires : Coded.Statement .actionFires := coded_of_none rfl

theorem Coded.figureStepBoundary (group : Fin 4) (view : View) : Coded.Statement (.figureStepBoundary group view) := coded_of_none rfl

theorem Coded.figureEnd (group : Fin 4) : Coded.Statement (.figureEnd group) := coded_of_none rfl

theorem Coded.pumpPeriod (feedback : BitVec 4) : Coded.Statement (.pumpPeriod feedback) := coded_of_none rfl

theorem Coded.holdWindowEnd : Coded.Statement .holdWindowEnd := coded_of_none rfl

theorem Coded.anemometerPulse : Coded.Statement .anemometerPulse := coded_of_none rfl

theorem Coded.windowClose : Coded.Statement .windowClose := coded_of_none rfl

theorem Coded.lampPeriod : Coded.Statement .lampPeriod := coded_of_none rfl

theorem Coded.gainUpdate : Coded.Statement .gainUpdate := coded_of_none rfl

theorem Coded.frameInstant : Coded.Statement .frameInstant := coded_of_none rfl

theorem Coded.safetyLevelChange (input : Fin 8) (high : Bool) : Coded.Statement (.safetyLevelChange input high) := coded_of_none rfl

theorem Coded.debounceExpiry (input : Fin 8) : Coded.Statement (.debounceExpiry input) := coded_of_none rfl

theorem Coded.receiverReady (idleBits : Nat) : Coded.Statement (.receiverReady idleBits) := coded_of_none rfl

end Sys2Proof.Laws
end

