-- ==== Sys2Proof/Laws/Show.lean ====
section
/-! SUPPORT. What each transition of the show controller does to the controller's own state, and to the score. -/

namespace Sys2Proof.Machine

@[simp] theorem enterCountdown_ctl (g : GoRecord) (s : State) :
    (enterCountdown g s).ctl = { s.ctl with state := .countdown, go := some g } := by
  simp [enterCountdown]

@[simp] theorem enterRunning_ctl (s : State) : (enterRunning s).ctl = { s.ctl with state := .running } := by
  simp [enterRunning]

@[simp] theorem enterCoda_ctl (cause : CodaCause) (s : State) : (enterCoda cause s).ctl =
    { s.ctl with
      state := .coda
      pendingCoda := none
      codaDeadline := some (plus s.clock.site (1000 * (codaLength s : Int)))
      codaCause := some cause
      codaTested := false } := by
  simp [enterCoda]

@[simp] theorem enterIdle_ctl (s : State) : (enterIdle s).ctl =
    { s.ctl with
      state := .idle
      go := none
      pendingCoda := none
      codaDeadline := none
      codaCause := none
      codaTested := false } := by
  simp [enterIdle]

@[simp] theorem enterIdle_score (s : State) : (enterIdle s).score = { s.score with frozen := false } := by
  simp [enterIdle]

@[simp] theorem completeCoda_ctl (s : State) : (completeCoda s).ctl =
    { s.ctl with
      state := .idle
      go := none
      pendingCoda := none
      codaDeadline := none
      codaCause := none
      codaTested := false
      result := ⟨codaResult s, goShowId s, showNow s⟩ } := by
  simp [completeCoda]

@[simp] theorem completeCoda_score (s : State) : (completeCoda s).score = { s.score with frozen := false } := by
  simp [completeCoda]

@[simp] theorem stopCountdown_ctl (s : State) : (stopCountdown s).ctl =
    { s.ctl with
      state := .armed
      go := none
      pendingCoda := none
      codaDeadline := none
      codaCause := none
      codaTested := false
      result := ⟨.stopped, goShowId s, showNow s⟩ } := by
  simp [stopCountdown]

@[simp] theorem enterArmed_ctl (s : State) : (enterArmed s).ctl = { s.ctl with state := .armed } := by
  simp [enterArmed]

@[simp] theorem enterArmed_score (s : State) : (enterArmed s).score = { s.score with frozen := true } := by
  simp [enterArmed]

@[simp] theorem disarmed_ctl (s : State) : (disarmed s).ctl = { s.ctl with state := .idle } := by
  simp [disarmed]

@[simp] theorem disarmed_score (s : State) : (disarmed s).score = { s.score with frozen := false } := by
  simp [disarmed]

@[simp] theorem released_ctl (s : State) : (released s).ctl = (enterIdle s).ctl := by
  simp [released]

@[simp] theorem released_score (s : State) : (released s).score = { s.score with frozen := false } := by
  simp [released]

@[simp] theorem missStart_ctl (g : GoRecord) (s : State) :
    (missStart g s).ctl = { s.ctl with result := ⟨.missedStart, g.showId, 0⟩ } := by
  simp [missStart]

/-- HALT entry out of a show writes the result HALTED, keeps the GO record and drops the coda fields (R21). -/
theorem enterHalted_ctl_show (own : Bool) (s : State) (h : s.ctl.state.inShow = true) : (enterHalted own s).ctl =
    { s.ctl with
      state := .halted
      pendingCoda := none
      codaDeadline := none
      codaCause := none
      codaTested := false
      result := ⟨.halted, goShowId s, showNow s⟩ } := by
  cases own <;> cases hc : s.clock.clash <;> simp [enterHalted, haltResult, h, hc, goShowId, showNow, showTime]

/-- HALT entry from IDLE or ARMED changes the show state alone (R21). -/
theorem enterHalted_ctl_still (own : Bool) (s : State) (h : s.ctl.state.inShow = false) :
    (enterHalted own s).ctl = { s.ctl with state := .halted } := by
  cases own <;> cases hc : s.clock.clash <;> simp [enterHalted, haltResult, h, hc]

end Sys2Proof.Machine
end

