-- ==== Sys2Proof/Laws/Stores.lean ====
section
/-! SUPPORT. What the queues and lists of the node keep: lengths, order, and the canonical form of the memories. -/

namespace Sys2Proof.Machine

/-- A list split where a test first fails has its length. -/
theorem length_takeWhile_dropWhile {α} (p : α → Bool) (q : List α) : (q.takeWhile p).length + (q.dropWhile p).length = q.length := by
  rw [← List.length_append, List.takeWhile_append_dropWhile]

/-- A frame that joins the queue makes it one longer. -/
theorem insertFrame_length (q : List TxFrame) (f) : (insertFrame q f).length = q.length + 1 := by
  have := length_takeWhile_dropWhile (fun g : TxFrame => decide (frameClass g.payload ≤ frameClass f.payload)) q
  simp [insertFrame]; omega

/-- Removing the last unsent frame makes the queue one shorter, where there is one. -/
theorem eraseLastUnsent_length (q : List TxFrame) (h : q.any (fun f => !f.onLine) = true) : (eraseLastUnsent q).length + 1 = q.length := by
  unfold eraseLastUnsent
  rw [List.length_reverse]
  have := List.length_eraseP (p := fun f : TxFrame => !f.onLine) (l := q.reverse)
  rw [this, List.any_reverse, h]
  have : 0 < q.length := by cases q <;> simp_all
  simp; omega

/-- A frame to be dropped for a new one is an unsent frame of the queue. -/
theorem victim_unsent {p q v} (h : victim p q = some v) : q.any (fun f => !f.onLine) = true := by
  simp [victim, Option.filter_eq_some_iff] at h
  have := List.mem_of_find?_eq_some h.1
  have h2 := List.find?_some h.1
  simp; exact ⟨v, by simpa using this, by simpa using h2⟩

/-- A drop leaves the queue as it is. -/
theorem dropFrame_queue (p) (s : State) : (dropFrame p s).line.queue = s.line.queue := by
  cases p <;> simp [dropFrame]

/-- A request leaves at most 8 frames in the queue (R45, R46). -/
theorem enqueue_length_le (p) (s : State) (h : s.line.queue.length ≤ 8) : (enqueue p s).line.queue.length ≤ 8 := by
  unfold enqueue; simp only; repeat' split
  · simpa using h
  · simp [insertFrame_length]; omega
  · next v hv => rw [dropFrame_queue]; simp [insertFrame_length]; have := eraseLastUnsent_length _ (victim_unsent hv); omega
  · rw [dropFrame_queue]; exact h

/-- An action that joins the queue makes it one longer. -/
theorem insertAction_length (q : List Action) (a) : (insertAction q a).length = q.length + 1 := by
  have := length_takeWhile_dropWhile (fun b : Action => decide (b.due ≤ a.due)) q
  simp [insertAction]; omega

/-- An action joins the queue in due-time order (R74). -/
theorem insertAction_sorted (q : List Action) (a) (h : q.Pairwise fun x y => x.due ≤ y.due) :
    (insertAction q a).Pairwise fun x y => x.due ≤ y.due := by
  induction q with
  | nil => simp [insertAction]
  | cons b l ih =>
    have hb := List.pairwise_cons.1 h
    have hi := ih hb.2
    by_cases hba : b.due ≤ a.due
    · have e : insertAction (b :: l) a = b :: insertAction l a := by simp [insertAction, hba]
      rw [e, List.pairwise_cons]; refine ⟨?_, hi⟩
      intro x hx
      have hm : x = a ∨ x ∈ l := by
        simp only [insertAction, List.mem_append, List.mem_cons] at hx
        rcases hx with hx | hx | hx
        · exact Or.inr (List.takeWhile_subset _ hx)
        · exact Or.inl hx
        · exact Or.inr (List.dropWhile_subset _ hx)
      rcases hm with rfl | hm
      · exact hba
      · exact hb.1 _ hm
    · have e : insertAction (b :: l) a = a :: b :: l := by simp [insertAction, hba]
      rw [e, List.pairwise_cons]; refine ⟨?_, h⟩
      intro x hx; simp at hx; rcases hx with rfl | hx
      · omega
      · have := hb.1 _ hx; omega

/-- Actions that join the queue add their number. -/
theorem insertActions_length (as q : List Action) : (insertActions q as).length = q.length + as.length := by
  unfold insertActions
  induction as generalizing q with
  | nil => simp
  | cons a l ih => simp [ih, insertAction_length]; omega

/-- Actions join the queue in due-time order (R74). -/
theorem insertActions_sorted (as q : List Action) (h : q.Pairwise fun x y => x.due ≤ y.due) :
    (insertActions q as).Pairwise fun x y => x.due ≤ y.due := by
  unfold insertActions
  induction as generalizing q with
  | nil => simpa
  | cons a l ih => exact ih _ (insertAction_sorted q a h)

/-- The history holds at most 8 windows (R128). -/
theorem pushWindow_length_le (h : List Nat) (x) (hl : h.length ≤ 8) : (pushWindow h x).length ≤ 8 := by simp [pushWindow]; omega

/-- Every block of an ordered queue ends at or before the end of its tail (R157). -/
theorem block_end_le_tailEnd (q : List Block) (h : q.Pairwise fun a b => a.start + a.count ≤ b.start) (b) (hb : b ∈ q) :
    b.start + b.count ≤ ((q.getLast?).map fun b => b.start + b.count).getD 0 := by
  rcases List.eq_nil_or_concat q with rfl | ⟨l, x, rfl⟩
  · simp at hb
  rw [List.concat_eq_append] at h hb ⊢
  rcases List.mem_append.1 hb with hb | hb
  · have := (List.pairwise_append.1 h).2.2 b hb x (by simp); simp; omega
  · simp at hb; subst hb; simp

/-- The late discards (R161): what is left is ordered, no block is empty, each is the end of a block that was there, and the frames
left and the frames discarded are all that were held. -/
theorem discardLate_spec (n : Nat) (q : List Block) (hp : q.Pairwise fun a b => a.start + a.count ≤ b.start) (hc : ∀ b ∈ q, 0 < b.count) :
    (discardLate n q).1.length ≤ q.length ∧ (∀ b ∈ (discardLate n q).1, 0 < b.count ∧ ∃ b' ∈ q, b'.start ≤ b.start ∧ b.start + b.count = b'.start + b'.count) ∧
    ((discardLate n q).1.Pairwise fun a b => a.start + a.count ≤ b.start) ∧ ((discardLate n q).1.map (·.count)).sum + (discardLate n q).2 = (q.map (·.count)).sum := by
  induction q with
  | nil => simp [discardLate]
  | cons b l ih =>
    have hb := List.pairwise_cons.1 hp
    have hi := ih hb.2 (fun x hx => hc x (by simp [hx]))
    unfold discardLate; split
    · refine ⟨by simp, ?_, hp, by simp⟩
      intro x hx; exact ⟨hc x hx, x, hx, by omega, rfl⟩
    · split
      · refine ⟨by simp; omega, ?_, hi.2.2.1, ?_⟩
        · intro x hx; obtain ⟨p, y, hy, z⟩ := hi.2.1 x hx; exact ⟨p, y, by simp [hy], z⟩
        · simp; omega
      · refine ⟨by simp, ?_, ?_, ?_⟩
        · intro x hx; simp at hx; rcases hx with rfl | hx
          · exact ⟨by simp; omega, b, by simp, by simp; omega, by simp; omega⟩
          · exact ⟨hc x (by simp [hx]), x, by simp [hx], by omega, rfl⟩
        · rw [List.pairwise_cons]; refine ⟨?_, hb.2⟩
          intro x hx; have := hb.1 x hx; simp; omega
        · simp; omega

/-- Writing frames into the ring keeps the canonical form (R154). -/
theorem ringWrite_wf (m : Memory) (pos n : Nat) (bytes : List Byte) (h : m.wf = true) : (ringWrite m pos n bytes).wf = true := by
  induction n generalizing m pos bytes with
  | zero => exact h
  | succ n ih => exact ih _ _ _ (Memory.writeAll_wf m _ _ h)

/-- Storing cue records keeps the canonical form of score memory (R65). -/
theorem storeCues_wf (n : Nat) (bytes : List Byte) (sc : Score) (h : sc.mem.wf = true) :
    (storeCues n bytes sc).1.mem.wf = true := by
  induction n generalizing bytes sc with
  | zero => exact h
  | succ n ih =>
    unfold storeCues
    split
    · exact h
    · exact ih _ _ (Memory.writeAll_wf _ _ _ h)

/-- Storing pattern rows keeps the canonical form of score memory (R65). -/
theorem storeRows_wf (n : Nat) (bytes : List Byte) (sc : Score) (h : sc.mem.wf = true) :
    (storeRows n bytes sc).1.mem.wf = true := by
  induction n generalizing bytes sc with
  | zero => exact h
  | succ n ih =>
    unfold storeRows
    split
    · exact h
    · exact ih _ _ (Memory.writeAll_wf _ _ _ h)

/-- A number in `n` bytes has `n` bytes. -/
@[simp] theorem le_length (n v : Nat) : (le n v).length = n := by
  induction n generalizing v with
  | zero => rfl
  | succ n ih => simp [le, ih]

/-- A signed number in `n` bytes has `n` bytes. -/
@[simp] theorem leInt_length (n : Nat) (v : Int) : (leInt n v).length = n := le_length _ _

/-- Replacing bytes keeps the length. -/
theorem setBytes_length (b new : List Byte) (i : Nat) : (setBytes b i new).length = b.length := by
  induction new generalizing b i with
  | nil => rfl
  | cons x rest ih => simp [setBytes, ih]

/-- A cue record keeps its 16 bytes when its values are clamped (R66). -/
theorem cueClamped_length (b : List Byte) : (cueClamped b).length = b.length := by
  unfold cueClamped capField capByte
  simp only
  repeat' split
  all_goals simp [setBytes_length]

/-- The round mean's sort keeps the members (R33). -/
theorem insertMember_perm (x : Int) (l : List Int) : (insertMember x l).Perm (x :: l) := by
  induction l with
  | nil => exact .refl _
  | cons y rest ih =>
    unfold insertMember
    split
    · exact .refl _
    · exact (ih.cons y).trans (.swap x y rest)

/-- The round mean's sort keeps the members (R33). -/
theorem sortMembers_perm (l : List Int) : (sortMembers l).Perm l := by
  induction l with
  | nil => exact .refl _
  | cons x rest ih => exact (insertMember_perm x _).trans (ih.cons x)

/-- The only power at drive 0 is 0 (R109). -/
@[simp] theorem power_zero (rated : Nat) : power rated 0 = 0 := by simp [power]

/-- The power does not fall as the drive grows (R109). -/
theorem power_mono (rated : Nat) {d e : Nat} (h : d ≤ e) : power rated d ≤ power rated e :=
  Nat.div_le_div_right (Nat.mul_le_mul_left _ (Nat.pow_le_pow_left h 3))

/-- The largest drive within a cap (R111): at most the drive asked for, its power within the cap, every greater one's beyond. -/
theorem largestDrive_spec (rated cap d : Nat) :
    largestDrive rated cap d ≤ d ∧ power rated (largestDrive rated cap d) ≤ cap ∧
      ∀ e, largestDrive rated cap d < e → e ≤ d → cap < power rated e := by
  induction d with
  | zero => exact ⟨Nat.le_refl _, by simp [largestDrive], fun e h1 h2 => by omega⟩
  | succ d ih =>
    unfold largestDrive
    split
    · next h => exact ⟨Nat.le_refl _, h, fun e h1 h2 => by omega⟩
    · next h =>
      refine ⟨by omega, ih.2.1, fun e h1 h2 => ?_⟩
      rcases Nat.lt_or_ge e (d + 1) with h3 | h3
      · exact ih.2.2 e h1 (by omega)
      · have : e = d + 1 := by omega
        subst this
        omega

end Sys2Proof.Machine
end

