-- ==== Sys2Proof/Tests/Slice0.lean ====
section
/-! SUPPORT. Tests on small states: ill-formed commands, the command decoder, the manual's worked examples, and for each
statement with hypotheses a state that meets them. -/

namespace Sys2Proof.Tests

open Sys2Proof.Machine Sys2Proof.Safety

set_option Elab.async false

/-! ### A configuration and small states -/

/-- The bytes of little 16-bit fields. -/
def words (vs : List Nat) : List Byte := vs.flatMap (le 2)

/-- The lift curve of the worked case of chapter 6. -/
def liftPoints : List Nat := [0, 250, 354, 433, 500, 559, 612, 661, 707, 750, 791, 829, 866, 901, 935, 968, 1000]

/-- Γ0 of the example of chapter 8: floor(4,095 × i² / 1,024). -/
def gammaPoints : List Nat := (List.range 33).map fun i => 4095 * i * i / 1024

/-- The 51 bytes of a pump's fields (R189). -/
def pumpBytes (rated exposed confirm : Nat) : List Byte :=
  words (rated :: liftPoints) ++ words [300, 20, 10, 50, 1500] ++ [BitVec.ofNat 8 exposed] ++ words [400, confirm]

/-- A configuration record written out from the layout of R189: node 3, B 1,500, S 2,000 ms, I 50 ms, coda 3,000 ms, late
join, zone delay 4,800 frames, the wind bands and pumps of the worked cases, input 0 HALT, input 1 DRY for pump 0. -/
def record : List Byte :=
  [3] ++ words [1500, 2000] ++ [50, 0] ++ words [100, 500] ++ [20, 0x88, 0x13, 0, 0] ++ words [3000] ++ [1] ++
  words [100, 0, 4800] ++ [12] ++ words [1000, 500] ++ [1] ++ words [60, 120, 160, 512, 4] ++
  pumpBytes 750 1 500 ++ pumpBytes 400 0 0 ++ List.replicate 102 0 ++
  words [800, 500, 0, 0] ++
  [16, 0, 0] ++ (List.replicate 14 [255, 0, 0]).flatten ++ [255, 0, 1] ++
  words gammaPoints ++ List.replicate 198 0 ++
  [1, 0, 20, 0, 1, 2, 1, 50, 1, 0] ++ (List.replicate 6 [0, 0, 1, 0, 0]).flatten

/-- The fields of an unconfigured pump. -/
def noPump : PumpConfig :=
  { rated := 0, lift := Vector.replicate 17 0, dMin := 0, rampUp := 0, rampDown := 0, haltRamp := 0, lead := 0
    exposed := false, visible := 0, confirm := 0 }

/-- The configuration that `record` carries. -/
def cfg : ConfigRecord where
  own := 2
  budget := 1500
  settle := 2000
  interval := 50
  lineDelay := 0
  lockWindow := 100
  unlockWindow := 500
  slewLimit := 20
  outlier := 5000
  codaLength := 3000
  lateJoin := true
  haltFade := 100
  fallback := 0
  zoneDelay := 4800
  minDuty := 12
  safeDuty := 1000
  windScale := 500
  depth := 1
  wLow := 60
  wHigh := 120
  wCut := 160
  fMin := 512
  fRise := 4
  pump := #v[
    { noPump with rated := 750, lift := gen fun i => liftPoints[i]!, dMin := 300, rampUp := 20, rampDown := 10
                  haltRamp := 50, lead := 1500, exposed := true, visible := 400, confirm := 500 },
    { noPump with rated := 400, lift := gen fun i => liftPoints[i]!, dMin := 300, rampUp := 20, rampDown := 10
                  haltRamp := 50, lead := 1500, visible := 400 },
    noPump, noPump]
  valveLead := #v[800, 500, 0, 0]
  lamp := gen fun l =>
    { valve := if l = 0 then some 16 else none, curve := 0, safety := decide (l = 15) }
  gamma := gen fun c => gen fun i => if c = 0 then gammaPoints[i]! else 0
  input := gen fun i =>
    if i = 0 then { role := .halt, activeHigh := true, debounce := 20, pumpSet := 0, report := true }
    else if i = 1 then { role := .dry, activeHigh := false, debounce := 50, pumpSet := 1, report := false }
    else { role := .none, activeHigh := true, debounce := 1, pumpSet := 0, report := false }

theorem test_record_passes : record.length = 605 ∧ firstFailure record = none := by decide +kernel

/-- R189's layout, field by field. -/
theorem test_record_parses : parseRecord record = cfg := by decide +kernel

/-- R190: the first failing field by record offset; W_high at W_low fails at 33. -/
theorem test_record_refused :
    firstFailure (record.set 0 33) = some 0 ∧ firstFailure (record.set 33 60) = some 33 ∧
    firstFailure (record.set 604 2) = some 604 := by decide +kernel

/-- The state after one command. -/
def after (c : Instr) (s : State) : State :=
  match exec c s with
  | .next t => t
  | .fault _ | .refused _ => s

/-- A part held in a power-on reset. -/
def heldPart : State := { State.reset with port := .reset .power true }

/-- An unconfigured node that hears its line. -/
def listening : State := { State.reset with line := { LineController.reset with rx := .ready } }

/-- A configured node in IDLE, at the start of a round and of a pump period. -/
def idleNode : State :=
  { listening with
    config := some cfg
    ctl := { Controller.reset with state := .idle }
    clock := { Clock.reset with site := 50000, roundStart := some 50000, beaconDue := some 53125 }
    cue := { CueEngine.reset with horizon := 1500 }
    peers := put State.reset.peers 2 { Peer.cleared with presence := .fresh }
    pump := { PumpController.reset with next := 60000 }
    lamps := { LampUnit.reset with next := 60000 }
    audio := { AudioUnit.reset with nextGain := 60000 }
    wind := { WindMonitor.reset with next := 1000000 } }

/-- The records of the short score of chapter 4: MASTER 800 at 0, END at 90,000 ms. -/
def shortCues : List Byte :=
  [3, 0, 0, 0, 32, 3, 232, 3, 0, 0, 0, 0, 0, 0, 0, 0, 15, 144, 95, 1, 0, 0, 0, 0, 0, 0, 0, 0, 0, 0, 0, 0]

/-- The short score, loaded and not yet closed. -/
def openedScore : Score :=
  { Score.reset with
    showId := 300, cueCount := 2, cuesLoaded := 2, prevTime := 90000, status := .loading, mem := Memory.writeAll [] 0 shortCues }

/-- The short score, valid. -/
def shortScore : Score := { openedScore with status := .valid, checksum := 39335 }

/-- IDLE with the short score valid, and the clock LOCKED. -/
def readyNode : State := { idleNode with score := shortScore, clock := { idleNode.clock with locked := true } }

/-- ARMED. -/
def armedNode : State :=
  { readyNode with ctl := { readyNode.ctl with state := .armed }, score := { shortScore with frozen := true } }

/-- The GO record of a show that starts at site time 1,050,000. -/
def goRecord : GoRecord := { showId := 300, checksum := 39335, start := 1050000 }

/-- COUNTDOWN, one second before the start. -/
def countingNode : State :=
  { armedNode with
    ctl := { armedNode.ctl with state := .countdown, go := some goRecord }
    cue := { armedNode.cue with taking := true }
    jets := gen fun _ => { ValveGroup.reset with mode := .following } }

/-- RUNNING at show time 1,000,000. -/
def playingNode : State :=
  { countingNode with
    ctl := { countingNode.ctl with state := .running }
    clock := { countingNode.clock with site := 2050000, roundStart := some 2050000, beaconDue := some 2053125 }
    pump := { countingNode.pump with next := 2050000 }
    lamps := { countingNode.lamps with next := 2050000 }
    audio := { countingNode.audio with nextGain := 2050000, next := 48000 }
    wind := { countingNode.wind with next := 3000000 } }

/-- CODA, its deadline reached and its test not made. -/
def codaNode : State :=
  { playingNode with
    ctl := { playingNode.ctl with state := .coda, codaDeadline := some 2050000, codaCause := some .stop }
    cue := { playingNode.cue with taking := false } }

/-- HALTED out of a show. -/
def haltedNode : State :=
  { codaNode with ctl := { countingNode.ctl with state := .halted }, jets := State.reset.jets }

/-- A checksum computation runs. -/
def checkingNode : State := { idleNode with score := { openedScore with status := .checking } }

/-- A beacon of a node that runs the short score from the same start. -/
def runningBeacon : Beacon :=
  { stamp := 50000, state := 4, flags := 0, showId := 300, checksum := 39335, showStart := 1050000, demand := 100
    wind := 0, interval := 50 }

/-! ### Well-formed commands: an ill-formed one for each check -/

theorem test_illformed_parameters :
    Instr.wellFormed (.configure (record.take 604)) = false ∧ Instr.wellFormed (.scoreOpen [1, 0, 1, 0, 0]) = false ∧
    Instr.wellFormed (.scoreData [2, 1, 0]) = false ∧ Instr.wellFormed (.unknownCommand 0x40) = false ∧
    Instr.wellFormed (.commandIncomplete 0x40) = false := by decide +kernel

theorem test_illformed_frames :
    Instr.wellFormed (.beaconReceived 0 0 runningBeacon 0) = false ∧ Instr.wellFormed (.goFrameReceived 33 goRecord) = false ∧
    Instr.wellFormed (.stopFrameReceived 0 ⟨300, 0⟩) = false ∧ Instr.wellFormed (.haltFrameReceived 33 0) = false ∧
    Instr.wellFormed (.startAskReceived 0 0 0) = false ∧
    Instr.wellFormed (.frameFault (frameBytes 1 0 (.halt 0))) = false ∧
    Instr.wellFormed (.attemptStart 9) = false ∧ Instr.wellFormed (.receiverReady 9) = false := by decide +kernel

theorem test_wellformed_bounds :
    Instr.wellFormed (.configure record) = true ∧ Instr.wellFormed (.scoreData [3]) = true ∧
    Instr.wellFormed (.scoreData [1, 33]) = true ∧ Instr.wellFormed (.scoreData [2, 1, 0, 0]) = true ∧
    Instr.wellFormed (.commandIncomplete 0x6C) = true ∧ Instr.wellFormed (.haltFrameReceived 1 0) = true ∧
    Instr.wellFormed (.haltFrameReceived 32 0) = true ∧ Instr.wellFormed (.receiverReady 10) = true := by decide +kernel

/-! ### The command decoder, and the table's words -/

/-- Frames written out from the command table of R187. -/
theorem test_frames_decode :
    decodeCommandFrame [0x44, 0x10, 0x27] = [.go 10000] ∧ decodeCommandFrame [0x44, 0x10] = [.commandIncomplete 0x44] ∧
    decodeCommandFrame [0x30, 44, 1, 2, 0, 0, 0, 9] = [.scoreOpen [44, 1, 2, 0, 0, 0]] ∧
    decodeCommandFrame [0x50, 1, 0, 0, 0, 1, 0, 5, 6, 7, 8] = [.audio 1 1, .audioEnd [5, 6, 7, 8]] ∧
    decodeCommandFrame [0x6C, 3] = [.pump 3] ∧ decodeCommandFrame [0x31, 3] = [.scoreData [3]] ∧
    decodeCommandFrame [0x02] = [.unknownCommand 0x02] ∧ decodeCommandFrame [] = [] := by decide +kernel

theorem test_table_gives_no_bits : decodeTableWord 8 0x40 = none ∧ State.withFetchWord idleNode 8 0x40 = idleNode := ⟨rfl, rfl⟩

/-- A HALT frame of node 1 by the frame table (R43): delimiter, sender, kind, sequence, length, payload, check. -/
theorem test_halt_frame_bytes :
    (frameBytes 1 7 (.halt 4)).take 6 = [0xC3, 1, 0x30, 7, 1, 4] ∧ (frameBytes 1 7 (.halt 4)).length = 8 := by decide +kernel

/-- The check of R44 over the ASCII digits 1 to 9, a value known for this generator and start value. -/
theorem test_frame_check : frameCheck [0x31, 0x32, 0x33, 0x34, 0x35, 0x36, 0x37, 0x38, 0x39] = 0x29B1 := by decide +kernel

/-! ### The manual's worked values -/

/-- The example of section 2.4: members 0, 140, −30, 2,600 give mean 70 and correction 20. -/
theorem test_round_mean : meanOf [0, 140, -30, 2600] = 70 ∧ correctionOf cfg 70 = 20 := by decide +kernel

/-- R28's table: the beacon offset of node 4 at I = 50,000 is 4,687, and 18,750 at I = 200,000. -/
theorem test_beacon_times :
    beaconTime { cfg with own := 3 } idleNode 50000 = 54687 ∧
    beaconTime { cfg with own := 3 } { idleNode with config := some { cfg with interval := 200 } } 0 = 18750 := by decide +kernel

/-- The example of chapter 4: the checksum of the short score is 39,335. -/
theorem test_short_checksum : imageChecksum openedScore = 39335 := by decide +kernel

/-- R108's table. -/
theorem test_lift_curve :
    liftDrive cfg.pump[0].lift 0 = 0 ∧ liftDrive cfg.pump[0].lift 32 = 125 ∧ liftDrive cfg.pump[0].lift 64 = 250 ∧
    liftDrive cfg.pump[0].lift 200 = 441 ∧ liftDrive cfg.pump[0].lift 1024 = 1000 := by decide +kernel

/-- R106's example: 519. -/
theorem test_height : Fade.present ⟨300, 900, 4000000, 2000⟩ (some 4730000) = 519 := by decide +kernel

/-- The worked case of chapter 6: h_eff 638, d_t 789, P 368 and 86, grant 388, caps to 748 and 569. -/
theorem test_capped_drives :
    windHeight cfg.pump[0] 726 900 = 638 ∧ liftDrive cfg.pump[0].lift 638 = 789 ∧ power 750 789 = 368 ∧ power 400 600 = 86 ∧
    grantOf 1500 454 1754 = 388 ∧ cappedDrive 750 388 454 789 = 748 ∧ cappedDrive 400 388 454 600 = 569 := by decide +kernel

/-- R128's example: 143 pulses at k 500 give 71, and 67 at 9,000 give 600. -/
theorem test_window_speed : windowSpeed 500 143 = 71 ∧ windowSpeed 9000 67 = 600 := by decide +kernel

/-- Chapter 7's worked values: f for winds 72, 110, 116, 95, 60, 120 and 160. -/
theorem test_wind_factor :
    windFactor cfg 72 = 922 ∧ windFactor cfg 110 = 598 ∧ windFactor cfg 116 = 547 ∧ windFactor cfg 95 = 726 ∧
    windFactor cfg 60 = 1024 ∧ windFactor cfg 120 = 512 ∧ windFactor cfg 160 = 0 := by decide +kernel

/-- Chapter 8's colour on a curve: v 0, 2, 100 and 255 at master 800 and min duty 12. -/
theorem test_duties :
    channelDuty cfg.gamma[0] 800 12 0 = 0 ∧ channelDuty cfg.gamma[0] 800 12 2 = 12 ∧ channelDuty cfg.gamma[0] 800 12 100 = 488 ∧
    channelDuty cfg.gamma[0] 800 12 255 = 3174 := by decide +kernel

/-- Chapter 8's two fades: at 2,750,000 the present colour is (50, 25, 130). -/
theorem test_two_fades :
    (Lamp.fadeTo { Lamp.reset with target := ⟨200, 100, 10⟩, anchor := 2000000, len := 1000 } (some 2500000) ⟨0, 0, 255⟩
      2500000 500).colour (some 2750000) = ⟨50, 25, 130⟩ := by decide +kernel

/-- The figure of chapter 5's example. -/
def ringFigure : Figure :=
  { start := 10000000, startRow := 250, pitch := 3, steps := 6, period := 250, wStart := 4, wEnd := 1, passes := 2
    accent := some (1, ⟨255, 120, 0⟩) }

/-- Chapter 5's table: rows 250, 253, 0, 3, 6, 9; steps 4, 5, 0 and 1 in the window; ENDED at 13,000 ms. -/
theorem test_ring_figure :
    (List.range 6).map (figureRow 250 3) = [250, 253, 0, 3, 6, 9] ∧
    (List.range 6).map (windowHolds ringFigure) = [true, true, false, false, true, true] ∧
    evalFigure (some ringFigure) (some 11750000) = .playing 1 1 ∧ evalFigure (some ringFigure) (some 12999999) = .playing 5 1 ∧
    evalFigure (some ringFigure) (some 13000000) = .ended ∧ evalFigure (some ringFigure) (some 9999999) = .notBegun := by
  decide +kernel

/-- Chapter 9's instants: frames 97,199, 101,404 and 101,410; j = 9 of the decay from 9,600 is 7,600. -/
theorem test_frame_instants :
    frameTime cfg 97199 = 2124979 ∧ frameTime cfg 101404 = 2212583 ∧ frameTime cfg 101410 = 2212708 ∧
    highestFrame cfg 2223000 = 101904 ∧ decayed 9600 9 = 7600 := by decide +kernel

/-- Chapter 9's late frames: 14 of block E leave at frame 101,904. -/
theorem test_late_frames :
    discardLate 101904 [⟨101890, 960, 0⟩] = ([⟨101904, 946, 14⟩], 14) := by decide +kernel

/-! ### One step of single commands -/

/-- Chapter 1's two GOs in flight: the earlier start replaces the held one, the later does not. -/
theorem test_two_gos :
    (after (.goFrameReceived 7 { goRecord with start := 1000000 }) countingNode).ctl.go = some { goRecord with start := 1000000 } ∧
    (after (.goFrameReceived 7 { goRecord with start := 1100000 }) countingNode).ctl.go = some goRecord := by decide +kernel

/-- R8: the delay is held within 500 and 60,000 ms. -/
theorem test_go_clamps :
    (after (.go 0) armedNode).ctl.go = some { goRecord with start := 550000 } ∧
    (after (.go 65535) armedNode).ctl.go = some { goRecord with start := 60050000 } := by decide +kernel

/-- Section 12.4: an ask of a lower node reads the slot busy for S after its arrival stamp. -/
theorem test_ask_busies : (after (.startAskReceived 2 0 28740080) idleNode).pump.busyUntil = some 30740080 := by decide +kernel

/-- Section 10.7: a contact that bounces back at a later sample settles again, with its stable level kept. -/
theorem test_bounce :
    let s := after (.safetyLevelChange 0 true) idleNode
    s.safety[0].since = some 50000 ∧
    (after (.safetyLevelChange 0 false) { s with safety := sampleInputs s.safety }).safety[0] =
      { pin := false, stable := false, since := none, before := some (some 50000) } := by decide +kernel

/-- R173: a change that has reverted by the next sample is not seen, on a SETTLED and on a CHANGING input. -/
theorem test_pulse_not_seen :
    let s := { idleNode with safety := put idleNode.safety 1 { pin := true, stable := false, since := some 40000, before := none } }
    after (.safetyLevelChange 0 false) (after (.safetyLevelChange 0 true) idleNode) = idleNode ∧
    after (.safetyLevelChange 1 true) (after (.safetyLevelChange 1 false) s) = s := by decide +kernel

/-- R65, R66: an illegal cue after a legal one: the first is stored, the second's index is the failure index. -/
theorem test_score_data_stops :
    let s := after (.scoreData ([1, 2] ++ shortCues.take 16 ++ List.replicate 16 0))
      { idleNode with score := { openedScore with cuesLoaded := 0, mem := [], prevTime := 0 } }
    s.port.lastResult = .param ∧ s.port.failIndex = some 1 ∧ s.score.cuesLoaded = 1 ∧ s.score.status = .failed := by decide +kernel

/-- R179: raising a pending source sets its overrun; EVENT CLEAR clears both. -/
theorem test_overrun :
    (raise .peer (raise .peer idleNode)).events.overrun = 0x4000 ∧
    (after (.eventClear 0x4000) (raise .peer (raise .peer idleNode))).events.overrun = 0 := by decide +kernel

/-- R84: the fields of a figure record after reset. -/
theorem test_figure_reset :
    ValveGroup.reset.lamp.figure =
      { start := 0, startRow := 0, pitch := 0, steps := 1, period := 20, wStart := 0, wEnd := 0, passes := 0, accent := none } ∧
    ValveGroup.reset.lamp.presence = .empty := by decide +kernel

/-- R166: a fade to 0 in HALTED, half run; after a backward step the gain stays where it was. -/
theorem test_gain_never_rises :
    let audio := { haltedNode.audio with gain := { start := 1000, target := 0, anchor := 1000000, len := 100 }, applied := 400 }
    (after .gainUpdate { haltedNode with audio := audio }).audio.applied = 400 ∧
    (after .gainUpdate { playingNode with audio := audio }).audio.applied = 1000 := by decide +kernel

/-- The bytes of a frame, clocked in bit by bit. -/
def clocked (bytes : List Byte) (s : State) : State :=
  (bytes.flatMap fun b => (List.range 8).map fun k => b.getLsbD (7 - k)).foldl sckCycle s

/-- R184, R188: IDENT, and MISO in the four bytes that follow: a dummy byte 0x00, then 6B 40 03. -/
theorem test_ident_on_pins :
    let s := clocked [0x04] (ncsFalls idleNode)
    (List.range 32).map (fun k => misoLevel ((List.replicate k false).foldl sckCycle s).port) =
      ([0x00, 0x6B, 0x40, 0x03] : List Byte).flatMap (fun b => (List.range 8).map fun k => some (b.getLsbD (7 - k))) ∧
    (ncsRises s).port.frame = none := by decide +kernel

/-- R184: bits that make no whole byte are discarded; R185: a GO cut short is INCOMPLETE; R193: nothing is driven while held. -/
theorem test_partial_frames :
    ncsRises ((List.replicate 7 true).foldl sckCycle (ncsFalls idleNode)) = idleNode ∧
    (ncsRises (clocked [0x44, 0x10] (ncsFalls idleNode))).port.lastResult = .incomplete ∧
    misoLevel (ncsFalls heldPart).port = none ∧ misoLevel (ncsFalls idleNode).port = some false := by decide +kernel

/-- R194: a frame whose NCS fell before a pin reset is ignored after it, and the next frame is taken. -/
theorem test_frame_across_reset :
    let s := after .resetExit (after .pinReset (clocked [0x44] (ncsFalls armedNode)))
    let t := clocked [0x30, 1, 0, 1, 0, 0, 0] s
    t.port.lastCommand = 0 ∧ (ncsRises (clocked [0x32] (ncsFalls (ncsRises t)))).port.lastCommand = 0x32 := by decide +kernel

/-! ### States that meet the hypotheses of the statements, clause by clause -/

theorem witness_StepRunsFrontCommand : ({ idleNode with pending := [.nop, .arm] } : State).pending = .nop :: [.arm] := rfl

/-- Held; an occurrence due; none due. -/
theorem witness_IdleStepRunsClock :
    (heldPart.pending = [] ∧ heldPart.port.held = true) ∧
    (playingNode.pending = [] ∧ playingNode.port.held = false ∧ dueOccurrence playingNode = some .cueTaken) ∧
    (State.reset.pending = [] ∧ State.reset.port.held = false ∧ dueOccurrence State.reset = none) := by decide +kernel

theorem witness_ResetsClear :
    ((Instr.powerOnReset = .powerOnReset ∧ ResetCause.power = .power) ∧ (Instr.pinReset = .pinReset ∧ ResetCause.pin = .pin)) ∧
    (listens playingNode ∧ playingNode.score.status = .valid) ∧ (listens checkingNode ∧ checkingNode.score.status ≠ .valid) := by
  decide +kernel

/-- A frame that NCS began before a reset. -/
def ignoring (s : State) : State := { s with port := { s.port with frame := some { phase := .ignored, bits := [true] } } }

theorem witness_HeldPartIgnoresCommands :
    (heldPart.port.held = true ∧ Instr.softReset ≠ .powerOnReset ∧ Instr.softReset ≠ .pinReset ∧ Instr.softReset ≠ .resetExit ∧
      ∀ i h, Instr.softReset ≠ .safetyLevelChange i h) ∧
    ((ignoring idleNode).port.ignoring = true ∧ commandFrame .arm ≠ none ∧ ∃ bytes, Instr.audioEnd [1] = .audioEnd bytes) := by
  refine ⟨by decide +kernel, by decide +kernel, by decide +kernel, [1], rfl⟩

/-- No computation running; one running; a channel above 3. -/
theorem witness_ReadsAnswerAndKeep :
    (listens idleNode ∧ idleNode.score.status ≠ .checking) ∧
    (listens checkingNode ∧ checkingNode.score.status = .checking) ∧ 3 < (4 : Byte).toNat := by decide +kernel

/-- A frame begun, in each phase. -/
def inFrame (phase : FramePhase) : State := { idleNode with port := { idleNode.port with frame := some { phase := phase, bits := [] } } }

/-- NCS high; held; a frame in each phase, its next byte ending a command and not; NCS rising in each. -/
theorem witness_PortFollowsPins :
    (idleNode.port.frame = none ∧ heldPart.port.held = true) ∧
    (∀ phase, (inFrame phase).port.held = false ∧ (inFrame phase).port.frame = some { phase := phase, bits := [] }) ∧
    (takenBy ([] ++ [0x44]) = none ∧ takenBy ([] ++ [0x04]) = some .ident ∧ takenBy ([0x44, 0x10] ++ [0x27]) = some (.go 10000)) ∧
    decodeCommandFrame [0x44, 0x10] = [.commandIncomplete 0x44] ∧ (ignoring idleNode).port.ignoring = true := by
  refine ⟨by decide +kernel, fun _ => ⟨rfl, rfl⟩, by decide +kernel, by decide +kernel, by decide +kernel⟩

/-- With the GO record present, and absent; each form of the own ask; busy-until and the last ask held, and not. -/
theorem witness_ReplyRecordLayouts :
    (playingNode.ctl.go = some goRecord ∧ idleNode.ctl.go = none) ∧
    (-2147483648 ≤ idleNode.peers[(0 : Fin 32)].lastOffset ∧ idleNode.peers[(0 : Fin 32)].lastOffset ≤ 2147483647) ∧
    (let asking := fun (a : Ask) => { idleNode.pump with ask := a, busyUntil := some 1, lastAsk := some ⟨1, 2, 3⟩ }
     idleNode.pump.ask = .none ∧ (asking (.queued (some 3))).ask = .queued (some 3) ∧ (asking (.window 5 none)).ask = .window 5 none ∧
      idleNode.pump.busyUntil = none ∧ (asking .none).busyUntil = some 1 ∧ idleNode.pump.lastAsk = none ∧
      (asking .none).lastAsk = some ⟨1, 2, 3⟩) := by decide +kernel

/-- A computation running, with the shortest bodies; then codes outside the table, cut short, and cut short without a
record. -/
theorem witness_PortRefusesCommands :
    (listens checkingNode ∧ checkingNode.score.status = .checking ∧ 605 ≤ record.length ∧
      6 ≤ [1, 0, 1, 0, 0, (0 : Byte)].length ∧ [(3 : Byte)].length = dataLength [3] ∧ [1, (33 : Byte)].length = dataLength [1, 33] ∧
      [2, 1, 0, (0 : Byte)].length = dataLength [2, 1, 0, 0]) ∧
    (listens idleNode ∧ (0x02 : Byte) ∉ knownCodes ∧ (0xFF : Byte) ∉ knownCodes ∧ idleNode.score.status ≠ .checking) ∧
    (0x20 : Byte) ∈ recordedCodes ∧ (0x62 : Byte) ∈ recordedCodes ∧ (0x6C : Byte) ∉ recordedCodes := by decide +kernel

/-- No peer heard; one that halts. -/
theorem witness_ConfigureAccepted :
    (commandTaken listening ∧ listening.ctl.state = .standby ∧ 605 ≤ record.length ∧ firstFailure record = none) ∧
    freshPeerHalts idleNode = false ∧
    freshPeerHalts { idleNode with peers := put idleNode.peers 0 { Peer.cleared with presence := .fresh, flags := 2 } } = true := by
  decide +kernel

/-- CONFIGURE out of STANDBY, with a failing field, cut short; SCORE DATA out of place, with an illegal part or count, cut
short. -/
theorem witness_LongCommandsRefused :
    (commandTaken idleNode ∧ 605 ≤ record.length ∧ idleNode.ctl.state ≠ .standby) ∧
    (commandTaken listening ∧ 605 ≤ (record.set 0 0).length ∧ listening.ctl.state = .standby ∧
      firstFailure (record.set 0 0) = some 0) ∧
    (listens listening ∧ (record.take 604).length < 605) ∧
    (commandTaken idleNode ∧ [3].length = dataLength [(3 : Byte)] ∧ idleNode.score.status ≠ .loading) ∧
    (let s := { idleNode with score := openedScore }
     commandTaken s ∧ s.ctl.state = .idle ∧ s.score.frozen = false ∧ s.score.status = .loading ∧
      ([0] : List Byte).length = dataLength [0] ∧ byteAt [0] 0 = 0 ∧ ([3] : List Byte).length = dataLength [3] ∧ 2 < byteAt [3] 0 ∧
      ([1, 0] : List Byte).length = dataLength [1, 0] ∧ byteAt [1, 0] 1 = 0 ∧
      ([2, 33] : List Byte).length = dataLength [2, 33] ∧ 32 < byteAt [2, 33] 1) ∧
    (listens idleNode ∧ ([] : List Byte).length < dataLength [] ∧ ([1] : List Byte).length < dataLength [1] ∧
      ([2, 32] ++ List.replicate 63 (0 : Byte)).length < dataLength ([2, 32] ++ List.replicate 63 0)) := by decide +kernel

/-- Headers at both ends of the ranges, just outside each, and out of IDLE. -/
theorem witness_ScoreOpenAndClose :
    (commandTaken idleNode ∧ idleNode.ctl.state = .idle ∧ idleNode.score.frozen = false) ∧
    (6 ≤ [0, 0, 1, 0, 0, (0 : Byte)].length ∧ 1 ≤ leAt [0, 0, 1, 0, 0, 0] 2 2 ∧ leAt [0, 0, 0, 8, 0, 4] 2 2 ≤ 2048 ∧
      leAt [0, 0, 0, 8, 0, 4] 4 2 ≤ 1024) ∧
    (leAt [0, 0, 0, 0, 0, 0] 2 2 = 0 ∧ 2048 < leAt [0, 0, 1, 8, 0, 0] 2 2 ∧ 1024 < leAt [0, 0, 1, 0, 1, 4] 4 2) ∧
    (commandTaken armedNode ∧ armedNode.ctl.state ≠ .idle) ∧ (listens idleNode ∧ [1, 2, 3, 4, (5 : Byte)].length < 6) := by
  decide +kernel

/-- A load of `n` cues that has `k` of them, the last at time `t`. -/
def loading (n k t : Nat) : State :=
  { idleNode with score := { openedScore with mem := [], cueCount := n, cuesLoaded := k, prevTime := t, rowCount := 1024 } }

/-- One cue; the 32 of a full command; and a failing record by each of the three checks. -/
theorem witness_ScoreDataStoresCues :
    (let s := loading 2 1 90000
     let cue := shortCues.drop 16
     commandTaken s ∧ s.ctl.state = .idle ∧ s.score.frozen = false ∧ s.score.status = .loading ∧ s.score.mem.wf = true ∧
      cue.length = 16 * 1 ∧ 1 < s.score.cueCount ∧ cueLegal 2 1 cue = true ∧ s.score.prevTime ≤ cueTime cue) ∧
    (let records := (List.replicate 32 (shortCues.take 16)).flatten
     records.length = 16 * 32 ∧ ∀ k, k < 32 → k < (loading 2048 0 0).score.cueCount ∧
      cueLegal 2048 k ((records.drop (16 * k)).take 16) = true ∧
      (k = 0 ∨ cueTime ((records.drop (16 * (k - 1))).take 16) ≤ cueTime ((records.drop (16 * k)).take 16))) ∧
    (loading 1 1 0).score.cueCount ≤ 1 + 0 ∧
    cueLegal 2 0 (List.replicate 16 0) = false ∧ cueLegal 2 0 (shortCues.drop 16) = false ∧
    (cueLegal 2 1 (shortCues.drop 16) = true ∧ ¬ (1 + 0 = 0 ∨ (loading 2 1 90001).score.prevTime ≤ cueTime (shortCues.drop 16))) := by
  decide +kernel

/-- The last row finds its place and the next does not. -/
theorem witness_ScoreDataStoresRows :
    let s := { idleNode with score := { openedScore with rowCount := 1024, rowsLoaded := 1023 } }
    commandTaken s ∧ s.ctl.state = .idle ∧ s.score.frozen = false ∧ s.score.status = .loading ∧ s.score.mem.wf = true ∧
      [1, 0, 2, (0 : Byte)].length = 2 * 2 ∧ s.score.rowsLoaded + 1 = s.score.rowCount := by decide +kernel

/-- A figure cue of one step in a score of one row: start row 0 is loaded, 1 is not. -/
def figureScore (row : Byte) : Score :=
  let figure : List Byte := [0x20, 0, 0, 0, row, 0x50, 0, 0, 0, 0, 0, 0, 0, 0, 0, 0]
  { openedScore with rowCount := 1, rowsLoaded := 1, mem := Memory.writeAll [] 0 (figure ++ shortCues.drop 16) }

/-- All tests passed; a record missing; a figure on a row not loaded; out of LOADING. -/
theorem witness_ScoreOpenAndClose_close :
    let reaches := fun (sc : Score) (i : Nat) => isFigureKind (byteAt (cueBytes sc i) 0) = true →
      ∀ k, k < (cueFigure (cueBytes sc i)).steps →
        figureRow (cueFigure (cueBytes sc i)).startRow (cueFigure (cueBytes sc i)).pitch k < sc.rowCount
    (let s := { idleNode with score := figureScore 0 }
     commandTaken s ∧ s.ctl.state = .idle ∧ s.score.frozen = false ∧ s.score.status = .loading ∧
      s.score.cuesLoaded = s.score.cueCount ∧ s.score.rowsLoaded = s.score.rowCount ∧
      byteAt (cueBytes s.score (s.score.cueCount - 1)) 0 = 0x0F ∧ ∀ i, i < s.score.cueCount → reaches s.score i) ∧
    (let s := { idleNode with score := { openedScore with cueCount := 3 } }
     commandTaken s ∧ s.ctl.state = .idle ∧ s.score.frozen = false ∧ s.score.status = .loading ∧
      ¬ s.score.cuesLoaded = s.score.cueCount) ∧
    (0 < (figureScore 1).cueCount ∧ ¬ reaches (figureScore 1) 0 ∧ ∀ j, j < 0 → reaches (figureScore 1) j) ∧
    (commandTaken readyNode ∧ readyNode.score.status ≠ .loading) := by decide +kernel

theorem witness_ChecksumMakesValid : checkingNode.port.held = false ∧ checkingNode.score.status = .checking := by decide +kernel

theorem witness_ArmGoDisarm_accepted :
    commandTaken readyNode ∧ readyNode.ctl.state = .idle ∧ readyNode.score.status = .valid ∧ readyNode.clock.clash = false ∧
    haltAsserted readyNode = false := by decide +kernel

/-- A node whose HALT input stands active. -/
def haltPressed (s : State) : State := { s with safety := put s.safety 0 { pin := true, stable := true, since := none, before := none } }

/-- A node that has heard its own number. -/
def clashed (s : State) : State := { s with clock := { s.clock with clash := true } }

/-- Each refusal of ARM and GO, and DISARM in and out of ARMED. -/
theorem witness_ArmGoDisarm :
    (commandTaken armedNode ∧ armedNode.ctl.state ≠ .idle ∧ armedNode.ctl.state = .armed) ∧
    (commandTaken idleNode ∧ idleNode.score.status ≠ .valid ∧ idleNode.ctl.state ≠ .armed) ∧
    (commandTaken (clashed readyNode) ∧ (clashed readyNode).ctl.state = .idle ∧ (clashed readyNode).score.status = .valid ∧
      (clashed readyNode).clock.clash = true) ∧
    (commandTaken (haltPressed readyNode) ∧ (haltPressed readyNode).ctl.state = .idle ∧
      (haltPressed readyNode).clock.clash = false ∧ haltAsserted (haltPressed readyNode) = true) ∧
    (commandTaken (clashed armedNode) ∧ (clashed armedNode).ctl.state = .armed ∧ (clashed armedNode).clock.clash = true) ∧
    (commandTaken (haltPressed armedNode) ∧ (haltPressed armedNode).ctl.state = .armed ∧
      haltAsserted (haltPressed armedNode) = true) ∧
    (let s := { armedNode with clock := idleNode.clock }
     commandTaken s ∧ s.ctl.state = .armed ∧ s.clock.clash = false ∧ haltAsserted s = false ∧ s.clock.locked = false) := by
  decide +kernel

/-- Room, with a beacon waiting. -/
theorem witness_GoEntersCountdown :
    let s := { armedNode with line := { armedNode.line with queue := [freshFrame (.beacon runningBeacon)] } }
    commandTaken s ∧ s.ctl.state = .armed ∧ s.clock.clash = false ∧ haltAsserted s = false ∧ s.clock.locked = true ∧
      s.line.queue.length < 8 ∧ ∀ f ∈ s.line.queue, frameClass f.payload ≠ 2 := by decide +kernel

theorem witness_LocalStop :
    (commandTaken countingNode ∧ countingNode.ctl.state = .countdown ∧ countingNode.ctl.go = some goRecord) ∧
    (commandTaken playingNode ∧ playingNode.ctl.state = .running ∧ playingNode.ctl.go = some goRecord ∧
      playingNode.ctl.pendingCoda = none) ∧
    (let s := { playingNode with ctl := { playingNode.ctl with pendingCoda := some 2100000 } }
     commandTaken s ∧ s.ctl.state ≠ .countdown ∧ (s.ctl.state = .running → s.ctl.pendingCoda ≠ none)) ∧
    (commandTaken armedNode ∧ armedNode.ctl.state ≠ .countdown ∧
      (armedNode.ctl.state = .running → armedNode.ctl.pendingCoda ≠ none)) := by decide +kernel

theorem witness_ReleaseEntersIdle :
    (commandTaken haltedNode ∧ haltedNode.ctl.state = .halted ∧ haltAsserted haltedNode = false ∧
      freshPeerHalts haltedNode = false ∧ ∀ p : Fin 4, haltedNode.pump.chan[p].dOut = 0) ∧
    (commandTaken (haltPressed haltedNode) ∧ ¬ haltAsserted (haltPressed haltedNode) = false) := by decide +kernel

/-- The lowest and highest sender, configured and not; a record ABSENT; another node's number. -/
theorem witness_BeaconWritesRecord :
    (frameHandedOver idleNode 1 0 ∧ frameHandedOver idleNode 32 31 ∧ idleNode.config = some cfg ∧ (0 : Fin 32) ≠ cfg.own ∧
      (31 : Fin 32) ≠ cfg.own ∧ idleNode.peers[(0 : Fin 32)].presence = .absent) ∧
    (frameHandedOver listening 1 0 ∧ listening.config = none) := by decide +kernel

/-- A halting beacon; a start ahead, reached; no match. -/
theorem witness_BeaconActsOnShow :
    (frameHandedOver readyNode 1 0 ∧ readyNode.config = some cfg ∧ (0 : Fin 32) ≠ cfg.own ∧
      { runningBeacon with flags := 2 }.flags.getLsbD 1 = true ∧ readyNode.ctl.state ≠ .standby ∧
      readyNode.ctl.state ≠ .halted) ∧
    (runningBeacon.flags.getLsbD 1 = false ∧ frameHandedOver armedNode 1 0 ∧ armedNode.ctl.state = .armed ∧ cfg.lateJoin = true ∧
      armedNode.clock.locked = true ∧ armedNode.clock.clash = false ∧ haltAsserted armedNode = false ∧ runningBeacon.state = 4 ∧
      runningBeacon.showId = armedNode.score.showId ∧ runningBeacon.checksum = armedNode.score.checksum ∧
      reached armedNode.clock.site runningBeacon.showStart = false ∧
      reached armedNode.clock.site { runningBeacon with showStart := 50000 }.showStart = true) ∧
    ¬ readyNode.ctl.state = .armed := by decide +kernel

/-- CLASH set by it, with an ask queued and with none; CLASH set before. -/
theorem witness_OwnNumberSetsClash :
    (frameHandedOver idleNode 3 cfg.own ∧ idleNode.config = some cfg ∧ idleNode.clock.clash = false ∧ idleNode.pump.ask = .none) ∧
    (let s := { idleNode with pump := { idleNode.pump with ask := .queued (some 0) } }
     frameHandedOver s 3 cfg.own ∧ s.clock.clash = false ∧ s.pump.ask = .queued (some 0)) ∧
    (frameHandedOver (clashed idleNode) 3 cfg.own ∧ (clashed idleNode).clock.clash = true) := by decide +kernel

/-- The bound of 60,000,000 µs ahead and one past it; the start reached; not LOCKED; late join disabled. -/
theorem witness_GoFrameInArmed :
    (frameHandedOver armedNode 1 0 ∧ armedNode.config = some cfg ∧ armedNode.ctl.state = .armed ∧
      goRecord.showId = armedNode.score.showId ∧ goRecord.checksum = armedNode.score.checksum ∧
      armedNode.clock.clash = false ∧ haltAsserted armedNode = false ∧ armedNode.clock.locked = true) ∧
    (sdiff (60050000 : SiteTime) armedNode.clock.site = 60000000 ∧ 60000000 < sdiff (60050001 : SiteTime) armedNode.clock.site ∧
      sdiff (50000 : SiteTime) armedNode.clock.site ≤ 0 ∧ reached armedNode.clock.site (50000 : SiteTime) = true ∧
      0 < sdiff (50001 : SiteTime) armedNode.clock.site ∧
      sdiff ((50000 : SiteTime) + BitVec.ofNat 48 (2 ^ 47)) armedNode.clock.site ≤ 0) ∧
    ({ armedNode with clock := idleNode.clock } : State).clock.locked = false ∧
    ({ cfg with lateJoin := false } : ConfigRecord).lateJoin = false := by decide +kernel

/-- Another score in COUNTDOWN; RUNNING; STANDBY, which has no configuration; a start equal to the held one; one earlier, still ahead
and reached. -/
theorem witness_GoFrameElsewhere :
    (frameHandedOver countingNode 1 0 ∧ countingNode.config ≠ none ∧ countingNode.ctl.state = .countdown ∧
      ¬ { goRecord with showId := 41 }.showId = countingNode.score.showId) ∧
    (frameHandedOver playingNode 1 0 ∧ playingNode.ctl.state ≠ .armed ∧ playingNode.ctl.state ≠ .countdown) ∧
    (frameHandedOver listening 1 0 ∧ listening.ctl.state = .standby ∧ listening.config = none) ∧
    (goRecord.showId = countingNode.score.showId ∧ goRecord.checksum = countingNode.score.checksum ∧
      countingNode.ctl.go = some goRecord ∧ 0 ≤ sdiff goRecord.start goRecord.start) ∧
    sdiff (1049999 : SiteTime) goRecord.start < 0 ∧ reached countingNode.clock.site (1049999 : SiteTime) = false ∧
    reached countingNode.clock.site (50000 : SiteTime) = true := by decide +kernel

/-- COUNTDOWN; RUNNING with the coda time reached, and one ahead; another show id; ARMED. -/
theorem witness_StopFrameByState :
    (frameHandedOver countingNode 1 0 ∧ countingNode.ctl.go = some goRecord ∧ (300 : Word16) = goRecord.showId ∧
      countingNode.ctl.state = .countdown) ∧
    (frameHandedOver playingNode 1 0 ∧ playingNode.config = some cfg ∧ playingNode.ctl.go = some goRecord ∧
      playingNode.ctl.state = .running ∧ reached playingNode.clock.site (2050000 : SiteTime) = true ∧ reached playingNode.clock.site (2050001 : SiteTime) = false) ∧
    ((∀ g, playingNode.ctl.go = some g → (41 : Word16) ≠ g.showId) ∧ armedNode.ctl.state ≠ .countdown ∧
      armedNode.ctl.state ≠ .running) := by
  refine ⟨by decide +kernel, by decide +kernel, ?_, by decide +kernel⟩
  rintro g ⟨⟩
  decide +kernel

/-- STANDBY; HALTED; IDLE; RUNNING. -/
theorem witness_HaltFrameEntersHalted :
    (frameHandedOver listening 1 0 ∧ listening.ctl.state = .standby) ∧ (frameHandedOver haltedNode 1 0 ∧ haltedNode.ctl.state = .halted) ∧
    (frameHandedOver idleNode 1 0 ∧ idleNode.config = some cfg ∧ idleNode.ctl.state ≠ .standby ∧ idleNode.ctl.state ≠ .halted) ∧
    (frameHandedOver playingNode 1 0 ∧ playingNode.config = some cfg ∧ playingNode.ctl.state ≠ .standby ∧
      playingNode.ctl.state ≠ .halted) := by decide +kernel

/-- STANDBY; a window heard over by the next lower and the next higher number; an ask of the own still unsent. -/
theorem witness_StartAskHeard :
    (frameHandedOver listening 1 0 ∧ listening.config = none ∧ ∀ f ∈ listening.line.queue, isUnsentAsk f = false) ∧
    (let s := { idleNode with pump := { idleNode.pump with ask := .window 150000 (some 0) } }
     frameHandedOver s 2 1 ∧ frameHandedOver s 4 3 ∧ s.config = some cfg ∧ (∀ f ∈ s.line.queue, isUnsentAsk f = false) ∧
      s.pump.ask = .window 150000 (some 0) ∧ (1 : Fin 32) < cfg.own ∧ cfg.own ≤ 3) ∧
    (let s := { idleNode with
        pump := { idleNode.pump with ask := .queued (some 0) }
        line := { idleNode.line with queue := [freshFrame (.startAsk 0)] } }
     frameHandedOver s 2 1 ∧ (∃ f ∈ s.line.queue, isUnsentAsk f = true) ∧ s.pump.ask = .queued (some 0)) := by decide +kernel

/-- A receiver that has gathered nothing but the delimiter and the sender of a frame, and the levels `bits` of the next byte. -/
def gathering (bits : List Bool) : State :=
  { idleNode with line := { idleNode.line with
      rx := .receiving, wire := { idle := 9, gather := some { arrival := 49980, bytes := [0xC3, 1], bits := bits }, out := [] } } }

/-- A byte wrong in form at each of its four places; bytes cut short before and after the length; a check that differs; a whole
check and a length its kind does not have; no failure; HUNT, idle for 10 bit times; bit by bit at a stop bit, between two bytes, in HUNT. -/
theorem witness_FailedFramesAreCounted :
    let short := fun bytes : List Byte => bytes.length < 5 ∨ bytes.length < byteAt bytes 4 + 7
    let check := fun bytes : List Byte => (frameCheck ((bytes.drop 1).take (byteAt bytes 4 + 4))).toNat =
      256 * byteAt bytes (byteAt bytes 4 + 5) + byteAt bytes (byteAt bytes 4 + 6)
    let size := fun bytes : List Byte =>
      (byteAt bytes 2, byteAt bytes 4) ∈ [(0x10, 23), (0x21, 10), (0x22, 8), (0x30, 1), (0x41, 1)]
    let empty : List Byte := [0xC3, 1, 0x30, 0, 0] ++ be 2 (frameCheck [1, 0x30, 0, 0]).toNat
    (idleNode.port.held = false ∧ idleNode.line.rx ≠ .hunt) ∧
    (byteAt [0] 0 ≠ 0xC3 ∧ 32 < byteAt [0xC3, 33] 1 ∧ byteAt [0xC3, 32, 0x11] 2 ∉ [0x10, 0x21, 0x22, 0x30, 0x41] ∧
      32 < byteAt [0xC3, 32, 0x10, 0, 33] 4) ∧
    (short [] ∧ short [0xC3, 32, 0x41, 9] ∧ short [0xC3, 32, 0x41, 9, 1, 0, 0]) ∧
    (¬ short [0xC3, 1, 0x30, 0, 1, 0, 0, 0] ∧ ¬ check [0xC3, 1, 0x30, 0, 1, 0, 0, 0]) ∧
    (¬ short empty ∧ check empty ∧ ¬ size empty) ∧
    (¬ short (frameBytes 32 9 (.halt 1)) ∧ check (frameBytes 32 9 (.halt 1)) ∧ size (frameBytes 32 9 (.halt 1))) ∧
    (State.reset.port.held = false ∧ State.reset.line.rx = .hunt ∧ 10 ≤ 10) ∧
    (let s := gathering (List.replicate 9 false)
     s.port.held = false ∧ (∀ f ∈ s.line.queue, f.onLine = false) ∧ attemptDue s s.line.wire.idle = false ∧ s.line.rx = .receiving ∧
      s.line.wire.gather = some { arrival := 49980, bytes := [0xC3, 1], bits := List.replicate 9 false } ∧
      judge [0xC3, 1] = .truncated ∧ (List.replicate 9 false).length = 9 ∧ 9 ≤ (gathering []).line.wire.idle) ∧
    ((∀ f ∈ State.reset.line.queue, f.onLine = false) ∧ attemptDue State.reset State.reset.line.wire.idle = false) := by decide +kernel

theorem witness_FrameJudgedIntact :
    (isNodeNumber 1 = true ∧ isNodeNumber 32 = true) ∧
    (idleNode.port.held = false ∧ idleNode.line.rx = .ready ∧ (∀ f ∈ idleNode.line.queue, f.onLine = false) ∧
      attemptDue idleNode idleNode.line.wire.idle = false) := by decide +kernel

/-- 0xC3 on the line (R42): dominant start bit, 1100 0011, recessive stop bit. -/
theorem test_byte_bits : byteBits 0xC3 = [false, true, true, false, false, false, false, true, true, true] := by decide

/-- A HALT frame of node 1 arrives bit by bit: it is kept as last halt heard, and the receiver is READY (R52, R54). -/
theorem test_halt_arrives_bit_by_bit :
    let t := (frameBits (frameBytes 1 7 (.halt 5))).foldl (fun s level => bitTime level false s) idleNode
    t.line.lastHalt = some (1, 5) ∧ t.line.rx = .ready ∧ t.ctl.state = .halted := by decide +kernel

/-- A node whose queue holds one block of `n` frames from frame 0, and `more` blocks of one frame behind it. -/
def holding (s : State) (n more : Nat) : State :=
  { s with audio := { s.audio with
      queue := ⟨0, n, 0⟩ :: (List.range more).map fun i => ⟨n + i, 1, (n + i) % 16384⟩
      writePos := (n + more) % 16384 } }

/-- STANDBY; counts and starts just out of range; 32 blocks; no room; trimmed whole; the last frame with room for it. -/
theorem witness_AudioJudged :
    (commandTaken listening ∧ listening.ctl.state = .standby) ∧
    (commandTaken idleNode ∧ idleNode.ctl.state ≠ .standby ∧ ¬ (1 ≤ (0 : Word16).toNat) ∧ ¬ ((4097 : Word16).toNat ≤ 4096) ∧
      ¬ ((172800001 : BitVec 32).toNat ≤ 172800000)) ∧
    (commandTaken (holding idleNode 1 31) ∧ 32 ≤ (holding idleNode 1 31).audio.queue.length ∧ 32 + 1 - max 32 32 ≠ 0) ∧
    16384 - ((holding idleNode 16384 0).audio.queue.map (·.count)).sum < 16384 + 1 - max 16384 16384 ∧
    0 + 4096 - max 0 16384 = 0 ∧
    ((4096 : Word16).toNat ≤ 4096 ∧ (172800000 : BitVec 32).toNat ≤ 172800000 ∧
      ¬ (32 ≤ idleNode.audio.queue.length ∨ 16384 - (idleNode.audio.queue.map (·.count)).sum < 4096)) := by decide +kernel

/-- A command under reception behind a block of 100 frames: frames 90 to 109, of which 100 to 109 are kept. -/
def receiving : State :=
  { holding idleNode 100 0 with audio := { (holding idleNode 100 0).audio with
      reception := some { first := 90, count := 20, keep := 100, pos := 100 } } }

theorem audioInv_receiving : AudioInv receiving where
  blocks := by decide +kernel
  nonempty := by decide +kernel
  ordered := by decide +kernel
  fill := by decide +kernel
  positions := by decide +kernel
  judged := by rintro r ⟨⟩; decide +kernel
  roomKept := by rintro r ⟨⟩; decide +kernel

theorem audioInv_reset : AudioInv State.reset where
  blocks := by decide +kernel
  nonempty := by decide +kernel
  ordered := by decide +kernel
  fill := by decide +kernel
  positions := by decide +kernel
  judged := by rintro r ⟨⟩
  roomKept := by rintro r ⟨⟩

/-- With nothing under reception; with frames up to 99 received whole and none kept; with frame 100 received too. -/
theorem witness_AudioEndEntersBlock :
    (listens State.reset ∧ AudioInv State.reset ∧ State.reset.audio.ring.wf = true ∧
      State.reset.audio.reception = none) ∧
    (listens receiving ∧ AudioInv receiving ∧ receiving.audio.ring.wf = true ∧
      receiving.audio.reception = some { first := 90, count := 20, keep := 100, pos := 100 } ∧
      90 + min 20 ((List.replicate 43 (0 : Byte)).length / 4) - 100 = 0 ∧
      90 + min 20 ((List.replicate 44 (0 : Byte)).length / 4) - 100 ≠ 0) :=
  ⟨⟨by decide +kernel, audioInv_reset, by decide +kernel, rfl⟩,
    by decide +kernel, audioInv_receiving, by decide +kernel, rfl, by decide +kernel, by decide +kernel⟩

theorem witness_EventCommands :
    (commandTaken listening ∧ listening.ctl.state = .standby) ∧ commandTaken idleNode ∧ idleNode.ctl.state ≠ .standby := by
  decide +kernel

/-- A node with its beacon due and a transmit queue. -/
def sending (q : List TxFrame) : State :=
  { idleNode with
    clock := { idleNode.clock with beaconDue := some 50000 }
    line := { idleNode.line with queue := q } }

/-- A frame with its attempt on the line. -/
def onLine (f : TxFrame) : TxFrame := { f with attempts := f.attempts + 1, seq := some 7, onLine := true }

/-- CLASH; an unsent beacon; room; no room; no beacon due yet. -/
theorem witness_BeaconIsQueued :
    (let s := clashed (sending [])
     s.port.held = false ∧ s.config = some cfg ∧ s.clock.beaconDue = some 50000 ∧ reached s.clock.site 50000 = true ∧
      s.clock.clash = true) ∧
    (let s := sending [freshFrame (.beacon runningBeacon)]
     s.clock.clash = false ∧ ∃ f ∈ s.line.queue, (!f.onLine && decide (frameClass f.payload = 4)) = true) ∧
    (let s := sending (List.replicate 7 (freshFrame (.halt 1)))
     s.clock.clash = false ∧ (∀ f ∈ s.line.queue, (!f.onLine && decide (frameClass f.payload = 4)) = false) ∧
      s.line.queue.length < 8) ∧
    (let s := sending (List.replicate 8 (freshFrame (.halt 1)))
     s.clock.clash = false ∧ (∀ f ∈ s.line.queue, (!f.onLine && decide (frameClass f.payload = 4)) = false) ∧
      8 ≤ s.line.queue.length) ∧
    (idleNode.clock.beaconDue = some 53125 ∧ reached idleNode.clock.site 53125 = false) := by decide +kernel

/-- CLASH; an unsent HALT; room; a full queue with a beacon to drop for a HALT, and with none to drop for a beacon; a START-ASK dropped
with a channel, vacant, and with no ask. -/
theorem witness_FramesAreQueued :
    let class' := fun f g : TxFrame => frameClass f.payload ≤ frameClass g.payload
    let replaced := fun (p : Payload) (f : TxFrame) => !f.onLine && decide (payloadKind f.payload = payloadKind p) &&
      (decide (frameClass p = 1) || decide (frameClass p = 4))
    let goes := List.replicate 7 (freshFrame (.go goRecord))
    (clashed (sending [])).clock.clash = true ∧
    (∃ f ∈ (sending [freshFrame (.halt 1)]).line.queue, replaced (.halt 2) f = true) ∧
    ((∀ f ∈ goes, replaced (.halt 2) f = false) ∧ goes.length < 8) ∧
    (let q := (goes ++ [freshFrame (.beacon runningBeacon)]) ++ []
     (∀ f ∈ q, replaced (.halt 2) f = false) ∧ 8 ≤ q.length ∧ q.Pairwise class' ∧
      q = goes ++ freshFrame (.beacon runningBeacon) :: [] ∧ frameClass (.halt 2) < frameClass (.beacon runningBeacon) ∧
      (∀ f ∈ q, f.onLine = false → frameClass f.payload ≤ 4)) ∧
    (let q := goes ++ [onLine (freshFrame (.go goRecord))]
     8 ≤ q.length ∧ q.Pairwise class' ∧ (∀ f ∈ q, replaced (.beacon runningBeacon) f = false) ∧
      ∀ f ∈ q, f.onLine = false → frameClass f.payload ≤ frameClass (.beacon runningBeacon)) ∧
    (let asking := fun a : Ask => { idleNode.pump with ask := a }
     frameClass (.startAsk 0) = 3 ∧ (asking (.queued (some 0))).ask = .queued (some 0) ∧
      (asking (.queued none)).ask = .queued none) ∧
    ∀ ch, idleNode.pump.ask ≠ .queued ch := by
  refine ⟨by decide +kernel, by decide +kernel, by decide +kernel, by decide +kernel, by decide +kernel, by decide +kernel, ?_⟩
  rintro ch ⟨⟩

/-- A HALT at 9 and 10 bit times, a beacon of draw 31 at 1,259 and 1,260; an empty queue; a frame on the line. -/
theorem witness_AttemptStarts :
    (let s := sending [freshFrame (.halt 1)]
     s.port.held = false ∧ s.config = some cfg ∧ s.line.queue = freshFrame (.halt 1) :: [] ∧ (∀ g ∈ s.line.queue, g.onLine = false) ∧
      9 < 10 + 40 * (freshFrame (.halt 1)).draw ∧ 10 + 40 * (freshFrame (.halt 1)).draw ≤ 10) ∧
    (let f := { freshFrame (.beacon runningBeacon) with draw := 31 }
     (sending [f]).line.queue = f :: [] ∧ 1259 < 20 + 40 * f.draw ∧ 20 + 40 * f.draw ≤ 1260) ∧
    (sending []).line.queue = [] ∧ ∃ g ∈ (sending [onLine (freshFrame (.halt 1))]).line.queue, g.onLine = true := by
  decide +kernel

/-- Noise on the last stop bit of the own frame fails the attempt (R50). -/
theorem test_noise_fails_attempt :
    let s := { sending [onLine (freshFrame (.halt 1))] with line := { (sending [onLine (freshFrame (.halt 1))]).line with
      rx := .receiving, wire := { idle := 0, gather := none, out := [true] } } }
    drivenLevel s = true ∧ (bitTime true true s).line.collisions = 1 ∧ (bitTime true false s).line.queue = [] := by decide +kernel

/-- Nothing on the line; a beacon, an ask and a HALT on it; an ask vacant; a newer HALT beside it; the seventh and the eighth
attempt. -/
theorem witness_AttemptEnds :
    (idleNode.port.held = false ∧ idleNode.config = some cfg ∧ ∀ f ∈ idleNode.line.queue, f.onLine = false) ∧
    (sending [onLine (freshFrame (.beacon runningBeacon))]).line.queue.find? (·.onLine) =
      some (onLine (freshFrame (.beacon runningBeacon))) ∧
    (let s := { sending [onLine (freshFrame (.startAsk 0))] with pump := { idleNode.pump with ask := .queued (some 0) } }
     s.port.held = false ∧ s.line.queue.find? (·.onLine) = some (onLine (freshFrame (.startAsk 0))) ∧
      frameClass (onLine (freshFrame (.startAsk 0))).payload = 3 ∧ s.pump.ask = .queued (some 0) ∧
      ¬ (replaceable (.startAsk 0) = true) ∧ (onLine (freshFrame (.startAsk 0))).attempts < 8) ∧
    (∀ ch, (sending [onLine (freshFrame (.startAsk 0))]).pump.ask ≠ .queued ch) ∧
    frameClass (onLine (freshFrame (.halt 1))).payload < 3 ∧
    (let others := (sending [onLine (freshFrame (.halt 1)), freshFrame (.halt 3)]).line.queue.filter fun g => !g.onLine
     replaceable (.halt 1) = true ∧ ∃ g ∈ others, payloadKind g.payload = payloadKind (.halt 1)) ∧
    (onLine { freshFrame (.startAsk 0) with attempts := 6 }).attempts < 8 ∧
    8 ≤ (onLine { freshFrame (.startAsk 0) with attempts := 7 }).attempts ∧
    (let s := sending [onLine (freshFrame (.halt 1))]
     bitsAhead s = false :: (bitsAhead s).tail ∧ (bitsAhead s).tail ≠ [] ∧ true ≠ false ∧
      bitsAhead { s with line := { s.line with wire := { s.line.wire with out := [true] } } } = true :: []) := by
  refine ⟨by decide +kernel, by decide +kernel, by decide +kernel, ?_, by decide +kernel⟩
  rintro ch ⟨⟩

theorem witness_RoundMeanTrims :
    (([5] : List Int) ≠ [] ∧ ([5] : List Int).length < 3 ∧ ([5, -7] : List Int).length < 3) ∧
    (let members : List Int := [0, 140, -30, 2600]
     3 ≤ members.length ∧ -30 ∈ members ∧ 2600 ∈ members ∧ ∀ x ∈ members, -30 ≤ x ∧ x ≤ 2600) ∧
    ([1, 2, 3] : List Int).Perm [3, 1, 2] ∧ (1 : Int) ≤ 2 ∧ (2 : Int) ≤ 3 := by decide +kernel

/-- A node at the end of its round with one offset of `e` µs from node 1. -/
def roundNode (e : Int) : State :=
  { idleNode with
    clock := { idleNode.clock with site := 100000, offsets := put idleNode.clock.offsets 0 (some e) }
    peers := put idleNode.peers 0 { Peer.cleared with presence := .fresh } }

/-- The offset of record `i` that the round's set still holds at the round end: in a show an outlier leaves it (R31, R32). -/
def keptOffset (c : ConfigRecord) (s : State) (i : Fin 32) : Option Int :=
  match s.clock.offsets[i] with
  | none => none
  | some e => if s.ctl.state.inShow = true ∧ c.outlier < e.natAbs then none else some e

/-- The peer members of the set the round mean is taken from (R31 to R33). -/
def roundMembers (c : ConfigRecord) (s : State) : List Int := (List.finRange 32).filterMap (keptOffset c s)

/-- Before the end and at it; a peer heard whose offset is missing; the lock windows at their bounds (a mean of half the
offset); a slew and a step; a show. -/
theorem witness_RoundEnds :
    (idleNode.port.held = false ∧ idleNode.config = some cfg ∧ idleNode.clock.roundStart = some 50000 ∧
      idleNode.ctl.state ≠ .standby ∧ reached idleNode.clock.site (multipleAfter 50000 50000) = false) ∧
    (reached (roundNode 0).clock.site (multipleAfter 50000 50000) = true ∧ (roundNode 0).clock.roundStart = some 50000) ∧
    (let s := { roundNode 0 with clock := { (roundNode 0).clock with offsets := Vector.replicate 32 none } }
     roundMembers cfg s = [] ∧ ∃ i : Fin 32, i ≠ cfg.own ∧ s.peers[i].presence ≠ .absent) ∧
    (meanOf (0 :: roundMembers cfg (roundNode 200)) = 100 ∧ meanOf (0 :: roundMembers cfg (roundNode 202)) = 101 ∧
      meanOf (0 :: roundMembers cfg (roundNode (-1000))) = -500 ∧ meanOf (0 :: roundMembers cfg (roundNode 1002)) = 501 ∧
      roundMembers cfg (roundNode 0) ≠ []) ∧
    (meanOf (0 :: roundMembers cfg (roundNode 2000)) = 1000 ∧ meanOf (0 :: roundMembers cfg (roundNode (-2002))) = -1001) ∧
    (playingNode.ctl.state.inShow = true ∧ playingNode.ctl.state = .running ∧ idleNode.ctl.state ≠ .countdown ∧
      ¬ cfg.outlier < (5000 : Int).natAbs ∧ cfg.outlier < (-5001 : Int).natAbs) := by decide +kernel

/-- An adjustment due at once; the next not yet; all made. -/
theorem witness_SlewAdjusts :
    (let s := { idleNode with clock := { idleNode.clock with correction := -20 } }
     s.port.held = false ∧ s.config = some cfg ∧ s.clock.made < s.clock.correction.natAbs ∧
      s.clock.made * (1000 * cfg.interval / s.clock.correction.natAbs) ≤ s.clock.roundLocal) ∧
    (let s := { idleNode with clock := { idleNode.clock with correction := 20, made := 1, roundLocal := 2499 } }
     ¬ s.clock.made * (1000 * cfg.interval / s.clock.correction.natAbs) ≤ s.clock.roundLocal) ∧
    ¬ idleNode.clock.made < idleNode.clock.correction.natAbs := by decide +kernel

/-- A node that heard node 1 at site time 0 and now stands at `t`. -/
def ageing (t : SiteTime) : State :=
  { idleNode with
    clock := { idleNode.clock with site := t }
    peers := put idleNode.peers 0 { Peer.cleared with presence := .fresh } }

/-- A record FRESH at 3 × I and just before, at 20 × I and just before; the own record; an ABSENT one; STANDBY. -/
theorem witness_RecordsAge :
    (let due := fun (t : SiteTime) (n : Nat) =>
      reached (ageing t).clock.site ((ageing t).peers[(0 : Fin 32)].lastArrival + BitVec.ofNat 48 (n * (1000 * cfg.interval)))
     (ageing 0).port.held = false ∧ (ageing 0).config = some cfg ∧ (0 : Fin 32) ≠ cfg.own ∧
      (ageing 0).peers[(0 : Fin 32)].presence = .fresh ∧ due 150000 3 = true ∧ due 149999 3 = false ∧
      due 1000000 20 = true ∧ due 999999 20 = false) ∧
    (cfg.own = 2 ∧ idleNode.peers[(1 : Fin 32)].presence = .absent ∧ listening.config = none) := by decide +kernel

/-- The start reached, and one ahead; the pending coda time reached, ahead, and none held. -/
theorem witness_ShowTimesReached :
    (let s := { countingNode with clock := { countingNode.clock with site := 1050000 } }
     s.port.held = false ∧ s.config = some cfg ∧ s.ctl.go = some goRecord ∧ s.ctl.state = .countdown ∧
      reached s.clock.site goRecord.start = true) ∧
    (countingNode.ctl.go = some goRecord ∧ reached countingNode.clock.site goRecord.start = false) ∧
    (let s := { playingNode with ctl := { playingNode.ctl with pendingCoda := some 2050000 } }
     s.port.held = false ∧ s.config = some cfg ∧ s.ctl.go = some goRecord ∧ s.ctl.state = .running ∧
      s.ctl.pendingCoda = some 2050000 ∧ reached s.clock.site 2050000 = true ∧ reached s.clock.site 2050001 = false) ∧
    playingNode.ctl.pendingCoda = none := by decide +kernel

/-- A pump still turning in the coda. -/
def turningNode : State :=
  { codaNode with pump := { codaNode.pump with
      chan := put codaNode.pump.chan 0 { Channel.reset with stage := .on, dOut := 1 } } }

/-- Every pump stopped; one turning at its lowest drive; no AUDIO command under reception, one with kept frames. -/
theorem witness_CodaCompletes :
    (codaNode.port.held = false ∧ codaNode.config = some cfg ∧ codaNode.ctl.state = .coda ∧ codaNode.ctl.go = some goRecord ∧
      codaNode.ctl.codaDeadline = some 2050000 ∧ reached codaNode.clock.site 2050000 = true ∧ codaNode.ctl.codaTested = false ∧
      ∀ p : Fin 4, codaNode.pump.chan[p].dOut = 0 ∧ codaNode.pump.chan[p].runOutput = false) ∧
    (turningNode.port.held = false ∧ turningNode.ctl.state = .coda ∧
      ¬ ∀ p : Fin 4, turningNode.pump.chan[p].dOut = 0 ∧ turningNode.pump.chan[p].runOutput = false) ∧
    keptReception codaNode = codaNode.audio.reception ∧
    (let s := { codaNode with audio := receiving.audio }
     keptReception s ≠ s.audio.reception) := by decide +kernel

/-- A MASTER action due at show time 0. -/
def waitingAction (i : Nat) : Action := { due := i, act := .master 800 1000, cue := 0, counted := false }

/-- The cue at the pointer due, with room for its one action and without; all cues taken; a cue of each kind. -/
theorem witness_CueTaken :
    (let s := playingNode
     s.port.held = false ∧ s.config = some cfg ∧ s.ctl.go = some goRecord ∧
      s.cue.queue.Pairwise (fun a b => a.due ≤ b.due) ∧ s.cue.taking = true ∧ s.cue.pointer < s.score.cueCount ∧
      1000 * ((cueTime (cueBytes s.score s.cue.pointer) : Int) - s.cue.horizon) ≤ sdiff s.clock.site goRecord.start ∧
      (cueActions cfg s.score s.cue.pointer).length = 1 ∧ s.cue.pointer + 1 < s.score.cueCount) ∧
    (let full := (List.range 64).map waitingAction
     full.Pairwise (fun a b => a.due ≤ b.due) ∧ full.length - 1 + 1 ≤ 64 ∧ 64 < full.length + 1) ∧
    (let s := { playingNode with cue := { playingNode.cue with pointer := 2 } }
     ¬ s.cue.pointer < s.score.cueCount) ∧
    (∀ kind ∈ [0x01, 0x20 + 0, 0x28 + 3, 0x02, 0x03, 0x04, 0x05, 0x0F],
      byteAt (cueBytes { playingNode.score with mem := Memory.writeAll [] (cueAddress 7) [BitVec.ofNat 8 kind] } 7) 0 = kind) := by
  decide +kernel

/-- A node with one action at the head of its queue. -/
def firing (a : Action) : State := { playingNode with cue := { playingNode.cue with queue := [a] } }

/-- An action due just now, one late by 10,000 µs and one by 10,001, one not yet due; one of each kind; each kind of state for END; a cue
held for want of room that the leaving action makes. -/
theorem witness_ActionFires :
    (let s := firing { due := 1000000, act := .mark 1, cue := 0, counted := false }
     s.port.held = false ∧ s.config = some cfg ∧ s.ctl.go = some goRecord ∧
      s.cue.queue = { due := 1000000, act := .mark 1, cue := 0, counted := false } :: [] ∧
      s.cue.taking = true ∧ (1000000 : Int) ≤ sdiff s.clock.site goRecord.start ∧
      s.ctl.state = .running) ∧
    (¬ 10000 < sdiff playingNode.clock.site goRecord.start - 990000 ∧
      10000 < sdiff playingNode.clock.site goRecord.start - 989999 ∧ sdiff playingNode.clock.site goRecord.start < 1000001) ∧
    (let kinds : List Act := [.height 3 1024 0, .figure .valve 3 ringFigure, .figure .lamp 0 ringFigure,
        .colour 0x8001 ⟨255, 0, 0⟩ 0, .master 1024 0, .level 1024 0, .mark 255, .endShow]
     (kinds.map fun k => (firing { due := 0, act := k, cue := 0, counted := false }).cue.queue.length) =
      List.replicate 8 1) ∧
    (countingNode.ctl.state = .countdown ∧ codaNode.ctl.state ≠ .running ∧ codaNode.ctl.state ≠ .countdown) ∧
    (let s := { playingNode with cue := { playingNode.cue with waiting := true, queue := (List.range 64).map waitingAction } }
     s.cue.waiting = true ∧ s.cue.pointer < s.score.cueCount ∧
      1000 * ((cueTime (cueBytes s.score s.cue.pointer) : Int) - s.cue.horizon) ≤ sdiff s.clock.site goRecord.start ∧
      s.cue.queue.tail.length + (cueActions cfg s.score s.cue.pointer).length ≤ 64) := by decide +kernel

/-- The short score joined one second in, with END ahead; and past its END. -/
theorem witness_SeekHandsOver :
    let acts := fun now : Int => ((List.range shortScore.cueCount).filter fun i =>
      decide (1000 * (cueTime (cueBytes shortScore i) : Int) ≤ now)).flatMap (cueActions cfg shortScore)
    let s := { armedNode with clock := { armedNode.clock with site := 2050000 } }
    (s.config = some cfg ∧ reached s.clock.site goRecord.start = true ∧
      (∀ j, j < 2 → ∀ i, i < 2 → i ≤ j → cueTime (cueBytes s.score i) ≤ cueTime (cueBytes s.score j))) ∧
    (∀ a ∈ acts (sdiff s.clock.site goRecord.start), a.act ≠ .endShow) ∧ (∃ a ∈ acts 90000000, a.act = .endShow) := by
  decide +kernel

/-- A view that holds a figure, and shows `shown`. -/
def heldView (f : Figure) (shown : Phase) : ViewRecord :=
  { presence := .held, figure := f, origin := .fired, endReported := false, shown := shown }

/-- The last microsecond of a step, the first of the next; the end time; an EMPTY record; one that plays. -/
theorem witness_FigurePhase :
    0 < ringFigure.period ∧ 0 < ringFigure.steps ∧ (9999999 : Int) < ringFigure.start ∧
    (5 < ringFigure.steps ∧ ringFigure.start + 1000 * ((250 * (6 * 1 + 5) : Nat) : Int) ≤ 12999999 ∧
      (12999999 : Int) < ringFigure.start + 1000 * ((250 * (6 * 1 + 5 + 1) : Nat) : Int) ∧ 1 < ringFigure.passes) ∧
    (0 < ringFigure.passes ∧ ringFigure.start + 1000 * ((250 * 6 * 2 : Nat) : Int) ≤ 13000000) ∧
    ViewRecord.empty.presence = .empty ∧
    (let v := heldView ringFigure (.playing 5 1)
     v.presence = .held ∧ v.shown = .playing 5 1 ∧ ringFigure.wEnd < ringFigure.wStart) := by decide +kernel

/-- A group whose views carry a figure that has ended, not yet shown. -/
def endedNode : State :=
  { playingNode with jets := gen fun _ =>
      { valve := heldView { ringFigure with start := -5000000 } .notBegun
        lamp := heldView { ringFigure with start := -5000000 } .notBegun
        mode := .following } }

/-- Views that have moved on; views that have not; a show state that evaluates none. -/
theorem witness_FigureMoments :
    (endedNode.port.held = false ∧ endedNode.config = some cfg ∧ endedNode.ctl.state.inShow = true ∧
      endedNode.jets[(0 : Fin 4)].lamp.shown ≠
        evalFigure endedNode.jets[(0 : Fin 4)].lamp.fig (showTime endedNode) ∧
      endedNode.jets[(0 : Fin 4)].lamp.endReported = false ∧
      evalFigure endedNode.jets[(0 : Fin 4)].lamp.fig (showTime endedNode) = .ended) ∧
    playingNode.jets[(3 : Fin 4)].valve.shown = evalFigure playingNode.jets[(3 : Fin 4)].valve.fig (showTime playingNode) ∧
    idleNode.ctl.state.inShow = false := by decide +kernel

/-- Channel 0 running at 800, channel 1 waiting for the slot, both heights at full. -/
def drivenNode : State :=
  { playingNode with pump := { playingNode.pump with
      chan := #v[{ Channel.reset with height := ⟨900, 900, 0, 0⟩, stage := .on, dOut := 800, dCmd := 789, phase := .confirmed },
        { Channel.reset with height := ⟨1024, 1024, 0, 0⟩, stage := .waiting }, .reset, .reset]
      startList := [1] } }

theorem pumpInv_driven : PumpInv drivenNode where
  stopped := by decide +kernel
  seen := by decide +kernel
  halted := by decide +kernel
  listed := by decide +kernel
  once := by decide +kernel
  asks := fun p =>
    ⟨⟨fun h => absurd h (by revert p; decide +kernel), fun h => nomatch h⟩,
      ⟨fun h => absurd h (by revert p; decide +kernel), fun ⟨_, h⟩ => nomatch h⟩⟩
  atHead := by decide +kernel

/-- The period due and not; a channel that drives, and one that does not; a demand within the budget. -/
theorem witness_PumpPeriodDrives :
    (drivenNode.port.held = false ∧ drivenNode.config = some cfg ∧ reached drivenNode.clock.site drivenNode.pump.next = true ∧
      drivable cfg drivenNode 1 0 = true ∧ drivable cfg drivenNode 0 0 = false ∧ drivable cfg drivenNode 1 2 = false) ∧
    reached idleNode.clock.site idleNode.pump.next = false := by decide +kernel

/-- The slot free with a head; a fault at the sample; CLASH; the slot busy; no list; CODA with its deadline. -/
theorem witness_PumpPeriodCommands :
    (drivenNode.port.held = false ∧ drivenNode.config = some cfg ∧ PumpInv drivenNode ∧
      reached drivenNode.clock.site drivenNode.pump.next = true) ∧
    (drivenNode.pump.ask = .none ∧ drivenNode.pump.busyUntil = none ∧ drivenNode.clock.clash = false ∧
      drivenNode.line.queue.length < 8) ∧
    (faultsAt cfg drivenNode 0 0 = true ∧ faultsAt cfg drivenNode 1 0 = false ∧ faultsAt cfg drivenNode 0 1 = false) ∧
    (clashed drivenNode).clock.clash = true ∧
    reached drivenNode.clock.site 2050001 = false ∧
    playingNode.pump.startList = [] ∧
    (codaNode.ctl.codaDeadline = some 2050000 ∧ reached codaNode.clock.site 2050000 = true) :=
  ⟨⟨rfl, rfl, pumpInv_driven, by decide +kernel⟩, by decide +kernel, by decide +kernel, rfl, by decide +kernel, rfl,
    by decide +kernel⟩

/-- A window at its end with a channel and vacant; one microsecond before it. -/
theorem witness_HoldWindowEnds :
    (let s := { idleNode with pump := { idleNode.pump with ask := .window 50000 (some 0) } }
     s.port.held = false ∧ s.config = some cfg ∧ s.pump.ask = .window 50000 (some 0) ∧ reached s.clock.site 50000 = true) ∧
    ({ idleNode with pump := { idleNode.pump with ask := .window 50000 none } } : State).pump.ask = .window 50000 none ∧
    reached idleNode.clock.site 50001 = false := by decide +kernel

theorem witness_WindFactorByBand :
    cfg.wLow < cfg.wHigh ∧ cfg.wHigh ≤ cfg.wCut ∧ cfg.fMin ≤ 1024 ∧ 60 ≤ cfg.wLow ∧ cfg.wLow < 61 ∧ 119 < cfg.wHigh ∧
    cfg.wHigh ≤ 120 ∧ 159 < cfg.wCut ∧ cfg.wCut ≤ 160 := by decide +kernel

/-- No window in progress, one in progress with a full history; no sensor; the multiple reached and not. -/
theorem witness_WindWindows :
    (let s := { idleNode with
        clock := { idleNode.clock with site := 1000000 }
        wind := { idleNode.wind with window := some 0, count := 65535, history := List.replicate 8 600 } }
     s.port.held = false ∧ s.config = some cfg ∧ s.wind.history.length ≤ 8 ∧ s.wind.window ≠ none ∧ cfg.windScale ≠ 0 ∧
      reached s.clock.site s.wind.next = true ∧ 1 ≤ cfg.depth) ∧
    (idleNode.wind.window = none ∧ reached idleNode.clock.site idleNode.wind.next = false) ∧
    ({ cfg with windScale := 0 } : ConfigRecord).windScale = 0 ∧
    (idleNode.wind.node = none ∧ ∀ i : Fin 32, idleNode.peers[i].presence ≠ .fresh ∨ idleNode.peers[i].flags.getLsbD 2 = false) ∧
    (let s := { idleNode with peers := put idleNode.peers 0 { Peer.cleared with presence := .fresh, flags := 4, wind := 601 } }
     (0 : Fin 32) ≠ cfg.own ∧ s.peers[(0 : Fin 32)].presence = .fresh ∧ s.peers[(0 : Fin 32)].flags.getLsbD 2 = true ∧
      600 = min 600 s.peers[(0 : Fin 32)].wind.toNat) := by decide +kernel

/-- A lamp period in each kind of state; the bound lamp's valve with water and an accent, and dry; the period not reached. -/
def litNode : State :=
  { drivenNode with
    score := { drivenNode.score with rowCount := 1024, mem := drivenNode.score.mem.writeAll (rowAddress 250) [1, 0] }
    pump := { drivenNode.pump with chan := put drivenNode.pump.chan 1 { Channel.reset with stage := .on, dOut := 400, ranAtPeriod := true } }
    jets := put drivenNode.jets 1 { ValveGroup.reset with
      mode := .following
      lamp := heldView { ringFigure with accent := some (0, ⟨255, 120, 0⟩) } (.playing 0 0) } }

/-- A pump granted between two pump periods gives the lamps no water, at a visible threshold of 0 either, before its next pump period
(R95, R144). -/
theorem test_granted_pump_stays_dark :
    let threshold0 := { cfg with pump := put cfg.pump 1 { cfg.pump[1] with visible := 0 } }
    let dry := { litNode with config := some threshold0, pump := { litNode.pump with
      chan := put litNode.pump.chan 1 { Channel.reset with stage := .asked }, startList := [1], ask := .window 0 (some 1) } }
    let granted := endWindow dry
    granted.pump.chan[(1 : Fin 4)].runOutput = true ∧ waterPresent granted 16 = false ∧
      waterPresent (stageSlew threshold0 granted) 16 = false ∧
      waterPresent (stageSlew threshold0 (mapChannels (fun _ ch => { ch with dCmd := 400 }) granted)) 16 = true := by
  decide +kernel

theorem witness_LampAndGainPeriods :
    (litNode.port.held = false ∧ litNode.config = some cfg ∧ reached litNode.clock.site litNode.lamps.next = true ∧
      reached litNode.clock.site litNode.audio.nextGain = true ∧ litNode.ctl.state.inShow = true ∧
      cfg.lamp[(0 : Fin 16)].valve = some 16 ∧ cfg.lamp[(1 : Fin 16)].valve = none ∧ lampOpen litNode 16 = true ∧
      cfg.pump[valveGroup 16].visible ≤ litNode.pump.chan[valveGroup 16].dOut ∧ litNode.pump.chan[valveGroup 16].ranAtPeriod = true ∧
      accentAt litNode 16 = some ⟨255, 120, 0⟩ ∧ playingNode.pump.chan[valveGroup 16].ranAtPeriod = false) ∧
    (idleNode.ctl.state = .idle ∧ haltedNode.ctl.state = .halted) ∧
    (reached idleNode.clock.site idleNode.lamps.next = false ∧ reached idleNode.clock.site idleNode.audio.nextGain = false) := by
  decide +kernel

/-- A block that holds the frame of show time 1,000,000 at zone delay 4,800 and two frames before it. -/
def servingNode : State :=
  { playingNode with audio := { playingNode.audio with
      next := 43198, queue := [⟨43198, 100, 16383⟩], writePos := 99, applied := 1024 } }

theorem audioInv_serving : AudioInv servingNode where
  blocks := by decide +kernel
  nonempty := by decide +kernel
  ordered := by decide +kernel
  fill := by decide +kernel
  positions := by decide +kernel
  judged := by rintro r ⟨⟩
  roomKept := by rintro r ⟨⟩

/-- The instant of frame 172,804,096 reached alone, and one µs before it (R160). -/
def endingNode (early : SiteTime) : State :=
  { playingNode with
    clock := { playingNode.clock with
      site := goRecord.start + BitVec.ofNat 48 (cfg.zoneDelay * 125 / 6 + 172804096 * 125 / 6) - early }
    audio := { playingNode.audio with next := 172804096, play := some 172804095, outLeft := 900, outRight := -900 } }

theorem audioInv_ending : AudioInv (endingNode 0) where
  blocks := by decide +kernel
  nonempty := by decide +kernel
  ordered := by decide +kernel
  fill := by decide +kernel
  positions := by decide +kernel
  judged := by rintro r ⟨⟩
  roomKept := by rintro r ⟨⟩

theorem test_last_instant_silences :
    ((execFrameInstant (endingNode 0)) =
      .next { endingNode 0 with audio := { (endingNode 0).audio with outLeft := 0, outRight := 0 } }) ∧
    execFrameInstant (endingNode 1) = .next (endingNode 1) := ⟨rfl, rfl⟩

/-- Frame 43,200 falls at 1,000,000 µs: it is held, behind two late frames and across the end of the ring; an instant not reached;
past the last frame. -/
theorem witness_FrameInstantServes :
    (servingNode.port.held = false ∧ servingNode.config = some cfg ∧ servingNode.ctl.go = some goRecord ∧ AudioInv servingNode ∧
      servingNode.ctl.state = .running) ∧
    (servingNode.audio.next < 172804096 ∧
      ((cfg.zoneDelay * 125 / 6 + 43200 * 125 / 6 : Nat) : Int) ≤ sdiff servingNode.clock.site goRecord.start ∧
      sdiff servingNode.clock.site goRecord.start < ((cfg.zoneDelay * 125 / 6 + (43200 + 1) * 125 / 6 : Nat) : Int) ∧
      43200 < 172804096) ∧
    heldAt servingNode.audio 43200 1 ∧
    sdiff playingNode.clock.site goRecord.start < ((cfg.zoneDelay * 125 / 6 + 48000 * 125 / 6 : Nat) : Int) ∧
    (AudioInv (endingNode 0) ∧ (endingNode 0).ctl.state = .running ∧ (endingNode 0).audio.next = 172804096 ∧
      ((cfg.zoneDelay * 125 / 6 + (endingNode 0).audio.next * 125 / 6 : Nat) : Int) ≤ sdiff (endingNode 0).clock.site goRecord.start ∧
      sdiff (endingNode 0).clock.site goRecord.start < ((cfg.zoneDelay * 125 / 6 + (172804096 + 1) * 125 / 6 : Nat) : Int) ∧
      sdiff (endingNode 1).clock.site goRecord.start <
        ((cfg.zoneDelay * 125 / 6 + (endingNode 1).audio.next * 125 / 6 : Nat) : Int)) :=
  ⟨⟨rfl, rfl, rfl, audioInv_serving, rfl⟩, by decide +kernel,
    ⟨⟨43198, 100, 16383⟩, by decide +kernel, by decide +kernel⟩, by decide +kernel, audioInv_ending, by decide +kernel⟩

/-- A pin that holds its level, and one that moves: in STANDBY, first since its sample, and again; the debounce time reached, and not; an
assertion that rises in IDLE and in HALTED, with room and no HALT frame queued; CLASH; one that does not rise. -/
theorem witness_SafetyInputs :
    (let pressed := fun s : State => { s with
        clock := { s.clock with site := 70000 }
        safety := put s.safety 0 { pin := true, stable := false, since := some 50000, before := none } }
     let s := pressed idleNode
     s.port.held = false ∧ s.config = some cfg ∧ s.safety[(0 : Fin 8)].pin = true ∧ s.safety[(0 : Fin 8)].since = some 50000 ∧
      reached s.clock.site ((50000 : SiteTime) + BitVec.ofNat 48 (1000 * cfg.input[(0 : Fin 8)].debounce)) = true ∧
      reached 69999 ((50000 : SiteTime) + BitVec.ofNat 48 (1000 * cfg.input[(0 : Fin 8)].debounce)) = false ∧
      haltAsserted s = false ∧ haltAsserted (after (.debounceExpiry 0) s) = true ∧ s.ctl.state ≠ .standby ∧ s.ctl.state ≠ .halted ∧
      s.clock.clash = false ∧ s.line.queue = [] ∧ (pressed haltedNode).ctl.state = .halted ∧
      haltAsserted (pressed haltedNode) = false ∧ haltAsserted (after (.debounceExpiry 0) (pressed haltedNode)) = true ∧
      (clashed s).clock.clash = true ∧ haltAsserted (haltPressed idleNode) = true) ∧
    (listening.config = none ∧ listening.safety[(7 : Fin 8)].pin ≠ true) ∧
    (idleNode.safety[(7 : Fin 8)].pin ≠ true ∧ idleNode.safety[(7 : Fin 8)].before = none) ∧
    (after (.safetyLevelChange 7 true) idleNode).safety[(7 : Fin 8)].before = some none := by decide +kernel

/-- The invariants hold in states that a run reaches beyond reset, and a step there answers a next state. -/
theorem witness_StepKeepsPumps : PumpInv drivenNode ∧ step drivenNode = .next (after .cueTaken drivenNode) :=
  ⟨pumpInv_driven, rfl⟩

theorem witness_StepKeepsAudio : AudioInv receiving ∧ step { receiving with pending := [.audioEnd []] } = .next (after (.audioEnd []) receiving) :=
  ⟨audioInv_receiving, rfl⟩

theorem witness_StepKeepsShow :
    ShowInv playingNode ∧ step { playingNode with pending := [.stop] } = .next (after .stop playingNode) := by
  refine ⟨?_, rfl⟩
  exact ⟨by decide +kernel, by decide +kernel, fun _ => ⟨goRecord, rfl, rfl, rfl⟩, by decide +kernel, by decide +kernel, by decide +kernel,
    by decide +kernel, by decide +kernel, by decide +kernel⟩

theorem witness_StepKeepsEvents :
    EventInv (raise .peer (raise .peer idleNode)) ∧
    step { raise .peer (raise .peer idleNode) with pending := [.nop] } = .next (raise .peer (raise .peer idleNode)) := by
  exact ⟨by unfold EventInv; decide +kernel, rfl⟩

theorem witness_StepKeepsStores :
    StoreInv (sending (List.replicate 8 (freshFrame (.halt 1)))) ∧
    step { sending (List.replicate 8 (freshFrame (.halt 1))) with pending := [.beaconDue] } =
      .next (after .beaconDue (sending (List.replicate 8 (freshFrame (.halt 1))))) := by
  refine ⟨?_, rfl⟩
  constructor <;> decide +kernel

end Sys2Proof.Tests
end

