-- ==== Sys2Proof/Proofs/Layer.lean ====
section
/-! SUPPORT. Facts about the state and the shared operations that the proofs of the show's statements rest on. -/

namespace Sys2Proof.Proofs

open Sys2Proof Sys2Proof.Machine Sys2Proof.Safety

/-! ### What a command leaves alone, and the record of a host command -/

/-- What a step leaves alone, part by part. -/
theorem onlyChanges_iff (parts : List Part) (s t : State) : onlyChanges parts s t ↔
    (.pending ∉ parts → t.pending = s.pending) ∧ (.port ∉ parts → t.port = s.port) ∧
    (.config ∉ parts → t.config = s.config) ∧ (.ctl ∉ parts → t.ctl = s.ctl) ∧ (.clock ∉ parts → t.clock = s.clock) ∧
    (.line ∉ parts → t.line = s.line) ∧ (.peers ∉ parts → t.peers = s.peers) ∧ (.score ∉ parts → t.score = s.score) ∧
    (.cue ∉ parts → t.cue = s.cue) ∧ (.jets ∉ parts → t.jets = s.jets) ∧ (.pump ∉ parts → t.pump = s.pump) ∧
    (.wind ∉ parts → t.wind = s.wind) ∧ (.lamps ∉ parts → t.lamps = s.lamps) ∧ (.audio ∉ parts → t.audio = s.audio) ∧
    (.safety ∉ parts → t.safety = s.safety) ∧ (.events ∉ parts → t.events = s.events) ∧
    (.draws ∉ parts → t.draws = s.draws) := by
  constructor
  · intro h
    exact ⟨h .pending, h .port, h .config, h .ctl, h .clock, h .line, h .peers, h .score, h .cue, h .jets, h .pump, h .wind,
      h .lamps, h .audio, h .safety, h .events, h .draws⟩
  · rintro ⟨h1, h2, h3, h4, h5, h6, h7, h8, h9, h10, h11, h12, h13, h14, h15, h16, h17⟩ p
    cases p <;> assumption

@[simp] theorem onlyChanges_refl (parts : List Part) (s : State) : onlyChanges parts s s := by simp [onlyChanges_iff]

theorem onlyChanges_of_subset {p q : List Part} {s t : State} (h : onlyChanges p s t) (hpq : p ⊆ q) : onlyChanges q s t :=
  fun x hx => h x fun hp => hx (hpq hp)

/-- Two pieces of work one after the other change the parts that either changes. -/
theorem onlyChanges_trans {p q r : List Part} {s u t : State} (h : onlyChanges p s u) (h' : onlyChanges q u t)
    (hr : p ++ q ⊆ r) : onlyChanges r s t := by
  intro x hx
  have hp : x ∉ p := fun m => hx (hr (List.mem_append_left _ m))
  have hq : x ∉ q := fun m => hx (hr (List.mem_append_right _ m))
  have first := h x hp
  have second := h' x hq
  cases x <;> exact second.trans first

/-- The record a command settles replaces whatever its own work left there. -/
theorem recorded_settle (code : Byte) (r : Result) (ix : Option Nat) {s t : State}
    (h : { t.port with lastCommand := code, lastResult := r, failIndex := ix } =
      { s.port with lastCommand := code, lastResult := r, failIndex := ix }) : recorded code r ix s (settle code r ix t) := h

/-- A host command that is refused changes the last result record alone (R186). -/
theorem command_refused {s : State} {x : Host.Outcome State Fault Refusal} {code : Byte} {r : Result} {ix : Option Nat}
    {body : State → State × Result × Option Nat} (hx : x = .next (hostCommand code s body)) (h : commandTaken s)
    (hb : body s = (s, r, ix)) : ∃ t, x = .next t ∧ recorded code r ix s t ∧ onlyChanges [.port] s t := by
  obtain ⟨⟨hh, hi⟩, hc⟩ := h
  refine ⟨_, hx, ?_⟩
  rw [hostCommand_taken _ _ _ hh hi hc, hb]
  exact ⟨recorded_settle _ _ _ rfl, by simp [onlyChanges_iff]⟩

/-- A host command that is accepted does its own work and records OK (R185, R187). -/
theorem command_accepted {s u : State} {x : Host.Outcome State Fault Refusal} {code : Byte}
    {body : State → State × Result × Option Nat} (hx : x = .next (hostCommand code s body)) (h : commandTaken s)
    (hb : body s = accept u) : x = .next (settle code .ok none u) := by
  obtain ⟨⟨hh, hi⟩, hc⟩ := h
  rw [hx, hostCommand_taken _ _ _ hh hi hc, hb]; rfl

/-! ### Frames that the laws do not state yet -/

/-- The parts that the ageing of the peer table leaves alone (R59). -/
@[simp] theorem ageAll_frame (s : State) :
    (ageAll s).pending = s.pending ∧ (ageAll s).port = s.port ∧ (ageAll s).config = s.config ∧
    (ageAll s).ctl = s.ctl ∧ (ageAll s).clock = s.clock ∧ (ageAll s).line = s.line ∧ (ageAll s).score = s.score ∧
    (ageAll s).cue = s.cue ∧ (ageAll s).jets = s.jets ∧ (ageAll s).pump = s.pump ∧ (ageAll s).wind = s.wind ∧
    (ageAll s).lamps = s.lamps ∧ (ageAll s).audio = s.audio ∧ (ageAll s).safety = s.safety ∧
    (ageAll s).draws = s.draws := by
  refine ⟨?_, ?_, ?_, ?_, ?_, ?_, ?_, ?_, ?_, ?_, ?_, ?_, ?_, ?_, ?_⟩
  · exact foldl_keeps ageRecord (·.pending) (by simp) _ _
  · exact foldl_keeps ageRecord (·.port) (by simp) _ _
  · exact foldl_keeps ageRecord (·.config) (by simp) _ _
  · exact foldl_keeps ageRecord (·.ctl) (by simp) _ _
  · exact foldl_keeps ageRecord (·.clock) (by simp) _ _
  · exact foldl_keeps ageRecord (·.line) (by simp) _ _
  · exact foldl_keeps ageRecord (·.score) (by simp) _ _
  · exact foldl_keeps ageRecord (·.cue) (by simp) _ _
  · exact foldl_keeps ageRecord (·.jets) (by simp) _ _
  · exact foldl_keeps ageRecord (·.pump) (by simp) _ _
  · exact foldl_keeps ageRecord (·.wind) (by simp) _ _
  · exact foldl_keeps ageRecord (·.lamps) (by simp) _ _
  · exact foldl_keeps ageRecord (·.audio) (by simp) _ _
  · exact foldl_keeps ageRecord (·.safety) (by simp) _ _
  · exact foldl_keeps ageRecord (·.draws) (by simp) _ _

/-- The parts that stage 2 of CONFIGURE leaves alone (R189). -/
@[simp] theorem configurePeers_frame (c : ConfigRecord) (s : State) :
    (configurePeers c s).pending = s.pending ∧ (configurePeers c s).port = s.port ∧
    (configurePeers c s).config = s.config ∧ (configurePeers c s).ctl = s.ctl ∧ (configurePeers c s).clock = s.clock ∧
    (configurePeers c s).line = s.line ∧ (configurePeers c s).score = s.score ∧ (configurePeers c s).cue = s.cue ∧
    (configurePeers c s).jets = s.jets ∧ (configurePeers c s).pump = s.pump ∧ (configurePeers c s).wind = s.wind ∧
    (configurePeers c s).lamps = s.lamps ∧ (configurePeers c s).audio = s.audio ∧
    (configurePeers c s).safety = s.safety ∧ (configurePeers c s).draws = s.draws := by simp [configurePeers]

/-- The parts that stage 5 of the pump period leaves alone (R112, R116). -/
@[simp] theorem stageCommands_frame (c : ConfigRecord) (s : State) :
    (stageCommands c s).pending = s.pending ∧ (stageCommands c s).port = s.port ∧
    (stageCommands c s).config = s.config ∧ (stageCommands c s).ctl = s.ctl ∧ (stageCommands c s).clock = s.clock ∧
    (stageCommands c s).line = s.line ∧ (stageCommands c s).peers = s.peers ∧ (stageCommands c s).score = s.score ∧
    (stageCommands c s).cue = s.cue ∧ (stageCommands c s).jets = s.jets ∧ (stageCommands c s).wind = s.wind ∧
    (stageCommands c s).lamps = s.lamps ∧ (stageCommands c s).audio = s.audio ∧ (stageCommands c s).safety = s.safety ∧
    (stageCommands c s).events = s.events ∧ (stageCommands c s).draws = s.draws := by
  refine ⟨?_, ?_, ?_, ?_, ?_, ?_, ?_, ?_, ?_, ?_, ?_, ?_, ?_, ?_, ?_, ?_⟩
  · exact foldl_keeps (commandChannel c) (·.pending) (by simp) _ _
  · exact foldl_keeps (commandChannel c) (·.port) (by simp) _ _
  · exact foldl_keeps (commandChannel c) (·.config) (by simp) _ _
  · exact foldl_keeps (commandChannel c) (·.ctl) (by simp) _ _
  · exact foldl_keeps (commandChannel c) (·.clock) (by simp) _ _
  · exact foldl_keeps (commandChannel c) (·.line) (by simp) _ _
  · exact foldl_keeps (commandChannel c) (·.peers) (by simp) _ _
  · exact foldl_keeps (commandChannel c) (·.score) (by simp) _ _
  · exact foldl_keeps (commandChannel c) (·.cue) (by simp) _ _
  · exact foldl_keeps (commandChannel c) (·.jets) (by simp) _ _
  · exact foldl_keeps (commandChannel c) (·.wind) (by simp) _ _
  · exact foldl_keeps (commandChannel c) (·.lamps) (by simp) _ _
  · exact foldl_keeps (commandChannel c) (·.audio) (by simp) _ _
  · exact foldl_keeps (commandChannel c) (·.safety) (by simp) _ _
  · exact foldl_keeps (commandChannel c) (·.events) (by simp) _ _
  · exact foldl_keeps (commandChannel c) (·.draws) (by simp) _ _

/-- The parts that the stages of the pump period leave alone (R103). -/
@[simp] theorem pumpStages_frame (c : ConfigRecord) (fb : BitVec 4) (s : State) :
    (pumpStages c fb s).pending = s.pending ∧ (pumpStages c fb s).port = s.port ∧
    (pumpStages c fb s).config = s.config ∧ (pumpStages c fb s).ctl = s.ctl ∧ (pumpStages c fb s).clock = s.clock ∧
    (pumpStages c fb s).peers = s.peers ∧ (pumpStages c fb s).score = s.score ∧ (pumpStages c fb s).cue = s.cue ∧
    (pumpStages c fb s).lamps = s.lamps ∧ (pumpStages c fb s).audio = s.audio ∧
    (pumpStages c fb s).safety = s.safety ∧ (pumpStages c fb s).draws = s.draws := by simp [pumpStages]

/-! ### The stages of CUE SEEK (R81, R82) -/

/-- CUE SEEK first clears the late count and the last mark. -/
def seekCleared (s : State) : State := { s with cue := { s.cue with lateCount := 0, lastMark := 0 } }

/-- The actions of the cues passed at the present show time, in score order. -/
def seekActions (c : ConfigRecord) (s : State) : List Action := (passedCues s.score (showNow s)).flatMap (cueActions c s.score)

/-- The passed actions whose due time is reached. -/
def seekDue (c : ConfigRecord) (s : State) : List Action := (seekActions c s).filter fun a => decide (a.due ≤ showNow s)

/-- The passed LEVEL actions whose due time is still ahead. -/
def seekLevels (c : ConfigRecord) (s : State) : List Action :=
  (seekActions c s).filter fun a => isLevel a.act && decide (showNow s < a.due)

/-- Actions handed over in their order, with origin SEEK. -/
def handOver (as : List Action) (s : State) : State := as.foldl (fun s a => deliver .seek a.due a.act s) s

/-- The node once a seek has handed over the retained actions and queued the LEVELs still ahead. -/
def seekHanded (c : ConfigRecord) (s : State) : State :=
  let u := handOver (retained (seekDue c s)) (seekCleared s)
  { u with cue := { u.cue with queue := insertActions [] ((seekLevels c s).drop ((seekLevels c s).length - 64)) } }

theorem cueSeek_eq (c : ConfigRecord) (s : State) : cueSeek c s =
    if (seekActions c s).any fun a => a.act = .endShow then
      fireEnd { seekHanded c s with cue := { (seekHanded c s).cue with pointer := (seekHanded c s).score.cueCount } }
    else { seekHanded c s with cue := { (seekHanded c s).cue with
      pointer := (passedCues s.score (showNow s)).length, taking := true } } := rfl

/-! ### The tests of the commands -/

@[simp] theorem accept_fst (s : State) : (accept s).1 = s := rfl

/-- The states out of a show (R2). -/
theorem inShow_eq_false (st : ShowState) : st.inShow = false ↔ st ≠ .countdown ∧ st ≠ .running ∧ st ≠ .coda := by
  cases st <;> simp [ShowState.inShow]

theorem scoreOpenable_iff (s : State) : scoreOpenable s = true ↔ s.ctl.state = .idle ∧ s.score.frozen = false := by
  simp [scoreOpenable]

theorem matchesScore_iff (g : GoRecord) (s : State) :
    matchesScore g s = true ↔ g.showId = s.score.showId ∧ g.checksum = s.score.checksum := by
  simp [matchesScore]

/-! ### Site time and show time -/

theorem plus_natCast (t : SiteTime) (n : Nat) : plus t (n : Int) = t + BitVec.ofNat 48 n := by
  simp [plus]

theorem showTime_of_go {s : State} {g : GoRecord} (h : s.ctl.go = some g) : showTime s = some (sdiff s.clock.site g.start) := by
  simp [showTime, h]

theorem showNow_of_go {s : State} {g : GoRecord} (h : s.ctl.go = some g) : showNow s = sdiff s.clock.site g.start := by
  simp [showNow, showTime_of_go h]

theorem goShowId_of_go {s : State} {g : GoRecord} (h : s.ctl.go = some g) : goShowId s = g.showId := by
  simp [goShowId, h]

/-! ### Frames asked for (R45, R46) -/

@[simp] theorem freshFrame_payload (p : Payload) : (freshFrame p).payload = p := rfl

@[simp] theorem frameClass_halt (inputs : Byte) : frameClass (.halt inputs) = 1 := rfl

@[simp] theorem frameClass_go (g : GoRecord) : frameClass (.go g) = 2 := rfl

@[simp] theorem frameClass_startAsk (pump : Byte) : frameClass (.startAsk pump) = 3 := rfl

@[simp] theorem frameClass_beacon (b : Beacon) : frameClass (.beacon b) = 4 := rfl

/-- A frame of class `n` joins behind the frames of class up to `n` (R45). -/
theorem insertFrame_of_class {f : TxFrame} {n : Nat} (h : frameClass f.payload = n) (q : List TxFrame) : insertFrame q f =
    q.takeWhile (fun g => decide (frameClass g.payload ≤ n)) ++ f :: q.dropWhile (fun g => decide (frameClass g.payload ≤ n)) := by
  subst h; rfl

/-- A request with room in the queue, and no unsent frame that it replaces, joins at the end of its class. -/
theorem requestFrame_room {s : State} {p : Payload} (hc : s.clock.clash = false) (hr : ∀ f ∈ s.line.queue, isReplaced p f = false)
    (hq : s.line.queue.length < 8) : requestFrame p s = setQueue (insertFrame s.line.queue (freshFrame p)) s := by
  have hn : s.line.queue.any (isReplaced p) = false := by simpa using hr
  simp [requestFrame, hc, enqueue, hn, hq]

/-! ### What the transitions of the show leave in the parts they change -/

theorem enterCountdown_parts (g : GoRecord) (s : State) :
    (enterCountdown g s).cue = { s.cue with taking := true, lateCount := 0, lastMark := 0 } ∧
    (enterCountdown g s).jets = (modesFollow s).jets ∧
    (enterCountdown g s).audio = { s.audio with next := 0, play := none, underrunCount := 0, skipCount := 0 } := by
  simp [enterCountdown, modesFollow]

theorem modesFollow_jet (s : State) (i : Fin 4) : (modesFollow s).jets[i] =
    { s.jets[i] with mode := if s.jets[i].mode = .closed then .following else s.jets[i].mode } := by
  simp only [modesFollow, mapModes_jets, gen_get_fin]
  cases s.jets[i].mode <;> simp

/-- ARM's effect on the parts it changes (R6, R124). -/
theorem enterArmed_parts (s : State) :
    (enterArmed s).cue = { s.cue with queue := [], pointer := 0, waiting := false, taking := false } ∧
    (enterArmed s).pump = { s.pump with chan := gen fun p => { s.pump.chan[p] with faulted := false, cause := .none } } ∧
    (enterArmed s).audio = { s.audio with outLeft := 0, outRight := 0, decay := none, underrun := false, skip := false } := by
  simp [enterArmed, pumpRearm]

theorem disarmed_parts (s : State) :
    (disarmed s).cue = { s.cue with queue := [], pointer := 0, waiting := false, taking := false } ∧
    (disarmed s).audio = { s.audio with outLeft := 0, outRight := 0, decay := none, underrun := false, skip := false } := by
  simp [disarmed]

theorem stopCountdown_parts (s : State) :
    (stopCountdown s).cue = { s.cue with queue := [], pointer := 0, waiting := false, taking := false } ∧
    (stopCountdown s).jets = (figuresClear (modesClose s)).jets ∧
    (stopCountdown s).pump = (pumpClear s).pump ∧
    (stopCountdown s).audio = { s.audio with outLeft := 0, outRight := 0, decay := none, underrun := false, skip := false } ∧
    (stopCountdown s).events = s.events.raised .state := by
  simp [stopCountdown, figuresClear, modesClose, pumpClear]

@[simp] theorem figuresClear_jet (s : State) (i : Nat) (h : i < 4) :
    (figuresClear s).jets[i] = { s.jets[i] with valve := .empty, lamp := .empty } := by
  simp [figuresClear]

@[simp] theorem pumpClear_chan (s : State) (p : Nat) (h : p < 4) : (pumpClear s).pump.chan[p] = { s.pump.chan[p] with height := .zero } := by
  simp [pumpClear]

/-- A STOP taken in COUNTDOWN writes the show time and the show id of the GO record (R14). -/
theorem stopCountdown_ctl_of_go {s : State} {g : GoRecord} (h : s.ctl.go = some g) : (stopCountdown s).ctl =
    { s.ctl with
      state := .armed, go := none, pendingCoda := none, codaDeadline := none, codaCause := none, codaTested := false
      result := { kind := .stopped, showId := g.showId, endTime := sdiff s.clock.site g.start } } := by
  rw [stopCountdown_ctl, goShowId_of_go h, showNow_of_go h]

/-- AUDIO CLEAR gives every field of the audio unit its reset value, but for the two counts, the next gain update and a
command trimmed entirely (R159, R168). -/
theorem audioClear_audio (s : State) : (audioClear s).audio = { AudioUnit.reset with
    underrunCount := s.audio.underrunCount, skipCount := s.audio.skipCount, nextGain := s.audio.nextGain
    reception := keptReception s } := by
  simp only [audioClear, discardReception, keptReception]
  split
  case h_1 hn => simp [hn, AudioUnit.reset]
  case h_2 r hr =>
    split
    case isTrue hk => simp [hr, hk, Option.filter, AudioUnit.reset]
    case isFalse hk => simp [hr, hk, Option.filter, AudioUnit.reset]

/-- The record of the host port after AUDIO CLEAR: a block under reception that is discarded writes STATE (R159). -/
theorem audioClear_port (s : State) : (audioClear s).port =
    if keptReception s = s.audio.reception then s.port
    else { s.port with lastCommand := 0x50, lastResult := .state, failIndex := none } := by
  simp only [audioClear, discardReception, keptReception]
  split
  case h_1 hn => simp [hn]
  case h_2 r hr =>
    split
    case isTrue hk => simp [hr, hk, Option.filter]
    case isFalse hk => simp [hr, hk, Option.filter]

/-- What the entry to IDLE at the end of a coda or at RELEASE leaves in the parts it clears (R19, R22). -/
theorem enterIdle_parts (s : State) :
    (enterIdle s).jets = (figuresClear (modesClose s)).jets ∧ (enterIdle s).pump = (pumpClear s).pump ∧
    (enterIdle s).audio = (audioClear s).audio ∧ (enterIdle s).port = (audioClear s).port := by
  have hk (t : State) (h : t.audio = s.audio) : keptReception t = keptReception s := by simp [keptReception, h]
  refine ⟨by simp [enterIdle, figuresClear, modesClose], by simp [enterIdle, pumpClear], ?_, ?_⟩
  · simp [enterIdle, audioClear_audio, hk, AudioUnit.reset]
  · simp [enterIdle, audioClear_port, hk]

@[simp] theorem evaluateLamps_master (s : State) : (evaluateLamps s).lamps.master = s.lamps.master := by
  unfold evaluateLamps
  split <;> rfl

/-- The evaluation of the lamps writes duties alone (R144). -/
theorem evaluateLamps_fade (s : State) (l : Nat) (h : l < 16) :
    (evaluateLamps s).lamps.lamp[l] = { s.lamps.lamp[l] with duty := ((evaluateLamps s).lamps.lamp[l]).duty } := by
  unfold evaluateLamps
  split
  · rfl
  · simp

/-- In IDLE every lamp is black with no fade in progress, and the master is full (R143). -/
theorem enterIdle_lamps (s : State) : (enterIdle s).lamps.master = .fullMaster ∧ ∀ (l : Nat) (h : l < 16),
    (enterIdle s).lamps.lamp[l] =
      { start := black, target := black, anchor := 0, len := 0, duty := ((enterIdle s).lamps.lamp[l]).duty } := by
  refine ⟨by simp [enterIdle, lampClear], fun l h => ?_⟩
  conv_lhs => rw [enterIdle, evaluateLamps_fade]
  simp [lampClear, enterIdle]

end Sys2Proof.Proofs
end

