-- ==== Sys2Proof/Proofs/ShowInvariant.lean ====
section
/-! The show controller's invariant (R2, R5, R61) is kept by every step. -/

namespace Sys2Proof.Proofs

open Sys2Proof Sys2Proof.Machine Sys2Proof.Safety

/-! ### What the invariant reads, and the wrappers of the commands -/

/-- The invariant reads the configuration, the show controller and the score alone. -/
theorem showInv_congr {s t : State} (h : ShowInv s) (hc : t.config = s.config) (hk : t.ctl = s.ctl) (hs : t.score = s.score) :
    ShowInv t := by
  obtain ⟨h1, h2, h3, h4, h5, h6, h7, h8, h9⟩ := h
  constructor <;> simp only [hc, hk, hs] <;> assumption

/-- What holds of the state and of the work done on it holds of the work done unless the part is held. -/
theorem unlessHeld_of {P : State → Prop} {s : State} {f : State → State} (hs : P s) (hf : P (f s)) : P (unlessHeld s f) := by
  unfold unlessHeld; split <;> assumption

theorem unlessDeaf_of {P : State → Prop} {s : State} {f : State → State} (hs : P s) (hf : P (f s)) : P (unlessDeaf s f) := by
  unfold unlessDeaf; split <;> assumption

theorem showInv_settle {s : State} (code : Byte) (r : Result) (ix : Option Nat) (h : ShowInv s) : ShowInv (settle code r ix s) :=
  showInv_congr h (by simp) (by simp) (by simp)

theorem showInv_setCue {s : State} (k : CueEngine) (h : ShowInv s) : ShowInv { s with cue := k } := showInv_congr h rfl rfl rfl

theorem showInv_endFrame {s : State} (h : ShowInv s) : ShowInv (endFrame s) :=
  showInv_congr h (by simp) (by simp) (by simp)

theorem showInv_raise {s : State} (src : Source) (h : ShowInv s) : ShowInv (raise src s) :=
  showInv_congr h (by simp) (by simp) (by simp)

/-- A host command keeps the invariant where its body does (R186). -/
theorem showInv_hostCommand {s : State} (code : Byte) (body : State → State × Result × Option Nat) (h : ShowInv s)
    (hb : ShowInv (body s).1) : ShowInv (hostCommand code s body) := by
  unfold hostCommand
  refine unlessDeaf_of h ?_
  split
  · exact showInv_settle _ _ _ h
  · exact showInv_settle _ _ _ hb

theorem showInv_incomplete {s : State} (code : Byte) (h : ShowInv s) : ShowInv (incomplete code s) :=
  showInv_endFrame (unlessDeaf_of h (showInv_settle _ _ _ h))

/-- A received frame keeps the invariant where its hand-over does (R52). -/
theorem showInv_receiveFrame {s : State} (sender : Byte) (f : Fin 32 → State → State) (h : ShowInv s)
    (hf : ∀ i, ShowInv (f i (setRx .ready s))) : ShowInv (receiveFrame sender s f) := by
  unfold receiveFrame
  refine unlessHeld_of h ?_
  split
  · exact h
  · split
    · exact showInv_congr h (by simp) (by simp) (by simp)
    · exact hf _

/-! ### The transitions of the show controller -/

theorem showInv_enterCountdown {s : State} (g : GoRecord) (h : ShowInv s) (ha : s.ctl.state = .armed)
    (hm : g.showId = s.score.showId ∧ g.checksum = s.score.checksum) : ShowInv (enterCountdown g s) := by
  obtain ⟨h1, h2, h3, h4, h5, h6, h7, h8, h9⟩ := h
  constructor <;> simp_all [ShowState.inShow]

theorem showInv_enterRunning {s : State} (h : ShowInv s) (hc : s.ctl.state = .countdown) : ShowInv (enterRunning s) := by
  obtain ⟨h1, h2, h3, h4, h5, h6, h7, h8, h9⟩ := h
  constructor <;> simp_all [ShowState.inShow]

theorem showInv_enterCoda {s : State} (cause : CodaCause) (h : ShowInv s) (hr : s.ctl.state = .running) :
    ShowInv (enterCoda cause s) := by
  obtain ⟨h1, h2, h3, h4, h5, h6, h7, h8, h9⟩ := h
  constructor <;> simp_all [ShowState.inShow]

theorem showInv_fireEnd {s : State} (h : ShowInv s) : ShowInv (fireEnd s) := by
  unfold fireEnd
  split
  case h_1 hr => exact showInv_enterCoda _ h hr
  case h_2 hc => exact showInv_enterCoda _ (showInv_enterRunning h hc) (by simp)
  all_goals exact h

theorem showInv_completeCoda {s : State} (h : ShowInv s) (hc : s.ctl.state = .coda) : ShowInv (completeCoda s) := by
  obtain ⟨h1, h2, h3, h4, h5, h6, h7, h8, h9⟩ := h
  constructor <;> simp_all [ShowState.inShow]

theorem showInv_codaTest {s : State} (h : ShowInv s) : ShowInv (codaTest s) := by
  unfold codaTest
  split
  case isTrue hd =>
    refine showInv_completeCoda h ?_
    simp only [codaComplete, Bool.and_eq_true, decide_eq_true_eq] at hd
    exact hd.1.1
  case isFalse => exact h

theorem showInv_stopCountdown {s : State} (h : ShowInv s) (hc : s.ctl.state = .countdown) : ShowInv (stopCountdown s) := by
  obtain ⟨h1, h2, h3, h4, h5, h6, h7, h8, h9⟩ := h
  constructor <;> simp_all [ShowState.inShow]

theorem showInv_pendCoda {s : State} (u : SiteTime) (h : ShowInv s) (hr : s.ctl.state = .running) : ShowInv (pendCoda u s) := by
  obtain ⟨h1, h2, h3, h4, h5, h6, h7, h8, h9⟩ := h
  constructor <;> simp_all [pendCoda]

theorem showInv_enterHalted {s : State} (own : Bool) (h : ShowInv s) (hn : s.ctl.state ≠ .standby) :
    ShowInv (enterHalted own s) := by
  obtain ⟨h1, h2, h3, h4, h5, h6, h7, h8, h9⟩ := h
  cases hi : s.ctl.state.inShow
  case true =>
    have hk := enterHalted_ctl_show own s hi
    constructor <;> simp_all [ShowState.inShow]
  case false =>
    have hk := enterHalted_ctl_still own s hi
    rw [inShow_eq_false] at hi
    constructor <;> simp_all [ShowState.inShow]

theorem showInv_peerHalt {s : State} (h : ShowInv s) : ShowInv (peerHalt s) := by
  unfold peerHalt
  split
  case h_1 | h_2 => exact h
  all_goals exact showInv_enterHalted _ h (by simp [*])

theorem showInv_ownHalt {s : State} (h : ShowInv s) : ShowInv (ownHalt s) := by
  unfold ownHalt
  split
  case h_1 => exact h
  case h_2 => exact showInv_congr h (by simp) (by simp) (by simp)
  all_goals exact showInv_enterHalted _ h (by simp [*])

theorem showInv_missStart {s : State} (g : GoRecord) (h : ShowInv s) : ShowInv (missStart g s) := by
  obtain ⟨h1, h2, h3, h4, h5, h6, h7, h8, h9⟩ := h
  constructor <;> simp_all

theorem showInv_enterArmed {s : State} (h : ShowInv s) (hi : s.ctl.state = .idle) (hv : s.score.status = .valid) :
    ShowInv (enterArmed s) := by
  obtain ⟨h1, h2, h3, h4, h5, h6, h7, h8, h9⟩ := h
  constructor <;> simp_all [ShowState.inShow]

theorem showInv_disarmed {s : State} (h : ShowInv s) (ha : s.ctl.state = .armed) : ShowInv (disarmed s) := by
  obtain ⟨h1, h2, h3, h4, h5, h6, h7, h8, h9⟩ := h
  constructor <;> simp_all [ShowState.inShow]

theorem showInv_released {s : State} (h : ShowInv s) (hh : s.ctl.state = .halted) : ShowInv (released s) := by
  obtain ⟨h1, h2, h3, h4, h5, h6, h7, h8, h9⟩ := h
  constructor <;> simp_all [ShowState.inShow]

/-! ### Actions, and a late join by a seek -/

theorem showInv_deliver {s : State} (o : Origin) (due : Int) (act : Act) (h : ShowInv s) : ShowInv (deliver o due act s) := by
  unfold deliver
  split
  case h_7 => exact showInv_fireEnd h
  all_goals exact showInv_congr h (by simp) (by simp) (by simp)

theorem showInv_fireHead {s : State} (h : ShowInv s) : ShowInv (fireHead s) := by
  unfold fireHead
  split
  case h_1 => exact h
  case h_2 a rest _ =>
    have left : ShowInv (countLate a { s with cue := { s.cue with queue := rest } }) :=
      showInv_congr h (by simp) (by simp) (by simp)
    exact showInv_congr (showInv_deliver .fired a.due a.act left) (by simp) (by simp) (by simp)

theorem showInv_foldl {α : Type} (f : State → α → State) (hf : ∀ s a, ShowInv s → ShowInv (f s a)) (l : List α) {s : State}
    (h : ShowInv s) : ShowInv (l.foldl f s) := by
  induction l generalizing s with
  | nil => exact h
  | cons a l ih => exact ih (hf s a h)

theorem showInv_seekHanded {s : State} (c : ConfigRecord) (h : ShowInv s) : ShowInv (seekHanded c s) := by
  have cleared : ShowInv (seekCleared s) := showInv_congr h rfl rfl rfl
  have handed : ShowInv (handOver (retained (seekDue c s)) (seekCleared s)) :=
    showInv_foldl _ (fun s a hs => showInv_deliver _ _ _ hs) _ cleared
  exact showInv_setCue _ handed

theorem showInv_cueSeek {s : State} (c : ConfigRecord) (h : ShowInv s) : ShowInv (cueSeek c s) := by
  rw [cueSeek_eq]
  split
  · exact showInv_fireEnd (showInv_setCue _ (showInv_seekHanded c h))
  · exact showInv_setCue _ (showInv_seekHanded c h)

/-- The node right after the show state has become RUNNING by a late join, before the seek. -/
theorem showInv_joinRunning {s : State} (g : GoRecord) (h : ShowInv s) (ha : s.ctl.state = .armed)
    (hm : g.showId = s.score.showId ∧ g.checksum = s.score.checksum) :
    ShowInv (audioStart (modesFollow (setShowState .running (setCtl { s.ctl with go := some g } s)))) := by
  obtain ⟨h1, h2, h3, h4, h5, h6, h7, h8, h9⟩ := h
  constructor <;> simp_all [ShowState.inShow]

theorem showInv_lateJoin {s : State} (c : ConfigRecord) (g : GoRecord) (h : ShowInv s) (ha : s.ctl.state = .armed)
    (hm : g.showId = s.score.showId ∧ g.checksum = s.score.checksum) : ShowInv (lateJoin c g s) := by
  unfold lateJoin
  split
  · exact showInv_congr (showInv_cueSeek c (showInv_raise .state (showInv_joinRunning g h ha hm)))
      (by simp) (by simp) (by simp)
  · exact showInv_raise _ (showInv_enterCountdown g h ha hm)

/-! ### Frames from peers -/

theorem showInv_takeGo {s : State} (c : ConfigRecord) (g : GoRecord) (h : ShowInv s) (ha : s.ctl.state = .armed)
    (hm : g.showId = s.score.showId ∧ g.checksum = s.score.checksum) : ShowInv (takeGo c g s) := by
  simp only [takeGo]
  split_ifs
  · exact showInv_missStart g h
  · exact showInv_missStart g h
  · exact showInv_raise _ (showInv_enterCountdown g h ha hm)
  · exact showInv_lateJoin c g h ha hm
  · exact showInv_missStart g h

/-- The GO record of a show replaced by another of the same score (R11). -/
theorem showInv_setGo {s : State} (g : GoRecord) (h : ShowInv s) (hc : s.ctl.state = .countdown)
    (hm : g.showId = s.score.showId ∧ g.checksum = s.score.checksum) : ShowInv (setCtl { s.ctl with go := some g } s) := by
  obtain ⟨h1, h2, h3, h4, h5, h6, h7, h8, h9⟩ := h
  constructor <;> simp_all [ShowState.inShow]

theorem startDue_countdown {s : State} (h : startDue s = true) : s.ctl.state = .countdown := by
  unfold startDue at h
  split at h
  · cases h
  · simp_all

theorem pendingCodaDue_running {s : State} (h : pendingCodaDue s = true) : s.ctl.state = .running := by
  unfold pendingCodaDue at h
  split at h
  · cases h
  · simp_all

theorem showInv_startReached {s : State} (h : ShowInv s) : ShowInv (if startDue s then enterRunning s else s) := by
  split
  case isTrue hd => exact showInv_enterRunning h (startDue_countdown hd)
  case isFalse => exact h

theorem showInv_advanceGo {s : State} (g : GoRecord) (h : ShowInv s) (hc : s.ctl.state = .countdown)
    (hm : g.showId = s.score.showId ∧ g.checksum = s.score.checksum) : ShowInv (advanceGo g s) := by
  unfold advanceGo
  split
  · exact h
  · split
    · exact showInv_startReached (showInv_congr (showInv_setGo g h hc hm) (by simp) (by simp) (by simp))
    · exact h

theorem showInv_heardGo {s : State} (g : GoRecord) (h : ShowInv s) : ShowInv (heardGo g s) := by
  unfold heardGo
  split
  case h_1 ha =>
    split
    case isTrue hm => exact showInv_takeGo _ g h ha ((matchesScore_iff g s).mp hm)
    case isFalse => exact showInv_raise _ h
  case h_2 hc =>
    split
    case isTrue hm => exact showInv_advanceGo g h hc ((matchesScore_iff g s).mp hm)
    case isFalse => exact showInv_raise _ h
  case h_3 => exact h

theorem showInv_heardStop {s : State} (f : StopFrame) (h : ShowInv s) : ShowInv (heardStop f s) := by
  unfold heardStop
  split
  case h_1 hc _ =>
    split
    · exact showInv_stopCountdown h hc
    · exact h
  case h_2 hr _ =>
    split_ifs
    · exact showInv_enterCoda _ h hr
    · exact showInv_pendCoda _ h hr
    · exact h
  case h_3 => exact h

theorem showInv_joinTest {s : State} (c : ConfigRecord) (i : Fin 32) (h : ShowInv s) : ShowInv (joinTest c i s) := by
  unfold joinTest
  split
  · exact h
  · split
    case isTrue hj =>
      obtain ⟨ha, -, -, hm⟩ := hj
      exact showInv_lateJoin c _ h ha ((matchesScore_iff _ s).mp hm)
    case isFalse => exact h

theorem showInv_peerBeacon {s : State} (c : ConfigRecord) (i : Fin 32) (seq : Byte) (b : Beacon) (arrival : SiteTime)
    (h : ShowInv s) : ShowInv (peerBeacon c i seq b arrival s) := by
  have taken : ShowInv (takeOffset c i b.stamp arrival (recordBeacon i b seq arrival s)) :=
    showInv_congr h (by simp) (by simp) (by simp)
  refine showInv_joinTest c i ?_
  split
  · exact showInv_peerHalt taken
  · exact taken

/-! ### Host commands -/

theorem showInv_localStop {s : State} (h : ShowInv s) : ShowInv (localStop s).1 := by
  unfold localStop
  split
  case h_1 hc =>
    exact showInv_stopCountdown (showInv_congr h (by simp) (by simp) (by simp)) (by simpa using hc)
  case h_2 hr =>
    split
    · exact h
    · exact showInv_pendCoda _ (showInv_congr h (by simp) (by simp) (by simp)) (by simpa using hr)
  all_goals exact h

/-- The node in IDLE right after CONFIGURE's stages, before the halt test (R189). -/
theorem showInv_configured {s : State} (c : ConfigRecord) (h : ShowInv s) (hs : s.ctl.state = .standby) :
    ShowInv (evaluateLamps (setShowState .idle (configureBlocks c (configurePeers c (storeConfig c s))))) := by
  have hc : (storeConfig c s).config = some c := rfl
  obtain ⟨h1, h2, h3, h4, h5, h6, h7, h8, h9⟩ := h
  constructor <;> simp_all [ShowState.inShow]

theorem showInv_acceptConfig {s : State} (c : ConfigRecord) (h : ShowInv s) (hs : s.ctl.state = .standby) :
    ShowInv (acceptConfig c s) := by
  have idle := showInv_configured c h hs
  simp only [acceptConfig, enterConfigured]
  split
  · exact showInv_enterHalted false idle (by simp)
  · exact idle

theorem showInv_configure {s : State} (record : List Byte) (h : ShowInv s) : ShowInv (configure record s).1 := by
  unfold configure
  split
  case isTrue => exact h
  case isFalse hs =>
    split
    · exact h
    · rw [accept_fst]
      exact showInv_acceptConfig _ h (not_not.mp hs)

/-- In IDLE the score may be replaced by one that is not frozen either (R63). -/
theorem showInv_setScore {s : State} (sc : Score) (h : ShowInv s) (hi : s.ctl.state = .idle) (hf : sc.frozen = false) :
    ShowInv (setScore sc s) := by
  obtain ⟨h1, h2, h3, h4, h5, h6, h7, h8, h9⟩ := h
  constructor <;> simp_all [ShowState.inShow]

theorem storeCues_frozen (n : Nat) (bytes : List Byte) (sc : Score) : (storeCues n bytes sc).1.frozen = sc.frozen := by
  induction n generalizing bytes sc with
  | zero => rfl
  | succ n ih =>
    unfold storeCues
    split
    · rfl
    · rw [ih]; rfl

theorem storeRows_frozen (n : Nat) (bytes : List Byte) (sc : Score) : (storeRows n bytes sc).1.frozen = sc.frozen := by
  induction n generalizing bytes sc with
  | zero => rfl
  | succ n ih =>
    unfold storeRows
    split
    · rfl
    · rw [ih]

theorem showInv_scoreOpen {s : State} (header : List Byte) (h : ShowInv s) : ShowInv (scoreOpen header s).1 := by
  unfold scoreOpen
  split
  case isTrue => exact h
  case isFalse ho =>
    obtain ⟨hi, hf⟩ := (scoreOpenable_iff s).mp (by simpa using ho)
    split
    · exact h
    · exact showInv_setScore _ h hi hf

theorem showInv_scoreData {s : State} (body : List Byte) (h : ShowInv s) : ShowInv (scoreData body s).1 := by
  unfold scoreData
  split
  case isTrue => exact h
  case isFalse ho =>
    obtain ⟨hi, hf⟩ := (scoreOpenable_iff s).mp (by simp at ho; simp [ho.1])
    split
    · exact h
    · have stored : ShowInv (setScore (if byteAt body 0 = 1 then storeCues (byteAt body 1) (body.drop 2) s.score
          else storeRows (byteAt body 1) (body.drop 2) s.score).1 s) := by
        refine showInv_setScore _ h hi ?_
        split
        · rw [storeCues_frozen, hf]
        · rw [storeRows_frozen, hf]
      dsimp only
      split <;> exact stored

theorem showInv_scoreClose {s : State} (h : ShowInv s) : ShowInv (scoreClose s).1 := by
  simp only [scoreClose]
  split
  case isTrue => exact h
  case isFalse ho =>
    obtain ⟨hi, hf⟩ := (scoreOpenable_iff s).mp (by simp at ho; simp [ho.1])
    split_ifs
    · exact h
    · exact h
    · split
      · exact h
      · exact showInv_setScore _ h hi hf

theorem showInv_checksumComplete {s : State} (h : ShowInv s) (hc : s.score.status = .checking) :
    ShowInv { setScore { s.score with checksum := imageChecksum s.score, status := .valid } s with draws := s.draws + 1 } := by
  obtain ⟨h1, h2, h3, h4, h5, h6, h7, h8, h9⟩ := h
  constructor <;> simp_all [setScore]

theorem showInv_arm {s : State} (h : ShowInv s) :
    ShowInv (match armRefusal s with | some r => refuse s r | none => accept (enterArmed s)).1 := by
  split
  case h_1 => exact h
  case h_2 hn =>
    have hi : s.ctl.state = .idle ∧ s.score.status = .valid := by
      unfold armRefusal at hn
      split_ifs at hn; simp_all
    exact showInv_enterArmed h hi.1 hi.2

theorem showInv_startLocal {s : State} (delay : Nat) (h : ShowInv s) (ha : s.ctl.state = .armed) : ShowInv (startLocal delay s) :=
  showInv_congr (showInv_enterCountdown (localGo delay s) h ha ⟨rfl, rfl⟩) (by simp [startLocal]) (by simp [startLocal])
    (by simp [startLocal])

theorem goRefusal_none {s : State} (h : goRefusal s = none) :
    s.ctl.state = .armed ∧ s.clock.clash = false ∧ haltAsserted s = false ∧ s.clock.locked = true := by
  unfold goRefusal at h
  split_ifs at h; simp_all

/-- Score memory out of a reset (R61, R69). -/
theorem showInv_softReset {s : State} : ShowInv (softReset s) := by
  constructor <;> simp [softReset, hardReset, State.reset, Controller.reset, ShowState.inShow, softScore]

theorem showInv_hardReset (cause : ResetCause) (s : State) : ShowInv (hardReset cause s) := by
  constructor <;> simp [hardReset, State.reset, Controller.reset, ShowState.inShow, Score.reset]

/-! ### Every command, and the clock's own work -/

/-- An occurrence that acts only when it is due keeps the invariant where its work does. -/
theorem showInv_whenDue {s : State} (due : State → Bool) (f : State → State) (h : ShowInv s)
    (hf : due s = true → ShowInv (f s)) : ShowInv (unlessHeld s fun s => if due s then f s else s) := by
  refine unlessHeld_of h ?_
  split
  case isTrue hd => exact hf hd
  case isFalse => exact h

/-- Of the score the running of time changes the age of a checksum computation alone (R68). -/
theorem showInv_elapse {s : State} (us : Nat) (h : ShowInv s) : ShowInv (elapse us s) := by
  obtain ⟨h1, h2, h3, h4, h5, h6, h7, h8, h9⟩ := h
  constructor <;> simpa [elapse]

theorem showInv_judgeAudio {s t : State} (start count : Nat) (h : ShowInv s) (ht : judgeAudio start count s = .inl t) : ShowInv t := by
  simp only [judgeAudio] at ht
  split_ifs at ht
  cases ht
  exact showInv_congr h rfl rfl rfl

/-- The mark that the deadline's test was made is no field of the invariant. -/
theorem showInv_setTested {s : State} (h : ShowInv s) : ShowInv (setCtl { s.ctl with codaTested := true } s) := by
  obtain ⟨h1, h2, h3, h4, h5, h6, h7, h8, h9⟩ := h
  constructor <;> simpa

theorem showInv_stableChange {s : State} (c : ConfigRecord) (i : Fin 8) (h : ShowInv s) : ShowInv (stableChange c i s) := by
  simp only [stableChange]
  split
  · exact showInv_ownHalt (showInv_congr h (by simp) (by simp) (by simp))
  · exact showInv_congr h (by simp) (by simp) (by simp)

theorem showInv_beaconReceived {s : State} (sender seq : Byte) (b : Beacon) (arrival : SiteTime) (h : ShowInv s) :
    ShowInv (receiveFrame sender s fun i s => match s.config with
      | none => recordBeacon i b seq arrival s
      | some c => if i = c.own then hearClash s else peerBeacon c i seq b arrival s) := by
  have ready : ShowInv (setRx .ready s) := showInv_congr h (by simp) (by simp) (by simp)
  refine showInv_receiveFrame sender _ h fun i => ?_
  split
  · exact showInv_congr ready (by simp) (by simp) (by simp)
  · split
    · exact showInv_congr ready (by simp) (by simp) (by simp)
    · exact showInv_peerBeacon _ i seq b arrival ready

theorem showInv_exec {s t : State} (i : Instr) (h : ShowInv s) (he : exec i s = .next t) : ShowInv t := by
  cases i with
  | nop => cases he; exact h
  | softReset => cases he; exact unlessDeaf_of h showInv_softReset
  | ident => cases he; exact unlessDeaf_of h (showInv_congr h (by simp) (by simp) (by simp))
  | status => cases he; exact unlessDeaf_of h (showInv_congr h (by simp) (by simp) (by simp))
  | events => cases he; exact unlessDeaf_of h (showInv_congr h (by simp) (by simp) (by simp))
  | peers => cases he; exact unlessDeaf_of h (showInv_congr h (by simp) (by simp) (by simp))
  | pump channel =>
    cases he
    refine unlessDeaf_of h ?_
    split <;> exact showInv_congr h (by simp) (by simp) (by simp)
  | configure record =>
    cases he
    split
    · exact showInv_incomplete _ h
    · exact showInv_hostCommand _ _ h (showInv_configure record h)
  | scoreOpen header =>
    cases he
    split
    · exact showInv_incomplete _ h
    · exact showInv_hostCommand _ _ h (showInv_scoreOpen header h)
  | scoreData body =>
    cases he
    split
    · exact showInv_hostCommand _ _ h (showInv_scoreData body h)
    · exact showInv_incomplete _ h
  | scoreClose => cases he; exact showInv_hostCommand _ _ h (showInv_scoreClose h)
  | arm => cases he; exact showInv_hostCommand _ _ h (showInv_arm h)
  | disarm =>
    cases he
    refine showInv_hostCommand _ _ h ?_
    split
    case isTrue ha => exact showInv_disarmed h ha
    case isFalse => exact h
  | go delay =>
    cases he
    refine showInv_hostCommand _ _ h ?_
    split
    case h_1 => exact h
    case h_2 hn => exact showInv_startLocal _ h (goRefusal_none hn).1
  | stop => cases he; exact showInv_hostCommand _ _ h (showInv_localStop h)
  | release =>
    cases he
    refine showInv_hostCommand _ _ h ?_
    split
    case isTrue hr => exact showInv_released h (by simp [releasable] at hr; exact hr.1.1.1)
    case isFalse => exact h
  | audio start count =>
    cases he
    refine unlessDeaf_of h ?_
    split
    · exact showInv_settle _ _ _ h
    · split
      case h_1 hj => exact showInv_judgeAudio _ _ h hj
      case h_2 => exact showInv_settle _ _ _ h
  | eventClear set =>
    cases he
    refine showInv_hostCommand _ _ h ?_
    split
    · exact h
    · exact showInv_congr h rfl rfl rfl
  | eventMask set =>
    cases he
    refine showInv_hostCommand _ _ h ?_
    split
    · exact h
    · exact showInv_congr h rfl rfl rfl
  | unknownCommand code =>
    cases he
    split
    · exact h
    · exact showInv_hostCommand _ _ h h
  | commandIncomplete code =>
    cases he
    split
    · exact showInv_incomplete _ h
    · exact showInv_endFrame h
  | audioEnd bytes =>
    cases he
    refine showInv_endFrame (unlessDeaf_of h ?_)
    split
    · exact h
    · exact showInv_settle _ _ _ (showInv_congr h (by simp) (by simp) (by simp))
  | powerOnReset => cases he; exact showInv_hardReset _ _
  | pinReset => cases he; exact showInv_hardReset _ _
  | resetExit => cases he; exact showInv_congr h rfl rfl rfl
  | beaconReceived sender seq b arrival => cases he; exact showInv_beaconReceived sender seq b arrival h
  | goFrameReceived sender g =>
    cases he
    exact showInv_receiveFrame _ _ h fun _ => showInv_heardGo g (showInv_congr h (by simp) (by simp) (by simp))
  | stopFrameReceived sender f =>
    cases he
    exact showInv_receiveFrame _ _ h fun _ => showInv_heardStop f (showInv_congr h (by simp) (by simp) (by simp))
  | haltFrameReceived sender inputs =>
    cases he
    exact showInv_receiveFrame _ _ h fun _ => showInv_peerHalt (showInv_congr h rfl rfl rfl)
  | startAskReceived sender pumpNo arrival =>
    cases he
    refine showInv_receiveFrame _ _ h fun _ => ?_
    split <;> exact showInv_congr h (by simp) (by simp) (by simp)
  | frameFault bytes =>
    cases he
    refine unlessHeld_of h ?_
    split
    · exact h
    · exact showInv_congr h (by simp) (by simp) (by simp)
  | beaconDue =>
    cases he
    refine unlessHeld_of h ?_
    split
    · exact h
    · split
      · exact showInv_congr h (by simp) (by simp) (by simp)
      · exact h
  | attemptStart idleBits =>
    cases he
    exact showInv_whenDue (attemptDue · idleBits) startAttempt h fun _ => showInv_congr h (by simp) (by simp) (by simp)
  | transmissionComplete =>
    cases he
    refine unlessHeld_of h ?_
    split
    · exact showInv_congr h (by simp) (by simp) (by simp)
    · exact h
  | attemptFailed =>
    cases he
    refine unlessHeld_of h ?_
    split
    · exact showInv_congr h (by simp) (by simp) (by simp)
    · exact h
  | receiverReady idleBits =>
    cases he
    refine unlessHeld_of h ?_
    split
    · exact showInv_congr h (by simp) (by simp) (by simp)
    · exact h
  | roundEnd =>
    cases he
    refine unlessHeld_of h ?_
    split
    · split
      · exact showInv_congr h (by simp) (by simp) (by simp)
      · exact h
    · exact h
  | slewAdjustment =>
    cases he
    exact showInv_whenDue slewDue (fun s => elapse _ (setClock _ s)) h fun _ =>
      showInv_elapse _ (showInv_congr h (by simp) (by simp) (by simp))
  | peerStale peer =>
    cases he
    exact showInv_whenDue (staleDue · peer) (fun s => recomputeWind (makeStale peer s)) h fun _ =>
      showInv_congr h (by simp) (by simp) (by simp)
  | peerAbsent peer =>
    cases he
    exact showInv_whenDue (absentDue · peer) (fun s => recomputeWind (makeAbsent peer s)) h fun _ =>
      showInv_congr h (by simp) (by simp) (by simp)
  | startReached => cases he; exact showInv_whenDue startDue enterRunning h fun hd => showInv_enterRunning h (startDue_countdown hd)
  | pendingCodaReached =>
    cases he
    exact showInv_whenDue pendingCodaDue (enterCoda .stop) h fun hd => showInv_enterCoda _ h (pendingCodaDue_running hd)
  | codaDeadline =>
    cases he
    exact showInv_whenDue codaDeadlineDue (fun s => codaTest (setCtl { s.ctl with codaTested := true } s)) h fun _ =>
      showInv_codaTest (showInv_setTested h)
  | checksumComplete =>
    cases he
    refine unlessHeld_of h ?_
    split
    case isTrue hc => exact showInv_checksumComplete h hc
    case isFalse => exact h
  | cueTaken =>
    cases he
    refine unlessHeld_of h ?_
    split_ifs
    · exact showInv_congr h (by simp) (by simp) (by simp)
    · exact showInv_congr h (by simp) (by simp) (by simp)
    · exact h
  | actionFires => cases he; exact showInv_whenDue actionDue fireHead h fun _ => showInv_fireHead h
  | figureStepBoundary group view =>
    cases he
    exact showInv_whenDue (boundaryDue · group view) (refreshView group view) h fun _ =>
      showInv_congr h (by simp) (by simp) (by simp)
  | figureEnd group =>
    cases he
    exact showInv_whenDue (figureEndDue · group) (fun s => reportEnd group (refreshView group .lamp s)) h fun _ =>
      showInv_congr h (by simp) (by simp) (by simp)
  | pumpPeriod feedback =>
    cases he
    refine unlessHeld_of h ?_
    split
    · exact h
    · split
      · exact showInv_codaTest (showInv_congr h (by simp) (by simp) (by simp))
      · exact h
  | holdWindowEnd =>
    cases he
    exact showInv_whenDue windowEndDue endWindow h fun _ => showInv_congr h (by simp) (by simp) (by simp)
  | anemometerPulse =>
    cases he
    refine unlessHeld_of h ?_
    split
    · exact showInv_congr h rfl rfl rfl
    · exact h
  | windowClose =>
    cases he
    refine unlessHeld_of h ?_
    split
    · exact h
    · split
      · exact showInv_congr h (by simp) (by simp) (by simp)
      · exact h
  | lampPeriod =>
    cases he
    refine unlessHeld_of h ?_
    split
    · exact showInv_congr h (by simp) (by simp) (by simp)
    · exact h
  | gainUpdate =>
    cases he
    refine unlessHeld_of h ?_
    split
    · exact showInv_congr h rfl rfl rfl
    · exact h
  | frameInstant =>
    cases he
    refine unlessHeld_of h ?_
    split
    · split
      · exact showInv_congr h (by simp) (by simp) (by simp)
      · exact h
    · exact h
  | safetyLevelChange input high =>
    cases he
    dsimp only
    split
    · exact h
    · exact showInv_congr h (by simp) (by simp) (by simp)
  | debounceExpiry input =>
    cases he
    refine unlessHeld_of h ?_
    split
    · exact h
    · split
      · exact showInv_stableChange _ _ h
      · exact h

/-- Settles O56: a step is one command, or one microsecond of local time. -/
theorem stepKeepsShow : Obligations.StepKeepsShow := by
  intro s t h hs
  unfold step at hs
  split at hs
  case h_1 i rest _ =>
    have front : ShowInv { s with pending := rest } := showInv_congr h rfl rfl rfl
    exact showInv_exec i front hs
  case h_2 =>
    unfold idle at hs
    split at hs
    · cases hs; exact h
    · split at hs
      · exact showInv_exec _ h hs
      · cases hs
        exact unlessHeld_of (f := elapse 1) h (showInv_elapse 1 h)

end Sys2Proof.Proofs
end

