-- ==== Sys2Proof/Proofs/HostCommands.lean ====
section
/-! The host commands that act on the show: ARM, DISARM, GO, STOP, RELEASE and CONFIGURE. -/

namespace Sys2Proof.Proofs

open Sys2Proof Sys2Proof.Machine Sys2Proof.Safety

/-! ### ARM and DISARM (R6, R7) -/

/-- Settles O15: each clause is one branch of the command's tests, taken in their order. -/
theorem armGoDisarm : Obligations.ArmGoDisarm := by
  intro s delay h
  refine ⟨?_, ?_, ?_, ?_, ?_, ?_, ?_, ?_, ?_, ?_⟩
  · intro hi hv hc ha
    refine ⟨_, command_accepted (u := enterArmed s) rfl h (by simp [armRefusal, *]), recorded_settle _ _ _ (by simp), ?_⟩
    simp [onlyChanges_iff, enterArmed_parts]
  · intro hr
    exact command_refused rfl h (by by_cases hi : s.ctl.state = .idle <;> simp_all [armRefusal, refuse])
  · intro hi hv hc
    exact command_refused rfl h (by simp [armRefusal, refuse, *])
  · intro hi hv hc ha
    exact command_refused rfl h (by simp [armRefusal, refuse, *])
  · intro ha
    refine ⟨_, command_accepted (u := disarmed s) rfl h (by simp [ha]), recorded_settle _ _ _ (by simp), ?_⟩
    simp [onlyChanges_iff, disarmed_parts]
  · intro ha
    exact command_refused rfl h (by simp [refuse, ha])
  · intro ha
    exact command_refused rfl h (by simp [goRefusal, refuse, ha])
  · intro ha hc
    exact command_refused rfl h (by simp [goRefusal, refuse, *])
  · intro ha hc hh
    exact command_refused rfl h (by simp [goRefusal, refuse, *])
  · intro ha hc hh hl
    exact command_refused rfl h (by simp [goRefusal, refuse, *])

/-! ### GO accepted (R8) -/

theorem clampedDelay (delay : Nat) : 1000 * clamp (delay : Int) 500 60000 = ((1000 * min (max delay 500) 60000 : Nat) : Int) := by
  unfold clamp
  split_ifs <;> omega

/-- Settles O16: of a queue with room the GO frame takes the place behind the frames of class 1 and 2. -/
theorem goEntersCountdown : Obligations.GoEntersCountdown := by
  intro s delay h ha hc hh hl g
  have start : localGo delay.toNat s = g := by
    simp only [localGo, clampedDelay, plus_natCast, g]
  refine ⟨_, command_accepted (u := startLocal delay.toNat s) rfl h (by simp [goRefusal, *]), recorded_settle _ _ _ (by simp), ?_⟩
  simp only [startLocal, start]
  refine ⟨by simp, by simp [enterCountdown_parts], ?_, by simp [enterCountdown_parts], ?_, by simp [onlyChanges_iff]⟩
  · intro i
    simpa [enterCountdown_parts] using modesFollow_jet s i
  · intro hq _
    show (requestFrame (.go g) (enterCountdown g s)).line = _
    rw [requestFrame_room (by simpa using hc) (by simp [isReplaced, replaceable]) (by simpa using hq)]
    rw [insertFrame_of_class (n := 2) rfl, setQueue_line]
    simp only [enterCountdown_frame]

/-! ### STOP (R14, R15) -/

/-- Settles O17: the STOP frame is asked for before the show is left, so its fields are those of the show. -/
theorem localStop : Obligations.LocalStop := by
  intro s h
  have sent (g : GoRecord) (hg : s.ctl.go = some g) :
      sendStop s = requestFrame (.stop { showId := g.showId, codaTime := s.clock.site + 200000 }) s := by
    simp [sendStop, goShowId_of_go hg, stopTime, plus]
  refine ⟨?_, ?_, ?_⟩
  · intro g hc hg
    refine ⟨_, command_accepted (u := stopCountdown (sendStop s)) rfl h (by simp [Machine.localStop, hc]),
      recorded_settle _ _ _ (by simp), ?_⟩
    have hg' : (sendStop s).ctl.go = some g := by simpa using hg
    rw [← sent g hg]
    refine ⟨(stopCountdown_ctl_of_go hg').trans (by simp), ?_⟩
    simp [stopCountdown_parts, onlyChanges_iff]
  · intro g hr hg hp
    refine ⟨_, command_accepted (u := pendCoda (stopTime s) (sendStop s)) rfl h (by simp [Machine.localStop, hr, hp]),
      recorded_settle _ _ _ (by simp [pendCoda]), ?_⟩
    rw [← sent g hg]
    simp [pendCoda, hp, stopTime, plus, onlyChanges_iff]
  · intro hc hr
    refine command_refused rfl h ?_
    unfold Machine.localStop
    cases hs : s.ctl.state
    case countdown => exact absurd hs hc
    case running => simp [Option.isSome_iff_ne_none.mpr (hr hs), refuse]
    all_goals rfl

/-! ### RELEASE (R22) -/

theorem releasable_iff (s : State) : releasable s = true ↔ s.ctl.state = .halted ∧ haltAsserted s = false ∧
    freshPeerHalts s = false ∧ ∀ p : Fin 4, s.pump.chan[p].dOut = 0 := by
  simp [releasable, allDriveZero, and_assoc]

/-- Settles O18: the clears of the entry to IDLE, and CUE REWIND. -/
theorem releaseEntersIdle : Obligations.ReleaseEntersIdle := by
  intro s h clear
  refine ⟨?_, ?_⟩
  · intro hc
    have port : (released s).port = (audioClear s).port := by simp [released, enterIdle_parts]
    refine ⟨_, command_accepted (u := released s) rfl h (by simp [(releasable_iff s).mpr hc]),
      recorded_settle _ _ _ ?_, ?_⟩
    · rw [port, audioClear_port]
      split <;> rfl
    · have lamps := (enterIdle_lamps s).2
      refine ⟨by simp, by simp, by simp [released], ?_, ?_, ?_, by simp [released, (enterIdle_lamps s).1], ?_, ?_, ?_⟩
      · intro i; simp [released, enterIdle_parts]
      · simp [released, enterIdle_parts, pumpClear]
      · intro p; simp [released, enterIdle_parts]
      · intro l
        simp only [settle_frame, released, cueRewind_frame, Fin.getElem_fin]
        rw [lamps]
        exact ⟨rfl, rfl⟩
      · simp [released, enterIdle_parts, audioClear_audio]
      · simp [onlyChanges_iff]
  · intro hc
    exact command_refused rfl h (by simp [mt (releasable_iff s).mp hc, refuse])

end Sys2Proof.Proofs
end


-- ==== Sys2Proof/Proofs/Resets.lean ====
section
/-! Resets, the invariants at reset, and the refusals of the long commands. -/

namespace Sys2Proof.Proofs

open Sys2Proof Sys2Proof.Machine Sys2Proof.Safety

/-! ### The node after a reset -/

theorem showInv_reset : ShowInv State.reset := by
  constructor <;> simp [State.reset, Controller.reset, Score.reset, ShowState.inShow]

theorem pumpInv_reset : PumpInv State.reset := by
  constructor <;>
    simp [State.reset, PumpController.reset, Channel.reset, Channel.runOutput, Stage.inList, askCarries]

theorem storeInv_reset : StoreInv State.reset := by
  constructor <;>
    simp [State.reset, LineController.reset, CueEngine.reset, Clock.reset, WindMonitor.reset, Score.reset, AudioUnit.reset, Memory.wf]

theorem audioInv_reset : AudioInv State.reset := by
  constructor <;> simp [State.reset, AudioUnit.reset, ringFill]

/-- Settles O55: every store is empty after a reset, and the show controller is in STANDBY. -/
theorem invariantsAtReset : Obligations.InvariantsAtReset :=
  ⟨showInv_reset, by simp [EventInv, State.reset, EventUnit.reset], pumpInv_reset, storeInv_reset, audioInv_reset⟩

/-! ### Power-on, pin and soft reset (R192 to R194) -/

/-- A node whose blocks that drive outputs are at their reset values drives every output at its own (R193). -/
theorem outputs_of_reset {t : State} (hj : t.jets = Vector.replicate 4 .reset) (hp : t.pump.chan = Vector.replicate 4 .reset)
    (hl : t.lamps = .reset) (ha : t.audio = .reset) (he : t.events.pending = 0) (hq : t.line.queue = []) :
    outputs t = .atReset (misoLevel t.port) := by
  have line : onLineFrame t = none := by simp [onLineFrame, hq]
  have driven : bitsAhead t = [] := by
    unfold bitsAhead
    split
    · simp_all
    · rfl
  simp only [outputs, Outputs.atReset, Outputs.mk.injEq]
  refine ⟨?_, ?_, ?_, ?_, ?_, ?_, ?_, ?_, trivial⟩
  · ext i hi; simp [valveOutputs, hj, ValveGroup.reset]
  · ext i hi; simp [hp, Channel.runOutput, Channel.reset]
  · ext i hi; simp [hp, Channel.reset]
  · ext i hi; all_goals simp [hl, LampUnit.reset, Lamp.reset]
  · simp [ha, AudioUnit.reset]
  · simp [nevtActive, topEvent, he]
  · simp [line]
  · simp [drivenLevel, driven]

theorem resetInputs_get (s : State) (i : Fin 8) :
    (resetInputs s)[i] = { pin := s.safety[i].pin, stable := false, since := none, before := none } := by
  simp [resetInputs, SafetyInput.reset]

/-- MISO carries 0x00 in a frame that is abandoned, and is not driven with NCS high (R193, R194). -/
theorem misoLevel_abandoned (cause : ResetCause) (held : Bool) (s : State) :
    misoLevel { HostPort.reset cause held with frame := abandonedFrame s } =
      if held then none else s.port.frame.map fun _ => false := by
  cases held <;> simp [misoLevel, HostPort.reset, abandonedFrame, misoByte, Function.comp_def]

theorem outputs_hardReset (cause : ResetCause) (s : State) : outputs (hardReset cause s) = .atReset none :=
  (outputs_of_reset rfl rfl rfl rfl rfl rfl).trans (congrArg Outputs.atReset (misoLevel_abandoned cause true s))

/-- Settles O3: a reset writes the reset values, and every output is a reading of them. -/
theorem resetsClear : Obligations.ResetsClear := by
  refine ⟨?_, ?_⟩
  · intro s c cause hc
    have taken : exec c s = .next (hardReset cause s) := by
      rcases hc with ⟨rfl, rfl⟩ | ⟨rfl, rfl⟩ <;> rfl
    refine ⟨_, taken, rfl, rfl, rfl, rfl, ?_, rfl, rfl, ?_, rfl, rfl, rfl, rfl, rfl, resetInputs_get s, rfl,
      outputs_hardReset cause s, ?_⟩
    · intro i; simp [hardReset, State.reset]
    · intro g; simp [hardReset, State.reset]
    · simp [onlyChanges_iff, hardReset]
  · intro s h
    have taken : exec .softReset s = .next (softReset s) := congrArg _ (unlessDeaf_listening s softReset h.1 h.2)
    refine ⟨_, taken, rfl, rfl, rfl, rfl, ?_, rfl, ?_, ?_, rfl, ?_, rfl, rfl, rfl, rfl, resetInputs_get s, rfl, rfl, ?_, ?_⟩
    · intro i; simp [softReset, hardReset, State.reset]
    · intro hv; simp [softReset, softScore, hv]
    · intro hv; simp [softReset, softScore, hv]
    · intro g; simp [softReset, hardReset, State.reset]
    · exact (outputs_of_reset rfl rfl rfl rfl rfl rfl).trans (congrArg Outputs.atReset (misoLevel_abandoned .soft false s))
    · simp [onlyChanges_iff, softReset, hardReset]

/-! ### Refusals of CONFIGURE and SCORE DATA -/

/-- The part bytes that SCORE DATA takes (R65). -/
theorem within_part_iff (part : Byte) : within 1 2 part.toNat = true ↔ part = 1 ∨ part = 2 := by
  simp [within, BitVec.toNat_eq]; omega

theorem partSize_eq (part : Byte) : partSize part.toNat = if part = 1 then 16 else 2 := by
  simp [partSize, BitVec.toNat_eq]

theorem legalPartByte_iff (part : Byte) : (part ≠ 1 ∧ part ≠ 2) ↔ ¬ within 1 2 part.toNat = true := by
  rw [within_part_iff]; tauto

/-- The bytes that SCORE DATA asks for with its part byte alone (R65). -/
theorem dataLength_part (part : Byte) : dataLength [part] = if within 1 2 part.toNat then 2 else 1 := by
  simp only [dataLength, legalPartByte_iff, ite_not]

/-- The bytes that SCORE DATA asks for, by its part and count (R65). -/
theorem dataLength_count (part n : Byte) (rest : List Byte) : dataLength (part :: n :: rest) =
    if within 1 2 part.toNat then (if within 1 32 n.toNat then 2 + n.toNat * partSize part.toNat else 2) else 1 := by
  have count : (n.toNat < 1 ∨ 32 < n.toNat) ↔ ¬ within 1 32 n.toNat = true := by simp [within]; omega
  simp only [dataLength, legalPartByte_iff, count, ite_not, partSize_eq]

/-- SCORE DATA is whole once the bytes its part and count ask for have arrived (R65, R185). -/
theorem dataWhole_iff (body : List Byte) : dataWhole body = true ↔ dataLength body ≤ body.length := by
  match body with
  | [] => simp [dataWhole, dataLength]
  | [part] => by_cases hp : within 1 2 part.toNat <;> simp [dataWhole, dataLength_part, byteAt, hp]
  | part :: n :: rest =>
    by_cases hp : within 1 2 part.toNat
    · by_cases hn : within 1 32 n.toNat <;> simp [dataWhole, dataLength_count, byteAt, hp, hn]
    · simp [dataWhole, dataLength_count, byteAt, hp]

theorem exec_configure_whole (s : State) {record : List Byte} (h : 605 ≤ record.length) :
    exec (.configure record) s = .next (hostCommand 0x20 s (configure record)) :=
  congrArg Host.Outcome.next (if_neg (Nat.not_lt.mpr h))

theorem exec_configure_short (s : State) {record : List Byte} (h : record.length < 605) :
    exec (.configure record) s = .next (incomplete 0x20 s) :=
  congrArg Host.Outcome.next (if_pos h)

theorem exec_scoreData_whole (s : State) {body : List Byte} (h : dataLength body ≤ body.length) :
    exec (.scoreData body) s = .next (hostCommand 0x31 s (scoreData body)) :=
  congrArg Host.Outcome.next (if_pos ((dataWhole_iff body).mpr h))

theorem exec_scoreData_short (s : State) {body : List Byte} (h : body.length < dataLength body) :
    exec (.scoreData body) s = .next (incomplete 0x31 s) :=
  congrArg Host.Outcome.next (if_neg (mt (dataWhole_iff body).mp (Nat.not_le.mpr h)))

/-- A command cut short is discarded with INCOMPLETE, and its frame ends (R185). -/
theorem command_cut {s : State} {x : Host.Outcome State Fault Refusal} {code : Byte} (hx : x = .next (incomplete code s))
    (h : listens s) : ∃ t, x = .next t ∧ recordedAtEnd code .incomplete none s t ∧ onlyChanges [.port] s t := by
  refine ⟨_, hx, ?_⟩
  rw [incomplete, unlessDeaf_listening _ _ h.1 h.2]
  exact ⟨rfl, by simp [onlyChanges_iff]⟩

/-- A part byte and a count outside their ranges (R65). -/
theorem legalPart_false_iff (body : List Byte) : legalPart body = false ↔
    byteAt body 0 = 0 ∨ 2 < byteAt body 0 ∨ byteAt body 1 = 0 ∨ 32 < byteAt body 1 := by
  simp only [legalPart, within, Bool.and_eq_false_iff, decide_eq_false_iff_not]
  omega

/-- Settles O10: each refusal is the first test that fails, and a command cut short reaches no test. -/
theorem longCommandsRefused : Obligations.LongCommandsRefused := by
  refine ⟨fun s record => ⟨?_, ?_, ?_⟩, fun s body => ⟨?_, ?_, ?_⟩⟩
  · intro h hl hs
    exact command_refused (exec_configure_whole s hl) h (by simp [configure, hs, refuse])
  · intro h hl hs offset ho
    exact command_refused (exec_configure_whole s hl) h (by simp [configure, hs, ho])
  · intro h hl
    exact command_cut (exec_configure_short s hl) h
  · intro h hl hs
    have closed : (!scoreOpenable s || decide (s.score.status ≠ .loading)) = true := by
      rw [Bool.or_eq_true, Bool.not_eq_true', ← Bool.not_eq_true, scoreOpenable_iff, decide_eq_true_eq]
      rcases hs with hs | hs | hs <;> simp [hs]
    exact command_refused (exec_scoreData_whole s hl.ge) h (by rw [scoreData, if_pos closed, refuse])
  · intro h hl hi hf hs hp
    have openable : scoreOpenable s = true := by simp [scoreOpenable, hi, hf]
    exact command_refused (exec_scoreData_whole s hl.ge) h
      (by simp [scoreData, openable, hs, (legalPart_false_iff body).mpr hp, refuse])
  · intro h hl
    exact command_cut (exec_scoreData_short s hl) h

end Sys2Proof.Proofs
end

