-- ==== Sys2Proof/Proofs/Transitions.lean ====
section
/-! SUPPORT. HALT entry and the entry to CODA, as the statements name them. -/

namespace Sys2Proof.Proofs

open Sys2Proof Sys2Proof.Machine Sys2Proof.Safety

/-! ### HALT entry and the entry to CODA -/

/-- A fade of the gain to 0 from the applied gain, at the moment it begins (R164, R166). -/
theorem fadeOut_present (s : State) (a len : Nat) :
    (Fade.mk a 0 (showNow s) len).present (showTime s) = if len = 0 ∨ s.ctl.go = none then 0 else a := by
  cases hg : s.ctl.go with
  | none => simp [Fade.present, presentValue, showTime, hg]
  | some g =>
    by_cases hl : len = 0
    · simp [Fade.present, presentValue, showTime_of_go hg, showNow_of_go hg, hl]
    · have : ¬ 1000 * (len : Int) ≤ 0 := by omega
      simp [Fade.present, presentValue, showTime_of_go hg, showNow_of_go hg, hl, this]

/-- AUDIO CODA and AUDIO HALT: the fade begins at the applied gain, and one of no length, or with no show time, is over at once
(R166). -/
theorem audioFadeOut_audio (len : Nat) (s : State) : (audioFadeOut len s).audio = { s.audio with
    gain := { start := s.audio.applied, target := 0, anchor := showNow s, len := len }
    applied := if len = 0 ∨ s.ctl.go = none then 0 else s.audio.applied } := by
  rw [← fadeOut_present s]; rfl

/-- The duties of a lamp read these parts alone, and of a lamp its fade. -/
theorem lampDuty_congr {s t : State} (hc : t.config = s.config) (hk : t.ctl = s.ctl) (ht : t.clock = s.clock)
    (hsc : t.score = s.score) (hj : t.jets = s.jets) (hp : t.pump = s.pump) (hm : t.lamps.master = s.lamps.master)
    (hl : ∀ (l : Fin 16) tau, t.lamps.lamp[l].colour tau = s.lamps.lamp[l].colour tau) (c : ConfigRecord) (l : Fin 16) :
    lampDuty t c l = lampDuty s c l := by
  have time : showTime t = showTime s := by simp [showTime, hk, ht]
  have opens (v : Fin 64) : lampOpen t v = lampOpen s v := by simp [lampOpen, hk, hsc, hj]
  have water (v : Fin 64) : waterPresent t v = waterPresent s v := by simp [waterPresent, opens, hc, hp]
  have accent (v : Fin 64) : accentAt t v = accentAt s v := by simp [accentAt, opens, hj]
  have values : lampValues t c l = lampValues s c l := by simp only [lampValues, time, accent, hk, hl]
  have blanked : lampBlanked t c l = lampBlanked s c l := by simp only [lampBlanked, water]
  unfold lampDuty
  rw [hk, values, blanked, time, hm]

/-- The evaluation of the lamps leaves what it evaluates (R144). -/
theorem lampDuty_evaluated (src : Source) (s : State) (c : ConfigRecord) (l : Fin 16) :
    lampDuty (raise src (evaluateLamps s)) c l = lampDuty s c l := by
  refine lampDuty_congr (by simp) (by simp) (by simp) (by simp) (by simp) (by simp) (by simp) (fun l tau => ?_) c l
  have fade := evaluateLamps_fade s l l.isLt
  simp only [raise_frame, Fin.getElem_fin]
  rw [fade]; rfl

/-- PUMP HALT: every d_cmd 0, only a running channel keeps its stage, the start list empty, the own ask vacated (R115). -/
theorem pumpHalt_pump (s : State) : (pumpHalt s).pump = { s.pump with
    chan := gen fun p => { s.pump.chan[p] with dCmd := 0, stage := if s.pump.chan[p].stage = .on then .on else .off }
    startList := [], ask := vacated s.pump.ask } := by
  have stage (st : Stage) : (if st.inList then Stage.off else st) = if st = .on then .on else .off := by
    cases st <;> rfl
  simp [pumpHalt, stage]

/-- FIGURES HOLD (R93). -/
theorem figuresHold_jet (s : State) (g : Nat) (h : g < 4) : (figuresHold s).jets[g] = { s.jets[g] with mode :=
    if s.jets[g].mode = .following then
      (if s.pump.chan[g].dOut = 0 then .closed else .holding (openSet s.score s.jets[g].valve))
    else s.jets[g].mode } := by
  simp only [figuresHold, mapModes_jets, gen_get]
  cases s.jets[g].mode <;> simp

/-- The lamps of a configured node after an evaluation, in HALTED (R150). -/
theorem lampDuty_halted {s : State} (h : s.ctl.state = .halted) (c : ConfigRecord) (l : Fin 16) : lampDuty s c l =
    if c.lamp[l].safety then { r := c.safeDuty, g := c.safeDuty, b := c.safeDuty } else black := by
  simp [lampDuty, h]

/-- HALT entry on a request of the node's own withdraws and asks for its frames first (R21). -/
theorem enterHalted_eq (own : Bool) (s : State) : enterHalted own s =
    enterHalted false (if own && !s.clock.clash then sendHalt (withdrawShowFrames s) else s) := by
  simp only [enterHalted]
  split <;> simp

theorem haltEntered_enterHalted {s : State} {c : ConfigRecord} (hc : s.config = some c) : haltEntered c s (enterHalted false s) := by
  have fade : (s.config.map (·.haltFade)).getD 0 = c.haltFade := by simp [hc]
  have entered : enterHalted false s = raise .halt (raise .state (evaluateLamps (setShowState .halted
      (haltResult (audioFadeOut c.haltFade (figuresHold (pumpHalt (cueStop s)))))))) := by
    simp [enterHalted, fade]
  have lamps := evaluateLamps_lamps (setShowState .halted (haltResult (audioFadeOut c.haltFade (figuresHold (pumpHalt (cueStop s))))))
    c (by simp [hc])
  refine ⟨?_, ?_, ?_, ?_, ?_, ?_, ?_, ?_, ?_⟩
  · cases hi : s.ctl.state.inShow
    · simp [enterHalted_ctl_still false s hi]
    · simp [enterHalted_ctl_show false s hi, goShowId]
  · simp [entered]
  · simp [entered, pumpHalt_pump]
  · simp [entered, pumpHalt_pump]
  · simp only [entered, raise_frame, evaluateLamps_frame, setShowState_frame, haltResult_frame, audioFadeOut_frame,
      figuresHold_frame, pumpHalt_pump, cueStop_frame]
    cases s.pump.ask <;> rfl
  · simp [entered, figuresHold_jet, pumpHalt_pump]
  · simp [entered, lamps]
  · intro l
    simp only [entered, raise_frame, lamps, Fin.getElem_fin, gen_get]
    rw [lampDuty_halted (by simp)]
    simp
  · simp [entered, audioFadeOut_audio, showNow, showTime]

/-- HALT entry raises STATE and HALT, and changes these parts alone (R4, R21). -/
theorem enterHalted_false_frame (s : State) : (enterHalted false s).events = (s.events.raised .state).raised .halt ∧
    (enterHalted false s).line = s.line := by
  simp [enterHalted]

theorem codaEntered_enterCoda {s : State} {c : ConfigRecord} {g : GoRecord} (cause : CodaCause) (hc : s.config = some c)
    (hg : s.ctl.go = some g) : codaEntered c cause s (enterCoda cause s) := by
  have len : codaLength s = c.codaLength := by simp [codaLength, hc]
  have deadline : plus s.clock.site (1000 * (c.codaLength : Int)) = s.clock.site + BitVec.ofNat 48 (1000 * c.codaLength) := by
    rw [← plus_natCast]; push_cast; rfl
  have entered : ∃ u : State, enterCoda cause s = raise .state (evaluateLamps u) ∧ u.config = some c ∧
      u.lamps = (lampCoda c.codaLength s).lamps ∧ u.audio = (audioFadeOut c.codaLength s).audio := by
    refine ⟨_, rfl, ?_, ?_, ?_⟩
    · simp [hc]
    · simp [lampCoda, showTime, showNow, len]
    · simp [audioFadeOut_audio, showTime, showNow, len]
  obtain ⟨u, entered, hu, lamps, audio⟩ := entered
  have pump : (enterCoda cause s).pump = (pumpCoda c.codaLength s).pump := by
    simp [enterCoda, pumpCoda, showTime, showNow, len]
  have fades := evaluateLamps_lamps u c hu
  refine ⟨?_, ?_, ?_, ?_, ?_, ?_, ?_, ?_, ?_⟩
  · rw [enterCoda_ctl, len, deadline]
  · simp [enterCoda]
  · simp [pump, pumpCoda]
  · intro p
    simp [pump, pumpCoda, Fade.fadeTo]
  · simp [entered, fades, lamps, lampCoda]
  · intro l
    rw [entered, lampDuty_evaluated]
    simp [fades, lamps, lampCoda, Lamp.fadeTo]
  · simp [entered, audio, audioFadeOut_audio, hg]
  · simp [enterCoda]
  · simp [onlyChanges_iff]

end Sys2Proof.Proofs
end

