-- ==== Sys2Proof/Proofs/LateJoin.lean ====
section
/-! SUPPORT. A late join: what it leaves alone, and what a seek's hand-overs do to the show controller. -/

namespace Sys2Proof.Proofs

open Sys2Proof Sys2Proof.Machine Sys2Proof.Safety

/-! ### What a late join leaves alone -/

theorem foldl_keeps_of_mem {α β : Type} (f : State → α → State) (get : State → β) {l : List α}
    (h : ∀ s, ∀ a ∈ l, get (f s a) = get s) (s : State) : get (l.foldl f s) = get s := by
  induction l generalizing s with
  | nil => rfl
  | cons a l ih =>
    rw [List.foldl_cons, ih (fun s b hb => h s b (List.mem_cons_of_mem _ hb)), h s a List.mem_cons_self]

@[simp] theorem handOver_frame (as : List Action) (s : State) :
    (handOver as s).pending = s.pending ∧ (handOver as s).port = s.port ∧ (handOver as s).config = s.config ∧
    (handOver as s).clock = s.clock ∧ (handOver as s).line = s.line ∧ (handOver as s).peers = s.peers ∧
    (handOver as s).score = s.score ∧ (handOver as s).wind = s.wind ∧ (handOver as s).safety = s.safety ∧
    (handOver as s).draws = s.draws := by
  let f (s : State) (a : Action) : State := deliver .seek a.due a.act s
  refine ⟨?_, ?_, ?_, ?_, ?_, ?_, ?_, ?_, ?_, ?_⟩
  · exact foldl_keeps f (·.pending) (by simp [f]) _ _
  · exact foldl_keeps f (·.port) (by simp [f]) _ _
  · exact foldl_keeps f (·.config) (by simp [f]) _ _
  · exact foldl_keeps f (·.clock) (by simp [f]) _ _
  · exact foldl_keeps f (·.line) (by simp [f]) _ _
  · exact foldl_keeps f (·.peers) (by simp [f]) _ _
  · exact foldl_keeps f (·.score) (by simp [f]) _ _
  · exact foldl_keeps f (·.wind) (by simp [f]) _ _
  · exact foldl_keeps f (·.safety) (by simp [f]) _ _
  · exact foldl_keeps f (·.draws) (by simp [f]) _ _

@[simp] theorem cueSeek_frame (c : ConfigRecord) (s : State) :
    (cueSeek c s).pending = s.pending ∧ (cueSeek c s).port = s.port ∧ (cueSeek c s).config = s.config ∧
    (cueSeek c s).clock = s.clock ∧ (cueSeek c s).line = s.line ∧ (cueSeek c s).peers = s.peers ∧
    (cueSeek c s).score = s.score ∧ (cueSeek c s).wind = s.wind ∧ (cueSeek c s).safety = s.safety ∧
    (cueSeek c s).draws = s.draws := by
  rw [cueSeek_eq]
  split <;> simp [seekHanded, seekCleared]

@[simp] theorem lateJoin_frame (c : ConfigRecord) (g : GoRecord) (s : State) :
    (lateJoin c g s).pending = s.pending ∧ (lateJoin c g s).port = s.port ∧ (lateJoin c g s).config = s.config ∧
    (lateJoin c g s).clock = s.clock ∧ (lateJoin c g s).line = s.line ∧ (lateJoin c g s).peers = s.peers ∧
    (lateJoin c g s).score = s.score ∧ (lateJoin c g s).wind = s.wind ∧ (lateJoin c g s).safety = s.safety ∧
    (lateJoin c g s).draws = s.draws := by
  simp only [lateJoin]
  split <;> simp

/-! ### The show controller's state after a seek -/

theorem act_of_mem_retainColours {left : Word16} {as : List Action} {a : Action} (h : a ∈ retainColours left as) :
    ∃ set colour len, a.act = .colour set colour len := by
  induction as generalizing left with
  | nil => cases h
  | cons b as ih =>
    unfold retainColours at h
    split at h
    · split at h
      · exact ih h
      · rcases List.mem_cons.mp h with rfl | h
        · exact ⟨_, _, _, rfl⟩
        · exact ih h
    all_goals exact ih h

theorem lastAction_keep {keep : Act → Bool} {as : List Action} {a : Action} (h : lastAction keep as = some a) :
    keep a.act = true := by
  simpa using List.find?_some h

/-- An action that gives a target a new value; a MARK or an END does not. -/
def hasTarget : Act → Bool
  | .height _ _ _ | .figure _ _ _ | .colour _ _ _ | .master _ _ | .level _ _ => true
  | .mark _ | .endShow => false

/-- A seek hands over no MARK, and no END before its hand-overs (R81, R82). -/
theorem hasTarget_of_mem_retained {as : List Action} {a : Action} (h : a ∈ retained as) : hasTarget a.act = true := by
  simp only [retained, List.mem_append, List.mem_filterMap, List.mem_flatMap, Option.mem_toList, List.mem_reverse] at h
  rcases h with (((⟨_, -, h⟩ | ⟨_, -, h | h⟩) | h) | h) | h
  case inl.inl.inr =>
    obtain ⟨_, _, _, hc⟩ := act_of_mem_retainColours h
    simp [hc, hasTarget]
  all_goals
    have keep := lastAction_keep h
    cases ha : a.act <;> simp_all [hasTarget]

/-- A hand-over of a seek raises no event (R99), and leaves the show controller and the cue engine alone. -/
theorem deliver_seek_keeps {act : Act} (h : hasTarget act = true) (due : Int) (s : State) :
    (deliver .seek due act s).ctl = s.ctl ∧ (deliver .seek due act s).cue = s.cue ∧
    (deliver .seek due act s).events = s.events := by
  cases act <;> simp_all [hasTarget, deliver, writeView]

theorem handOver_retained_keeps (as : List Action) (s : State) : (handOver (retained as) s).ctl = s.ctl ∧
    (handOver (retained as) s).cue = s.cue ∧ (handOver (retained as) s).events = s.events := by
  have kept (s : State) (a : Action) (ha : a ∈ retained as) := deliver_seek_keeps (hasTarget_of_mem_retained ha) a.due s
  exact ⟨foldl_keeps_of_mem _ (·.ctl) (fun s a ha => (kept s a ha).1) s,
    foldl_keeps_of_mem _ (·.cue) (fun s a ha => (kept s a ha).2.1) s,
    foldl_keeps_of_mem _ (·.events) (fun s a ha => (kept s a ha).2.2) s⟩

theorem seekHanded_keeps (c : ConfigRecord) (s : State) :
    (seekHanded c s).ctl = s.ctl ∧ (seekHanded c s).events = s.events := by
  obtain ⟨ctl, -, events⟩ := handOver_retained_keeps (seekDue c s) (seekCleared s)
  exact ⟨ctl, events⟩

/-- After a seek in RUNNING the node is RUNNING, or in CODA with END passed, and its GO record is kept. -/
theorem cueSeek_ctl {s : State} (c : ConfigRecord) (h : s.ctl.state = .running) :
    (cueSeek c s).ctl.go = s.ctl.go ∧ ((cueSeek c s).ctl.state = .running ∨ (cueSeek c s).ctl.state = .coda) := by
  rw [cueSeek_eq]
  split <;> simp [fireEnd, seekHanded_keeps, h]

theorem lateJoin_ctl {s : State} (c : ConfigRecord) {g : GoRecord} (h : reached s.clock.site g.start = true) :
    (lateJoin c g s).ctl.go = some g ∧ ((lateJoin c g s).ctl.state = .running ∨ (lateJoin c g s).ctl.state = .coda) := by
  have joined := cueSeek_ctl (s := raise .state (audioStart (modesFollow (setShowState .running
    (setCtl { s.ctl with go := some g } s))))) c (by simp)
  simpa [lateJoin, h] using joined

/-- A late join raises STATE, and once more where it passes on to CODA (R4). -/
theorem lateJoin_events (c : ConfigRecord) (g : GoRecord) (s : State) : (lateJoin c g s).events = s.events.raised .state ∨
    (lateJoin c g s).events = (s.events.raised .state).raised .state := by
  simp only [lateJoin, cueSeek_eq]
  split
  · split
    · right
      simp [fireEnd, seekHanded_keeps, enterCoda]
    · left
      simp [seekHanded_keeps]
  · left
    simp

end Sys2Proof.Proofs
end

