-- ==== Sys2Proof/Proofs/PeerFrames.lean ====
section
/-! Frames from peers: HALT, STOP, GO and BEACON. -/

namespace Sys2Proof.Proofs

open Sys2Proof Sys2Proof.Machine Sys2Proof.Safety

theorem onlyChanges_setRx (rx : RxState) (s : State) : onlyChanges [.line] s (setRx rx s) := by simp [onlyChanges_iff]

/-! ### HALT frames (R20, R21, R54) -/

theorem peerHalt_ignored {s : State} (h : s.ctl.state = .standby ∨ s.ctl.state = .halted) : peerHalt s = s := by
  rcases h with h | h <;> simp [peerHalt, h]

theorem peerHalt_entered {s : State} (h1 : s.ctl.state ≠ .standby) (h2 : s.ctl.state ≠ .halted) :
    peerHalt s = enterHalted false s := by
  unfold peerHalt
  split <;> simp_all

/-- A halt from a peer changes these parts alone, and never the line (R20). -/
theorem peerHalt_changes (s : State) : (peerHalt s).line = s.line ∧
    onlyChanges [.ctl, .cue, .jets, .pump, .lamps, .audio, .events] s (peerHalt s) := by
  have entered : (enterHalted false s).line = s.line := (enterHalted_false_frame s).2
  unfold peerHalt
  split <;> simp [onlyChanges_iff, entered]

/-- Settles O25: the halt request follows the frame's entry as last halt heard. -/
theorem haltFrameEntersHalted : Obligations.HaltFrameEntersHalted := by
  intro s sender inputs i ⟨hh, hr, hi⟩
  let heard : State := { s with line := { s.line with rx := .ready, lastHalt := some (sender, inputs) } }
  have quiet : onlyChanges [.line] s heard := by simp [onlyChanges_iff, heard]
  obtain ⟨line, changes⟩ := peerHalt_changes heard
  refine ⟨peerHalt heard, congrArg Host.Outcome.next (receiveFrame_handed sender i s _ hh hr hi), line, ?_, ?_, ?_⟩
  · intro hs
    rw [peerHalt_ignored (s := heard) hs]
    exact quiet
  · intro c hc h1 h2
    rw [peerHalt_entered (s := heard) h1 h2]
    exact ⟨haltEntered_enterHalted (s := heard) hc, (enterHalted_false_frame heard).1⟩
  · exact onlyChanges_trans quiet changes (by decide)

/-! ### STOP frames (R16) -/

theorem heardStop_countdown {s : State} {f : StopFrame} {g : GoRecord} (hg : s.ctl.go = some g) (hf : f.showId = g.showId)
    (hs : s.ctl.state = .countdown) : heardStop f s = stopCountdown s := by
  simp [heardStop, hs, hg, hf]

theorem heardStop_reached {s : State} {f : StopFrame} {g : GoRecord} (hg : s.ctl.go = some g) (hf : f.showId = g.showId)
    (hs : s.ctl.state = .running) (ht : reached s.clock.site f.codaTime = true) : heardStop f s = enterCoda .stop s := by
  simp [heardStop, hs, hg, hf, ht]

theorem heardStop_ahead {s : State} {f : StopFrame} {g : GoRecord} (hg : s.ctl.go = some g) (hf : f.showId = g.showId)
    (hs : s.ctl.state = .running) (ht : reached s.clock.site f.codaTime = false) :
    heardStop f s = pendCoda f.codaTime s := by
  simp [heardStop, hs, hg, hf, ht]

/-- The pending coda time becomes the new one, or the earlier of the two (R15, R16). -/
theorem pendCoda_ctl (u : SiteTime) (s : State) : (pendCoda u s).ctl = { s.ctl with pendingCoda := some (match s.ctl.pendingCoda with
    | none => u
    | some v => if sdiff u v < 0 then u else v) } := by
  cases hp : s.ctl.pendingCoda with
  | none => simp [pendCoda, hp]
  | some v =>
    by_cases hv : sdiff u v < 0
    · simp [pendCoda, hp, reached, hv]
    · simp [pendCoda, hp, reached, hv, not_lt.mp hv]

theorem heardStop_ignored {s : State} {f : StopFrame}
    (h : (s.ctl.state ≠ .countdown ∧ s.ctl.state ≠ .running) ∨ ∀ g, s.ctl.go = some g → f.showId ≠ g.showId) :
    heardStop f s = s := by
  unfold heardStop
  split <;> simp_all

theorem onlyChanges_pendCoda (u : SiteTime) (s : State) : onlyChanges [.ctl] s (pendCoda u s) := by
  simp [onlyChanges_iff, pendCoda]

/-- A STOP frame changes these parts alone, and never the line (R16). -/
theorem heardStop_changes (f : StopFrame) (s : State) : (heardStop f s).line = s.line ∧
    onlyChanges [.ctl, .cue, .jets, .pump, .lamps, .audio, .events] s (heardStop f s) := by
  unfold heardStop
  split
  · split <;> simp [onlyChanges_iff]
  · split_ifs <;> simp [onlyChanges_iff, pendCoda]
  · simp

theorem modesClose_jet (s : State) (i : Nat) (h : i < 4) : (modesClose s).jets[i] =
    { s.jets[i] with mode := if s.jets[i].mode = .following then .closed else s.jets[i].mode } := by
  simp only [modesClose, mapModes_jets, gen_get]
  cases s.jets[i].mode <;> simp

/-- Out of a show, and not in HALTED, every lamp of a configured node is dark (R149). -/
theorem lampDuty_dark {s : State} (h : s.ctl.state = .idle ∨ s.ctl.state = .armed) (c : ConfigRecord) (l : Fin 16) :
    lampDuty s c l = black := by
  rcases h with h | h <;> simp [lampDuty, h]

theorem stopCountdown_lamps {s : State} {c : ConfigRecord} (hc : s.config = some c) : (stopCountdown s).lamps =
    { s.lamps with lamp := gen fun l => { s.lamps.lamp[l] with duty := black } } := by
  have entered : ∃ u : State, stopCountdown s = raise .state (evaluateLamps u) ∧ u.config = some c ∧ u.lamps = s.lamps ∧
      u.ctl.state = .armed := ⟨_, rfl, by simp [hc], by simp, by simp⟩
  obtain ⟨u, entered, hu, lamps, armed⟩ := entered
  simp [entered, evaluateLamps_lamps u c hu, lamps, lampDuty_dark (.inr armed)]

/-- Settles O24: a STOP frame with the show id of the GO record acts as the receiver's state says, any other not at all. -/
theorem stopFrameByState : Obligations.StopFrameByState := by
  intro s sender i f ⟨hh, hr, hi⟩
  obtain ⟨line, changes⟩ := heardStop_changes f (setRx .ready s)
  refine ⟨heardStop f (setRx .ready s), congrArg Host.Outcome.next (receiveFrame_handed sender i s _ hh hr hi), line, ?_, ?_,
    onlyChanges_trans (onlyChanges_setRx _ s) changes (by decide)⟩
  · intro g hg hf
    refine ⟨?_, ?_, ?_⟩
    · intro hs
      rw [heardStop_countdown (s := setRx .ready s) hg hf hs]
      obtain ⟨cue, jets, pump, audio, events⟩ := stopCountdown_parts (setRx .ready s)
      refine ⟨stopCountdown_ctl_of_go (s := setRx .ready s) hg, cue, ?_, ?_, ?_, ?_, audio, events⟩
      · intro j
        simp [jets, modesClose_jet]
      · simp [pump, pumpClear]
      · intro p
        simp [pump]
      · intro hn
        obtain ⟨c, hc⟩ := Option.ne_none_iff_exists'.mp hn
        simp [stopCountdown_lamps (s := setRx .ready s) hc]
    · intro c hc hs ht
      rw [heardStop_reached (s := setRx .ready s) hg hf hs ht]
      exact codaEntered_enterCoda .stop hc hg
    · intro hs ht
      rw [heardStop_ahead (s := setRx .ready s) hg hf hs ht]
      exact ⟨pendCoda_ctl f.codaTime (setRx .ready s),
        onlyChanges_trans (onlyChanges_setRx _ s) (onlyChanges_pendCoda f.codaTime _) (by decide)⟩
  · intro hs
    rw [heardStop_ignored (s := setRx .ready s) hs]
    exact onlyChanges_setRx _ s

/-! ### GO frames (R9 to R11) -/

theorem mayFollow_iff (s : State) :
    mayFollow s = true ↔ s.clock.clash = false ∧ haltAsserted s = false ∧ s.clock.locked = true := by
  simp [mayFollow, and_assoc]

theorem onlyChanges_missStart (g : GoRecord) (s : State) : onlyChanges [.ctl, .events] s (missStart g s) := by
  simp [onlyChanges_iff]

/-- The conditions of R10 and R13 read these parts alone. -/
theorem mayFollow_congr {s t : State} (hc : t.config = s.config) (hs : t.safety = s.safety) (hk : t.clock = s.clock) :
    mayFollow t = mayFollow s := by
  simp [mayFollow, haltAsserted, haltInputs, hc, hs, hk]

theorem takeGo_missed {c : ConfigRecord} {g : GoRecord} {s : State}
    (h : mayFollow s = false ∨ 60000000 < sdiff g.start s.clock.site ∨ (sdiff g.start s.clock.site ≤ 0 ∧ c.lateJoin = false)) :
    takeGo c g s = missStart g s := by
  simp only [takeGo]
  rcases h with h | h | ⟨h, hl⟩
  · simp [h]
  · simp [h]
  · simp [not_lt.mpr h, hl]

theorem takeGo_followed {c : ConfigRecord} {g : GoRecord} {s : State} (h : mayFollow s = true)
    (h1 : 0 < sdiff g.start s.clock.site) (h2 : sdiff g.start s.clock.site ≤ 60000000) :
    takeGo c g s = raise .state (enterCountdown g s) := by
  simp [takeGo, h, h1, not_lt.mpr h2]

theorem takeGo_joined {c : ConfigRecord} {g : GoRecord} {s : State} (h : mayFollow s = true)
    (h1 : sdiff g.start s.clock.site ≤ 0) (hl : c.lateJoin = true) : takeGo c g s = lateJoin c g s := by
  have : ¬ 60000000 < sdiff g.start s.clock.site := by omega
  simp [takeGo, h, not_lt.mpr h1, this, hl]

/-- Whatever a matching GO frame does in ARMED, it sends nothing (R10). -/
theorem takeGo_line (c : ConfigRecord) (g : GoRecord) (s : State) : (takeGo c g s).line = s.line := by
  simp only [takeGo]
  split_ifs <;> simp

theorem heardGo_armed {s : State} {c : ConfigRecord} {g : GoRecord} (hc : s.config = some c) (ha : s.ctl.state = .armed)
    (hm : g.showId = s.score.showId ∧ g.checksum = s.score.checksum) : heardGo g s = takeGo c g s := by
  simp [heardGo, hc, ha, (matchesScore_iff g s).mpr hm]

theorem raise_enterCountdown_changes (g : GoRecord) (s : State) :
    onlyChanges [.ctl, .events, .cue, .jets, .lamps, .audio] s (raise .state (enterCountdown g s)) := by
  simp [onlyChanges_iff]

/-- Settles O22: the branches of R10, by the node's own conditions and the signed difference start − now. -/
theorem goFrameInArmed : Obligations.GoFrameInArmed := by
  intro s c sender i g ⟨hh, hr, hi⟩ hc ha h1 h2 ready ahead
  have follow : mayFollow (setRx .ready s) = true ↔ ready := by
    rw [mayFollow_congr (s := s) (by simp) (by simp) (by simp), mayFollow_iff]
  have taken : exec (.goFrameReceived sender g) s = .next (takeGo c g (setRx .ready s)) :=
    congrArg Host.Outcome.next ((receiveFrame_handed sender i s _ hh hr hi).trans
      (heardGo_armed (s := setRx .ready s) hc ha ⟨h1, h2⟩))
  refine ⟨_, taken, takeGo_line c g _, ?_, ?_, ?_, ?_⟩
  · intro hm
    rw [← follow, Bool.not_eq_true] at hm
    rw [takeGo_missed (s := setRx .ready s) hm]
    exact ⟨missStart_ctl g _, rfl, onlyChanges_trans (onlyChanges_setRx _ s) (onlyChanges_missStart g _) (by decide)⟩
  · intro hf ha1 ha2
    rw [takeGo_followed (s := setRx .ready s) (follow.mpr hf) ha1 ha2]
    obtain ⟨cue, jets, audio⟩ := enterCountdown_parts g (setRx .ready s)
    refine ⟨enterCountdown_ctl g _, by simp, cue, ?_, audio,
      onlyChanges_trans (onlyChanges_setRx _ s) (raise_enterCountdown_changes g _) (by decide)⟩
    intro j
    simp only [raise_frame, jets]
    exact modesFollow_jet (setRx .ready s) j
  · intro hf ha1 hl
    exact takeGo_joined (s := setRx .ready s) (follow.mpr hf) ha1 hl
  · intro hf ha1 ht hl
    rw [takeGo_joined (s := setRx .ready s) (follow.mpr hf) ha1 hl]
    exact lateJoin_ctl c ht

/-- A GO frame that meets neither ARMED nor COUNTDOWN of a configured node is ignored (R9). -/
theorem heardGo_ignored {s : State} (g : GoRecord)
    (h : ¬ (s.config ≠ none ∧ (s.ctl.state = .armed ∨ s.ctl.state = .countdown))) : heardGo g s = s := by
  unfold heardGo
  split
  case h_3 => rfl
  all_goals exact absurd ⟨by simp [*], by simp [*]⟩ h

theorem heardGo_mismatch {s : State} {g : GoRecord}
    (h : s.config ≠ none ∧ (s.ctl.state = .armed ∨ s.ctl.state = .countdown))
    (hm : ¬ (g.showId = s.score.showId ∧ g.checksum = s.score.checksum)) : heardGo g s = raise .scoreMismatch s := by
  obtain ⟨hc, hs⟩ := h
  obtain ⟨c, hc⟩ := Option.ne_none_iff_exists'.mp hc
  have none : matchesScore g s = false := by simpa [matchesScore] using hm
  rcases hs with hs | hs <;> simp [heardGo, hc, hs, none]

theorem heardGo_countdown {s : State} {g : GoRecord} (h : s.config ≠ none ∧ s.ctl.state = .countdown)
    (hm : g.showId = s.score.showId ∧ g.checksum = s.score.checksum) : heardGo g s = advanceGo g s := by
  obtain ⟨hc, hs⟩ := h
  obtain ⟨c, hc⟩ := Option.ne_none_iff_exists'.mp hc
  simp [heardGo, hc, hs, (matchesScore_iff g s).mpr hm]

theorem advanceGo_later {s : State} {g held : GoRecord} (hg : s.ctl.go = some held) (h : 0 ≤ sdiff g.start held.start) :
    advanceGo g s = s := by
  simp [advanceGo, hg, not_lt.mpr h]

/-- An earlier start replaces the held one, and is taken at once where it is reached (R11). -/
theorem advanceGo_earlier {s : State} {g held : GoRecord} (hs : s.ctl.state = .countdown) (hg : s.ctl.go = some held)
    (h : sdiff g.start held.start < 0) :
    (advanceGo g s).ctl = { s.ctl with go := some g, state := if reached s.clock.site g.start then .running else .countdown } ∧
    onlyChanges [.ctl, .events, .cue, .jets, .lamps] s (advanceGo g s) := by
  have due (u : State) (hu : u.ctl = { s.ctl with go := some g }) (ht : u.clock = s.clock) :
      startDue u = reached s.clock.site g.start := by
    simp [startDue, hu, ht, hs]
  simp only [advanceGo, hg, if_pos h]
  rw [due _ (by simp) (by simp)]
  split
  · simp [onlyChanges_iff]
  · simp [onlyChanges_iff, hs]

/-- Whatever a GO frame does, it sends nothing (R10). -/
theorem heardGo_line (g : GoRecord) (s : State) : (heardGo g s).line = s.line := by
  have advanced : (advanceGo g s).line = s.line := by
    simp only [advanceGo]
    split
    · rfl
    · split_ifs <;> simp
  unfold heardGo
  split
  · split <;> simp [takeGo_line]
  · split <;> simp [advanced]
  · rfl

/-- Settles O23: what R9 ignores, what it tells of, and the two outcomes of R11. -/
theorem goFrameElsewhere : Obligations.GoFrameElsewhere := by
  intro s sender i g ⟨hh, hr, hi⟩ matching follows countdown
  refine ⟨heardGo g (setRx .ready s), congrArg Host.Outcome.next (receiveFrame_handed sender i s _ hh hr hi),
    heardGo_line g _, ?_, ?_, ?_, ?_⟩
  · intro hf hm
    rw [heardGo_mismatch (s := setRx .ready s) hf hm]
    simp [onlyChanges_iff]
  · intro hf
    rw [heardGo_ignored (s := setRx .ready s) g hf]
    exact onlyChanges_setRx _ s
  · intro held hc hm hg hl
    rw [heardGo_countdown (s := setRx .ready s) hc hm, advanceGo_later (s := setRx .ready s) hg hl]
    exact onlyChanges_setRx _ s
  · intro held hc hm hg hl
    rw [heardGo_countdown (s := setRx .ready s) hc hm]
    obtain ⟨ctl, changes⟩ := advanceGo_earlier (s := setRx .ready s) hc.2 hg hl
    exact ⟨ctl, onlyChanges_trans (onlyChanges_setRx _ s) changes (by decide)⟩

/-! ### Beacons (R30, R31, R57, R131) -/

theorem recordBeacon_events (i : Fin 32) (b : Beacon) (seq : Byte) (arrival : SiteTime) (s : State) :
    (recordBeacon i b seq arrival s).events =
      if s.peers[i].presence = .absent then s.events.raised .peer else s.events := by
  simp [recordBeacon]

/-- The sources of the site wind read these fields alone (R130). -/
theorem siteWind_congr {s t : State} (hc : t.config = s.config) (hn : t.wind.node = s.wind.node)
    (hp : ∀ i : Fin 32, t.peers[i].presence = s.peers[i].presence ∧ t.peers[i].flags = s.peers[i].flags ∧
      t.peers[i].wind = s.peers[i].wind) (c : ConfigRecord) : siteWind c t = siteWind c s := by
  have sources : windSources t = windSources s := by
    simp only [windSources, isPeer, Peer.windFlag, hc, hn, hp]
  simp only [siteWind, sources]

/-- The wind monitor of a configured node after a recomputation (R131, R133). -/
theorem recomputeWind_wind {s : State} {c : ConfigRecord} (hc : s.config = some c) : (recomputeWind s).wind = { s.wind with
    site := siteWind c s, factor := windFactor c (siteWind c s), applied := min s.wind.applied (windFactor c (siteWind c s)) } := by
  simp [recomputeWind, hc]

/-- A beacon's offset enters its record and the round's set, unless a step has caught it (R30, R31). -/
theorem takeOffset_peers (c : ConfigRecord) (i : Fin 32) (stamp arrival : SiteTime) (s : State) :
    (takeOffset c i stamp arrival s).peers = if s.clock.sinceStep < 300 then s.peers
      else put s.peers i { s.peers[i] with lastOffset := sdiff (stamp + BitVec.ofNat 48 c.lineDelay) arrival } := by
  by_cases h : s.clock.sinceStep < 300 <;> simp [takeOffset, stepCaught, beaconLength, beaconOffset, plus_natCast, h]

theorem takeOffset_clock (c : ConfigRecord) (i : Fin 32) (stamp arrival : SiteTime) (s : State) :
    (takeOffset c i stamp arrival s).clock = if s.clock.sinceStep < 300 then s.clock
      else { s.clock with offsets := put s.clock.offsets i (some (sdiff (stamp + BitVec.ofNat 48 c.lineDelay) arrival)) } := by
  by_cases h : s.clock.sinceStep < 300 <;> simp [takeOffset, stepCaught, beaconLength, beaconOffset, plus_natCast, h]

/-- The node once the peer table and the site clock have taken a beacon, before the show controller does (R54). -/
def beaconTaken (c : ConfigRecord) (i : Fin 32) (seq : Byte) (b : Beacon) (arrival : SiteTime) (s : State) : State :=
  takeOffset c i b.stamp arrival (recordBeacon i b seq arrival (setRx .ready s))

theorem exec_beacon_standby {s : State} {sender : Byte} {i : Fin 32} (h : frameHandedOver s sender i) (hc : s.config = none)
    (seq : Byte) (b : Beacon) (arrival : SiteTime) :
    exec (.beaconReceived sender seq b arrival) s = .next (recordBeacon i b seq arrival (setRx .ready s)) := by
  refine congrArg Host.Outcome.next ((receiveFrame_handed sender i s _ h.1 h.2.1 h.2.2).trans ?_)
  simp [hc]

/-- What the show controller then makes of the sender's record (R13, R20). -/
def beaconActs (c : ConfigRecord) (i : Fin 32) (u : State) : State :=
  joinTest c i (if u.peers[i].haltFlag then peerHalt u else u)

theorem exec_beacon {s : State} {c : ConfigRecord} {sender : Byte} {i : Fin 32} (h : frameHandedOver s sender i)
    (hc : s.config = some c) (hi : i ≠ c.own) (seq : Byte) (b : Beacon) (arrival : SiteTime) :
    exec (.beaconReceived sender seq b arrival) s = .next (beaconActs c i (beaconTaken c i seq b arrival s)) := by
  refine congrArg Host.Outcome.next ((receiveFrame_handed sender i s _ h.1 h.2.1 h.2.2).trans ?_)
  simp only [setRx_frame, hc, if_neg hi]
  rfl

@[simp] theorem joinTest_frame (c : ConfigRecord) (i : Fin 32) (s : State) :
    (joinTest c i s).pending = s.pending ∧ (joinTest c i s).port = s.port ∧ (joinTest c i s).config = s.config ∧
    (joinTest c i s).clock = s.clock ∧ (joinTest c i s).line = s.line ∧ (joinTest c i s).peers = s.peers ∧
    (joinTest c i s).score = s.score ∧ (joinTest c i s).wind = s.wind ∧ (joinTest c i s).safety = s.safety ∧
    (joinTest c i s).draws = s.draws := by
  unfold joinTest
  split
  · simp
  · split <;> simp

/-- What a beacon does to the show leaves the table, the clock, the line and the wind as the beacon has made them. -/
@[simp] theorem beaconActs_frame (c : ConfigRecord) (i : Fin 32) (s : State) :
    (beaconActs c i s).pending = s.pending ∧ (beaconActs c i s).port = s.port ∧ (beaconActs c i s).config = s.config ∧
    (beaconActs c i s).clock = s.clock ∧ (beaconActs c i s).line = s.line ∧ (beaconActs c i s).peers = s.peers ∧
    (beaconActs c i s).score = s.score ∧ (beaconActs c i s).wind = s.wind ∧ (beaconActs c i s).safety = s.safety ∧
    (beaconActs c i s).draws = s.draws := by
  unfold beaconActs
  split <;> simp [(peerHalt_changes s).1]

/-- A pending source stays pending when another is raised (R179). -/
theorem raised_pending_of {e : EventUnit} {n : Nat} (h : e.pending.getLsbD n = true) (src : Source) :
    (e.raised src).pending.getLsbD n = true := by
  simp [h]

theorem joinTest_pending {c : ConfigRecord} {i : Fin 32} {s : State} {n : Nat} (h : s.events.pending.getLsbD n = true) :
    (joinTest c i s).events.pending.getLsbD n = true := by
  unfold joinTest
  split
  · exact h
  · split
    · rcases lateJoin_events c _ s with he | he <;> rw [he]
      · exact raised_pending_of h _
      · exact raised_pending_of (raised_pending_of h _) _
    · exact h

theorem peerHalt_pending {s : State} {n : Nat} (h : s.events.pending.getLsbD n = true) :
    (peerHalt s).events.pending.getLsbD n = true := by
  unfold peerHalt
  split
  case h_1 | h_2 => exact h
  all_goals
    rw [(enterHalted_false_frame s).1]
    exact raised_pending_of (raised_pending_of h _) _

theorem beaconActs_pending {c : ConfigRecord} {i : Fin 32} {s : State} {n : Nat} (h : s.events.pending.getLsbD n = true) :
    (beaconActs c i s).events.pending.getLsbD n = true := by
  unfold beaconActs
  split
  · exact joinTest_pending (peerHalt_pending h)
  · exact joinTest_pending h

@[simp] theorem beaconTaken_frame (c : ConfigRecord) (i : Fin 32) (seq : Byte) (b : Beacon) (arrival : SiteTime) (s : State) :
    (beaconTaken c i seq b arrival s).pending = s.pending ∧ (beaconTaken c i seq b arrival s).port = s.port ∧
    (beaconTaken c i seq b arrival s).config = s.config ∧ (beaconTaken c i seq b arrival s).ctl = s.ctl ∧
    (beaconTaken c i seq b arrival s).line = { s.line with rx := .ready } ∧
    (beaconTaken c i seq b arrival s).score = s.score ∧ (beaconTaken c i seq b arrival s).cue = s.cue ∧
    (beaconTaken c i seq b arrival s).jets = s.jets ∧ (beaconTaken c i seq b arrival s).pump = s.pump ∧
    (beaconTaken c i seq b arrival s).lamps = s.lamps ∧ (beaconTaken c i seq b arrival s).audio = s.audio ∧
    (beaconTaken c i seq b arrival s).safety = s.safety ∧ (beaconTaken c i seq b arrival s).draws = s.draws ∧
    (beaconTaken c i seq b arrival s).events = if s.peers[i].presence = .absent then s.events.raised .peer else s.events := by
  simp [beaconTaken, recordBeacon_events]

theorem beaconTaken_clock (c : ConfigRecord) (i : Fin 32) (seq : Byte) (b : Beacon) (arrival : SiteTime) (s : State) :
    (beaconTaken c i seq b arrival s).clock = if s.clock.sinceStep < 300 then s.clock
      else { s.clock with offsets := put s.clock.offsets i (some (sdiff (b.stamp + BitVec.ofNat 48 c.lineDelay) arrival)) } := by
  simp [beaconTaken, takeOffset_clock]

/-- The sender's record after a beacon with the offset `e` (R57). -/
def beaconRecord (p : Peer) (b : Beacon) (seq : Byte) (arrival : SiteTime) (e : Int) : Peer :=
  { presence := .fresh, state := b.state, flags := b.flags, showId := b.showId, checksum := b.checksum
    showStart := b.showStart, demand := b.demand, wind := b.wind, interval := b.interval, lastArrival := arrival
    lastSeq := seq, lastOffset := e
    heard := min 255 (p.heard + 1)
    missed := if p.presence = .absent then p.missed else min 255 (p.missed + (seq - p.lastSeq - 1).toNat)
    outliers := p.outliers }

theorem recordBeacon_put (i : Fin 32) (b : Beacon) (seq : Byte) (arrival : SiteTime) (s : State) :
    (recordBeacon i b seq arrival s).peers = put s.peers i (beaconRecord s.peers[i] b seq arrival s.peers[i].lastOffset) := by
  simp [recordBeacon, beaconRecord, Peer.withBeacon, missedAfter, stopAt]

theorem beaconTaken_record (c : ConfigRecord) (i : Fin 32) (seq : Byte) (b : Beacon) (arrival : SiteTime) (s : State) :
    (beaconTaken c i seq b arrival s).peers[i] = beaconRecord s.peers[i] b seq arrival
      (if s.clock.sinceStep < 300 then s.peers[i].lastOffset else sdiff (b.stamp + BitVec.ofNat 48 c.lineDelay) arrival) := by
  by_cases h : s.clock.sinceStep < 300 <;> simp [beaconTaken, takeOffset_peers, recordBeacon_put, h, beaconRecord]

theorem beaconTaken_others (c : ConfigRecord) (i j : Fin 32) (hj : j ≠ i) (seq : Byte) (b : Beacon) (arrival : SiteTime) (s : State) :
    (beaconTaken c i seq b arrival s).peers[j] = s.peers[j] := by
  by_cases h : s.clock.sinceStep < 300 <;> simp [beaconTaken, takeOffset_peers, recordBeacon_put, h, Fin.val_ne_of_ne hj]

/-- The wind a beacon brings is recomputed with its record, before the offset enters it (R54, R131). -/
theorem beaconTaken_wind {s : State} {c : ConfigRecord} (hc : s.config = some c) (i : Fin 32) (seq : Byte) (b : Beacon)
    (arrival : SiteTime) {t : State} (ht : t.config = s.config) (hn : t.wind.node = s.wind.node)
    (hp : t.peers = (beaconTaken c i seq b arrival s).peers) : (beaconTaken c i seq b arrival s).wind = { s.wind with
      site := siteWind c t, factor := windFactor c (siteWind c t), applied := min s.wind.applied (windFactor c (siteWind c t)) } := by
  obtain ⟨w, hw, wc, wn, wp⟩ : ∃ w : State, (beaconTaken c i seq b arrival s).wind = (recomputeWind w).wind ∧ w.config = s.config ∧
      w.wind = s.wind ∧ w.peers = (recordBeacon i b seq arrival (setRx .ready s)).peers :=
    ⟨_, by simp only [beaconTaken, takeOffset_frame]; rfl, by simp, by simp, by simp [recordBeacon]⟩
  have wind : siteWind c w = siteWind c t := by
    refine siteWind_congr (wc.trans ht.symm) (by rw [wn, hn]) (fun j => ?_) c
    rw [hp, wp]
    by_cases hj : j = i
    · subst hj
      rw [beaconTaken_record, recordBeacon_put, put_get, if_pos rfl]
      exact ⟨rfl, rfl, rfl⟩
    · rw [beaconTaken_others c i j hj, recordBeacon_put, put_get_ne _ _ _ _ hj]
      exact ⟨rfl, rfl, rfl⟩
  rw [hw, recomputeWind_wind (wc.trans hc), wind, wn]

theorem recomputeWind_node (s : State) : (recomputeWind s).wind.node = s.wind.node := by
  unfold recomputeWind
  split <;> rfl

theorem beaconTaken_node (c : ConfigRecord) (i : Fin 32) (seq : Byte) (b : Beacon) (arrival : SiteTime) (s : State) :
    (beaconTaken c i seq b arrival s).wind.node = s.wind.node := by
  simp [beaconTaken, recordBeacon, recomputeWind_node]

theorem onlyChanges_beaconTaken (c : ConfigRecord) (i : Fin 32) (seq : Byte) (b : Beacon) (arrival : SiteTime) (s : State) :
    onlyChanges [.peers, .clock, .line, .wind, .events] s (beaconTaken c i seq b arrival s) := by
  simp [onlyChanges_iff]

theorem onlyChanges_beaconActs (c : ConfigRecord) (i : Fin 32) (u : State) :
    onlyChanges [.ctl, .cue, .jets, .pump, .lamps, .audio, .events] u (beaconActs c i u) := by
  simp [onlyChanges_iff]

theorem raised_peer_pending (e : EventUnit) : (e.raised .peer).pending.getLsbD 14 = true := by
  simp [Source.bit, Source.index]

/-- A beacon in STANDBY: the record alone (R5, R57). -/
theorem beacon_standby {s : State} (hc : s.config = none) (i : Fin 32) (seq : Byte) (b : Beacon) (arrival : SiteTime) :
    (recordBeacon i b seq arrival (setRx .ready s)).wind = s.wind ∧
    onlyChanges [.peers, .line, .events] s (recordBeacon i b seq arrival (setRx .ready s)) := by
  simp [recordBeacon, recomputeWind, hc, onlyChanges_iff]

/-- Settles O19: in STANDBY the record alone, in a configured node the table, the clock and the wind, which what the show does
then leaves as they are. -/
theorem beaconWritesRecord : Obligations.BeaconWritesRecord := by
  intro s sender seq b arrival i h ho
  cases hc : s.config with
  | none =>
    obtain ⟨wind, changes⟩ := beacon_standby hc i seq b arrival
    refine ⟨_, exec_beacon_standby h hc seq b arrival, ?_, ?_, ?_, by simp, by simp, fun _ => wind, by simp, by simp,
      onlyChanges_of_subset changes (by decide)⟩
    · rw [recordBeacon_put, put_get, if_pos rfl]
      rfl
    · intro j hj
      rw [recordBeacon_put, put_get_ne _ _ _ _ hj]
      rfl
    · intro ha
      simp only [recordBeacon_events, setRx_frame, if_pos ha]
      exact raised_peer_pending _
  | some c =>
    refine ⟨_, exec_beacon h hc (ho c hc) seq b arrival, ?_, ?_, ?_, by simp, ?_, by simp, ?_, by simp,
      onlyChanges_trans (onlyChanges_beaconTaken c i seq b arrival s) (onlyChanges_beaconActs c i _) (by decide)⟩
    · simp only [beaconActs_frame]
      exact beaconTaken_record c i seq b arrival s
    · intro j hj
      simp only [beaconActs_frame]
      exact beaconTaken_others c i j hj seq b arrival s
    · intro ha
      apply beaconActs_pending
      simp only [beaconTaken_frame, if_pos ha]
      exact raised_peer_pending _
    · intro d hd
      obtain rfl := Option.some.inj hd
      simp only [beaconActs_frame, beaconTaken_clock]
      refine ⟨by split <;> rfl, fun j hj => ?_, ?_⟩
      · split <;> simp [Fin.val_ne_of_ne hj]
      · split <;> simp
    · intro d hd
      obtain rfl := Option.some.inj hd
      simp only [beaconActs_frame]
      exact beaconTaken_wind hc i seq b arrival (by simp) (by simp [beaconTaken_node]) (by simp)

/-- Out of ARMED no node joins a show (R13). -/
theorem joinTest_unarmed {s : State} (h : s.ctl.state ≠ .armed) (c : ConfigRecord) (i : Fin 32) : joinTest c i s = s := by
  unfold joinTest
  split
  · rfl
  · simp [h]

theorem joinTest_joins {s : State} {c : ConfigRecord} {i : Fin 32} (hp : s.peers[i].state = 4) (ha : s.ctl.state = .armed)
    (hl : c.lateJoin = true) (hf : mayFollow s = true)
    (hm : s.peers[i].showId = s.score.showId ∧ s.peers[i].checksum = s.score.checksum) :
    joinTest c i s = lateJoin c ⟨s.peers[i].showId, s.peers[i].checksum, s.peers[i].showStart⟩ s := by
  have hs := (matchesScore_iff ⟨s.peers[i].showId, s.peers[i].checksum, s.peers[i].showStart⟩ s).mpr hm
  simp only [joinTest, peerShow, if_pos hp]
  rw [if_pos ⟨ha, hl, hf, hs⟩]

theorem joinTest_stays {s : State} {c : ConfigRecord} {i : Fin 32}
    (h : ¬ (s.ctl.state = .armed ∧ c.lateJoin = true ∧ mayFollow s = true ∧ s.peers[i].state = 4 ∧
      s.peers[i].showId = s.score.showId ∧ s.peers[i].checksum = s.score.checksum)) : joinTest c i s = s := by
  unfold joinTest
  split
  · rfl
  case h_2 g hg =>
    simp only [peerShow] at hg
    split_ifs at hg with hp
    obtain rfl := Option.some.inj hg
    rw [if_neg]
    rintro ⟨ha, hl, hf, hm⟩
    exact h ⟨ha, hl, hf, hp, (matchesScore_iff _ s).mp hm⟩

theorem enterHalted_state (own : Bool) (s : State) : (enterHalted own s).ctl.state = .halted := by
  cases h : s.ctl.state.inShow
  · rw [enterHalted_ctl_still own s h]
  · rw [enterHalted_ctl_show own s h]

/-- A halting beacon halts, and a halted node joins nothing (R20). -/
theorem beaconActs_halts {u : State} {i : Fin 32} (hf : u.peers[i].haltFlag = true) (h1 : u.ctl.state ≠ .standby)
    (h2 : u.ctl.state ≠ .halted) (c : ConfigRecord) : beaconActs c i u = enterHalted false u := by
  rw [beaconActs, if_pos hf, peerHalt_entered h1 h2]
  exact joinTest_unarmed (by simp [enterHalted_state]) c i

theorem beaconActs_tests {u : State} {i : Fin 32}
    (h : ¬ (u.peers[i].haltFlag = true ∧ u.ctl.state ≠ .standby ∧ u.ctl.state ≠ .halted)) (c : ConfigRecord) :
    beaconActs c i u = joinTest c i u := by
  unfold beaconActs
  split
  case isTrue hf =>
    rw [peerHalt_ignored]
    by_contra hn
    exact h ⟨hf, fun e => hn (.inl e), fun e => hn (.inr e)⟩
  case isFalse => rfl

/-- Settles O20: the halt flag first, then the test of R13, both on the node as the beacon's record has left it. -/
theorem beaconActsOnShow : Obligations.BeaconActsOnShow := by
  intro s c sender seq b arrival i h hc hi matching joins g halting base
  have record := beaconTaken_record c i seq b arrival s
  have follow : mayFollow (beaconTaken c i seq b arrival s) = true ↔
      s.clock.clash = false ∧ haltAsserted s = false ∧ s.clock.locked = true := by
    have : mayFollow (beaconTaken c i seq b arrival s) = mayFollow s := by
      by_cases hs : s.clock.sinceStep < 300 <;>
        simp [mayFollow, haltAsserted, haltInputs, beaconTaken_clock, hs]
    rw [this, mayFollow_iff]
  have flag : (beaconTaken c i seq b arrival s).peers[i].haltFlag = true ↔ b.flags.getLsbD 1 = true := by
    rw [record]; rfl
  have halts : ((beaconTaken c i seq b arrival s).peers[i].haltFlag = true ∧ (beaconTaken c i seq b arrival s).ctl.state ≠ .standby ∧
      (beaconTaken c i seq b arrival s).ctl.state ≠ .halted) ↔ halting := by
    rw [flag]; simp [halting]
  have joined (hh : ¬ halting) (hj : joins) :
      beaconActs c i (beaconTaken c i seq b arrival s) = lateJoin c g (beaconTaken c i seq b arrival s) := by
    obtain ⟨ha, hl, hk, hx, hn, h4, hid, hsum⟩ := hj
    rw [beaconActs_tests (mt halts.mp hh), joinTest_joins (by rw [record]; exact h4) (by simpa using ha) hl
      (follow.mpr ⟨hx, hn, hk⟩) (by rw [record]; simpa [beaconRecord] using ⟨hid, hsum⟩), record]
    rfl
  refine ⟨beaconTaken c i seq b arrival s, _, exec_beacon h hc hi seq b arrival, onlyChanges_beaconTaken c i seq b arrival s,
    by simp [base], ?_, ?_, joined, ?_, ?_⟩
  · rw [beaconTaken_clock]
    split <;> rfl
  · intro hh
    obtain ⟨hf, h1, h2⟩ := halts.mpr hh
    rw [beaconActs_halts hf h1 h2]
    refine ⟨haltEntered_enterHalted (by simpa using hc), ?_, ?_⟩
    · rw [(enterHalted_false_frame _).1]; simp [base]
    · simp [onlyChanges_iff, (enterHalted_false_frame _).2]
  · intro hh hj ht
    rw [joined hh hj, lateJoin, if_neg (by by_cases hs : s.clock.sinceStep < 300 <;> simpa [beaconTaken_clock, hs, g] using ht)]
    simp [enterCountdown_parts, base]
  · intro hh hj
    rw [beaconActs_tests (mt halts.mp hh), joinTest_stays]
    rintro ⟨ha, hl, hf, h4, hid, hsum⟩
    obtain ⟨hx, hn, hk⟩ := follow.mp hf
    rw [record] at h4 hid hsum
    exact hj ⟨by simpa using ha, hl, hk, hx, hn, h4, by simpa [beaconRecord] using hid, by simpa [beaconRecord] using hsum⟩

end Sys2Proof.Proofs
end

