-- ==== Sys2Proof/Proofs/ShowTimes.lean ====
section
/-! Times of the show: the start, the pending coda time, and the end of the coda. -/

namespace Sys2Proof.Proofs

open Sys2Proof Sys2Proof.Machine Sys2Proof.Safety

/-! ### Times of the show that are reached (R12, R15, R18, R19) -/

theorem enterRunning_lamps {s : State} {c : ConfigRecord} (hc : s.config = some c) :
    (enterRunning s).lamps = { s.lamps with lamp := (enterRunning s).lamps.lamp } ∧
    ∀ l : Fin 16, (enterRunning s).lamps.lamp[l] = { s.lamps.lamp[l] with duty := lampDuty (enterRunning s) c l } := by
  have lamps := evaluateLamps_lamps (setShowState .running s) c (by simpa using hc)
  refine ⟨by simp [enterRunning, lamps], fun l => ?_⟩
  rw [enterRunning, lampDuty_evaluated]
  simp [lamps]

theorem startDue_of_go {s : State} {g : GoRecord} (hg : s.ctl.go = some g) :
    startDue s = true ↔ s.ctl.state = .countdown ∧ reached s.clock.site g.start = true := by
  simp [startDue, hg]

theorem pendingCodaDue_iff (s : State) : pendingCodaDue s = true ↔
    s.ctl.state = .running ∧ ∃ u, s.ctl.pendingCoda = some u ∧ reached s.clock.site u = true := by
  cases h : s.ctl.pendingCoda <;> simp [pendingCodaDue, h]

/-- Settles O40: what the times give is the transition itself, and before them nothing. -/
theorem showTimesReached : Obligations.ShowTimesReached := by
  intro s c g hh hc hg
  have started : exec .startReached s = .next (if startDue s then enterRunning s else s) :=
    congrArg Host.Outcome.next (unlessHeld_free s _ hh)
  have ended : exec .pendingCodaReached s = .next (if pendingCodaDue s then enterCoda .stop s else s) :=
    congrArg Host.Outcome.next (unlessHeld_free s _ hh)
  refine ⟨?_, ?_, ?_, ?_⟩
  · intro hs ht
    obtain ⟨lamps, duty⟩ := enterRunning_lamps hc
    rw [if_pos ((startDue_of_go hg).mpr ⟨hs, ht⟩)] at started
    exact ⟨_, started, enterRunning_ctl s, by simp [enterRunning], lamps, duty, by simp [onlyChanges_iff]⟩
  · intro h
    rw [started, if_neg]
    rw [startDue_of_go hg]
    rintro ⟨hs, ht⟩
    simp [hs, ht] at h
  · intro u hs hp ht
    rw [if_pos ((pendingCodaDue_iff s).mpr ⟨hs, u, hp, ht⟩)] at ended
    exact ⟨_, ended, codaEntered_enterCoda .stop hc hg⟩
  · intro h
    rw [ended, if_neg]
    rw [pendingCodaDue_iff]
    rintro ⟨hs, u, hp, ht⟩
    rcases h with h | h
    · exact h hs
    · simp [h u hp] at ht

theorem allStopped_iff (s : State) : allStopped s = true ↔
    ∀ p : Fin 4, s.pump.chan[p].dOut = 0 ∧ s.pump.chan[p].runOutput = false := by
  simp [allStopped]

theorem codaComplete_iff {s : State} : codaComplete s = true ↔ s.ctl.state = .coda ∧
    (∃ d, s.ctl.codaDeadline = some d ∧ reached s.clock.site d = true) ∧
    ∀ p : Fin 4, s.pump.chan[p].dOut = 0 ∧ s.pump.chan[p].runOutput = false := by
  rw [← allStopped_iff]
  cases h : s.ctl.codaDeadline <;> simp [codaComplete, h, and_assoc, and_comm]

/-- In IDLE of a configured node every lamp is dark (R143, R149). -/
theorem enterIdle_dark {s : State} {c : ConfigRecord} (hc : s.config = some c) (l : Fin 16) :
    ((enterIdle s).lamps.lamp[l]).duty = black := by
  have entered : ∃ u : State, enterIdle s = evaluateLamps u ∧ u.config = some c ∧ u.ctl.state = .idle :=
    ⟨_, rfl, by simp [hc], by simp⟩
  obtain ⟨u, entered, hu, hi⟩ := entered
  simp [entered, evaluateLamps_lamps u c hu, lampDuty_dark (.inl hi)]

/-- A command under reception is kept whole or not at all (R159). -/
theorem keptReception_eq_none {s : State} (h : keptReception s ≠ s.audio.reception) : keptReception s = none := by
  unfold keptReception at h ⊢
  cases hr : s.audio.reception with
  | none => rfl
  | some r =>
    rw [hr, Option.filter_some] at h
    rw [Option.filter_some]
    split_ifs at h ⊢
    · exact absurd rfl h
    · rfl

theorem completeCoda_parts (s : State) :
    (completeCoda s).jets = (figuresClear (modesClose s)).jets ∧ (completeCoda s).pump = (pumpClear s).pump ∧
    (completeCoda s).audio = (audioClear s).audio ∧ (completeCoda s).port = (audioClear s).port ∧
    (completeCoda s).events = s.events.raised .state := by
  have kept : keptReception (writeResult (codaResult s) (goShowId s) (showNow s) s) = keptReception s := by
    simp [keptReception]
  simp [completeCoda, enterIdle_parts, figuresClear, modesClose, pumpClear, audioClear_audio, audioClear_port, kept]

theorem completeCoda_lamps {s : State} {c : ConfigRecord} (hc : s.config = some c) :
    (completeCoda s).lamps.master = .fullMaster ∧
    ∀ l : Fin 16, (completeCoda s).lamps.lamp[l] = { start := black, target := black, anchor := 0, len := 0, duty := black } := by
  obtain ⟨master, lamps⟩ := enterIdle_lamps (writeResult (codaResult s) (goShowId s) (showNow s) s)
  refine ⟨by simpa [completeCoda] using master, fun l => ?_⟩
  have dark := enterIdle_dark (s := writeResult (codaResult s) (goShowId s) (showNow s) s) hc l
  simp only [completeCoda, raise_frame, Fin.getElem_fin] at dark ⊢
  rw [lamps, dark]

/-- Settles O41: the test is that of `codaComplete`, and a completed coda enters IDLE. -/
theorem codaCompletes : Obligations.CodaCompletes := by
  intro s c g d hh hc hs hg hd ht hn stopped
  have due : codaDeadlineDue s = true := by simp [codaDeadlineDue, hd, hs, ht, hn]
  let tested := setCtl { s.ctl with codaTested := true } s
  have taken : exec .codaDeadline s = .next (codaTest tested) :=
    congrArg Host.Outcome.next ((unlessHeld_free s _ hh).trans (if_pos due))
  refine ⟨?_, ?_⟩
  · intro hns
    have : codaTest tested = tested := if_neg fun h => hns (codaComplete_iff.mp h).2.2
    rw [this] at taken
    exact ⟨_, taken, rfl, by simp [tested, onlyChanges_iff]⟩
  · intro hst
    have : codaTest tested = completeCoda tested := if_pos (codaComplete_iff.mpr ⟨hs, ⟨d, hd, ht⟩, hst⟩)
    rw [this] at taken
    obtain ⟨jets, pump, audio, port, events⟩ := completeCoda_parts tested
    obtain ⟨master, lamps⟩ := completeCoda_lamps (s := tested) hc
    have hg' : tested.ctl.go = some g := hg
    refine ⟨_, taken, ?_, events, completeCoda_score tested, ?_, ?_, ?_, master, lamps, ?_, ?_, ?_, ?_⟩
    · rw [completeCoda_ctl, goShowId_of_go hg', showNow_of_go hg']
      rfl
    · intro i
      simp only [jets, Fin.getElem_fin, figuresClear_jet, modesClose_jet, true_and]
      split <;> simp_all
    · simp [pump, pumpClear, tested]
    · intro p
      simp [pump, tested]
    · rw [audio, audioClear_audio]
      rfl
    · intro hk
      rw [port, audioClear_port]
      exact if_pos hk
    · intro hk
      refine ⟨?_, ?_⟩
      · rw [audio, audioClear_audio]
        exact keptReception_eq_none hk
      · unfold recorded
        rw [port, audioClear_port]
        exact if_neg hk
    · simp [onlyChanges_iff, tested]

end Sys2Proof.Proofs
end

