-- ==== Sys2Proof/Proofs/BeaconDue.lean ====
section
/-! The beacon of a round joins the transmit queue. -/

namespace Sys2Proof.Proofs

open Sys2Proof Sys2Proof.Machine Sys2Proof.Safety

/-! ### The beacon of a round (R28, R46) -/

theorem frameClass_le (p : Payload) : frameClass p ≤ 4 := by cases p <;> simp [frameClass]

/-- An unsent beacon, which a newer one replaces (R46). -/
def unsentBeacon (f : TxFrame) : Bool := !f.onLine && decide (frameClass f.payload = 4)

theorem isReplaced_beacon (b : Beacon) (f : TxFrame) : isReplaced (.beacon b) f = unsentBeacon f := by
  cases hp : f.payload <;> simp [isReplaced, unsentBeacon, replaceable, payloadKind, frameClass, hp]

/-- BEACON is the last class, so a beacon joins at the queue's end (R45). -/
theorem insertFrame_beacon (q : List TxFrame) (b : Beacon) :
    insertFrame q (freshFrame (.beacon b)) = q ++ [freshFrame (.beacon b)] := by
  have all : ∀ f ∈ q, decide (frameClass f.payload ≤ 4) = true := fun f _ => decide_eq_true (frameClass_le f.payload)
  rw [insertFrame_of_class (n := 4) rfl, List.takeWhile_eq_self_iff.mpr all, List.dropWhile_eq_nil_iff.mpr all]

/-- A full queue holds no frame of a class above BEACON's to drop for a beacon (R46). -/
theorem victim_beacon (q : List TxFrame) (b : Beacon) : victim (.beacon b) q = none := by
  simp only [victim, Option.filter_eq_none_iff, frameClass_beacon]
  exact fun f _ h => absurd (of_decide_eq_true h) (not_lt.mpr (frameClass_le f.payload))

/-- A request for a beacon: discarded with CLASH set, in place of an unsent one, at the end, or dropped (R28, R41, R46). -/
theorem requestFrame_beacon (b : Beacon) (s : State) : requestFrame (.beacon b) s =
    if s.clock.clash then s
    else if s.line.queue.any unsentBeacon then
      setQueue (s.line.queue.map fun f => if unsentBeacon f then freshFrame (.beacon b) else f) s
    else if s.line.queue.length < 8 then setQueue (s.line.queue ++ [freshFrame (.beacon b)]) s
    else raise .line { s with line := { s.line with drops := min 255 (s.line.drops + 1) } } := by
  have replaced : isReplaced (.beacon b) = unsentBeacon := funext (isReplaced_beacon b)
  simp only [requestFrame, enqueue, replaced, insertFrame_beacon, victim_beacon]
  rfl

theorem exec_beaconDue {s : State} {c : ConfigRecord} (hh : s.port.held = false) (hc : s.config = some c) :
    exec .beaconDue s = .next (if beaconDueNow s then
      requestFrame (.beacon (ownBeacon c s)) (setClock { s.clock with beaconDue := none } s) else s) := by
  refine congrArg Host.Outcome.next ((unlessHeld_free s _ hh).trans ?_)
  simp [hc]

theorem beaconDueNow_iff {s : State} {c : ConfigRecord} (hc : s.config = some c) : beaconDueNow s = true ↔
    ∃ due, s.clock.beaconDue = some due ∧ reached s.clock.site due = true := by
  cases h : s.clock.beaconDue <;> simp [beaconDueNow, hc, h]

/-- Settles O32: the outcomes of a request for a beacon, by CLASH, an unsent beacon, and room. -/
theorem beaconIsQueued : Obligations.BeaconIsQueued := by
  intro s c hh hc show' b unsent
  have own : ownBeacon c s = b := by
    cases hg : s.ctl.go <;> simp [ownBeacon, beaconShow, b, show', hg]
  have taken := exec_beaconDue hh hc
  rw [own, requestFrame_beacon] at taken
  refine ⟨?_, ?_⟩
  · intro due hd ht
    rw [if_pos ((beaconDueNow_iff hc).mpr ⟨due, hd, ht⟩)] at taken
    simp only [setClock_frame, setClock_clock] at taken
    refine ⟨_, taken, ?_⟩
    have some_unsent : (∃ f ∈ s.line.queue, unsent f = true) ↔ s.line.queue.any unsentBeacon = true := List.any_eq_true.symm
    have none_unsent : (∀ f ∈ s.line.queue, unsent f = false) ↔ s.line.queue.any unsentBeacon = false := by
      simp [unsentBeacon, unsent]
    rw [some_unsent, none_unsent]
    cases hx : s.clock.clash with
    | true => simp [hx, onlyChanges_iff]
    | false =>
      cases hu : s.line.queue.any unsentBeacon with
      | true => simp [hx, onlyChanges_iff, unsentBeacon, unsent]
      | false =>
        by_cases hl : s.line.queue.length < 8
        · simp [hx, hl, onlyChanges_iff]
        · simp [hx, hl, onlyChanges_iff]
  · intro hn
    rw [taken, if_neg]
    rw [beaconDueNow_iff hc]
    rintro ⟨due, hd, ht⟩
    simp [hn due hd] at ht

end Sys2Proof.Proofs
end

