-- ==== Sys2Proof/Proofs/SafetyMonitor.lean ====
section
/-! The safety inputs: level changes, the debounce, and the HALT entry they cause. -/

namespace Sys2Proof.Proofs
open Sys2Proof Sys2Proof.Machine Sys2Proof.Safety

/-! ### Level changes (R173) -/

theorem put_put_self {α : Type} {n : Nat} (v : Vector α n) (i : Fin n) (x : α) : put (put v i x) i v[i] = v := by
  ext j hj
  by_cases h : j = i.val
  · subst h; simp
  · simp [h]

theorem putInput_putInput_self (i : Fin 8) (inp : SafetyInput) (s : State) : putInput i s.safety[i] (putInput i inp s) = s := by
  simp only [putInput, put_put_self]

theorem exec_levelChange {s : State} {i : Fin 8} {high : Bool} (h : s.safety[i].pin ≠ high) :
    exec (.safetyLevelChange i high) s = .next (putInput i
      (if s.config.isSome then levelChanged s.clock.site high s.safety[i] else { s.safety[i] with pin := high }) s) :=
  congrArg Host.Outcome.next (if_neg h)

/-- A change that reverts before the next sample restores the node (R173). -/
theorem exec_levelChange_reverts {s : State} {i : Fin 8} {high : Bool} (h : s.safety[i].pin ≠ high) (hc : s.config.isSome = true)
    (hb : s.safety[i].before = none) :
    exec (.safetyLevelChange i (!high)) (putInput i (levelChanged s.clock.site high s.safety[i]) s) = .next s := by
  have pin : s.safety[i].pin = !high := Bool.eq_not_of_ne h
  have pin' : (levelChanged s.clock.site high s.safety[i]).pin = high := by rw [levelChanged_first _ _ _ hb]
  have back : levelChanged s.clock.site (!high) (levelChanged s.clock.site high s.safety[i]) = s.safety[i] := by
    have := levelChanged_reverts s.clock.site s.safety[i] hb
    rwa [pin, Bool.not_not] at this
  have changed : (putInput i (levelChanged s.clock.site high s.safety[i]) s).safety[i] =
      levelChanged s.clock.site high s.safety[i] := by
    rw [putInput_safety, put_get, if_pos rfl]
  rw [exec_levelChange (by rw [changed, pin']; cases high <;> decide), changed]
  simp only [putInput_frame, hc, if_true, back, putInput_putInput_self]

/-! ### Debounce and the halt assertion (R173 to R177) -/

/-- A configured node once an input's stable level has taken the level seen, before the halt assertion acts. -/
def debounced (c : ConfigRecord) (i : Fin 8) (s : State) : State :=
  raiseIf c.input[i].report .safety
    (putInput i { s.safety[i] with stable := levelSeen c i s.safety[i], since := none, before := none } s)

theorem stableChange_eq (c : ConfigRecord) (i : Fin 8) (s : State) : stableChange c i s =
    if haltAsserted (debounced c i s) && !haltAsserted s then ownHalt (debounced c i s) else debounced c i s := rfl

theorem debounceDue_iff {s : State} {c : ConfigRecord} (hc : s.config = some c) (i : Fin 8) : debounceDue s i = true ↔
    ∃ u, s.safety[i].since = some u ∧ reached s.clock.site (u + BitVec.ofNat 48 (1000 * c.input[i].debounce)) = true := by
  have time (u : SiteTime) : plus u (1000 * (c.input[i].debounce : Int)) = u + BitVec.ofNat 48 (1000 * c.input[i].debounce) := by
    rw [← plus_natCast]; push_cast; rfl
  simp only [debounceDue, hc]
  cases h : s.safety[i].since <;> simp [time, -Fin.getElem_fin]

theorem exec_debounceExpiry {s : State} {c : ConfigRecord} (hh : s.port.held = false) (hc : s.config = some c) (i : Fin 8) :
    exec (.debounceExpiry i) s = .next (if debounceDue s i then stableChange c i s else s) := by
  refine congrArg Host.Outcome.next ((unlessHeld_free s _ hh).trans ?_)
  simp [hc]

theorem isReplaced_halt (inputs : Byte) (f : TxFrame) :
    isReplaced (.halt inputs) f = (!f.onLine && decide (frameClass f.payload = 1)) := by
  cases hp : f.payload <;> simp [isReplaced, replaceable, payloadKind, frameClass, hp]

/-- The node after the frames a halt of its own withdraws and asks for (R20, R47, R175). -/
def haltFrameAsked (v : State) : State := if v.clock.clash then v else sendHalt (withdrawShowFrames v)

theorem ownHalt_enters {v : State} (h1 : v.ctl.state ≠ .standby) (h2 : v.ctl.state ≠ .halted) :
    ownHalt v = enterHalted false (haltFrameAsked v) := by
  have : ownHalt v = enterHalted true v := by
    unfold ownHalt
    split <;> simp_all
  rw [this, enterHalted_eq, haltFrameAsked]
  cases v.clock.clash <;> simp

theorem debounced_parts (c : ConfigRecord) (i : Fin 8) (s : State) :
    onlyChanges [.safety, .events] s (debounced c i s) ∧
    (debounced c i s).events = (if c.input[i].report then s.events.raised .safety else s.events) ∧
    (debounced c i s).safety = put s.safety i { s.safety[i] with
      stable := s.safety[i].pin == c.input[i].activeHigh, since := none, before := none } := by
  simp [debounced, onlyChanges_iff, levelSeen]

theorem haltSet_congr {s t : State} (hc : t.config = s.config) (hs : t.safety = s.safety) : haltSet t = haltSet s := by
  simp [haltSet, haltInputs, hc, hs]

/-- The queue without its unsent GO and STOP frames (R47). -/
def withoutShowFrames (q : List TxFrame) : List TxFrame := q.filter fun f => f.onLine || decide (frameClass f.payload ≠ 2)

theorem haltFrameAsked_eq (v : State) : haltFrameAsked v = if v.clock.clash then v
    else requestFrame (.halt (haltSet v)) (setQueue (withoutShowFrames v.line.queue) v) := by
  have inputs : haltSet (withdrawShowFrames v) = haltSet v := haltSet_congr (by simp) (by simp)
  rw [haltFrameAsked, sendHalt, inputs]
  rfl

theorem haltFrameAsked_changes (v : State) : onlyChanges [.line, .pump, .events] v (haltFrameAsked v) := by
  unfold haltFrameAsked
  split <;> simp [onlyChanges_iff]

/-- With room, and no unsent HALT to replace, the HALT frame goes ahead of every frame of another class (R45). -/
theorem haltFrameAsked_line {v : State} (hx : v.clock.clash = false) (hq : (withoutShowFrames v.line.queue).length < 8)
    (hn : ∀ f ∈ withoutShowFrames v.line.queue, f.onLine = true ∨ frameClass f.payload ≠ 1) :
    (haltFrameAsked v).line = { v.line with
      queue := (withoutShowFrames v.line.queue).takeWhile (fun f => decide (frameClass f.payload ≤ 1)) ++
        freshFrame (.halt (haltSet v)) ::
          (withoutShowFrames v.line.queue).dropWhile (fun f => decide (frameClass f.payload ≤ 1)) } := by
  have room := requestFrame_room (s := setQueue (withoutShowFrames v.line.queue) v) (p := .halt (haltSet v)) hx
  rw [haltFrameAsked_eq, hx, if_neg Bool.false_ne_true, room _ hq, insertFrame_of_class (n := 1) rfl]
  · rfl
  · intro f hf
    rw [isReplaced_halt]
    rcases hn f hf with h | h <;> simp [h]

/-- Settles O54: the level, the debounce, and where the halt assertion rises by it HALT entry on the node that has asked for its
frame. -/
theorem safetyInputs : Obligations.SafetyInputs := by
  intro s i high
  refine ⟨fun h => congrArg Host.Outcome.next (if_pos h), fun h => ⟨_, exec_levelChange h, ?_, ?_, ?_, ?_, ?_⟩, ?_⟩
  · simp [onlyChanges_iff]
  · intro j hj; simp [Fin.val_ne_of_ne hj]
  · intro hc; simp [hc]
  · intro hc hb
    have hs := Option.isSome_iff_ne_none.mpr hc
    rw [if_pos hs]
    refine ⟨?_, exec_levelChange_reverts h hs hb⟩
    rw [putInput_safety, put_get, if_pos rfl, levelChanged_first _ _ _ hb]
    cases s.safety[i].since <;> rfl
  · intro since hc hb
    rw [if_pos (Option.isSome_iff_ne_none.mpr hc), putInput_safety, put_get, if_pos rfl, levelChanged, hb]
  · intro c hh hc expires
    have taken := exec_debounceExpiry hh hc i
    obtain ⟨changes, events, safety⟩ := debounced_parts c i s
    refine ⟨fun hn => by rw [taken, if_neg (mt (debounceDue_iff hc i).mp hn)], fun he => ?_⟩
    rw [if_pos ((debounceDue_iff hc i).mpr he), stableChange_eq] at taken
    refine ⟨debounced c i s, _, taken, ?_, ?_, events, changes, ?_⟩
    · intro j hj
      rw [safety, put_get_ne _ _ _ _ hj]
    · rw [safety, put_get, if_pos rfl]
    intro rises kept
    have rising : (haltAsserted (debounced c i s) && !haltAsserted s) = true ↔ rises := by
      simp [rises, and_comm]
    have line : (debounced c i s).line = s.line := changes .line (by decide)
    have clock : (debounced c i s).clock = s.clock := changes .clock (by decide)
    have ctl : (debounced c i s).ctl = s.ctl := changes .ctl (by decide)
    have config : (debounced c i s).config = some c := (changes .config (by decide)).trans hc
    refine ⟨?_, ?_, ?_⟩
    · rintro (hr | hs)
      · rw [if_neg (mt rising.mp hr)]
      · have stays : ownHalt (debounced c i s) = debounced c i s := by simp [ownHalt, ctl, hs]
        rw [stays, ite_self]
    · intro hr hs
      rw [if_pos (rising.mpr hr), ownHalt, ctl, hs]
      rfl
    · intro hr h1 h2 u
      have asked : u = haltFrameAsked (debounced c i s) := by
        rw [haltFrameAsked_eq, clock, line]
        rfl
      have same := haltFrameAsked_changes (debounced c i s)
      rw [if_pos (rising.mpr hr), ownHalt_enters (by rwa [ctl]) (by rwa [ctl]), ← asked]
      rw [← asked] at same
      have entered := haltEntered_enterHalted (c := c) ((same .config (by decide)).trans config)
      obtain ⟨raised, sent⟩ := enterHalted_false_frame u
      refine ⟨entered, raised, sent, ?_, fun hx => ?_, fun hx hq hn => ?_⟩
      · refine onlyChanges_trans (q := [.line, .ctl, .cue, .jets, .pump, .lamps, .audio, .events]) same ?_ (by decide)
        simp [onlyChanges_iff]
      · rw [sent, asked, haltFrameAsked, clock, hx, if_pos rfl, line]
      · rw [sent, asked, haltFrameAsked_line (by rwa [clock]) (by rwa [line]) (by rwa [line]), line]
        rfl
end Sys2Proof.Proofs
end

