-- ==== Sys2Proof/Proofs/Configuration.lean ====
section
/-! The acceptance of CONFIGURE, stage by stage. -/

namespace Sys2Proof.Proofs

open Sys2Proof Sys2Proof.Machine Sys2Proof.Safety

/-! ### Ageing of the peer table (R59) -/

/-- A peer record once the change of presence that is due for it is made. -/
def agedPeer (s : State) (i : Fin 32) : Peer :=
  if absentDue s i then .cleared else if staleDue s i then { s.peers[i] with presence := .stale } else s.peers[i]

/-- What is due for a record depends on the configuration, the clock and that record. -/
theorem due_congr {s t : State} {i : Fin 32} (hc : t.config = s.config) (hk : t.clock = s.clock) (hp : t.peers[i] = s.peers[i]) :
    absentDue t i = absentDue s i ∧ staleDue t i = staleDue s i := by
  simp only [absentDue, staleDue, absentReached, staleReached, isPeer, intervalUs, hc, hk, hp, and_self]

theorem agedPeer_congr {s t : State} {i : Fin 32} (hc : t.config = s.config) (hk : t.clock = s.clock)
    (hp : t.peers[i] = s.peers[i]) : agedPeer t i = agedPeer s i := by
  obtain ⟨absent, stale⟩ := due_congr hc hk hp
  simp only [agedPeer, absent, stale, hp]

theorem ageRecord_peers (s : State) (i : Fin 32) : (ageRecord s i).peers = put s.peers i (agedPeer s i) := by
  unfold ageRecord agedPeer
  split
  · simp [makeAbsent]
  · split
    · simp [makeStale]
    · ext j hj
      by_cases h : j = i.val
      · subst h; simp
      · simp [h]

theorem ageRecord_events (s : State) (i : Fin 32) :
    (ageRecord s i).events = if absentDue s i then s.events.raised .peer else s.events := by
  unfold ageRecord
  split
  · simp [makeAbsent]
  · split <;> simp [makeStale]

/-- Records aged one after the other: each takes what is due for it, and PEER is raised for each that becomes ABSENT. -/
theorem ageRecords (l : List (Fin 32)) (s : State) (hl : l.Nodup) :
    (∀ j : Fin 32, (l.foldl ageRecord s).peers[j] = if j ∈ l then agedPeer s j else s.peers[j]) ∧
    (l.foldl ageRecord s).events = (l.filter fun i => absentDue s i).foldl (fun e _ => e.raised .peer) s.events := by
  induction l generalizing s with
  | nil => simp
  | cons i l ih =>
    obtain ⟨fresh, distinct⟩ := List.nodup_cons.mp hl
    obtain ⟨peers, events⟩ := ih (ageRecord s i) distinct
    have others (j : Fin 32) (h : j ≠ i) : (ageRecord s i).peers[j] = s.peers[j] := by
      rw [ageRecord_peers, put_get_ne _ _ _ _ h]
    have apart {j : Fin 32} (h : j ∈ l) : j ≠ i := fun e => fresh (e ▸ h)
    refine ⟨fun j => ?_, ?_⟩
    · rw [List.foldl_cons, peers]
      by_cases hj : j ∈ l
      · rw [if_pos hj, if_pos (.tail i hj), agedPeer_congr (by simp) (by simp) (others j (apart hj))]
      · by_cases hi : j = i
        · subst hi
          rw [if_neg hj, if_pos (.head l), ageRecord_peers, put_get, if_pos rfl]
        · rw [if_neg hj, if_neg (by simp [hi, hj]), others j hi]
    · have due : l.filter (fun j => absentDue (ageRecord s i) j) = l.filter fun j => absentDue s j :=
        List.filter_congr fun j hj => (due_congr (by simp) (by simp) (others j (apart hj))).1
      rw [List.foldl_cons, events, due, ageRecord_events]
      by_cases h : absentDue s i = true <;> simp [h]

theorem ageAll_table (s : State) : (∀ j : Fin 32, (ageAll s).peers[j] = agedPeer s j) ∧
    (ageAll s).events = ((List.finRange 32).filter fun i => absentDue s i).foldl (fun e _ => e.raised .peer) s.events := by
  obtain ⟨peers, events⟩ := ageRecords (List.finRange 32) s (List.nodup_finRange 32)
  exact ⟨fun j => (peers j).trans (if_pos (List.mem_finRange j)), events⟩

/-! ### The stages (R189) -/

/-- The peer table and its events after the second stage, from a state that holds the record already. -/
theorem configurePeers_table {c : ConfigRecord} {s : State} (hc : s.config = some c) :
    (configurePeers c s).peers[c.own] = { Peer.cleared with presence := .fresh } ∧
    (∀ i : Fin 32, i ≠ c.own → (configurePeers c s).peers[i] = agedPeer s i) ∧
    (configurePeers c s).events =
      ((List.finRange 32).filter fun i => absentDue s i).foldl (fun e _ => e.raised .peer) s.events := by
  obtain ⟨peers, events⟩ := ageAll_table (putPeer c.own { Peer.cleared with presence := .fresh } s)
  have others (i : Fin 32) (h : i ≠ c.own) :
      (putPeer c.own { Peer.cleared with presence := .fresh } s).peers[i] = s.peers[i] := by
    rw [putPeer_peers, put_get_ne _ _ _ _ h]
  have own (t : State) (ht : t.config = some c) : absentDue t c.own = false ∧ staleDue t c.own = false := by
    simp [absentDue, staleDue, isPeer, ht]
  have due : (fun i => absentDue (putPeer c.own { Peer.cleared with presence := .fresh } s) i) = fun i => absentDue s i := by
    funext i
    by_cases h : i = c.own
    · subst h; rw [(own _ (by simp [hc])).1, (own _ hc).1]
    · exact (due_congr (by simp) (by simp) (others i h)).1
  refine ⟨?_, fun i h => ?_, ?_⟩
  · obtain ⟨absent, stale⟩ := own (putPeer c.own { Peer.cleared with presence := .fresh } s) (by simp [hc])
    rw [configurePeers, peers, agedPeer, absent, stale, if_neg Bool.false_ne_true, if_neg Bool.false_ne_true, putPeer_peers,
      put_get, if_pos rfl]
  · rw [configurePeers, peers, agedPeer_congr (by simp) (by simp) (others i h)]
  · simp only [configurePeers, events, due, putPeer_frame]

/-- The clock of a configured node once its round is entered part-way (R27, R28). -/
theorem enterRound_clock {c : ConfigRecord} {s : State} (hc : s.config = some c) : (enterRound c s).clock =
    { s.clock with
      roundStart := some (multipleBelow s.clock.site (1000 * c.interval))
      offsets := Vector.replicate 32 none
      beaconDue :=
        let due := plus (multipleBelow s.clock.site (1000 * c.interval)) ((c.own.val * (1000 * c.interval) / 32 : Nat) : Int)
        if reached s.clock.site due then none else some due
      correction := 0
      made := 0
      roundLocal := 0 } := by
  have interval : intervalUs s = 1000 * c.interval := by simp [intervalUs, hc]
  have entered : enterRound c s =
      let begun := beginRound c (multipleBelow s.clock.site (intervalUs s)) 0 s
      if reached s.clock.site (beaconTime c s (multipleBelow s.clock.site (intervalUs s)))
      then setClock { begun.clock with beaconDue := none } begun else begun := rfl
  rw [entered, beginRound, beaconTime, interval]
  by_cases passed : reached s.clock.site (plus (multipleBelow s.clock.site (1000 * c.interval))
      ((c.own.val * (1000 * c.interval) / 32 : Nat) : Int)) = true
  · simp only [passed, if_true]; rfl
  · simp only [passed]; rfl

/-- Both lock counts are 0 as well (R27). -/
theorem configureBlocks_clock (c : ConfigRecord) (s : State) :
    (configureBlocks c s).clock = { (enterRound c s).clock with within := 0, outside := 0 } := by
  simp [configureBlocks]

theorem configureBlocks_wind {c : ConfigRecord} {s : State} (hc : s.config = some c) : (configureBlocks c s).wind =
    { s.wind with
      site := siteWind c s, factor := windFactor c (siteWind c s), applied := min 1024 (windFactor c (siteWind c s)) } := by
  let entered := setClock { (enterRound c s).clock with within := 0, outside := 0 } (enterRound c s)
  have taken := recomputeWind_wind (s := { entered with wind := { entered.wind with applied := 1024 } }) (c := c)
    (by simp [entered, hc])
  have same : siteWind c { entered with wind := { entered.wind with applied := 1024 } } = siteWind c s :=
    siteWind_congr (by simp [entered]) (by simp [entered]) (by simp [entered]) c
  rw [same] at taken
  refine taken.trans ?_
  simp [entered]

theorem configureBlocks_safety (c : ConfigRecord) (s : State) (i : Fin 8) : (configureBlocks c s).safety[i] =
    configuredInput c s.clock.site i s.safety[i] := by
  have site : (enterRound c s).clock.site = s.clock.site := by simp only [enterRound]; split <;> rfl
  simp [configureBlocks, site]

/-- The node at the end of the stages, before the halt test (R189). -/
def configured (c : ConfigRecord) (s : State) : State :=
  evaluateLamps (setShowState .idle (configureBlocks c (configurePeers c (storeConfig c s))))

theorem acceptConfig_eq (c : ConfigRecord) (s : State) : acceptConfig c s =
    if freshPeerHalts (configured c s) then enterHalted false (configured c s) else configured c s := rfl

theorem configured_lamps (c : ConfigRecord) (s : State) : (configured c s).lamps =
    { s.lamps with next := multipleAfter s.clock.site 10000, lamp := gen fun l => { s.lamps.lamp[l] with duty := black } } := by
  have config : (setShowState .idle (configureBlocks c (configurePeers c (storeConfig c s)))).config = some c := by
    simp [storeConfig]
  rw [configured, evaluateLamps_lamps _ c config]
  simp [lampDuty_dark, storeConfig]

theorem configure_accepted {s : State} {record : List Byte} (hs : s.ctl.state = .standby) (hf : firstFailure record = none) :
    configure record s = accept (acceptConfig (parseRecord record) s) := by
  simp [configure, hs, hf]

/-- HALT entry is not about the last result record. -/
theorem haltEntered_settle {c : ConfigRecord} {s t : State} (code : Byte) (r : Result) (ix : Option Nat) (h : haltEntered c s t) :
    haltEntered c s (settle code r ix t) := h

/-- Settles O9: the stages of R189 leave the state `configured`, from which a halting peer leads on to HALTED. -/
theorem configureAccepted : Obligations.ConfigureAccepted := by
  intro s record taken standby whole passes c stored next
  have config : (storeConfig c s).config = some c := rfl
  obtain ⟨own, others, events⟩ := configurePeers_table config
  have config' : (configurePeers c (storeConfig c s)).config = some c := by simp [storeConfig]
  have accepted : exec (.configure record) s = .next (settle 0x20 .ok none (acceptConfig c s)) :=
    command_accepted (exec_configure_whole s whole) taken (configure_accepted standby passes)
  have wind : siteWind c (configured c s) = siteWind c (configurePeers c (storeConfig c s)) :=
    siteWind_congr (by simp [configured]) (by simp [configured, configureBlocks_wind config']) (by simp [configured]) c
  refine ⟨configured c s, _, accepted, recorded_settle _ _ _ ?_, ?_, ?_, ?_, ?_, ?_, ?_, ?_, ?_, ?_, ?_, ?_, ?_, ?_, ?_, ?_, ?_⟩
  · rw [acceptConfig_eq]
    split <;> simp [configured, storeConfig]
  · simp [configured, config]
  · simp [configured, storeConfig]
  · simp [configured, own, -Fin.getElem_fin]
  · intro i hi
    have aged := agedPeer_congr (s := stored) (t := storeConfig c s) (i := i) rfl rfl rfl
    simp only [configured, evaluateLamps_frame, setShowState_frame, configureBlocks_frame, others i hi, aged]
    rfl
  · simp only [configured, evaluateLamps_frame, setShowState_frame, configureBlocks_frame, events]
    rfl
  · simp [configured, storeConfig]
  · simp only [configured, evaluateLamps_frame, setShowState_frame, configureBlocks_clock, enterRound_clock config',
      configurePeers_frame]
    rfl
  · have stored : (storeConfig c s).wind = { s.wind with next := multipleAfter s.clock.site 1000000 } := rfl
    rw [wind]
    simp only [configured, evaluateLamps_frame, setShowState_frame, configureBlocks_wind config', configurePeers_frame, stored]
  · intro i
    simp only [configured, evaluateLamps_frame, setShowState_frame, configureBlocks_safety, configurePeers_frame]
    rfl
  · simp [configured, storeConfig, next]
  · simp [configured, storeConfig, next]
  · simp [configured_lamps, next]
  · intro l
    simp [configured_lamps]
  · simp [onlyChanges_iff, configured, storeConfig]
  · intro hn
    rw [acceptConfig_eq, hn]
    simp [onlyChanges_iff]
  · intro hy
    rw [acceptConfig_eq, hy, if_pos rfl]
    obtain ⟨raised, line⟩ := enterHalted_false_frame (configured c s)
    refine ⟨haltEntered_settle _ _ _ (haltEntered_enterHalted ?_), ?_, by simp [onlyChanges_iff, line]⟩
    · simp [configured, config]
    · simp only [settle_frame, raised]

end Sys2Proof.Proofs
end

