-- ==== Sys2Proof/Proofs/Actions.lean ====
section
/-! The hand-over of actions to their blocks, and the firing of the head action. -/

namespace Sys2Proof.Proofs

open Sys2Proof Sys2Proof.Machine Sys2Proof.Safety

/-! ### What each block takes of an action (R85, R104, R139, R141, R164) -/

theorem pumpHeight_pump (p : Fin 4) (target len : Nat) (anchor : Int) (s : State) : (pumpHeight p target len anchor s).pump =
    { s.pump with
      chan := put s.pump.chan p
        { s.pump.chan[p] with height := s.pump.chan[p].height.fadeTo (showTime s) target anchor len } } := rfl

/-- The phase of a figure in one view of its group. -/
def shownPhase (s : State) (g : Fin 4) (v : View) (f : Figure) : Phase := evalFigure (some f) (viewTime s g v)

theorem writeView_jets (g : Fin 4) (v : View) (f : Figure) (origin : Origin) (s : State) : (writeView g v f origin s).jets =
    put s.jets g (s.jets[g].withView v
      { presence := .held, figure := f, origin := origin, shown := shownPhase s g v f
        endReported := decide (v = .lamp ∧ shownPhase s g v f = .ended) }) := by
  unfold shownPhase
  simp [writeView]

theorem writeView_events (g : Fin 4) (v : View) (f : Figure) (origin : Origin) (s : State) : (writeView g v f origin s).events =
    if v = .lamp ∧ shownPhase s g v f = .ended ∧ origin = .fired then s.events.raised .figureEnd else s.events := by
  unfold shownPhase
  simp [writeView, and_assoc]

theorem viewTime_of_go {s : State} {c : ConfigRecord} {g : GoRecord} (hc : s.config = some c) (hg : s.ctl.go = some g) (i : Fin 4)
    (v : View) : viewTime s i v = some (match v with
      | .lamp => sdiff s.clock.site g.start
      | .valve => sdiff s.clock.site g.start + 1000 * (c.valveLead[i] : Int)) := by
  cases v <;> simp [viewTime, showTime_of_go hg, hc]

theorem takesShowActions_iff (s : State) : takesShowActions s = true ↔ s.ctl.state = .countdown ∨ s.ctl.state = .running := by
  simp [takesShowActions]

theorem lampColour_lamps (set : Word16) (colour : Rgb) (len : Nat) (anchor : Int) (s : State) :
    (lampColour set colour len anchor s).lamps = { s.lamps with lamp := (lampColour set colour len anchor s).lamps.lamp } ∧
    ∀ l : Fin 16, (lampColour set colour len anchor s).lamps.lamp[l] =
      if takesShowActions s = true ∧ set.getLsbD l = true then s.lamps.lamp[l].fadeTo (showTime s) colour anchor len
      else s.lamps.lamp[l] := by
  by_cases h : takesShowActions s = true <;> simp [lampColour, h]

theorem lampMaster_lamps (level len : Nat) (anchor : Int) (s : State) : (lampMaster level len anchor s).lamps =
    { s.lamps with
      master := if takesShowActions s then s.lamps.master.fadeTo (showTime s) level anchor len else s.lamps.master } := by
  unfold lampMaster
  split <;> rfl

theorem audioLevel_audio (gain len : Nat) (anchor : Int) (s : State) : (audioLevel gain len anchor s).audio =
    if takesShowActions s then
      { s.audio with
        gain := s.audio.gain.fadeTo (showTime s) gain anchor len
        applied := (s.audio.gain.fadeTo (showTime s) gain anchor len).present (showTime s) }
    else s.audio := by
  unfold audioLevel
  split <;> rfl

/-! ### END (R12, R17) -/

/-- Entry to CODA does not depend on the duties the lamps showed before it. -/
theorem codaEntered_of_duties {c : ConfigRecord} {cause : CodaCause} {s s' t : State} (h : codaEntered c cause s' t)
    (hs : onlyChanges [.lamps] s s') (hl : s'.lamps = { s.lamps with lamp := s'.lamps.lamp })
    (hd : ∀ l : Fin 16, ∃ duty, s'.lamps.lamp[l] = { s.lamps.lamp[l] with duty := duty }) : codaEntered c cause s t := by
  obtain ⟨_, _, _, ctl, clock, _, _, _, cue, _, pump, _, _, audio, _, events, _⟩ := (onlyChanges_iff _ _ _).mp hs
  simp only [List.mem_singleton, reduceCtorEq, not_false_eq_true, forall_const] at ctl clock cue pump audio events
  have time : showTime s' = showTime s := by simp [showTime, ctl, clock]
  have now : showNow s' = showNow s := by simp [showNow, time]
  have colours (l : Fin 16) (tau : Option Int) : s'.lamps.lamp[l].colour tau = s.lamps.lamp[l].colour tau := by
    obtain ⟨duty, h⟩ := hd l
    rw [h]; rfl
  obtain ⟨hctl, hcue, hpump, hheight, hlamps, hlamp, haudio, hevents, hchanges⟩ := h
  rw [ctl, clock] at hctl
  rw [cue] at hcue
  rw [pump] at hpump
  rw [events] at hevents
  rw [audio, now] at haudio
  refine ⟨hctl, hcue, hpump, ?_, ?_, ?_, haudio, hevents, onlyChanges_trans hs hchanges (by decide)⟩
  · simpa only [pump, time, now] using hheight
  · rw [hlamps, hl]
  · simpa only [colours, time, now] using hlamp

/-- Nor does it matter that the lamps are evaluated once more after it. -/
theorem codaEntered_evaluateLamps {c : ConfigRecord} {cause : CodaCause} {s t : State} (hc : t.config = some c)
    (h : codaEntered c cause s t) : codaEntered c cause s (evaluateLamps t) := by
  obtain ⟨hctl, hcue, hpump, hheight, hlamps, hlamp, haudio, hevents, hchanges⟩ := h
  have again := evaluateLamps_lamps t c hc
  refine ⟨by simpa using hctl, by simpa using hcue, by simpa using hpump, by simpa using hheight, ?_, fun l => ?_,
    by simpa using haudio, by simpa using hevents,
    onlyChanges_trans (q := [.lamps]) hchanges (by simp [onlyChanges_iff]) (by decide)⟩
  · rw [again, hlamps]
  · have duty : lampDuty (evaluateLamps t) c l = lampDuty t c l := lampDuty_evaluated .state t c l
    rw [duty, again, gen_get_fin, hlamp l]

/-- The END action in COUNTDOWN and in RUNNING (R17; notes/assumptions/22.md). -/
theorem codaEntered_fireEnd {s : State} {c : ConfigRecord} {g : GoRecord} (hc : s.config = some c) (hg : s.ctl.go = some g) :
    (s.ctl.state = .running → codaEntered c .endCue s (fireEnd s)) ∧
    (s.ctl.state = .countdown → codaEntered c .endCue
      { s with events := s.events.raised .state, ctl := { s.ctl with state := .running } } (fireEnd s)) := by
  refine ⟨fun h => ?_, fun h => ?_⟩
  · rw [fireEnd, h]
    exact codaEntered_enterCoda .endCue hc hg
  · rw [fireEnd, h]
    obtain ⟨lamps, duty⟩ := enterRunning_lamps hc
    refine codaEntered_of_duties (codaEntered_enterCoda .endCue (by simpa) (by simpa [enterRunning_ctl])) ?_ lamps
      fun l => ⟨_, duty l⟩
    simp [onlyChanges_iff, enterRunning]

/-! ### Firing (R75, R76) -/

/-- The node once its head action has left the queue, late or not (R75, R76). -/
theorem countLate_taken {s : State} {g : GoRecord} {a : Action} {rest : List Action} (hg : s.ctl.go = some g) :
    let late := 10000 < sdiff s.clock.site g.start - a.due ∧ a.counted = false
    countLate a { s with cue := { s.cue with queue := rest } } = { s with
      cue := { s.cue with
        queue := if late then rest.map fun b => if b.cue = a.cue then { b with counted := true } else b else rest
        lateCount := if late then min 65535 (s.cue.lateCount + 1) else s.cue.lateCount }
      events := if late then s.events.raised .cueLate else s.events } := by
  intro late
  have now : showNow { s with cue := { s.cue with queue := rest } } = sdiff s.clock.site g.start := showNow_of_go hg
  rw [countLate, now]
  by_cases h : late
  · rw [if_pos h, if_pos h, if_pos h, if_pos h]
    rfl
  · rw [if_neg h, if_neg h, if_neg h, if_neg h]

theorem actionDue_iff {s : State} {g : GoRecord} {a : Action} {rest : List Action} (hg : s.ctl.go = some g)
    (hq : s.cue.queue = a :: rest) : actionDue s = true ↔ s.cue.taking = true ∧ a.due ≤ sdiff s.clock.site g.start := by
  simp [actionDue, showTime_of_go hg, hq]

/-- The cue at the pointer is reached and finds room (R73). -/
theorem cueTakable_iff {s : State} {c : ConfigRecord} {now : Int} (hc : s.config = some c) (ht : showTime s = some now) :
    cueReached s = true ∧ cueRoom s = true ↔ s.cue.taking = true ∧ s.cue.pointer < s.score.cueCount ∧
      1000 * ((cueTime (cueBytes s.score s.cue.pointer) : Int) - s.cue.horizon) ≤ now ∧
      s.cue.queue.length + (cueActions c s.score s.cue.pointer).length ≤ 64 := by
  unfold cueReached cueRoom nextActions takingTime
  simp [hc, ht, and_assoc]

/-- A cue held for want of room is taken by CUE_TAKEN where room has come (R73). -/
theorem retryHeldCue_eq {u : State} (hh : u.port.held = false) :
    (u.cue.waiting = true ∧ cueReached u = true ∧ cueRoom u = true → exec .cueTaken u = .next (retryHeldCue u)) ∧
    (¬ (u.cue.waiting = true ∧ cueReached u = true ∧ cueRoom u = true) → retryHeldCue u = u) := by
  have taken : exec .cueTaken u =
      .next (if cueReached u then (if cueRoom u then waitForRoom (takeCue u) else waitForRoom u) else u) :=
    congrArg Host.Outcome.next (unlessHeld_free u _ hh)
  refine ⟨fun ⟨waits, time, room⟩ => ?_, fun h => ?_⟩
  · simp [taken, retryHeldCue, waits, time, room]
  · rw [retryHeldCue, if_neg]
    simpa [and_assoc] using h

theorem deliver_keeps_cue {act : Act} (he : act ≠ .endShow) (hm : ∀ n, act ≠ .mark n) (o : Origin) (due : Int) (s : State) :
    (deliver o due act s).cue = s.cue := by
  cases act with
  | endShow => exact absurd rfl he
  | mark n => exact absurd rfl (hm n)
  | height | figure | colour | master | level => simp [deliver]

/-- After a hand-over the cue engine waits for room only where it goes on taking from the same pointer. -/
theorem deliver_cue (o : Origin) (due : Int) (act : Act) (s : State) : (deliver o due act s).cue.waiting = false ∨
    ((deliver o due act s).cue.taking = s.cue.taking ∧ (deliver o due act s).cue.pointer = s.cue.pointer ∧
      (deliver o due act s).cue.horizon = s.cue.horizon) := by
  cases act with
  | endShow =>
    rw [deliver, fireEnd]
    split
    · exact .inl (by simp [enterCoda])
    · exact .inl (by simp [enterCoda])
    all_goals exact .inr ⟨rfl, rfl, rfl⟩
  | height | figure | colour | master | level | mark => exact .inr (by simp [deliver])

theorem deliver_go (o : Origin) (due : Int) (act : Act) (s : State) : (deliver o due act s).ctl.go = s.ctl.go := by
  cases act with
  | endShow =>
    rw [deliver, fireEnd]
    split <;> simp [enterCoda_ctl, enterRunning_ctl]
  | height | figure | colour | master | level | mark => simp [deliver]

/-- Settles O43: one firing hands the head action to its block, and a held cue is tried again. -/
theorem actionFires : Obligations.ActionFires := by
  intro s c g a rest hh hc hg hq now late cue events fading
  have fired : exec .actionFires s = .next (if actionDue s then fireHead s else s) :=
    congrArg Host.Outcome.next (unlessHeld_free s _ hh)
  refine ⟨fun h => ?_, fun ht hd => ?_⟩
  · rw [fired, if_neg]
    rw [actionDue_iff hg hq]
    rintro ⟨ht, hd⟩
    rcases h with h | h
    · simp [h] at ht
    · exact absurd hd (Int.not_le.mpr h)
  rw [if_pos ((actionDue_iff hg hq).mpr ⟨ht, hd⟩)] at fired
  let left : State := { s with cue := cue, events := events }
  have head : fireHead s = retryHeldCue (deliver .fired a.due a.act left) := by
    simp only [fireHead, hq, countLate_taken hg]
    rfl
  rw [head] at fired
  have goLeft : left.ctl.go = some g := hg
  have time : showTime left = some now := showTime_of_go goLeft
  have takes : takesShowActions left = true ↔ fading := takesShowActions_iff left
  refine ⟨deliver .fired a.due a.act left, _, fired, ?_, ?_, ?_, ?_, ?_, ?_, ?_, ?_, ?_⟩
  · exact fun he hm => deliver_keeps_cue he hm _ _ left
  · intro n ha
    rw [ha]
    exact ⟨rfl, rfl, by simp [onlyChanges_iff, deliver, left]⟩
  · intro p target len ha
    rw [ha]
    refine ⟨rfl, fun q hq => put_get_ne _ _ _ _ hq, ?_, rfl, by simp [onlyChanges_iff, deliver, left]⟩
    rw [deliver, pumpHeight_pump, put_get, if_pos rfl, time]
    rfl
  · intro v i f ha phase
    have shown : shownPhase left i v f = phase := congrArg (evalFigure (some f)) (viewTime_of_go (s := left) hc goLeft i v)
    rw [ha]
    refine ⟨fun j hj => ?_, ?_, ?_, by simp [onlyChanges_iff, deliver, left]⟩
    · rw [deliver, writeView_jets, put_get_ne _ _ _ _ hj]
    · rw [deliver, writeView_jets, put_get, if_pos rfl, shown]
    · rw [deliver, writeView_events, shown]
      simp [left]
  · intro set colour len ha
    rw [ha]
    obtain ⟨lamps, lamp⟩ := lampColour_lamps set colour len a.due left
    refine ⟨lamps, fun l => ?_, by simp [deliver, left], by simp [onlyChanges_iff, deliver, left]⟩
    rw [deliver, lamp, time]
    simp only [takes]
    rfl
  · intro level len ha
    rw [ha]
    refine ⟨?_, by simp [deliver, left], by simp [onlyChanges_iff, deliver, left]⟩
    rw [deliver, lampMaster_lamps, time]
    simp only [takes]
    rfl
  · intro gain len ha
    rw [ha]
    refine ⟨?_, by simp [deliver, left], by simp [onlyChanges_iff, deliver, left]⟩
    rw [deliver, audioLevel_audio, time]
    simp only [takes]
    rfl
  · intro ha
    rw [ha]
    obtain ⟨running, countdown⟩ := codaEntered_fireEnd (s := left) hc goLeft
    refine ⟨running, countdown, fun hr hc => ?_⟩
    rw [deliver, fireEnd]
    split
    · exact absurd ‹_› hr
    · exact absurd ‹_› hc
    all_goals rfl
  · intro retried
    let u := deliver .fired a.due a.act left
    have port : u.port.held = false := by simp [u, left, hh]
    have config : u.config = some c := by simp [u, left, hc]
    have score : u.score = s.score := by simp [u, left]
    have now' : showTime u = some now := by
      have clock : u.clock = s.clock := by simp [u, left]
      rw [showTime_of_go ((deliver_go _ _ _ left).trans goLeft), clock]
    have held : retried ↔ u.cue.waiting = true ∧ cueReached u = true ∧ cueRoom u = true := by
      refine and_congr_right fun waits => ?_
      rcases deliver_cue .fired a.due a.act left with idle | ⟨taking, pointer, horizon⟩
      · exact absurd waits (by rw [idle]; exact Bool.false_ne_true)
      · rw [cueTakable_iff config now', score, and_iff_right (taking.trans ht)]
        rw [show u.cue.pointer = s.cue.pointer from pointer, show u.cue.horizon = s.cue.horizon from horizon]
    obtain ⟨taken, stands⟩ := retryHeldCue_eq port
    exact ⟨fun h => taken (held.mp h), fun h => stands (mt held.mpr h)⟩

end Sys2Proof.Proofs
end

