-- ==== Sys2Proof/Proofs/SeekLists.lean ====
section
/-! The lists of actions that CUE SEEK makes: what is retained for each target, the queue, and the cues passed. -/

namespace Sys2Proof.Proofs

open Sys2Proof Sys2Proof.Machine Sys2Proof.Safety

/-! ### The queue of a seek (R74, R82) -/

theorem insertActions_perm (as q : List Action) : (insertActions q as).Perm (q ++ as) := by
  induction as generalizing q with
  | nil => simp [insertActions]
  | cons a as ih =>
    have placed : (insertAction q a).Perm (q ++ [a]) := by
      have middle : (insertAction q a).Perm (a :: (q.takeWhile _ ++ q.dropWhile _)) := List.perm_middle
      rw [List.takeWhile_append_dropWhile] at middle
      exact middle.trans (List.perm_append_singleton a q).symm
    have all := (ih (insertAction q a)).trans (placed.append_right as)
    rwa [List.append_assoc] at all

/-- Of the actions due at one time the queue keeps the order (R74). -/
theorem insertAction_filter_due {q : List Action} (hq : q.Pairwise fun x y => x.due ≤ y.due) (a : Action) (d : Int) :
    (insertAction q a).filter (fun b => decide (b.due = d)) = (q ++ [a]).filter fun b => decide (b.due = d) := by
  induction q with
  | nil => rfl
  | cons b q ih =>
    obtain ⟨above, sorted⟩ := List.pairwise_cons.mp hq
    by_cases hb : b.due ≤ a.due
    · have passes : insertAction (b :: q) a = b :: insertAction q a := by simp [insertAction, hb]
      rw [passes, List.cons_append, List.filter_cons, List.filter_cons, ih sorted]
    · have stops : insertAction (b :: q) a = a :: b :: q := by simp [insertAction, hb]
      rw [stops, List.filter_append]
      by_cases ha : a.due = d
      · have later : (b :: q).filter (fun b => decide (b.due = d)) = [] := by
          refine List.filter_eq_nil_iff.mpr fun x hx => ?_
          have : b.due ≤ x.due := by
            rcases List.mem_cons.mp hx with rfl | hx
            · exact Int.le_refl _
            · exact above x hx
          simp only [decide_eq_true_eq]
          omega
        rw [List.filter_cons, later]
        simp [List.filter_cons]
      · simp [ha]

theorem insertActions_filter_due (as : List Action) {q : List Action} (hq : q.Pairwise fun x y => x.due ≤ y.due) (d : Int) :
    (insertActions q as).filter (fun b => decide (b.due = d)) = (q ++ as).filter fun b => decide (b.due = d) := by
  induction as generalizing q with
  | nil => simp [insertActions]
  | cons a as ih =>
    have rest := ih (insertAction_sorted q a hq)
    rw [List.filter_append, insertAction_filter_due hq, ← List.filter_append, List.append_assoc] at rest
    exact rest

/-! ### The cues passed (R81) -/

/-- The indices a downward closed property holds of are the first ones. -/
theorem filter_range_of_downward {p : Nat → Bool} {n : Nat} (h : ∀ i j, i ≤ j → j < n → p j = true → p i = true) :
    (List.range n).filter p = List.range ((List.range n).filter p).length := by
  induction n with
  | zero => rfl
  | succ n ih =>
    have shorter := ih fun i j hij hj => h i j hij (Nat.lt_succ_of_lt hj)
    rw [List.range_succ, List.filter_append]
    by_cases hn : p n = true
    · have all : (List.range n).filter p = List.range n :=
        List.filter_eq_self.mpr fun i hi => h i n (List.mem_range.mp hi).le (Nat.lt_succ_self n) hn
      simp [all, hn, List.range_succ]
    · simpa [hn] using shorter

/-! ### The last action of a kind (R81) -/

theorem lastAction_eq (keep : Act → Bool) (as : List Action) :
    lastAction keep as = (as.filter fun a => keep a.act).getLast? := by
  rw [lastAction, ← List.head?_filter, List.filter_reverse, List.head?_reverse]

/-- The last entry that is kept gives the last of what the entries kept give. -/
theorem getLast?_filterMap_of_isSome {α β : Type} {f : α → Option β} {l : List α} (h : ∀ a ∈ l, (f a).isSome) :
    (l.filterMap f).getLast? = l.getLast?.bind f := by
  rcases List.eq_nil_or_concat l with rfl | ⟨l, a, rfl⟩
  · rfl
  · obtain ⟨b, hb⟩ := Option.isSome_iff_exists.mp (h a (by simp))
    simp [List.concat_eq_append, List.filterMap_append, hb]

theorem getLast?_filter_bind {keep : Action → Bool} {β : Type} {key : Action → Option β}
    (hk : ∀ a, keep a = (key a).isSome) (as : List Action) : (as.filter keep).getLast?.bind key = (as.filterMap key).getLast? := by
  rw [← getLast?_filterMap_of_isSome (fun a ha => by simpa [hk] using (List.mem_filter.mp ha).2), List.filterMap_filter]
  congr 1
  refine List.filterMap_congr fun a _ => ?_
  rw [hk]
  cases key a <;> rfl

theorem lastAction_bind {keep : Act → Bool} {β : Type} {key : Action → Option β} (hk : ∀ a, keep a.act = (key a).isSome)
    (as : List Action) : (lastAction keep as).bind key = (as.filterMap key).getLast? := by
  rw [lastAction_eq, getLast?_filter_bind hk]

/-- An action of another kind gives a target nothing. -/
theorem lastAction_bind_none {keep : Act → Bool} {β : Type} {key : Action → Option β}
    (hk : ∀ a, keep a.act = true → key a = none) (as : List Action) : (lastAction keep as).bind key = none := by
  rw [Option.bind_eq_none_iff]
  exact fun a ha => hk a (lastAction_keep ha)

/-! ### What is retained for a target (R81) -/

/-- A list of parts, one for each of distinct indices, where only one index has anything. -/
theorem flatMap_eq_of_only {ι α : Type} {l : List ι} {p : ι} {f : ι → List α} (hl : l.Nodup) (hp : p ∈ l)
    (hf : ∀ q, q ≠ p → f q = []) : l.flatMap f = f p := by
  induction l with
  | nil => cases hp
  | cons q l ih =>
    obtain ⟨fresh, distinct⟩ := List.nodup_cons.mp hl
    rw [List.flatMap_cons]
    by_cases h : q = p
    · subst h
      have rest : l.flatMap f = [] := List.flatMap_eq_nil_iff.mpr fun r hr => hf r fun e => fresh (e ▸ hr)
      rw [rest, List.append_nil]
    · rw [hf q h, List.nil_append, ih distinct ((List.mem_cons.mp hp).resolve_left fun e => h e.symm)]

/-- What an action gives a target of the seek: its due time, the value, and the fade or ramp. -/
structure Given (α : Type) where
  due : Int
  value : α
  len : Nat

def givesHeight (p : Fin 4) (a : Action) : Option (Given Nat) :=
  match a.act with
  | .height q target len => if q = p then some ⟨a.due, target, len⟩ else none
  | .figure _ _ _ | .colour _ _ _ | .master _ _ | .level _ _ | .mark _ | .endShow => none

def givesFigure (v : View) (i : Fin 4) (a : Action) : Option Figure :=
  match a.act with
  | .figure w j f => if w = v ∧ j = i then some f else none
  | .height _ _ _ | .colour _ _ _ | .master _ _ | .level _ _ | .mark _ | .endShow => none

def givesColour (l : Fin 16) (a : Action) : Option (Given Rgb) :=
  match a.act with
  | .colour set colour len => if set.getLsbD l then some ⟨a.due, colour, len⟩ else none
  | .height _ _ _ | .figure _ _ _ | .master _ _ | .level _ _ | .mark _ | .endShow => none

def givesMaster (a : Action) : Option (Given Nat) :=
  match a.act with
  | .master level len => some ⟨a.due, level, len⟩
  | .height _ _ _ | .figure _ _ _ | .colour _ _ _ | .level _ _ | .mark _ | .endShow => none

def givesLevel (a : Action) : Option (Given Nat) :=
  match a.act with
  | .level gain len => some ⟨a.due, gain, len⟩
  | .height _ _ _ | .figure _ _ _ | .colour _ _ _ | .master _ _ | .mark _ | .endShow => none

/-- The latest HEIGHT of each channel. -/
def retainedHeights (as : List Action) : List Action :=
  (List.finRange 4).filterMap fun p => lastAction (fun | .height q _ _ => q = p | _ => false) as

/-- A FIGURE for one view of a group. -/
def namesFigure (v : View) (i : Fin 4) : Act → Bool
  | .figure w j _ => decide (w = v ∧ j = i)
  | _ => false

theorem namesFigure_eq (v : View) (i : Fin 4) (a : Action) : namesFigure v i a.act = (givesFigure v i a).isSome := by
  cases h : a.act <;> simp only [givesFigure, namesFigure, h, Option.isSome_none]
  split <;> simp_all

/-- The latest FIGURE of each view of each group. -/
def retainedFigures (as : List Action) : List Action :=
  (List.finRange 4).flatMap fun g =>
    (lastAction (namesFigure .valve g) as).toList ++ (lastAction (namesFigure .lamp g) as).toList

def retainedColours (as : List Action) : List Action := (retainColours 0xFFFF as.reverse).reverse

def retainedMaster (as : List Action) : List Action := (lastAction (fun | .master _ _ => true | _ => false) as).toList

def retainedLevel (as : List Action) : List Action := (lastAction (fun | .level _ _ => true | _ => false) as).toList

theorem retained_eq (as : List Action) : retained as =
    retainedHeights as ++ retainedFigures as ++ retainedColours as ++ retainedMaster as ++ retainedLevel as := by
  have names (g : Fin 4) : (namesFigure .valve g = fun | .figure .valve h _ => h = g | _ => false) ∧
      (namesFigure .lamp g = fun | .figure .lamp h _ => h = g | _ => false) := by
    constructor <;> funext a <;> rcases a with _ | ⟨_ | _, _, _⟩ | _ | _ | _ | _ | _ <;> simp [namesFigure]
  simp only [retainedFigures, names]
  rfl

theorem filterMap_lastAction {β : Type} (keep : Act → Bool) (key : Action → Option β) (as : List Action) :
    (lastAction keep as).toList.filterMap key = ((lastAction keep as).bind key).toList := by
  cases lastAction keep as with
  | none => rfl
  | some a => cases h : key a <;> simp [h]

theorem filterMap_retainedHeights {β : Type} (key : Action → Option β) (as : List Action) :
    (retainedHeights as).filterMap key = (List.finRange 4).flatMap fun p =>
      ((lastAction (fun | .height q _ _ => q = p | _ => false) as).bind key).toList := by
  rw [retainedHeights, List.filterMap_filterMap, List.filterMap_eq_flatMap_toList]

theorem filterMap_retainedFigures {β : Type} (key : Action → Option β) (as : List Action) :
    (retainedFigures as).filterMap key = (List.finRange 4).flatMap fun g =>
      ((lastAction (namesFigure .valve g) as).bind key).toList ++ ((lastAction (namesFigure .lamp g) as).bind key).toList := by
  rw [retainedFigures, List.filterMap_flatMap]
  simp only [List.filterMap_append, filterMap_lastAction]

/-- Of a lamp the latest COLOUR naming it is retained, whatever set it is reduced to. -/
theorem filterMap_retainColours (l : Fin 16) (left : Word16) (as : List Action) :
    (retainColours left as).filterMap (givesColour l) =
      if left.getLsbD l then (as.filterMap (givesColour l)).head?.toList else [] := by
  induction as generalizing left with
  | nil => simp [retainColours]
  | cons a as ih =>
    cases h : a.act with
    | colour set colour len =>
      have gives : givesColour l a = if set.getLsbD l then some ⟨a.due, colour, len⟩ else none := by simp [givesColour, h]
      by_cases hs : set &&& left = 0
      · have apart : ¬ (set.getLsbD l = true ∧ left.getLsbD l = true) := by
          have := congrArg (BitVec.getLsbD · l) hs
          simpa [-BitVec.getLsbD_eq_getElem] using this
        rw [retainColours, h]
        simp only [hs, if_true, ih, List.filterMap_cons, gives]
        cases hl : left.getLsbD l with
        | false => rfl
        | true =>
          have hn : set.getLsbD l = false := by simpa [hl, -BitVec.getLsbD_eq_getElem] using apart
          simp only [hn, Bool.false_eq_true, if_false]
      · have narrowed : givesColour l { a with act := .colour (set &&& left) colour len } =
            if set.getLsbD l && left.getLsbD l then some ⟨a.due, colour, len⟩ else none := by
          rw [← BitVec.getLsbD_and]
          rfl
        have kept : (left &&& ~~~set).getLsbD l = (left.getLsbD l && !set.getLsbD l) := by
          simp [-BitVec.getLsbD_eq_getElem]
        rw [retainColours, h]
        simp only [hs, if_false, ih, List.filterMap_cons, gives, narrowed, kept]
        cases left.getLsbD l <;> cases set.getLsbD l <;> rfl
    | height | figure | master | level | mark | endShow =>
      have gives : givesColour l a = none := by simp [givesColour, h]
      rw [retainColours, h]
      simp [ih, gives]

theorem filterMap_retainedColours (l : Fin 16) (as : List Action) :
    (retainedColours as).filterMap (givesColour l) = (as.filterMap (givesColour l)).getLast?.toList := by
  have every : (0xFFFF : Word16).getLsbD l = true := by revert l; decide
  rw [retainedColours, List.filterMap_reverse, filterMap_retainColours, every, if_pos rfl, List.filterMap_reverse,
    List.head?_reverse]
  cases (as.filterMap (givesColour l)).getLast? <;> rfl

theorem act_of_mem_retainedHeights {as : List Action} {a : Action} (h : a ∈ retainedHeights as) :
    ∃ p target len, a.act = .height p target len := by
  obtain ⟨p, -, h⟩ := List.mem_filterMap.mp h
  have keep := lastAction_keep h
  cases ha : a.act <;> simp_all

theorem act_of_mem_retainedFigures {as : List Action} {a : Action} (h : a ∈ retainedFigures as) :
    ∃ v i f, a.act = .figure v i f := by
  simp only [retainedFigures, List.mem_flatMap, List.mem_append, Option.mem_toList] at h
  obtain ⟨g, -, h | h⟩ := h
  all_goals
    have keep := lastAction_keep h
    cases ha : a.act <;> simp_all [namesFigure]

theorem act_of_mem_retainedColours {as : List Action} {a : Action} (h : a ∈ retainedColours as) :
    ∃ set colour len, a.act = .colour set colour len :=
  act_of_mem_retainColours (List.mem_reverse.mp h)

theorem act_of_mem_retainedMaster {as : List Action} {a : Action} (h : a ∈ retainedMaster as) :
    ∃ level len, a.act = .master level len := by
  have keep := lastAction_keep (Option.mem_toList.mp h)
  cases ha : a.act <;> simp_all

theorem act_of_mem_retainedLevel {as : List Action} {a : Action} (h : a ∈ retainedLevel as) :
    ∃ gain len, a.act = .level gain len := by
  have keep := lastAction_keep (Option.mem_toList.mp h)
  cases ha : a.act <;> simp_all

theorem retainedHeights_give_none {β : Type} {key : Action → Option β}
    (hk : ∀ a p t n, a.act = .height p t n → key a = none) (as : List Action) : (retainedHeights as).filterMap key = [] :=
  List.filterMap_eq_nil_iff.mpr fun a ha => let ⟨_, _, _, h⟩ := act_of_mem_retainedHeights ha; hk a _ _ _ h

theorem retainedFigures_give_none {β : Type} {key : Action → Option β}
    (hk : ∀ a v i f, a.act = .figure v i f → key a = none) (as : List Action) : (retainedFigures as).filterMap key = [] :=
  List.filterMap_eq_nil_iff.mpr fun a ha => let ⟨_, _, _, h⟩ := act_of_mem_retainedFigures ha; hk a _ _ _ h

theorem retainedColours_give_none {β : Type} {key : Action → Option β}
    (hk : ∀ a s c n, a.act = .colour s c n → key a = none) (as : List Action) : (retainedColours as).filterMap key = [] :=
  List.filterMap_eq_nil_iff.mpr fun a ha => let ⟨_, _, _, h⟩ := act_of_mem_retainedColours ha; hk a _ _ _ h

theorem retainedMaster_gives_none {β : Type} {key : Action → Option β}
    (hk : ∀ a m n, a.act = .master m n → key a = none) (as : List Action) : (retainedMaster as).filterMap key = [] :=
  List.filterMap_eq_nil_iff.mpr fun a ha => let ⟨_, _, h⟩ := act_of_mem_retainedMaster ha; hk a _ _ h

theorem retainedLevel_gives_none {β : Type} {key : Action → Option β}
    (hk : ∀ a m n, a.act = .level m n → key a = none) (as : List Action) : (retainedLevel as).filterMap key = [] :=
  List.filterMap_eq_nil_iff.mpr fun a ha => let ⟨_, _, h⟩ := act_of_mem_retainedLevel ha; hk a _ _ h

/-- The latest HEIGHT of a channel is handed over, and no other. -/
theorem retained_height (p : Fin 4) (as : List Action) :
    (retained as).filterMap (givesHeight p) = (as.filterMap (givesHeight p)).getLast?.toList := by
  have part : (retainedHeights as).filterMap (givesHeight p) = (as.filterMap (givesHeight p)).getLast?.toList := by
    rw [filterMap_retainedHeights, flatMap_eq_of_only (List.nodup_finRange 4) (List.mem_finRange p), lastAction_bind]
    · intro a
      cases h : a.act <;> simp [givesHeight, h]
      split <;> simp_all
    · intro q hq
      rw [lastAction_bind_none]
      · rfl
      · intro a
        cases h : a.act <;> simp_all [givesHeight]
  rw [retained_eq]
  simp only [List.filterMap_append]
  rw [part, retainedFigures_give_none, retainedColours_give_none, retainedMaster_gives_none, retainedLevel_gives_none]
  · simp
  all_goals simp +contextual [givesHeight]

/-- The latest FIGURE of a view of a group is handed over, and no other. -/
theorem retained_figure (v : View) (i : Fin 4) (as : List Action) :
    (retained as).filterMap (givesFigure v i) = (as.filterMap (givesFigure v i)).getLast?.toList := by
  have latest := lastAction_bind (namesFigure_eq v i) as
  have others (w : View) (j : Fin 4) (h : ¬ (w = v ∧ j = i)) :
      (lastAction (namesFigure w j) as).bind (givesFigure v i) = none := by
    refine lastAction_bind_none (fun a ha => ?_) as
    cases hact : a.act <;> simp_all [namesFigure, givesFigure]
  have part : (retainedFigures as).filterMap (givesFigure v i) = (as.filterMap (givesFigure v i)).getLast?.toList := by
    rw [filterMap_retainedFigures, flatMap_eq_of_only (List.nodup_finRange 4) (List.mem_finRange i)]
    · cases v with
      | valve => simp [latest, others .lamp i]
      | lamp => simp [latest, others .valve i]
    · intro q hq
      simp [others .valve q (mt And.right hq), others .lamp q (mt And.right hq)]
  rw [retained_eq]
  simp only [List.filterMap_append]
  rw [part, retainedHeights_give_none, retainedColours_give_none, retainedMaster_gives_none, retainedLevel_gives_none]
  · simp
  all_goals simp +contextual [givesFigure]

/-- The latest COLOUR naming a lamp is handed over, and no other. -/
theorem retained_colour (l : Fin 16) (as : List Action) :
    (retained as).filterMap (givesColour l) = (as.filterMap (givesColour l)).getLast?.toList := by
  rw [retained_eq]
  simp only [List.filterMap_append]
  rw [filterMap_retainedColours, retainedHeights_give_none, retainedFigures_give_none, retainedMaster_gives_none,
    retainedLevel_gives_none]
  · simp
  all_goals simp +contextual [givesColour]

theorem retained_master (as : List Action) :
    (retained as).filterMap givesMaster = (as.filterMap givesMaster).getLast?.toList := by
  have part : (retainedMaster as).filterMap givesMaster = (as.filterMap givesMaster).getLast?.toList := by
    rw [retainedMaster, filterMap_lastAction, lastAction_bind]
    intro a
    cases h : a.act <;> simp [givesMaster, h]
  rw [retained_eq]
  simp only [List.filterMap_append]
  rw [part, retainedHeights_give_none, retainedFigures_give_none, retainedColours_give_none, retainedLevel_gives_none]
  · simp
  all_goals simp +contextual [givesMaster]

theorem retained_level (as : List Action) :
    (retained as).filterMap givesLevel = (as.filterMap givesLevel).getLast?.toList := by
  have part : (retainedLevel as).filterMap givesLevel = (as.filterMap givesLevel).getLast?.toList := by
    rw [retainedLevel, filterMap_lastAction, lastAction_bind]
    intro a
    cases h : a.act <;> simp [givesLevel, h]
  rw [retained_eq]
  simp only [List.filterMap_append]
  rw [part, retainedHeights_give_none, retainedFigures_give_none, retainedColours_give_none, retainedMaster_gives_none]
  · simp
  all_goals simp +contextual [givesLevel]

end Sys2Proof.Proofs
end

