-- ==== Sys2Proof/Proofs/SeekHandOver.lean ====
section
/-! What a late join by CUE SEEK leaves in each target. -/

namespace Sys2Proof.Proofs

open Sys2Proof Sys2Proof.Machine Sys2Proof.Safety

/-! ### Hand-overs target by target (R81) -/

/-- A node that a seek at show time `now` hands actions to. -/
def seeking (c : ConfigRecord) (now : Int) (s : State) : Prop :=
  s.config = some c ∧ showTime s = some now ∧ takesShowActions s = true

theorem seeking_deliver {c : ConfigRecord} {now : Int} {s : State} (h : seeking c now s) {a : Action}
    (ha : hasTarget a.act = true) : seeking c now (deliver .seek a.due a.act s) := by
  obtain ⟨config, time, takes⟩ := h
  have ctl := (deliver_seek_keeps ha a.due s).1
  exact ⟨by simp [config], by simpa [showTime, ctl] using time, by simpa [takesShowActions, ctl] using takes⟩

/-- A target takes in turn what the actions handed over give it. -/
theorem handOver_target {β κ : Type} {c : ConfigRecord} {now : Int} {get : State → β} {key : Action → Option κ}
    {take : κ → β → β}
    (h : ∀ s a, seeking c now s → hasTarget a.act = true →
      get (deliver .seek a.due a.act s) = (key a).elim (get s) fun k => take k (get s))
    {as : List Action} (has : ∀ a ∈ as, hasTarget a.act = true) {s : State} (hs : seeking c now s) :
    get (handOver as s) = (as.filterMap key).foldl (fun x k => take k x) (get s) := by
  induction as generalizing s with
  | nil => rfl
  | cons a as ih =>
    have first := has a List.mem_cons_self
    have rest := ih (fun b hb => has b (List.mem_cons_of_mem _ hb)) (seeking_deliver hs first)
    rw [h s a hs first] at rest
    rw [handOver, List.foldl_cons]
    refine rest.trans ?_
    cases hk : key a <;> simp [hk]

/-- Of the actions retained a target takes the last that names it. -/
theorem handOver_retained {β κ : Type} {c : ConfigRecord} {now : Int} {get : State → β} {key : Action → Option κ}
    {take : κ → β → β}
    (h : ∀ s a, seeking c now s → hasTarget a.act = true →
      get (deliver .seek a.due a.act s) = (key a).elim (get s) fun k => take k (get s))
    {as : List Action} (hr : (retained as).filterMap key = (as.filterMap key).getLast?.toList) {s : State} (hs : seeking c now s) :
    get (handOver (retained as) s) = (as.filterMap key).getLast?.elim (get s) fun k => take k (get s) := by
  rw [handOver_target h (fun a => hasTarget_of_mem_retained) hs, hr]
  cases (as.filterMap key).getLast? <;> rfl

/-- What no hand-over changes is as before. -/
theorem handOver_retained_same {β : Type} {get : State → β}
    (h : ∀ s (a : Action), hasTarget a.act = true → get (deliver .seek a.due a.act s) = get s) (as : List Action) (s : State) :
    get (handOver (retained as) s) = get s :=
  foldl_keeps_of_mem _ get (fun s a ha => h s a (hasTarget_of_mem_retained ha)) s

/-- The channel takes the height from its present one (R104). -/
def takeHeight (now : Int) (k : Given Nat) (ch : Channel) : Channel :=
  { ch with height := { start := ch.height.present (some now), target := k.value, anchor := k.due, len := k.len } }

theorem deliver_height {c : ConfigRecord} {now : Int} (p : Fin 4) (s : State) (a : Action) (hs : seeking c now s)
    (ha : hasTarget a.act = true) :
    (deliver .seek a.due a.act s).pump.chan[p] = (givesHeight p a).elim s.pump.chan[p] fun k =>
      takeHeight now k s.pump.chan[p] := by
  obtain ⟨-, time, -⟩ := hs
  cases h : a.act with
  | height q target len =>
    by_cases hq : q = p
    · subst hq
      rw [deliver, pumpHeight_pump, put_get, if_pos rfl, time]
      simp [givesHeight, h, takeHeight, Fade.fadeTo]
    · rw [deliver, pumpHeight_pump, put_get_ne _ _ _ _ (Ne.symm hq)]
      simp [givesHeight, h, hq]
  | endShow => simp [h, hasTarget] at ha
  | figure | colour | master | level | mark => simp [givesHeight, h, deliver]

/-- The view takes the figure with origin SEEK (R85, R99). -/
def takeFigure (c : ConfigRecord) (now : Int) (v : View) (i : Fin 4) (f : Figure) : ViewRecord :=
  let phase := evalFigure (some f) (some (match v with
    | .lamp => now
    | .valve => now + 1000 * (c.valveLead[i] : Int)))
  { presence := .held, figure := f, origin := .seek, shown := phase, endReported := decide (v = .lamp ∧ phase = .ended) }

theorem shownPhase_seeking {c : ConfigRecord} {now : Int} {s : State} (hs : seeking c now s) (i : Fin 4) (v : View) (f : Figure) :
    shownPhase s i v f = (takeFigure c now v i f).shown := by
  obtain ⟨config, time, -⟩ := hs
  cases v <;> simp [shownPhase, viewTime, takeFigure, config, time]

theorem withView_view (grp : ValveGroup) (v w : View) (r : ViewRecord) :
    (grp.withView v r).view w = if v = w then r else grp.view w := by
  cases v <;> cases w <;> rfl

theorem withView_mode (grp : ValveGroup) (v : View) (r : ViewRecord) : (grp.withView v r).mode = grp.mode := by
  cases v <;> rfl

theorem deliver_figure {c : ConfigRecord} {now : Int} (v : View) (i : Fin 4) (s : State) (a : Action) (hs : seeking c now s)
    (ha : hasTarget a.act = true) : (deliver .seek a.due a.act s).jets[i].view v =
      (givesFigure v i a).elim (s.jets[i].view v) fun f => takeFigure c now v i f := by
  cases h : a.act with
  | figure w j f =>
    rw [deliver, writeView_jets, shownPhase_seeking hs]
    by_cases hj : j = i
    · subst hj
      rw [put_get, if_pos rfl, withView_view]
      by_cases hw : w = v
      · subst hw
        simp [givesFigure, h, takeFigure]
      · simp [givesFigure, h, hw]
    · rw [put_get_ne _ _ _ _ (Ne.symm hj)]
      simp [givesFigure, h, hj]
  | endShow => simp [h, hasTarget] at ha
  | height | colour | master | level | mark => simp [givesFigure, h, deliver]

theorem deliver_mode (i : Fin 4) (s : State) (a : Action) (ha : hasTarget a.act = true) :
    (deliver .seek a.due a.act s).jets[i].mode = s.jets[i].mode := by
  cases h : a.act with
  | figure w j f =>
    rw [deliver, writeView_jets, put_get]
    split
    · next hj => rw [hj, withView_mode]
    · rfl
  | endShow => simp [h, hasTarget] at ha
  | height | colour | master | level | mark => simp [deliver]

/-- The lamp fades from its present colour (R139). -/
def takeColour (now : Int) (k : Given Rgb) (l : Lamp) : Lamp :=
  { start := l.colour (some now), target := k.value, anchor := k.due, len := k.len, duty := l.duty }

theorem deliver_colour {c : ConfigRecord} {now : Int} (l : Fin 16) (s : State) (a : Action) (hs : seeking c now s)
    (ha : hasTarget a.act = true) :
    (deliver .seek a.due a.act s).lamps.lamp[l] = (givesColour l a).elim s.lamps.lamp[l] fun k =>
      takeColour now k s.lamps.lamp[l] := by
  obtain ⟨-, time, takes⟩ := hs
  cases h : a.act with
  | colour set colour len =>
    rw [deliver, (lampColour_lamps set colour len a.due s).2 l, takes, time]
    cases hl : set.getLsbD l <;> simp [givesColour, h, hl, takeColour, Lamp.fadeTo, -BitVec.getLsbD_eq_getElem]
  | endShow => simp [h, hasTarget] at ha
  | master => simp [givesColour, h, deliver, lampMaster_lamps]
  | height | figure | level | mark => simp [givesColour, h, deliver]

/-- A fade of one value from its present one (R141, R164). -/
def takeFade (now : Int) (k : Given Nat) (f : Fade) : Fade :=
  { start := f.present (some now), target := k.value, anchor := k.due, len := k.len }

theorem deliver_master {c : ConfigRecord} {now : Int} (s : State) (a : Action) (hs : seeking c now s)
    (ha : hasTarget a.act = true) :
    (deliver .seek a.due a.act s).lamps.master = (givesMaster a).elim s.lamps.master fun k => takeFade now k s.lamps.master := by
  obtain ⟨-, time, takes⟩ := hs
  cases h : a.act with
  | colour set colour len =>
    rw [deliver, (lampColour_lamps set colour len a.due s).1]
    simp [givesMaster, h]
  | endShow => simp [h, hasTarget] at ha
  | master => simp [givesMaster, h, deliver, lampMaster_lamps, takes, time, Fade.fadeTo, takeFade]
  | height | figure | level | mark => simp [givesMaster, h, deliver]

/-- The gain fades as well, and the applied gain takes the record's present value (R164). -/
def takeLevel (now : Int) (k : Given Nat) (au : AudioUnit) : AudioUnit :=
  { au with gain := takeFade now k au.gain, applied := (takeFade now k au.gain).present (some now) }

theorem deliver_level {c : ConfigRecord} {now : Int} (s : State) (a : Action) (hs : seeking c now s)
    (ha : hasTarget a.act = true) :
    (deliver .seek a.due a.act s).audio = (givesLevel a).elim s.audio fun k => takeLevel now k s.audio := by
  obtain ⟨-, time, takes⟩ := hs
  cases h : a.act with
  | level gain len => simp [givesLevel, h, deliver, audioLevel_audio, takes, time, Fade.fadeTo, takeFade, takeLevel]
  | endShow => simp [h, hasTarget] at ha
  | height | figure | colour | master | mark => simp [givesLevel, h, deliver]

/-- Of pumps and lamps a hand-over changes the channels, the lamps and the master alone. -/
theorem deliver_rest (chan : Vector Channel 4) (lamp : Vector Lamp 16) (master : Fade) (s : State) (a : Action)
    (ha : hasTarget a.act = true) :
    ({ (deliver .seek a.due a.act s).pump with chan := chan },
      { (deliver .seek a.due a.act s).lamps with lamp := lamp, master := master }) =
      ({ s.pump with chan := chan }, { s.lamps with lamp := lamp, master := master }) := by
  cases h : a.act with
  | colour set colour len =>
    rw [deliver, (lampColour_lamps set colour len a.due s).1]
    simp
  | height => simp [deliver, pumpHeight_pump]
  | master => simp [deliver, lampMaster_lamps]
  | endShow => simp [h, hasTarget] at ha
  | figure | level | mark => simp [deliver]

/-! ### A late join at or after the start (R13, R81, R82) -/

/-- The node as a late join hands it to CUE SEEK (R13). -/
def joined (g : GoRecord) (s : State) : State :=
  raise .state (audioStart (modesFollow (setShowState .running (setCtl { s.ctl with go := some g } s))))

theorem lateJoin_reached {c : ConfigRecord} {g : GoRecord} {s : State} (h : reached s.clock.site g.start = true) :
    lateJoin c g s = evaluateLamps (cueSeek c (joined g s)) := if_pos h

theorem seeking_joined {c : ConfigRecord} {s : State} (hc : s.config = some c) (g : GoRecord) :
    seeking c (sdiff s.clock.site g.start) (seekCleared (joined g s)) := by
  refine ⟨by simp [seekCleared, joined, hc], ?_, by simp [seekCleared, joined, takesShowActions]⟩
  rw [showTime_of_go (g := g) (by simp [seekCleared, joined])]
  simp [seekCleared, joined]

/-- The parts that a late join changes before the seek. -/
theorem joined_parts (g : GoRecord) (s : State) :
    (joined g s).ctl = { s.ctl with state := .running, go := some g } ∧ (joined g s).events = s.events.raised .state ∧
    (joined g s).audio = { s.audio with next := 0, play := none, underrunCount := 0, skipCount := 0 } ∧
    (∀ i : Fin 4, (joined g s).jets[i] =
      { s.jets[i] with mode := if s.jets[i].mode = .closed then .following else s.jets[i].mode }) ∧
    onlyChanges [.ctl, .events, .audio, .jets] s (joined g s) := by
  refine ⟨by simp [joined], by simp [joined], by simp [joined], fun i => ?_, by simp [onlyChanges_iff, joined]⟩
  have jets : (joined g s).jets = (modesFollow (setShowState .running (setCtl { s.ctl with go := some g } s))).jets := by
    simp [joined]
  rw [jets, modesFollow_jet]
  simp

theorem seekHanded_changes (c : ConfigRecord) (s : State) :
    onlyChanges [.cue, .jets, .pump, .lamps, .audio] s (seekHanded c s) := by
  obtain ⟨ctl, events⟩ := seekHanded_keeps c s
  simp only [onlyChanges_iff, ctl, events]
  simp [seekHanded, seekCleared]

/-- The latest of the actions named that are due gives what the last of the due actions gives. -/
theorem latest_bind {names : Act → Bool} {κ : Type} {key : Action → Option κ} (hk : ∀ a, names a.act = (key a).isSome)
    (acts : List Action) (now : Int) : ((acts.filter fun a => decide (a.due ≤ now) && names a.act).getLast?).bind key =
      ((acts.filter fun a => decide (a.due ≤ now)).filterMap key).getLast? := by
  rw [← getLast?_filter_bind hk, List.filter_filter]
  simp only [Bool.and_comm]

theorem latest_names {names : Act → Bool} {acts : List Action} {now : Int} {a : Action}
    (h : (acts.filter fun a => decide (a.due ≤ now) && names a.act).getLast? = some a) : names a.act = true := by
  have := (List.mem_filter.mp (List.mem_of_getLast? h)).2
  simp only [Bool.and_eq_true] at this
  exact this.2

/-- What the hand-overs of a seek leave in a target: what the latest action naming it among those due gives. -/
theorem seekHanded_target {β κ : Type} {c : ConfigRecord} {now : Int} {s : State} {get : State → β}
    {key : Action → Option κ} {take : κ → β → β} {acts : List Action} (hs : seeking c now (seekCleared s))
    (due : seekDue c s = acts.filter fun a => decide (a.due ≤ now))
    (h : ∀ s a, seeking c now s → hasTarget a.act = true →
      get (deliver .seek a.due a.act s) = (key a).elim (get s) fun k => take k (get s))
    (hr : ∀ as, (retained as).filterMap key = (as.filterMap key).getLast?.toList)
    {names : Act → Bool} (hk : ∀ a, names a.act = (key a).isSome)
    (hcue : ∀ t cue, get { t with cue := cue } = get t) : get (seekHanded c s) =
      ((acts.filter fun a => decide (a.due ≤ now) && names a.act).getLast?.bind key).elim (get s) fun k => take k (get s) := by
  rw [latest_bind hk, ← due, seekHanded, hcue, handOver_retained h (hr _) hs, seekCleared, hcue]

theorem seekHanded_cue (c : ConfigRecord) (s : State) : (seekHanded c s).cue = { s.cue with
    lateCount := 0, lastMark := 0
    queue := insertActions [] ((seekLevels c s).drop ((seekLevels c s).length - 64)) } := by
  have kept := (handOver_retained_keeps (seekDue c s) (seekCleared s)).2.1
  simp only [seekHanded, kept]
  rfl

theorem seekHanded_pump_lamps (c : ConfigRecord) (s : State) :
    (seekHanded c s).pump = { s.pump with chan := (seekHanded c s).pump.chan } ∧
    (seekHanded c s).lamps =
      { s.lamps with lamp := (seekHanded c s).lamps.lamp, master := (seekHanded c s).lamps.master } := by
  let u := seekHanded c s
  have rest := handOver_retained_same
    (get := fun t => ({ t.pump with chan := u.pump.chan }, { t.lamps with lamp := u.lamps.lamp, master := u.lamps.master }))
    (deliver_rest u.pump.chan u.lamps.lamp u.lamps.master) (seekDue c s) (seekCleared s)
  obtain ⟨pump, lamps⟩ := Prod.mk.inj rest
  exact ⟨pump, lamps⟩

theorem seekHanded_mode (c : ConfigRecord) (s : State) (i : Fin 4) : (seekHanded c s).jets[i].mode = s.jets[i].mode :=
  handOver_retained_same (get := fun t => t.jets[i].mode) (deliver_mode i) (seekDue c s) (seekCleared s)

/-- A node in TAKING from a cue. -/
def takingFrom (n : Nat) (s : State) : State := { s with cue := { s.cue with pointer := n, taking := true } }

theorem takingFrom_evaluated {c : ConfigRecord} {s : State} (hc : s.config = some c) (n : Nat) :
    let t := evaluateLamps (takingFrom n s)
    t.cue = { s.cue with taking := true, pointer := n } ∧ t.lamps = { s.lamps with lamp := t.lamps.lamp } ∧
      (∀ l : Fin 16, t.lamps.lamp[l] = { s.lamps.lamp[l] with duty := lampDuty t c l }) ∧ onlyChanges [.cue, .lamps] s t := by
  intro t
  have lamps := evaluateLamps_lamps (takingFrom n s) c hc
  refine ⟨by simp [t, takingFrom], ?_, fun l => ?_, by simp [t, onlyChanges_iff, takingFrom]⟩
  · rw [show t.lamps = _ from lamps]
    rfl
  · have duty : lampDuty t c l = lampDuty (takingFrom n s) c l := lampDuty_evaluated .state (takingFrom n s) c l
    rw [duty, show t.lamps = _ from lamps, gen_get_fin]
    rfl

/-- The node at END, with the pointer at the cue count. -/
def seekEnding (c : ConfigRecord) (s : State) : State :=
  { seekHanded c s with cue := { (seekHanded c s).cue with pointer := s.score.cueCount } }

theorem cueSeek_passes_end {c : ConfigRecord} {s : State} (h : ∃ a ∈ seekActions c s, a.act = .endShow) :
    cueSeek c s = fireEnd (seekEnding c s) := by
  have score : (seekHanded c s).score = s.score := seekHanded_changes c s .score (by decide)
  rw [cueSeek_eq, if_pos (by simpa using h), score]
  rfl

theorem cueSeek_goes_on {c : ConfigRecord} {s : State} (h : ∀ a ∈ seekActions c s, a.act ≠ .endShow) :
    cueSeek c s = takingFrom (passedCues s.score (showNow s)).length (seekHanded c s) := by
  rw [cueSeek_eq, if_neg (by simpa using h)]
  rfl

theorem seekEnding_ctl (c : ConfigRecord) (s : State) : (seekEnding c s).ctl = s.ctl := (seekHanded_keeps c s).1

theorem seekEnding_config (c : ConfigRecord) (s : State) : (seekEnding c s).config = s.config :=
  seekHanded_changes c s .config (by decide)

/-- With END passed CODA is entered from the node at END. -/
theorem codaEntered_seekEnding {c : ConfigRecord} {g : GoRecord} {s : State} (hc : s.config = some c)
    (hs : s.ctl.state = .running) (hg : s.ctl.go = some g) :
    codaEntered c .endCue (seekEnding c s) (evaluateLamps (fireEnd (seekEnding c s))) := by
  have config := (seekEnding_config c s).trans hc
  have ctl := seekEnding_ctl c s
  have entered := (codaEntered_fireEnd config (by rw [ctl, hg])).1 (by rw [ctl, hs])
  exact codaEntered_evaluateLamps (by simp [config]) entered

/-- The cues passed are the first ones, up to the pointer the seek leaves. -/
theorem passedCues_prefix {sc : Score} {now : Int}
    (order : ∀ i j, i ≤ j → j < sc.cueCount → cueTime (cueBytes sc i) ≤ cueTime (cueBytes sc j)) :
    (passedCues sc now).length ≤ sc.cueCount ∧
    (∀ i, i < (passedCues sc now).length → 1000 * (cueTime (cueBytes sc i) : Int) ≤ now) ∧
    ((passedCues sc now).length < sc.cueCount → ¬ 1000 * (cueTime (cueBytes sc (passedCues sc now).length) : Int) ≤ now) := by
  have first : passedCues sc now = List.range (passedCues sc now).length := by
    refine filter_range_of_downward fun i j hij hj hp => ?_
    have := order i j hij hj
    simp only [decide_eq_true_eq] at hp ⊢
    omega
  have mem (i : Nat) : i < (passedCues sc now).length ↔ i < sc.cueCount ∧ 1000 * (cueTime (cueBytes sc i) : Int) ≤ now := by
    rw [← List.mem_range, ← first, passedCues, List.mem_filter, List.mem_range, decide_eq_true_eq]
  refine ⟨?_, fun i hi => ((mem i).mp hi).2, fun hn hp => ?_⟩
  · exact (List.length_filter_le _ _).trans_eq List.length_range
  · exact Nat.lt_irrefl _ ((mem _).mpr ⟨hn, hp⟩)

/-! ### The latest action named, as a match on it -/

def namesHeight (p : Fin 4) : Act → Bool
  | .height q _ _ => decide (q = p)
  | _ => false

def namesColour (l : Fin 16) : Act → Bool
  | .colour set _ _ => set.getLsbD l
  | _ => false

def namesMaster : Act → Bool
  | .master _ _ => true
  | _ => false

theorem namesHeight_eq (p : Fin 4) (a : Action) : namesHeight p a.act = (givesHeight p a).isSome := by
  cases h : a.act <;> simp only [givesHeight, namesHeight, h, Option.isSome_none]
  split <;> simp_all

theorem namesColour_eq (l : Fin 16) (a : Action) : namesColour l a.act = (givesColour l a).isSome := by
  cases h : a.act <;> simp only [givesColour, namesColour, h, Option.isSome_none]
  split <;> simp_all

theorem namesMaster_eq (a : Action) : namesMaster a.act = (givesMaster a).isSome := by
  cases h : a.act <;> simp [givesMaster, namesMaster, h]

theorem isLevel_eq (a : Action) : isLevel a.act = (givesLevel a).isSome := by
  cases h : a.act <;> simp [givesLevel, isLevel, h]

theorem takeHeight_latest {o : Option Action} {p : Fin 4} (now : Int) (ch : Channel) :
    (∀ a, o = some a → namesHeight p a.act = true) → ((o.bind (givesHeight p)).elim ch fun k => takeHeight now k ch) =
      match o with
      | some { due := due, act := .height _ target len, cue := _, counted := _ } => { ch with height :=
          { start := ch.height.present (some now), target := target, anchor := due, len := len } }
      | _ => ch := by
  intro ho
  cases o with
  | none => rfl
  | some a =>
    have named := ho a rfl
    obtain ⟨due, act, cue, counted⟩ := a
    cases act with
    | height q target len =>
      have : q = p := by simpa [namesHeight] using named
      simp [givesHeight, this, takeHeight]
    | figure | colour | master | level | mark | endShow => rfl

theorem takeFigure_latest {o : Option Action} {v : View} {i : Fin 4} (c : ConfigRecord) (now : Int) (held : ViewRecord) :
    (∀ a, o = some a → namesFigure v i a.act = true) →
      ((o.bind (givesFigure v i)).elim held fun f => takeFigure c now v i f) =
      match o with
      | some { due := _, act := .figure _ _ f, cue := _, counted := _ } => takeFigure c now v i f
      | _ => held := by
  intro ho
  cases o with
  | none => rfl
  | some a =>
    have named := ho a rfl
    obtain ⟨due, act, cue, counted⟩ := a
    cases act with
    | figure w j f =>
      have : w = v ∧ j = i := by simpa [namesFigure] using named
      simp [givesFigure, this]
    | height | colour | master | level | mark | endShow => rfl

theorem takeColour_latest {o : Option Action} {l : Fin 16} (now : Int) (lamp : Lamp) :
    (∀ a, o = some a → namesColour l a.act = true) → ((o.bind (givesColour l)).elim lamp fun k => takeColour now k lamp) =
      match o with
      | some { due := due, act := .colour _ colour len, cue := _, counted := _ } =>
        { start := lamp.colour (some now), target := colour, anchor := due, len := len, duty := lamp.duty }
      | _ => lamp := by
  intro ho
  cases o with
  | none => rfl
  | some a =>
    have named := ho a rfl
    obtain ⟨due, act, cue, counted⟩ := a
    cases act with
    | colour set colour len =>
      have : set.getLsbD l = true := named
      simp [givesColour, this, takeColour, -BitVec.getLsbD_eq_getElem]
    | height | figure | master | level | mark | endShow => rfl

theorem takeMaster_latest (o : Option Action) (now : Int) (f : Fade) :
    ((o.bind givesMaster).elim f fun k => takeFade now k f) =
      match o with
      | some { due := due, act := .master level len, cue := _, counted := _ } =>
        { start := f.present (some now), target := level, anchor := due, len := len }
      | _ => f := by
  rcases o with _ | ⟨due, _ | _ | _ | _ | _ | _ | _, cue, counted⟩ <;> rfl

theorem takeLevel_latest (o : Option Action) (now : Int) (au : AudioUnit) :
    ((o.bind givesLevel).elim au fun k => takeLevel now k au) =
      match o with
      | some { due := due, act := .level gain len, cue := _, counted := _ } =>
        let record : Fade := { start := au.gain.present (some now), target := gain, anchor := due, len := len }
        { au with gain := record, applied := record.present (some now) }
      | _ => au := by
  rcases o with _ | ⟨due, _ | _ | _ | _ | _ | _ | _, cue, counted⟩ <;> rfl

/-- Settles O44: the seek's hand-overs target by target, its queue, and the pointer or CODA after it. -/
theorem seekHandsOver : Obligations.SeekHandsOver := by
  intro s c g hc hr order now passed acts latest ahead queued t
  obtain ⟨ctl, events, audio, jets, changes⟩ := joined_parts g s
  have score : (joined g s).score = s.score := changes .score (by decide)
  have showing : showNow (joined g s) = now := by
    rw [showNow_of_go (g := g) (by rw [ctl]), changes .clock (by decide)]
  have actions : seekActions c (joined g s) = acts := by rw [seekActions, score, showing]; rfl
  have due : seekDue c (joined g s) = acts.filter fun a => decide (a.due ≤ now) := by rw [seekDue, actions, showing]
  have levels : seekLevels c (joined g s) = ahead := by rw [seekLevels, actions, showing]
  obtain ⟨keptCtl, keptEvents⟩ := seekHanded_keeps c (joined g s)
  have start := seeking_joined hc g
  have cue : (seekHanded c (joined g s)).cue = { s.cue with lateCount := 0, lastMark := 0, queue := insertActions [] queued } := by
    rw [seekHanded_cue, levels, changes .cue (by decide)]
  obtain ⟨pump, lamps⟩ := seekHanded_pump_lamps c (joined g s)
  have config : (joined g s).config = some c := (changes .config (by decide)).trans hc
  refine ⟨seekHanded c (joined g s), ?_, keptCtl.trans ctl, keptEvents.trans events, ?_, ?_, ?_, ?_, ?_, ?_, ?_, ?_, ?_, ?_,
    ?_, ?_, ?_⟩
  · exact onlyChanges_trans changes (seekHanded_changes c (joined g s)) (by decide)
  · rw [cue]
  · rw [cue]
    exact insertActions_perm queued []
  · rw [cue]
    exact insertActions_sorted queued [] List.Pairwise.nil
  · intro d
    rw [cue]
    exact insertActions_filter_due queued List.Pairwise.nil d
  · rw [← changes .pump (by decide)]
    exact pump
  · intro p
    have taken := seekHanded_target (get := fun t => t.pump.chan[p]) start due (deliver_height p) (retained_height p)
      (namesHeight_eq p) fun _ _ => rfl
    rw [changes .pump (by decide)] at taken
    exact taken.trans (takeHeight_latest now _ fun a h => latest_names h)
  · intro i
    refine ⟨?_, fun v => ?_⟩
    · rw [seekHanded_mode, jets]
    · have taken := seekHanded_target (get := fun t => t.jets[i].view v) (take := fun f _ => takeFigure c now v i f) start due
        (deliver_figure v i) (retained_figure v i) (namesFigure_eq v i) fun _ _ => rfl
      have view : (joined g s).jets[i].view v = s.jets[i].view v := by rw [jets]; cases v <;> rfl
      rw [view] at taken
      exact taken.trans (takeFigure_latest c now _ fun a h => latest_names h)
  · rw [← changes .lamps (by decide)]
    exact lamps
  · have taken := seekHanded_target (get := fun t => t.lamps.master) start due deliver_master retained_master namesMaster_eq
      fun _ _ => rfl
    rw [changes .lamps (by decide)] at taken
    exact taken.trans (takeMaster_latest _ now _)
  · intro l
    have taken := seekHanded_target (get := fun t => t.lamps.lamp[l]) start due (deliver_colour l) (retained_colour l)
      (namesColour_eq l) fun _ _ => rfl
    rw [changes .lamps (by decide)] at taken
    exact taken.trans (takeColour_latest now _ fun a h => latest_names h)
  · have taken := seekHanded_target (get := fun t => t.audio) start due deliver_level retained_level isLevel_eq fun _ _ => rfl
    rw [audio] at taken
    exact taken.trans (takeLevel_latest _ now _)
  · intro he
    have after : t = evaluateLamps (fireEnd (seekEnding c (joined g s))) := by
      rw [← cueSeek_passes_end (by rwa [actions])]
      exact lateJoin_reached hr
    have entered := codaEntered_seekEnding (g := g) config (by rw [ctl]) (by rw [ctl])
    rw [after, ← score]
    exact entered
  · intro hn
    have after : t = evaluateLamps (takingFrom (passedCues s.score now).length (seekHanded c (joined g s))) := by
      rw [← score, ← showing, ← cueSeek_goes_on (by rwa [actions])]
      exact lateJoin_reached hr
    obtain ⟨cue', lamps', lamp', changes'⟩ := takingFrom_evaluated (n := (passedCues s.score now).length)
      ((seekHanded_changes c (joined g s) .config (by decide)).trans config)
    obtain ⟨le, before, stop⟩ := passedCues_prefix (now := now) order
    rw [← after] at cue' lamps' lamp' changes'
    have pointer : t.cue.pointer = (passedCues s.score now).length := by rw [cue']
    rw [pointer]
    exact ⟨cue', le, before, stop, lamps', lamp', changes'⟩

end Sys2Proof.Proofs
end

