-- ==== Sys2Proof/Proofs/PumpStages.lean ====
section
/-! The stages of the pump period one by one: feedback, drives, commands, ask and slew. -/

namespace Sys2Proof.Proofs

open Sys2Proof Sys2Proof.Machine Sys2Proof.Safety

/-! ### Feedback (R122, R123) -/

theorem plus_milliseconds (t : SiteTime) (ms : Nat) : plus t (1000 * (ms : Int)) = t + BitVec.ofNat 48 (1000 * ms) := by
  rw [← plus_natCast]
  push_cast
  rfl

/-- The fault a sample shows, by whether it faults. -/
theorem sampleFault_eq (c : ConfigRecord) (s : State) (fb : BitVec 4) (p : Fin 4) :
    sampleFault c.pump[p] s.clock.site s.pump.chan[p] (fb.getLsbD p) =
      if faultsAt c s fb p then (if s.pump.chan[p].phase = .confirmed then .lost else .noConfirm) else .none := by
  unfold faultsAt
  generalize s.pump.chan[p] = ch
  obtain ⟨_, _, _, _, _, _, _, stage, phase, runOn, _, _, _⟩ := ch
  unfold sampleFault Channel.runOutput
  simp only [plus_milliseconds]
  by_cases hs : stage = .on
  · cases fb.getLsbD p <;> cases phase <;> simp [hs]
  · simp [hs]

/-- A channel whose sample faults it stops at once. -/
def faultedChannel (ch : Channel) : Channel :=
  { ch with
    faulted := true
    cause := if ch.phase = .confirmed then .lost else .noConfirm
    stage := .off
    dCmd := 0
    dOut := 0
    phase := .none }

theorem sampled_of_fault {c : ConfigRecord} {s : State} {fb : BitVec 4} {p : Fin 4} (h : faultsAt c s fb p = true) :
    sampled c.pump[p] s.clock.site (fb.getLsbD p) s.pump.chan[p] = faultedChannel s.pump.chan[p] := by
  have fault := sampleFault_eq c s fb p
  rw [h, if_pos rfl] at fault
  rw [sampled, fault]
  by_cases hp : s.pump.chan[p].phase = .confirmed
  · simp only [hp, if_true, faultedChannel]
  · simp only [hp, if_false, faultedChannel]

theorem sampled_of_no_fault {c : ConfigRecord} {s : State} {fb : BitVec 4} {p : Fin 4} (h : faultsAt c s fb p = false) :
    ∃ phase, sampled c.pump[p] s.clock.site (fb.getLsbD p) s.pump.chan[p] = { s.pump.chan[p] with phase := phase } := by
  have fault := sampleFault_eq c s fb p
  rw [h, if_neg Bool.false_ne_true] at fault
  rw [sampled, fault]
  dsimp only
  split
  · exact ⟨_, rfl⟩
  · exact ⟨_, rfl⟩

theorem foldl_raise_keeps_pump {ι : Type} (src : Source) (l : List ι) (s : State) :
    (l.foldl (fun s _ => raise src s) s).pump = s.pump :=
  foldl_keeps (fun s _ => raise src s) (·.pump) (by simp) _ _

/-- A source once pending stays pending while others are raised (R179). -/
theorem raised_pending {e : EventUnit} {i : Nat} (h : e.pending.getLsbD i = true) (src : Source) :
    (e.raised src).pending.getLsbD i = true := by
  simp [EventUnit.raised, h]

theorem raised_pumpFault_pending (e : EventUnit) : (e.raised .pumpFault).pending.getLsbD 2 = true := by
  simp [EventUnit.raised, Source.bit, Source.index]

theorem stageFeedback_pump (c : ConfigRecord) (fb : BitVec 4) (s : State) : (stageFeedback c fb s).pump = { s.pump with
    feedback := fb, chan := gen fun p => sampled c.pump[p] s.clock.site (fb.getLsbD p) s.pump.chan[p] } := by
  simp [stageFeedback, foldl_raise_keeps_pump, mapChannels]

theorem stageFeedback_events {c : ConfigRecord} {fb : BitVec 4} {s : State} {p : Fin 4} (h : faultsAt c s fb p = true) :
    (stageFeedback c fb s).events.pending.getLsbD 2 = true := by
  have faulting : p ∈ faultsNow c fb s := by
    have fault := sampleFault_eq c s fb p
    rw [h, if_pos rfl] at fault
    refine List.mem_filter.mpr ⟨List.mem_finRange p, ?_⟩
    rw [fault]
    split <;> rfl
  rcases List.eq_nil_or_concat (faultsNow c fb s) with hl | ⟨l, q, hl⟩
  · rw [hl] at faulting
    cases faulting
  · simp only [stageFeedback, hl, List.concat_eq_append, List.foldl_append, List.foldl_cons, List.foldl_nil]
    exact raised_pumpFault_pending _

/-! ### Drives, grant and caps (R106 to R111) -/

/-- The pump period up to its commands (R103). -/
def driven (c : ConfigRecord) (fb : BitVec 4) (s : State) : State :=
  stageCaps c (stageGrant c (stageHeights c (stageFeedback c fb (riseWind c s))))

theorem pumpStages_eq (c : ConfigRecord) (fb : BitVec 4) (s : State) : pumpStages c fb s =
    closeStopped (stageSlew c (stageAsk (stageCommands c (driven c fb s)))) := rfl

/-- What the drives leave of a channel: all but its heights, drives and the feedback's work is as before. -/
theorem driven_chan (c : ConfigRecord) (fb : BitVec 4) (s : State) (p : Fin 4) : ∃ h e t d, (driven c fb s).pump.chan[p] =
    { sampled c.pump[p] s.clock.site (fb.getLsbD p) s.pump.chan[p] with hNow := h, hEff := e, dT := t, dC := d } := by
  let ch := (driven c fb s).pump.chan[p]
  refine ⟨ch.hNow, ch.hEff, ch.dT, ch.dC, ?_⟩
  simp only [ch, driven, stageCaps, stageGrant, stageHeights, mapChannels, stageFeedback_pump, gen_get_fin, riseWind_frame]

theorem drives_driven (c : ConfigRecord) (fb : BitVec 4) (s : State) (p : Fin 4) :
    drives c (driven c fb s) p = drivable c s fb p := by
  obtain ⟨h, e, t, d, chan⟩ := driven_chan c fb s p
  simp only [drives, drivable, chan, ConfigRecord.configured]
  cases hf : faultsAt c s fb p with
  | false =>
    obtain ⟨phase, sampled⟩ := sampled_of_no_fault hf
    rw [sampled]
    simp
  | true =>
    rw [sampled_of_fault hf]
    simp [faultedChannel]

/-- The caps of a state whose heights are known. -/
def capped (c : ConfigRecord) (s : State) : State := stageCaps c (stageGrant c s)

theorem capped_chan (c : ConfigRecord) (s : State) (p : Fin 4) : (capped c s).pump.chan[p] = { s.pump.chan[p] with
    dC := if drives c s p then
      cappedDrive c.pump[p].rated (capped c s).pump.grant (capped c s).pump.demand s.pump.chan[p].dT else 0 } := by
  simp only [capped, stageCaps, stageGrant, mapChannels, gen_get_fin]
  rfl

theorem cappedDrive_le (rated grant demand dT : Nat) : cappedDrive rated grant demand dT ≤ dT := by
  unfold cappedDrive
  split
  · exact Nat.le_refl dT
  · exact (largestDrive_spec _ _ _).1

theorem capped_dC_le (c : ConfigRecord) (s : State) (p : Fin 4) :
    (capped c s).pump.chan[p].dC ≤ (capped c s).pump.chan[p].dT := by
  rw [capped_chan]
  dsimp only
  split
  · exact cappedDrive_le _ _ _ _
  · exact Nat.zero_le _

theorem sumOver_le_of_mul_le {n : Nat} {f k : Fin n → Nat} {a b : Nat} (h : ∀ p, f p * b ≤ a * k p) :
    sumOver f * b ≤ a * sumOver k := by
  unfold sumOver
  rw [← List.sum_map_mul_right, ← List.sum_map_mul_left]
  exact List.sum_le_sum fun p _ => h p

/-- The powers of the capped drives of the channels the demand counts keep within the grant (R110, R111). -/
theorem sumOver_capped_le {c : ConfigRecord} {s : State} {f : Fin 4 → Nat}
    (hf : ∀ p, f p = 0 ∨ drives c s p = true ∧ s.pump.chan[p].stage ≠ .off ∧
      f p ≤ power c.pump[p].rated (capped c s).pump.chan[p].dC) : sumOver f ≤ (capped c s).pump.grant := by
  have counted : (capped c s).pump.demand = sumOver (demandOf c s) := rfl
  have share (p : Fin 4) : f p * (capped c s).pump.demand ≤ (capped c s).pump.grant * demandOf c s p ∨
      (capped c s).pump.demand ≤ (capped c s).pump.grant := by
    refine or_iff_not_imp_right.mpr fun exceeds => ?_
    rcases hf p with zero | ⟨drive, stage, within⟩
    · simp [zero]
    · have demand : demandOf c s p = power c.pump[p].rated s.pump.chan[p].dT := by
        simp [demandOf, drive, stage, -Fin.getElem_fin]
      rw [capped_chan, drive, if_pos rfl, cappedDrive, if_neg exceeds] at within
      rw [demand]
      refine (Nat.mul_le_mul_right _ (within.trans (largestDrive_spec _ _ _).2.1)).trans ?_
      exact Nat.div_mul_le_self _ _
  by_cases within : (capped c s).pump.demand ≤ (capped c s).pump.grant
  · have each (p : Fin 4) : f p * 1 ≤ 1 * demandOf c s p := by
      rcases hf p with zero | ⟨drive, stage, le⟩
      · simp [zero]
      · rw [capped_chan, drive, if_pos rfl, cappedDrive, if_pos within] at le
        simpa [demandOf, drive, stage, -Fin.getElem_fin] using le
    have total := sumOver_le_of_mul_le each
    rw [Nat.mul_one, Nat.one_mul, ← counted] at total
    exact total.trans within
  · have total := sumOver_le_of_mul_le fun p => (share p).resolve_right within
    rw [← counted] at total
    exact Nat.le_of_mul_le_mul_right total (by omega)

/-! ### Commands and the start list (R112, R116) -/

/-- A channel once its pre-start command is known. -/
def commanded (pre : Nat) (ch : Channel) : Channel :=
  match ch.stage with
  | .on => { ch with dCmd := pre }
  | .off => { ch with dCmd := 0, stage := if pre = 0 then .off else .waiting }
  | .waiting | .asking | .asked => { ch with dCmd := 0, stage := if pre = 0 then .off else ch.stage }

/-- The start list after the command of a channel. -/
def commandedList (pre : Nat) (st : Stage) (p : Fin 4) (l : List (Fin 4)) : List (Fin 4) :=
  if pre = 0 then (if st.inList then l.erase p else l) else (if st = .off then l ++ [p] else l)

/-- The own ask after the command of a channel. -/
def commandedAsk (pre : Nat) (st : Stage) (a : Ask) : Ask := if pre = 0 ∧ (st = .asking ∨ st = .asked) then vacated a else a

theorem commandChannel_eq (c : ConfigRecord) (s : State) (p : Fin 4) : commandChannel c s p = { s with pump := { s.pump with
    chan := put s.pump.chan p (commanded (preStart c s p) s.pump.chan[p])
    startList := commandedList (preStart c s p) s.pump.chan[p].stage p s.pump.startList
    ask := commandedAsk (preStart c s p) s.pump.chan[p].stage s.pump.ask } } := by
  unfold commandChannel commanded commandedList commandedAsk
  generalize preStart c s p = pre
  by_cases hp : pre = 0
  · cases h : s.pump.chan[p].stage <;> simp [h, hp, Stage.inList, -Fin.getElem_fin]
  · cases h : s.pump.chan[p].stage <;> simp [h, hp, -Fin.getElem_fin]

theorem preStart_congr {s t : State} {p : Fin 4} (hc : t.config = s.config) (hs : t.safety = s.safety) (hk : t.ctl = s.ctl)
    (hp : t.pump.chan[p] = s.pump.chan[p]) (c : ConfigRecord) : preStart c t p = preStart c s p := by
  have dry : dryCovers t p = dryCovers s p := by simp only [dryCovers, hc, hs]
  unfold preStart drives
  rw [hp, dry, hk]

theorem vacated_vacated (a : Ask) : vacated (vacated a) = vacated a := by
  cases a <;> rfl

theorem vacated_commandedAsk (pre : Nat) (st : Stage) (a : Ask) : vacated (commandedAsk pre st a) = vacated a := by
  unfold commandedAsk
  split
  · exact vacated_vacated a
  · rfl

/-- Whether a channel of a list is commanded to leave with the own ask. -/
def vacates (c : ConfigRecord) (s : State) (l : List (Fin 4)) : Prop :=
  ∃ p ∈ l, preStart c s p = 0 ∧ (s.pump.chan[p].stage = .asking ∨ s.pump.chan[p].stage = .asked)

theorem vacates_cons (c : ConfigRecord) (s : State) (p : Fin 4) (l : List (Fin 4)) : vacates c s (p :: l) ↔
    preStart c s p = 0 ∧ (s.pump.chan[p].stage = .asking ∨ s.pump.chan[p].stage = .asked) ∨ vacates c s l := by
  simp only [vacates, List.mem_cons, or_and_right, exists_or, exists_eq_left]

/-- The start list after the command of a channel that stands in it just while its stage says so. -/
theorem commandedList_eq {pre : Nat} {st : Stage} {p : Fin 4} {l : List (Fin 4)} (once : l.Nodup)
    (listed : p ∈ l ↔ st.inList = true) : commandedList pre st p l =
      (l.filter fun q => !decide (q = p ∧ pre = 0)) ++ if st = .off ∧ pre ≠ 0 then [p] else [] := by
  unfold commandedList
  by_cases hp : pre = 0
  · have left : (l.filter fun q => !decide (q = p ∧ pre = 0)) = l.erase p := by
      rw [once.erase_eq_filter]
      exact List.filter_congr fun q _ => by simp [hp, bne, beq_eq_decide]
    have none : (if st = .off ∧ pre ≠ 0 then [p] else []) = [] := if_neg fun h => h.2 hp
    rw [left, none, if_pos hp, List.append_nil]
    split
    · rfl
    · next h => exact (List.erase_of_not_mem (mt listed.mp h)).symm
  · have all : (l.filter fun q => !decide (q = p ∧ pre = 0)) = l := List.filter_eq_self.mpr fun q _ => by simp [hp]
    rw [all, if_neg hp]
    by_cases hs : st = .off <;> simp [hs, hp]

/-- Channels commanded one after the other, in a start list that holds just the channels that wait, ask or are asked. -/
theorem commandChannels (c : ConfigRecord) (l : List (Fin 4)) (s : State) (hl : l.Nodup) (once : s.pump.startList.Nodup)
    (listed : ∀ p ∈ l, p ∈ s.pump.startList ↔ s.pump.chan[p].stage.inList = true) :
    (∀ p : Fin 4, (l.foldl (commandChannel c) s).pump.chan[p] =
      if p ∈ l then commanded (preStart c s p) s.pump.chan[p] else s.pump.chan[p]) ∧
    (l.foldl (commandChannel c) s).pump.startList =
      (s.pump.startList.filter fun q => !decide (q ∈ l ∧ preStart c s q = 0)) ++
        l.filter (fun q => decide (s.pump.chan[q].stage = .off ∧ preStart c s q ≠ 0)) ∧
    (vacates c s l → (l.foldl (commandChannel c) s).pump.ask = vacated s.pump.ask) ∧
    (¬ vacates c s l → (l.foldl (commandChannel c) s).pump.ask = s.pump.ask) ∧
    (l.foldl (commandChannel c) s).pump = { s.pump with
      chan := (l.foldl (commandChannel c) s).pump.chan
      startList := (l.foldl (commandChannel c) s).pump.startList
      ask := (l.foldl (commandChannel c) s).pump.ask } := by
  induction l generalizing s with
  | nil => simp [vacates]
  | cons p l ih =>
    obtain ⟨fresh, distinct⟩ := List.nodup_cons.mp hl
    have step := commandChannel_eq c s p
    have list : (commandChannel c s p).pump.startList = _ :=
      (congrArg (·.pump.startList) step).trans (commandedList_eq once (listed p List.mem_cons_self))
    have others (q : Fin 4) (h : q ≠ p) : (commandChannel c s p).pump.chan[q] = s.pump.chan[q] := by
      rw [step]
      exact put_get_ne _ _ _ _ h
    have apart {q : Fin 4} (h : q ∈ l) : q ≠ p := fun e => fresh (e ▸ h)
    have pre (q : Fin 4) (h : q ≠ p) : preStart c (commandChannel c s p) q = preStart c s q :=
      preStart_congr (by simp) (by simp) (by simp) (others q h) c
    have mem (q : Fin 4) (h : q ≠ p) : q ∈ (commandChannel c s p).pump.startList ↔ q ∈ s.pump.startList := by
      rw [list, List.mem_append, List.mem_filter]
      split <;> simp [h]
    have once' : (commandChannel c s p).pump.startList.Nodup := by
      rw [list]
      refine List.Nodup.append (once.filter _) (by split <;> simp) ?_
      split
      · next off =>
        rw [List.disjoint_singleton]
        intro h
        have := (listed p List.mem_cons_self).mp (List.mem_of_mem_filter h)
        rw [off.1] at this
        cases this
      · exact List.disjoint_nil_right _
    obtain ⟨chan, startList, vacate, keep, rest⟩ := ih (commandChannel c s p) distinct once' fun q hq => by
      rw [mem q (apart hq), others q (apart hq)]
      exact listed q (List.mem_cons_of_mem p hq)
    have ask : (commandChannel c s p).pump.ask = commandedAsk (preStart c s p) s.pump.chan[p].stage s.pump.ask :=
      congrArg (·.pump.ask) step
    have later : vacates c (commandChannel c s p) l ↔ vacates c s l :=
      exists_congr fun q => and_congr_right fun hq => by rw [others q (apart hq), pre q (apart hq)]
    simp only [List.foldl_cons]
    refine ⟨fun q => ?_, ?_, fun hv => ?_, fun hv => ?_, ?_⟩
    · rw [chan]
      by_cases hq : q = p
      · subst hq
        rw [if_neg fresh, if_pos List.mem_cons_self, step]
        exact (put_get _ _ _ _).trans (if_pos rfl)
      · simp only [List.mem_cons, hq, false_or, others q hq, pre q hq]
    · have asOff : l.filter (fun q => decide ((commandChannel c s p).pump.chan[q].stage = .off ∧
          preStart c (commandChannel c s p) q ≠ 0)) =
          l.filter fun q => decide (s.pump.chan[q].stage = .off ∧ preStart c s q ≠ 0) :=
        List.filter_congr fun q hq => by rw [others q (apart hq), pre q (apart hq)]
      have added : ((if s.pump.chan[p].stage = .off ∧ preStart c s p ≠ 0 then [p] else []).filter fun q =>
          !decide (q ∈ l ∧ preStart c (commandChannel c s p) q = 0)) =
          if s.pump.chan[p].stage = .off ∧ preStart c s p ≠ 0 then [p] else [] :=
        List.filter_eq_self.mpr fun q hq => by
          have : q = p := by
            split at hq
            · exact List.mem_singleton.mp hq
            · cases hq
          simp [this, fresh]
      have kept : (s.pump.startList.filter fun q => (!decide (q ∈ l ∧ preStart c (commandChannel c s p) q = 0)) &&
          !decide (q = p ∧ preStart c s p = 0)) = s.pump.startList.filter fun q => !decide (q ∈ p :: l ∧ preStart c s q = 0) :=
        List.filter_congr fun q _ => by
          by_cases hq : q = p
          · subst hq; simp [fresh]
          · simp [hq, pre q hq]
      rw [startList, list, asOff, List.filter_append, List.filter_filter, added, kept, List.append_assoc, List.filter_cons]
      simp only [decide_eq_true_eq]
      split <;> rfl
    · by_cases more : vacates c (commandChannel c s p) l
      · rw [vacate more, ask, vacated_commandedAsk]
      · have now := ((vacates_cons c s p l).mp hv).resolve_right (mt later.mpr more)
        rw [keep more, ask, commandedAsk, if_pos now]
    · obtain ⟨now, more⟩ := not_or.mp (mt (vacates_cons c s p l).mpr hv)
      rw [keep (mt later.mp more), ask, commandedAsk, if_neg now]
    · rw [rest, step]

/-- The fifth stage over all channels (R112, R116). -/
theorem stageCommands_parts {c : ConfigRecord} {s : State} (once : s.pump.startList.Nodup)
    (listed : ∀ p : Fin 4, p ∈ s.pump.startList ↔ s.pump.chan[p].stage.inList = true) :
    (∀ p : Fin 4, (stageCommands c s).pump.chan[p] = commanded (preStart c s p) s.pump.chan[p]) ∧
    (stageCommands c s).pump.startList = (s.pump.startList.filter fun q => decide (preStart c s q ≠ 0)) ++
      (List.finRange 4).filter (fun q => decide (s.pump.chan[q].stage = .off ∧ preStart c s q ≠ 0)) ∧
    (stageCommands c s).pump.busyUntil = s.pump.busyUntil := by
  obtain ⟨chan, list, -, -, rest⟩ := commandChannels c (List.finRange 4) s (List.nodup_finRange 4) once fun p _ => listed p
  refine ⟨fun p => (chan p).trans (if_pos (List.mem_finRange p)), list.trans ?_, congrArg (·.busyUntil) rest⟩
  simp

/-- The own ask after the commands: vacated where the channel it carries is commanded to leave (R116). -/
theorem stageCommands_ask {c : ConfigRecord} {s : State} (once : s.pump.startList.Nodup)
    (listed : ∀ p : Fin 4, p ∈ s.pump.startList ↔ s.pump.chan[p].stage.inList = true)
    (asks : ∀ p : Fin 4, askCarries s.pump.ask s.pump.chan[p].stage p) : (stageCommands c s).pump.ask =
      match s.pump.ask with
      | .queued (some p) => .queued (if preStart c s p = 0 then none else some p)
      | .window e (some p) => .window e (if preStart c s p = 0 then none else some p)
      | other => other := by
  obtain ⟨-, -, vacate, keep, -⟩ := commandChannels c (List.finRange 4) s (List.nodup_finRange 4) once fun p _ => listed p
  have carried (p : Fin 4) : s.pump.chan[p].stage = .asking ∨ s.pump.chan[p].stage = .asked ↔
      s.pump.ask = .queued (some p) ∨ ∃ e, s.pump.ask = .window e (some p) := or_congr (asks p).1 (asks p).2
  have leaves : vacates c s (List.finRange 4) ↔
      ∃ p, preStart c s p = 0 ∧ (s.pump.ask = .queued (some p) ∨ ∃ e, s.pump.ask = .window e (some p)) :=
    exists_congr fun p => by rw [carried, and_iff_right (List.mem_finRange p)]
  rw [leaves] at vacate keep
  unfold stageCommands
  cases hask : s.pump.ask with
  | none => exact (keep (by simp [hask])).trans hask
  | queued o =>
    cases o with
    | none => exact (keep (by simp [hask])).trans hask
    | some p =>
      by_cases hp : preStart c s p = 0
      · rw [vacate ⟨p, hp, .inl hask⟩, hask]
        simp [vacated, hp]
      · rw [keep (by simp [hask, hp]), hask]
        simp [hp]
  | window e o =>
    cases o with
    | none => exact (keep (by simp [hask])).trans hask
    | some p =>
      by_cases hp : preStart c s p = 0
      · rw [vacate ⟨p, hp, .inr ⟨e, hask⟩⟩, hask]
        simp [vacated, hp]
      · rw [keep (by simp [hask, hp]), hask]
        simp [hp]

/-! ### The ask (R118, R121) -/

/-- The slot is free where no ask of the node is out and the busy time is over (R117). -/
theorem slotBusy_iff (s : State) : slotBusy s = false ↔
    s.pump.ask = .none ∧ ∀ u, s.pump.busyUntil = some u → reached s.clock.site u = true := by
  unfold slotBusy
  cases s.pump.busyUntil <;> simp

theorem stageAsk_busy {s : State} (h : slotBusy s = true) : stageAsk s = s := by
  unfold stageAsk
  split
  · rfl
  · simp [h]

theorem stageAsk_empty {s : State} (h : s.pump.startList = []) : stageAsk s = s := by
  simp [stageAsk, h]

theorem stageAsk_head {s : State} {p : Fin 4} {rest : List (Fin 4)} (hl : s.pump.startList = p :: rest)
    (hb : slotBusy s = false) (hp : s.pump.chan[p].stage = .waiting) :
    stageAsk s = requestAsk p (setAsk (.queued (some p)) (setStage p .asking s)) := by
  simp only [stageAsk, hl, hb, hp]
  rfl

theorem put_put {α : Type} {n : Nat} (v : Vector α n) (i : Fin n) (x y : α) : put (put v i x) i y = put v i y := by
  simp [put]

/-- What a full queue drops for a START-ASK is of a later class, so no START-ASK (R46). -/
theorem victim_class {p : Payload} {q : List TxFrame} {v : TxFrame} (h : victim p q = some v) :
    frameClass p < frameClass v.payload := by
  obtain ⟨-, later⟩ := Option.filter_eq_some_iff.mp h
  simpa using later

theorem dropFrame_pending (p : Payload) {s : State} {i : Nat} (h : s.events.pending.getLsbD i = true) :
    (dropFrame p s).events.pending.getLsbD i = true := by
  have raised := raised_pending h .line
  cases p <;> simpa [dropFrame] using raised

theorem askLost_pump_congr {s t : State} (h : t.pump = s.pump) : (askLost t).pump = (askLost s).pump := by
  unfold askLost returnToHead setStage setAsk
  rw [h]
  split <;> simp [h]

/-- A START-ASK is queued or dropped with a report to the pump controller (R46, R47). -/
theorem enqueue_startAsk (x : Byte) (s : State) :
    ((enqueue (.startAsk x) s).pump = s.pump ∨ (enqueue (.startAsk x) s).pump = (askLost s).pump) ∧
    ∀ i, s.events.pending.getLsbD i = true → (enqueue (.startAsk x) s).events.pending.getLsbD i = true := by
  have fresh : s.line.queue.any (isReplaced (.startAsk x)) = false := by simp [isReplaced, replaceable]
  simp only [enqueue, fresh, Bool.false_eq_true, if_false]
  split
  · exact ⟨.inl rfl, fun i h => h⟩
  · split
    · next v hv =>
      refine ⟨.inl ?_, fun i h => dropFrame_pending _ h⟩
      have later := victim_class hv
      cases hp : v.payload <;> simp [hp, frameClass] at later
      simp [dropFrame]
    · exact ⟨.inr (askLost_pump_congr rfl), fun i h => dropFrame_pending _ h⟩

/-- The head of the start list asks: its stage stays in the list, and nothing pending is lost. -/
theorem requestAsk_head {s : State} {p : Fin 4} {rest : List (Fin 4)} (hl : s.pump.startList = p :: rest) :
    let t := requestAsk p (setAsk (.queued (some p)) (setStage p .asking s))
    (∃ st, Stage.inList st = true ∧ t.pump = { s.pump with
      chan := put s.pump.chan p { s.pump.chan[p] with stage := st }, ask := t.pump.ask, busyUntil := t.pump.busyUntil }) ∧
    ∀ i, s.events.pending.getLsbD i = true → t.events.pending.getLsbD i = true := by
  intro t
  by_cases clash : s.clock.clash = true
  · have asked : t = askCompleted s.clock.site (setAsk (.queued (some p)) (setStage p .asking s)) := if_pos clash
    rw [asked]
    refine ⟨⟨.asked, rfl, ?_⟩, fun i hi => hi⟩
    simp [askCompleted, setAsk, setStage, extendBusy, put_put]
  · have asked : t = enqueue (.startAsk (BitVec.ofNat 8 p)) (setAsk (.queued (some p)) (setStage p .asking s)) :=
      if_neg clash
    obtain ⟨pump, pending⟩ := enqueue_startAsk (BitVec.ofNat 8 p) (setAsk (.queued (some p)) (setStage p .asking s))
    rw [← asked] at pump pending
    refine ⟨?_, pending⟩
    rcases pump with pump | pump
    · refine ⟨.asking, rfl, ?_⟩
      simp only [pump]
      rfl
    · refine ⟨.waiting, rfl, ?_⟩
      simp only [pump]
      simp [askLost, returnToHead, setAsk, setStage, put_put, hl]

/-- What the ask leaves of the pumps: but for the head's stage, which stays in the start list, and the slot all is as before. -/
theorem stageAsk_pump {s : State} (waits : ∀ p : Fin 4, p ∈ s.pump.startList → s.pump.chan[p].stage.inList = true) :
    (∀ p : Fin 4, ∃ st, (stageAsk s).pump.chan[p] = { s.pump.chan[p] with stage := st } ∧
      (st = s.pump.chan[p].stage ∨ s.pump.chan[p].stage.inList = true ∧ st.inList = true)) ∧
    (stageAsk s).pump = { s.pump with
      chan := (stageAsk s).pump.chan, ask := (stageAsk s).pump.ask, busyUntil := (stageAsk s).pump.busyUntil } ∧
    ∀ i, s.events.pending.getLsbD i = true → (stageAsk s).events.pending.getLsbD i = true := by
  cases hl : s.pump.startList with
  | nil =>
    rw [stageAsk_empty hl]
    exact ⟨fun p => ⟨_, rfl, .inl rfl⟩, rfl, fun i h => h⟩
  | cons p rest =>
    by_cases asks : slotBusy s = false ∧ s.pump.chan[p].stage = .waiting
    · rw [stageAsk_head hl asks.1 asks.2]
      obtain ⟨⟨st, list, pump⟩, pending⟩ := requestAsk_head hl
      refine ⟨fun q => ?_, ?_, pending⟩
      · rw [pump]
        by_cases hq : q = p
        · subst hq
          refine ⟨st, ?_, .inr ⟨waits q (by simp [hl]), list⟩⟩
          exact (put_get _ _ _ _).trans (if_pos rfl)
        · refine ⟨s.pump.chan[q].stage, ?_, .inl rfl⟩
          exact put_get_ne _ _ _ _ hq
      · rw [pump]
    · have stands : stageAsk s = s := by
        simp only [stageAsk, hl]
        refine if_neg fun h => asks ?_
        simpa using h
      rw [stands]
      exact ⟨fun p => ⟨_, rfl, .inl rfl⟩, rfl, fun i h => h⟩

end Sys2Proof.Proofs
end

