-- ==== Sys2Proof/Proofs/PumpPeriod.lean ====
section
/-! The pump period as a whole: its commands, the start list, the ask, and what follows out of and in CODA. -/

namespace Sys2Proof.Proofs

open Sys2Proof Sys2Proof.Machine Sys2Proof.Safety

/-! ### A channel through command, ask and slew (R112 to R116) -/

/-- A running channel slews, and leaves ON at 0 with command 0 (R113, R114). -/
theorem settled_of_on {ch : Channel} (hs : ch.stage = .on) (pc : PumpConfig) (halted : Bool) :
    (settled pc halted ch).dCmd = ch.dCmd ∧ (settled pc halted ch).dOut = slewed pc halted ch ∧
    (settled pc halted ch).stage = (if ch.dCmd = 0 ∧ slewed pc halted ch = 0 then .off else .on) ∧
    (settled pc halted ch).ranAtPeriod = (settled pc halted ch).runOutput := by
  simp only [settled, hs, true_and]
  split
  · next ends => exact ⟨rfl, ends.2.symm, rfl, rfl⟩
  · exact ⟨rfl, rfl, rfl, by simp [Channel.runOutput, hs]⟩

theorem settled_of_not_on {ch : Channel} (hs : ch.stage ≠ .on) (pc : PumpConfig) (halted : Bool) :
    settled pc halted ch = { ch with dOut := 0, ranAtPeriod := false } := by
  simp [settled, slewed, hs, Channel.runOutput]

theorem settled_keeps (ch : Channel) (pc : PumpConfig) (halted : Bool) :
    (settled pc halted ch).dC = ch.dC ∧ (settled pc halted ch).dT = ch.dT ∧ (settled pc halted ch).faulted = ch.faulted ∧
    (settled pc halted ch).cause = ch.cause := by
  simp only [settled]
  split <;> exact ⟨rfl, rfl, rfl, rfl⟩

theorem commanded_keeps (pre : Nat) (ch : Channel) : (commanded pre ch).dC = ch.dC ∧ (commanded pre ch).dT = ch.dT ∧
    (commanded pre ch).faulted = ch.faulted ∧ (commanded pre ch).cause = ch.cause := by
  unfold commanded
  split <;> exact ⟨rfl, rfl, rfl, rfl⟩

theorem commanded_of_on {ch : Channel} (hs : ch.stage = .on) (pre : Nat) : commanded pre ch = { ch with dCmd := pre } := by
  simp [commanded, hs]

/-- Any other channel leaves the start list with command 0, and waits in it with another (R112, R116). -/
theorem commanded_of_not_on {ch : Channel} (hs : ch.stage ≠ .on) (pre : Nat) : (commanded pre ch).dCmd = 0 ∧
    (pre = 0 → (commanded pre ch).stage = .off) ∧ (pre ≠ 0 → (commanded pre ch).stage.inList = true) := by
  cases h : ch.stage with
  | on => exact absurd h hs
  | off => by_cases hp : pre = 0 <;> simp [commanded, h, hp, Stage.inList]
  | waiting | asking | asked => by_cases hp : pre = 0 <;> simp [commanded, h, hp, Stage.inList]

/-- A channel that neither asks nor is asked stands in the start list as WAITING (R116). -/
theorem commanded_waits {ch : Channel} {pre : Nat} (h1 : ch.stage ≠ .asking) (h2 : ch.stage ≠ .asked)
    (h : (commanded pre ch).stage.inList = true) : (commanded pre ch).stage = .waiting := by
  cases hs : ch.stage with
  | asking => exact absurd hs h1
  | asked => exact absurd hs h2
  | on =>
    rw [commanded_of_on hs] at h
    simp [hs, Stage.inList] at h
  | off | waiting => by_cases hp : pre = 0 <;> simp_all [commanded, Stage.inList]

/-- A channel at the end of a pump period, from the one the drives leave. -/
def periodChannel (pc : PumpConfig) (halted : Bool) (pre : Nat) (st : Stage) (ch : Channel) : Channel :=
  settled pc halted { commanded pre ch with stage := st }

/-- The stage the ask leaves a channel in: its own, or another in the start list. -/
def stageAfterAsk (pre : Nat) (ch : Channel) (st : Stage) : Prop :=
  st = (commanded pre ch).stage ∨ (commanded pre ch).stage.inList = true ∧ st.inList = true

theorem periodChannel_keeps (pc : PumpConfig) (halted : Bool) (pre : Nat) (st : Stage) (ch : Channel) :
    (periodChannel pc halted pre st ch).dC = ch.dC ∧ (periodChannel pc halted pre st ch).dT = ch.dT ∧
    (periodChannel pc halted pre st ch).faulted = ch.faulted ∧ (periodChannel pc halted pre st ch).cause = ch.cause := by
  obtain ⟨hC, hT, hF, hX⟩ := settled_keeps { commanded pre ch with stage := st } pc halted
  obtain ⟨hC', hT', hF', hX'⟩ := commanded_keeps pre ch
  exact ⟨hC.trans hC', hT.trans hT', hF.trans hF', hX.trans hX'⟩

/-- A channel whose run output is on: its command, its slew, and whether it leaves ON (R112 to R114). -/
theorem periodChannel_of_on {ch : Channel} {pre : Nat} {st : Stage} (hs : ch.stage = .on) (ask : stageAfterAsk pre ch st)
    (pc : PumpConfig) (halted : Bool) :
    let f := periodChannel pc halted pre st ch
    f.dCmd = pre ∧
    f.dOut = (if ch.dOut < pre then min pre (ch.dOut + pc.rampUp)
      else max pre (ch.dOut - if halted then pc.haltRamp else pc.rampDown)) ∧
    f.stage = (if pre = 0 ∧ f.dOut = 0 then .off else .on) ∧ f.ranAtPeriod = f.runOutput := by
  intro f
  have command := commanded_of_on hs pre
  have on : st = .on := by
    rcases ask with h | ⟨h, -⟩
    · rw [h, command]; exact hs
    · rw [command] at h
      simp [hs, Stage.inList] at h
  have channel : f = settled pc halted { ch with dCmd := pre } := by
    simp only [f, periodChannel, command, on, ← hs]
  obtain ⟨dCmd, dOut, stage, ran⟩ := settled_of_on (ch := { ch with dCmd := pre }) hs pc halted
  rw [← channel] at dCmd dOut stage ran
  refine ⟨dCmd, dOut.trans ?_, ?_, ran⟩
  · simp [slewed, hs]
  · rw [stage, ← dOut]

/-- Any other channel: no command and no drive, and its place in the start list by its pre-start command (R112, R116). -/
theorem periodChannel_of_not_on {ch : Channel} {pre : Nat} {st : Stage} (hs : ch.stage ≠ .on) (ask : stageAfterAsk pre ch st)
    (pc : PumpConfig) (halted : Bool) :
    let f := periodChannel pc halted pre st ch
    f.dCmd = 0 ∧ f.dOut = 0 ∧ f.stage = st ∧ f.ranAtPeriod = f.runOutput ∧ (pre = 0 → st = .off) ∧
      (pre ≠ 0 → st.inList = true) := by
  intro f
  obtain ⟨dCmd, leaves, waits⟩ := commanded_of_not_on hs pre
  have off (h : pre = 0) : st = .off := by
    rcases ask with e | ⟨e, -⟩
    · rw [e, leaves h]
    · rw [leaves h] at e
      cases e
  have list (h : pre ≠ 0) : st.inList = true := by
    rcases ask with e | ⟨-, e⟩
    · rw [e]; exact waits h
    · exact e
  have hst : st ≠ .on := by
    rintro rfl
    by_cases h : pre = 0
    · cases off h
    · cases list h
  have channel : f = { commanded pre ch with stage := st, dOut := 0, ranAtPeriod := false } :=
    settled_of_not_on (ch := { commanded pre ch with stage := st }) hst pc halted
  rw [channel]
  exact ⟨dCmd, rfl, rfl, by simp [Channel.runOutput, hst], off, list⟩

/-! ### The state between the drives and the commands -/

theorem on_of_faultsAt {c : ConfigRecord} {s : State} {fb : BitVec 4} {p : Fin 4} (h : faultsAt c s fb p = true) :
    s.pump.chan[p].stage = .on := by
  simp only [faultsAt, Channel.runOutput, Bool.and_eq_true, decide_eq_true_eq] at h
  exact h.1.1

theorem driven_on_iff (c : ConfigRecord) (fb : BitVec 4) (s : State) (p : Fin 4) :
    (driven c fb s).pump.chan[p].stage = .on ↔ s.pump.chan[p].runOutput = true ∧ faultsAt c s fb p = false := by
  obtain ⟨h', e, t, d, chan⟩ := driven_chan c fb s p
  cases h : faultsAt c s fb p with
  | true =>
    rw [chan, sampled_of_fault h]
    simp [faultedChannel]
  | false =>
    obtain ⟨phase, sampled⟩ := sampled_of_no_fault h
    rw [chan, sampled]
    simp [Channel.runOutput]

theorem driven_of_fault {c : ConfigRecord} {s : State} {fb : BitVec 4} {p : Fin 4} (h : faultsAt c s fb p = true) :
    (driven c fb s).pump.chan[p].stage = .off ∧ (driven c fb s).pump.chan[p].faulted = true ∧
    (driven c fb s).pump.chan[p].cause = if s.pump.chan[p].phase = .confirmed then .lost else .noConfirm := by
  obtain ⟨h', e, t, d, chan⟩ := driven_chan c fb s p
  rw [chan, sampled_of_fault h]
  exact ⟨rfl, rfl, rfl⟩

theorem driven_of_no_fault {c : ConfigRecord} {s : State} {fb : BitVec 4} {p : Fin 4} (h : faultsAt c s fb p = false) :
    (driven c fb s).pump.chan[p].stage = s.pump.chan[p].stage ∧ (driven c fb s).pump.chan[p].dOut = s.pump.chan[p].dOut ∧
    (driven c fb s).pump.chan[p].faulted = s.pump.chan[p].faulted ∧
    (driven c fb s).pump.chan[p].cause = s.pump.chan[p].cause := by
  obtain ⟨h', e, t, d, chan⟩ := driven_chan c fb s p
  obtain ⟨phase, sampled⟩ := sampled_of_no_fault h
  rw [chan, sampled]
  exact ⟨rfl, rfl, rfl, rfl⟩

theorem driven_stage (c : ConfigRecord) (fb : BitVec 4) (s : State) (p : Fin 4) :
    (driven c fb s).pump.chan[p].stage = s.pump.chan[p].stage ∨
    s.pump.chan[p].stage = .on ∧ (driven c fb s).pump.chan[p].stage = .off := by
  cases h : faultsAt c s fb p with
  | false => exact .inl (driven_of_no_fault h).1
  | true => exact .inr ⟨on_of_faultsAt h, (driven_of_fault h).1⟩

/-- The drives leave the start list, the ask and the busy time alone. -/
theorem driven_slot (c : ConfigRecord) (fb : BitVec 4) (s : State) :
    (driven c fb s).pump.startList = s.pump.startList ∧ (driven c fb s).pump.ask = s.pump.ask ∧
    (driven c fb s).pump.busyUntil = s.pump.busyUntil := by
  simp [driven, stageCaps, stageGrant, stageHeights, mapChannels, stageFeedback_pump]

theorem driven_listed {s : State} (inv : PumpInv s) (c : ConfigRecord) (fb : BitVec 4) (p : Fin 4) :
    p ∈ (driven c fb s).pump.startList ↔ (driven c fb s).pump.chan[p].stage.inList = true := by
  rw [(driven_slot c fb s).1, inv.listed p]
  rcases driven_stage c fb s p with h | ⟨on, off⟩
  · rw [h]
  · rw [on, off]
    rfl

theorem driven_asks {s : State} (inv : PumpInv s) (c : ConfigRecord) (fb : BitVec 4) (p : Fin 4) :
    askCarries (driven c fb s).pump.ask (driven c fb s).pump.chan[p].stage p := by
  have before := inv.asks p
  rw [(driven_slot c fb s).2.1]
  rcases driven_stage c fb s p with h | ⟨on, off⟩
  · rwa [h]
  · rw [on] at before
    rw [off]
    simpa [askCarries] using before

theorem driven_once {s : State} (inv : PumpInv s) (c : ConfigRecord) (fb : BitVec 4) : (driven c fb s).pump.startList.Nodup := by
  rw [(driven_slot c fb s).1]
  exact inv.once

/-- A fault raises PUMP FAULT (R122). -/
theorem driven_events {c : ConfigRecord} {fb : BitVec 4} {s : State} {p : Fin 4} (h : faultsAt c s fb p = true) :
    (driven c fb s).events.pending.getLsbD 2 = true := by
  have raised := stageFeedback_events (s := riseWind c s) (p := p) (by simpa [faultsAt] using h)
  simpa [driven] using raised

theorem driven_dC_le (c : ConfigRecord) (fb : BitVec 4) (s : State) (p : Fin 4) :
    (driven c fb s).pump.chan[p].dC ≤ (driven c fb s).pump.chan[p].dT :=
  capped_dC_le c (stageHeights c (stageFeedback c fb (riseWind c s))) p

/-- The pre-start command in the state the drives leave (R112). -/
theorem preStart_driven {s : State} {c : ConfigRecord} (fb : BitVec 4) (p : Fin 4) : preStart c (driven c fb s) p =
    if (driven c fb s).pump.chan[p].dC < c.pump[p].dMin ∨ dryCovers s p = true ∨ drivable c s fb p = false ∨
      s.ctl.state.inShow = false then 0 else (driven c fb s).pump.chan[p].dC := by
  have dry : dryCovers (driven c fb s) p = dryCovers s p := by simp [dryCovers, driven]
  have state : (driven c fb s).ctl = s.ctl := by simp [driven]
  unfold preStart
  rw [drives_driven, dry, state]
  simp [or_assoc, -Fin.getElem_fin]

/-- The commands' powers keep within the grant (R110). -/
theorem driven_power_le {c : ConfigRecord} {fb : BitVec 4} {s : State} {f : Fin 4 → Nat}
    (hf : ∀ p, f p = 0 ∨ drivable c s fb p = true ∧ (driven c fb s).pump.chan[p].stage ≠ .off ∧
      f p ≤ power c.pump[p].rated (driven c fb s).pump.chan[p].dC) : sumOver f ≤ (driven c fb s).pump.grant := by
  let heights := stageHeights c (stageFeedback c fb (riseWind c s))
  refine sumOver_capped_le (s := heights) fun p => ?_
  have chan : (driven c fb s).pump.chan[p] = _ := capped_chan c heights p
  refine (hf p).imp_right fun ⟨drive, stage, le⟩ => ⟨?_, ?_, le⟩
  · rw [← drives_driven] at drive
    unfold drives at drive ⊢
    rwa [chan] at drive
  · rwa [chan] at stage

/-! ### Commands, ask and slew from the state the drives leave -/

/-- The end of the pump period from the state its drives leave (R103). -/
def periodEnd (c : ConfigRecord) (d : State) : State := closeStopped (stageSlew c (stageAsk (stageCommands c d)))

section
variable {d : State} (once : d.pump.startList.Nodup)
  (listed : ∀ p : Fin 4, p ∈ d.pump.startList ↔ d.pump.chan[p].stage.inList = true) (c : ConfigRecord)
include once listed

/-- Every channel of the start list waits, asks or is asked (R101). -/
theorem stageCommands_listed {p : Fin 4} (h : p ∈ (stageCommands c d).pump.startList) :
    (stageCommands c d).pump.chan[p].stage.inList = true := by
  obtain ⟨chan, list, -⟩ := stageCommands_parts once listed (c := c)
  rw [list, List.mem_append, List.mem_filter, List.mem_filter] at h
  have waits : d.pump.chan[p].stage ≠ .on ∧ preStart c d p ≠ 0 := by
    rcases h with ⟨mem, pre⟩ | ⟨-, off⟩
    · rw [listed p] at mem
      refine ⟨fun on => ?_, by simpa using pre⟩
      rw [on] at mem
      cases mem
    · obtain ⟨off, pre⟩ := of_decide_eq_true off
      refine ⟨fun on => ?_, pre⟩
      rw [on] at off
      cases off
  rw [chan]
  exact (commanded_of_not_on waits.1 _).2.2 waits.2

/-- No channel of the start list runs (R101). -/
theorem stageCommands_not_on {p : Fin 4} (h : p ∈ (stageCommands c d).pump.startList) : d.pump.chan[p].stage ≠ .on := by
  intro on
  have waits := stageCommands_listed once listed c h
  rw [(stageCommands_parts once listed).1, commanded_of_on on] at waits
  rw [show Stage.inList _ = Stage.inList d.pump.chan[p].stage from rfl, on] at waits
  cases waits

/-- A channel over the rest of the pump period. -/
theorem periodEnd_chan (p : Fin 4) :
    stageAfterAsk (preStart c d p) d.pump.chan[p] (stageAsk (stageCommands c d)).pump.chan[p].stage ∧
      (periodEnd c d).pump.chan[p] = periodChannel c.pump[p] (decide (d.ctl.state = .halted)) (preStart c d p)
        (stageAsk (stageCommands c d)).pump.chan[p].stage d.pump.chan[p] := by
  obtain ⟨asked, -, -⟩ := stageAsk_pump fun p => stageCommands_listed once listed c (p := p)
  obtain ⟨st, chan, stage⟩ := asked p
  rw [(stageCommands_parts once listed).1] at chan stage
  have slew : (periodEnd c d).pump.chan[p] =
      settled c.pump[p] (decide (d.ctl.state = .halted)) (stageAsk (stageCommands c d)).pump.chan[p] := by
    simp only [periodEnd, closeStopped_frame, stageSlew, mapChannels, gen_get_fin, stageAsk_frame, stageCommands_frame]
  rw [slew, chan]
  exact ⟨stage, rfl⟩

/-- What the rest of the pump period leaves alone. -/
theorem periodEnd_pump : (periodEnd c d).pump = { d.pump with
    chan := (periodEnd c d).pump.chan, startList := (stageCommands c d).pump.startList
    ask := (stageAsk (stageCommands c d)).pump.ask, busyUntil := (stageAsk (stageCommands c d)).pump.busyUntil } := by
  obtain ⟨-, asked, -⟩ := stageAsk_pump fun p => stageCommands_listed once listed c (p := p)
  obtain ⟨-, -, -, -, commands⟩ := commandChannels c (List.finRange 4) d (List.nodup_finRange 4) once fun p _ => listed p
  have slew : (periodEnd c d).pump = { (stageAsk (stageCommands c d)).pump with chan := (periodEnd c d).pump.chan } := by
    simp [periodEnd, stageSlew, mapChannels]
  rw [slew, asked]
  exact congrArg (fun q : PumpController => { q with
    chan := (periodEnd c d).pump.chan, startList := (stageCommands c d).pump.startList
    ask := (stageAsk (stageCommands c d)).pump.ask, busyUntil := (stageAsk (stageCommands c d)).pump.busyUntil }) commands

/-- With no ask out before, the head of the start list waits after the commands (R116). -/
theorem stageCommands_waiting (asks : ∀ p : Fin 4, askCarries d.pump.ask d.pump.chan[p].stage p) (free : d.pump.ask = .none)
    {p : Fin 4} (h : p ∈ (stageCommands c d).pump.startList) : (stageCommands c d).pump.chan[p].stage = .waiting := by
  have waits := stageCommands_listed once listed c h
  have quiet := asks p
  rw [free] at quiet
  rw [(stageCommands_parts once listed).1] at waits ⊢
  exact commanded_waits (fun hs => by simpa using quiet.1.mp hs) (fun hs => by simpa using quiet.2.mp hs) waits

end

/-! ### The ask of the head (R118, R121) -/

/-- With room in the queue the START-ASK joins it behind the frames of its class or before (R45). -/
theorem stageAsk_room {s : State} {p : Fin 4} {rest : List (Fin 4)} (hl : s.pump.startList = p :: rest)
    (free : slotBusy s = false) (hp : s.pump.chan[p].stage = .waiting) (hx : s.clock.clash = false)
    (hq : s.line.queue.length < 8) :
    (stageAsk s).pump.ask = .queued (some p) ∧ (stageAsk s).pump.chan[p].stage = .asking ∧
    (stageAsk s).pump.busyUntil = s.pump.busyUntil ∧
    (stageAsk s).line = { s.line with
      queue := s.line.queue.takeWhile (fun f => decide (frameClass f.payload ≤ 3)) ++
        freshFrame (.startAsk (BitVec.ofNat 8 p)) :: s.line.queue.dropWhile (fun f => decide (frameClass f.payload ≤ 3)) } := by
  have fresh : s.line.queue.any (isReplaced (.startAsk (BitVec.ofNat 8 p))) = false := by simp [isReplaced, replaceable]
  have asked : stageAsk s = setQueue (insertFrame s.line.queue (freshFrame (.startAsk (BitVec.ofNat 8 p))))
      (setAsk (.queued (some p)) (setStage p .asking s)) := by
    rw [stageAsk_head hl free hp, requestAsk, if_neg (by simp [setAsk, setStage, hx])]
    simp [enqueue, setAsk, setStage, fresh, hq]
  rw [asked, insertFrame_of_class (n := 3) rfl]
  refine ⟨rfl, ?_, rfl, rfl⟩
  simp [setAsk, setStage]

/-- While CLASH is set the ask counts as completed at once (R121). -/
theorem stageAsk_clash {s : State} {p : Fin 4} {rest : List (Fin 4)} (hl : s.pump.startList = p :: rest)
    (free : slotBusy s = false) (hp : s.pump.chan[p].stage = .waiting) (hx : s.clock.clash = true) :
    (stageAsk s).pump.ask = .window (s.clock.site + 100000) (some p) ∧ (stageAsk s).pump.chan[p].stage = .asked ∧
    (stageAsk s).line = s.line := by
  have asked : stageAsk s = askCompleted s.clock.site (setAsk (.queued (some p)) (setStage p .asking s)) := by
    rw [stageAsk_head hl free hp, requestAsk, if_pos (by simp [setAsk, setStage, hx])]
    rfl
  rw [asked]
  refine ⟨rfl, ?_, rfl⟩
  simp [askCompleted, setAsk, setStage, extendBusy]

/-! ### The test for the end of the coda (R19) -/

theorem codaTest_pump (s : State) : (∀ p : Fin 4, ∃ h, (codaTest s).pump.chan[p] = { s.pump.chan[p] with height := h }) ∧
    (codaTest s).pump = { s.pump with chan := (codaTest s).pump.chan } ∧
    ∀ i, s.events.pending.getLsbD i = true → (codaTest s).events.pending.getLsbD i = true := by
  by_cases ends : codaComplete s = true
  · have done : codaTest s = completeCoda s := if_pos ends
    obtain ⟨-, pump, -, -, events⟩ := completeCoda_parts s
    rw [done, pump, events]
    refine ⟨fun p => ⟨.zero, ?_⟩, rfl, fun i h => raised_pending h _⟩
    simp [pumpClear]
  · have stands : codaTest s = s := if_neg ends
    rw [stands]
    exact ⟨fun p => ⟨_, rfl⟩, rfl, fun i h => h⟩

theorem codaTest_of_not_coda {s : State} (h : s.ctl.state ≠ .coda) : codaTest s = s :=
  if_neg fun e => h (codaComplete_iff.mp e).1

/-- A holding group whose pump stands closes (R94). -/
theorem closeStopped_jet (s : State) (g : Fin 4) : (closeStopped s).jets[g] = { s.jets[g] with mode := match s.jets[g].mode with
    | .holding held => if (closeStopped s).pump.chan[g].dOut = 0 then .closed else .holding held
    | .closed => .closed
    | .following => .following } := by
  rw [closeStopped, mapModes_jets, gen_get_fin]
  cases s.jets[g].mode <;> rfl

/-! ### The pump period (R103) -/

/-- A node with the time of its next pump period set (R26). -/
def withNext (n : SiteTime) (s : State) : State := { s with pump := { s.pump with next := n } }

/-- The node after a pump period, from the state its drives leave. -/
def afterPeriod (c : ConfigRecord) (n : SiteTime) (d : State) : State := codaTest (withNext n (periodEnd c d))

theorem pumpStages_eq_periodEnd (c : ConfigRecord) (fb : BitVec 4) (s : State) :
    pumpStages c fb s = periodEnd c (driven c fb s) := pumpStages_eq c fb s

theorem exec_pumpPeriod {s : State} {c : ConfigRecord} (fb : BitVec 4) (hh : s.port.held = false) (hc : s.config = some c)
    (due : reached s.clock.site s.pump.next = true) :
    exec (.pumpPeriod fb) s = .next (afterPeriod c (multipleAfter s.clock.site 10000) (driven c fb s)) := by
  have pumps : pumpDue s = true := by simp [pumpDue, hc, due]
  have site : (pumpStages c fb s).clock.site = s.clock.site := by simp
  refine congrArg Host.Outcome.next ((unlessHeld_free s _ hh).trans ?_)
  rw [pumpStages_eq_periodEnd] at site
  simp only [hc, pumps, if_true, afterPeriod, withNext, pumpStages_eq_periodEnd, site]

section
variable {d : State} (once : d.pump.startList.Nodup)
  (listed : ∀ p : Fin 4, p ∈ d.pump.startList ↔ d.pump.chan[p].stage.inList = true) (c : ConfigRecord) (n : SiteTime) (p : Fin 4)
include once listed

theorem afterPeriod_chan : ∃ h, (afterPeriod c n d).pump.chan[p] =
    { periodChannel c.pump[p] (decide (d.ctl.state = .halted)) (preStart c d p)
        (stageAsk (stageCommands c d)).pump.chan[p].stage d.pump.chan[p] with height := h } := by
  obtain ⟨h, chan⟩ := (codaTest_pump (withNext n (periodEnd c d))).1 p
  have same : (withNext n (periodEnd c d)).pump.chan[p] = (periodEnd c d).pump.chan[p] := rfl
  rw [same, (periodEnd_chan once listed c p).2] at chan
  exact ⟨h, chan⟩

theorem afterPeriod_pending (i : Nat) (h : d.events.pending.getLsbD i = true) :
    (afterPeriod c n d).events.pending.getLsbD i = true := by
  obtain ⟨-, -, asked⟩ := stageAsk_pump fun p => stageCommands_listed once listed c (p := p)
  refine (codaTest_pump (withNext n (periodEnd c d))).2.2 i ?_
  have events : (withNext n (periodEnd c d)).events = (stageAsk (stageCommands c d)).events := by simp [withNext, periodEnd]
  rw [events]
  exact asked i (by simpa using h)

/-- What the rest of the pump period keeps of a channel. -/
theorem afterPeriod_keeps : (afterPeriod c n d).pump.chan[p].dC = d.pump.chan[p].dC ∧
    (afterPeriod c n d).pump.chan[p].dT = d.pump.chan[p].dT ∧
    (afterPeriod c n d).pump.chan[p].faulted = d.pump.chan[p].faulted ∧
    (afterPeriod c n d).pump.chan[p].cause = d.pump.chan[p].cause := by
  obtain ⟨h, chan⟩ := afterPeriod_chan once listed c n p
  rw [chan]
  dsimp only
  exact periodChannel_keeps _ _ _ _ _

/-- A running channel after a pump period (R112 to R114). -/
theorem afterPeriod_running (on : d.pump.chan[p].stage = .on) :
    (afterPeriod c n d).pump.chan[p].dCmd = preStart c d p ∧
    (afterPeriod c n d).pump.chan[p].dOut = (if d.pump.chan[p].dOut < preStart c d p
      then min (preStart c d p) (d.pump.chan[p].dOut + c.pump[p].rampUp)
      else max (preStart c d p)
        (d.pump.chan[p].dOut - if d.ctl.state = .halted then c.pump[p].haltRamp else c.pump[p].rampDown)) ∧
    (afterPeriod c n d).pump.chan[p].stage =
      (if preStart c d p = 0 ∧ (afterPeriod c n d).pump.chan[p].dOut = 0 then .off else .on) ∧
    (afterPeriod c n d).pump.chan[p].ranAtPeriod = (afterPeriod c n d).pump.chan[p].runOutput := by
  obtain ⟨h, chan⟩ := afterPeriod_chan once listed c n p
  obtain ⟨dCmd, dOut, stage, ran⟩ := periodChannel_of_on on (periodEnd_chan once listed c p).1 c.pump[p]
    (decide (d.ctl.state = .halted))
  simp only [decide_eq_true_eq] at dOut
  rw [chan]
  dsimp only [Channel.runOutput]
  exact ⟨dCmd, dOut, stage, ran⟩

/-- Any other channel after a pump period (R112, R116). -/
theorem afterPeriod_not_running (on : d.pump.chan[p].stage ≠ .on) :
    (afterPeriod c n d).pump.chan[p].dCmd = 0 ∧ (afterPeriod c n d).pump.chan[p].dOut = 0 ∧
    (afterPeriod c n d).pump.chan[p].stage = (stageAsk (stageCommands c d)).pump.chan[p].stage ∧
    (afterPeriod c n d).pump.chan[p].ranAtPeriod = (afterPeriod c n d).pump.chan[p].runOutput ∧
    (preStart c d p = 0 → (afterPeriod c n d).pump.chan[p].stage = .off) ∧
    (preStart c d p ≠ 0 → (afterPeriod c n d).pump.chan[p].stage.inList = true) := by
  obtain ⟨h, chan⟩ := afterPeriod_chan once listed c n p
  obtain ⟨dCmd, dOut, stage, ran, off, list⟩ := periodChannel_of_not_on on (periodEnd_chan once listed c p).1 c.pump[p]
    (decide (d.ctl.state = .halted))
  rw [chan]
  dsimp only [Channel.runOutput]
  exact ⟨dCmd, dOut, stage, ran, fun h => stage.trans (off h), fun h => (congrArg Stage.inList stage).trans (list h)⟩

/-- The start list, the slot and the grant after a pump period. -/
theorem afterPeriod_slot :
    (afterPeriod c n d).pump.startList = (stageCommands c d).pump.startList ∧
    (afterPeriod c n d).pump.ask = (stageAsk (stageCommands c d)).pump.ask ∧
    (afterPeriod c n d).pump.busyUntil = (stageAsk (stageCommands c d)).pump.busyUntil ∧
    (afterPeriod c n d).pump.grant = d.pump.grant ∧
    (afterPeriod c n d).line = (stageAsk (stageCommands c d)).line := by
  have rest := (codaTest_pump (withNext n (periodEnd c d))).2.1
  have pump : (withNext n (periodEnd c d)).pump = { (periodEnd c d).pump with next := n } := rfl
  rw [pump, periodEnd_pump once listed c] at rest
  refine ⟨congrArg (·.startList) rest, congrArg (·.ask) rest, congrArg (·.busyUntil) rest, congrArg (·.grant) rest, ?_⟩
  simp [afterPeriod, withNext, periodEnd]

end

/-- What the drives of a pump period leave for its commands. -/
structure DrivesLeave (c : ConfigRecord) (fb : BitVec 4) (s d : State) : Prop where
  once : d.pump.startList.Nodup
  listed : ∀ p : Fin 4, p ∈ d.pump.startList ↔ d.pump.chan[p].stage.inList = true
  asks : ∀ p : Fin 4, askCarries d.pump.ask d.pump.chan[p].stage p
  runs : ∀ p : Fin 4, d.pump.chan[p].stage = .on ↔ s.pump.chan[p].runOutput = true ∧ faultsAt c s fb p = false
  pre : ∀ p : Fin 4, preStart c d p = if d.pump.chan[p].dC < c.pump[p].dMin ∨ dryCovers s p = true ∨
    drivable c s fb p = false ∨ s.ctl.state.inShow = false then 0 else d.pump.chan[p].dC
  fault : ∀ p : Fin 4, faultsAt c s fb p = true → d.pump.chan[p].faulted = true ∧ d.events.pending.getLsbD 2 = true ∧
    d.pump.chan[p].cause = if s.pump.chan[p].phase = .confirmed then .lost else .noConfirm
  sound : ∀ p : Fin 4, faultsAt c s fb p = false → d.pump.chan[p].stage = s.pump.chan[p].stage ∧
    d.pump.chan[p].dOut = s.pump.chan[p].dOut ∧ d.pump.chan[p].faulted = s.pump.chan[p].faulted ∧
    d.pump.chan[p].cause = s.pump.chan[p].cause
  capped : ∀ p : Fin 4, d.pump.chan[p].dC ≤ d.pump.chan[p].dT
  granted : ∀ f : Fin 4 → Nat, (∀ p, f p = 0 ∨ drivable c s fb p = true ∧ d.pump.chan[p].stage ≠ .off ∧
    f p ≤ power c.pump[p].rated d.pump.chan[p].dC) → sumOver f ≤ d.pump.grant
  list : d.pump.startList = s.pump.startList
  ask : d.pump.ask = s.pump.ask
  busy : d.pump.busyUntil = s.pump.busyUntil
  changes : onlyChanges [.wind, .pump, .events] s d

theorem drivesLeave_driven {s : State} (inv : PumpInv s) (c : ConfigRecord) (fb : BitVec 4) :
    DrivesLeave c fb s (driven c fb s) where
  once := driven_once inv c fb
  listed := driven_listed inv c fb
  asks := driven_asks inv c fb
  runs := driven_on_iff c fb s
  pre := preStart_driven fb
  fault _ h := ⟨(driven_of_fault h).2.1, driven_events h, (driven_of_fault h).2.2⟩
  sound _ h := driven_of_no_fault h
  capped := driven_dC_le c fb s
  granted _ h := driven_power_le h
  list := (driven_slot c fb s).1
  ask := (driven_slot c fb s).2.1
  busy := (driven_slot c fb s).2.2
  changes := by simp [onlyChanges_iff, driven]

section
variable {c : ConfigRecord} {fb : BitVec 4} {s d : State} (h : DrivesLeave c fb s d) (n : SiteTime)
include h

/-- The pre-start command is 0, or the capped drive of a channel that computes one and is not below its least (R112). -/
theorem DrivesLeave.pre_cases (p : Fin 4) : preStart c d p = 0 ∨
    preStart c d p = d.pump.chan[p].dC ∧ c.pump[p].dMin ≤ d.pump.chan[p].dC ∧ drivable c s fb p = true := by
  rw [h.pre p]
  split
  · exact .inl rfl
  · next hn =>
    simp only [not_or, Nat.not_lt, Bool.not_eq_false] at hn
    exact .inr ⟨rfl, hn.1, hn.2.2.1⟩

theorem DrivesLeave.dCmd (p : Fin 4) : (afterPeriod c n d).pump.chan[p].dCmd =
    if s.pump.chan[p].runOutput = true ∧ faultsAt c s fb p = false then preStart c d p else 0 := by
  split
  · next hr => exact (afterPeriod_running h.once h.listed c n p ((h.runs p).mpr hr)).1
  · next hr => exact (afterPeriod_not_running h.once h.listed c n p (mt (h.runs p).mp hr)).1

/-- The command is 0 or a drive from the least to the one asked for (R112). -/
theorem DrivesLeave.dCmd_bounds (p : Fin 4) :
    ((afterPeriod c n d).pump.chan[p].dCmd = 0 ∨ c.pump[p].dMin ≤ (afterPeriod c n d).pump.chan[p].dCmd) ∧
    (afterPeriod c n d).pump.chan[p].dCmd ≤ (afterPeriod c n d).pump.chan[p].dT := by
  rw [h.dCmd n p, (afterPeriod_keeps h.once h.listed c n p).2.1]
  split
  · rcases h.pre_cases p with e | ⟨e, least, -⟩
    · exact ⟨.inl e, e ▸ Nat.zero_le _⟩
    · exact ⟨.inr (e ▸ least), e ▸ h.capped p⟩
  · exact ⟨.inl rfl, Nat.zero_le _⟩

/-- The commands' powers keep within the grant (R110). -/
theorem DrivesLeave.power_le :
    sumOver (fun p : Fin 4 => power c.pump[p].rated (afterPeriod c n d).pump.chan[p].dCmd) ≤ (afterPeriod c n d).pump.grant := by
  rw [(afterPeriod_slot h.once h.listed c n).2.2.2.1]
  refine h.granted _ fun p => ?_
  rw [h.dCmd n p]
  split
  · next hr =>
    rcases h.pre_cases p with e | ⟨e, -, drive⟩
    · exact .inl (by rw [e, power_zero])
    · refine .inr ⟨drive, ?_, by rw [e]⟩
      rw [(h.runs p).mpr hr]
      exact Stage.noConfusion
  · exact .inl (power_zero _)

/-- The start list: those that stay, then those that join it in increasing number (R116). -/
theorem DrivesLeave.startList : (afterPeriod c n d).pump.startList =
    s.pump.startList.filter (fun p => decide (preStart c d p ≠ 0)) ++
      (List.finRange 4).filter fun p => decide (s.pump.chan[p].stage = .off ∧ preStart c d p ≠ 0) := by
  rw [(afterPeriod_slot h.once h.listed c n).1, (stageCommands_parts h.once h.listed).2.1, h.list]
  congr 1
  refine List.filter_congr fun p _ => ?_
  cases hf : faultsAt c s fb p with
  | false => rw [(h.sound p hf).1]
  | true =>
    have zero : preStart c d p = 0 := (h.pre_cases p).resolve_right fun hd => by simp [drivable, hf] at hd
    simp [zero]

/-- The slot the ask stage sees is free just where it was before the period (R117). -/
theorem DrivesLeave.slotBusy_iff : slotBusy (stageCommands c d) = false ↔
    s.pump.ask = .none ∧ ∀ u, s.pump.busyUntil = some u → reached s.clock.site u = true := by
  have clock : (stageCommands c d).clock = s.clock := (by simp : _ = d.clock).trans (h.changes .clock (by decide))
  rw [Proofs.slotBusy_iff, clock, stageCommands_ask h.once h.listed h.asks, (stageCommands_parts h.once h.listed).2.2, h.ask, h.busy]
  refine and_congr_left' ?_
  cases s.pump.ask with
  | none => simp
  | queued o => cases o <;> simp
  | window e o => cases o <;> simp

theorem DrivesLeave.given_same : (stageCommands c d).line = s.line ∧ (stageCommands c d).clock = s.clock :=
  ⟨(by simp : _ = d.line).trans (h.changes .line (by decide)), (by simp : _ = d.clock).trans (h.changes .clock (by decide))⟩

/-- A channel of the start list has the stage the ask leaves it. -/
theorem DrivesLeave.listed_stage {p : Fin 4} (hp : p ∈ (afterPeriod c n d).pump.startList) :
    (afterPeriod c n d).pump.chan[p].stage = (stageAsk (stageCommands c d)).pump.chan[p].stage := by
  rw [(afterPeriod_slot h.once h.listed c n).1] at hp
  exact (afterPeriod_not_running h.once h.listed c n p (stageCommands_not_on h.once h.listed c hp)).2.2.1

section
variable {p : Fin 4} {rest : List (Fin 4)} (hl : (afterPeriod c n d).pump.startList = p :: rest)
  (free : s.pump.ask = .none ∧ ∀ u, s.pump.busyUntil = some u → reached s.clock.site u = true)
include hl free

/-- With the slot free the head of the start list waits for its ask. -/
theorem DrivesLeave.head_waits : (stageCommands c d).pump.startList = p :: rest ∧ slotBusy (stageCommands c d) = false ∧
    (stageCommands c d).pump.chan[p].stage = .waiting := by
  rw [(afterPeriod_slot h.once h.listed c n).1] at hl
  exact ⟨hl, h.slotBusy_iff.mpr free, stageCommands_waiting h.once h.listed c h.asks (h.ask.trans free.1) (by simp [hl])⟩

/-- The head is asked for with a frame (R118). -/
theorem DrivesLeave.asks_with_frame (hx : s.clock.clash = false) (hq : s.line.queue.length < 8) :
    (afterPeriod c n d).pump.ask = .queued (some p) ∧ (afterPeriod c n d).pump.chan[p].stage = .asking ∧
    (afterPeriod c n d).pump.busyUntil = s.pump.busyUntil ∧
    (afterPeriod c n d).line = { s.line with
      queue := s.line.queue.takeWhile (fun f => decide (frameClass f.payload ≤ 3)) ++
        freshFrame (.startAsk (BitVec.ofNat 8 p)) :: s.line.queue.dropWhile (fun f => decide (frameClass f.payload ≤ 3)) } := by
  obtain ⟨list, slot, waits⟩ := h.head_waits n hl free
  obtain ⟨line, clock⟩ := h.given_same
  obtain ⟨-, ask, busy, -, line'⟩ := afterPeriod_slot h.once h.listed c n
  obtain ⟨asked, stage, kept, queued⟩ := stageAsk_room list slot waits (by rw [clock, hx]) (by rwa [line])
  refine ⟨ask.trans asked, (h.listed_stage n (by simp [hl])).trans stage, ?_, ?_⟩
  · rw [busy, kept, (stageCommands_parts h.once h.listed).2.2, h.busy]
  · rw [line', queued, line]

/-- While CLASH is set the head's hold window opens at once (R121). -/
theorem DrivesLeave.asks_at_once (hx : s.clock.clash = true) :
    (afterPeriod c n d).pump.ask = .window (s.clock.site + 100000) (some p) ∧
    (afterPeriod c n d).pump.chan[p].stage = .asked ∧ (afterPeriod c n d).line = s.line := by
  obtain ⟨list, slot, waits⟩ := h.head_waits n hl free
  obtain ⟨line, clock⟩ := h.given_same
  obtain ⟨-, ask, -, -, line'⟩ := afterPeriod_slot h.once h.listed c n
  obtain ⟨asked, stage, unsent⟩ := stageAsk_clash list slot waits (by rw [clock, hx])
  rw [clock] at asked
  exact ⟨ask.trans asked, (h.listed_stage n (by simp [hl])).trans stage, line'.trans (unsent.trans line)⟩

end

/-- With the slot free and nothing waiting nothing is asked (R118). -/
theorem DrivesLeave.asks_nothing (hl : (afterPeriod c n d).pump.startList = [])
    (free : s.pump.ask = .none ∧ ∀ u, s.pump.busyUntil = some u → reached s.clock.site u = true) :
    (afterPeriod c n d).pump.ask = .none ∧ (afterPeriod c n d).line = s.line := by
  obtain ⟨list, ask, -, -, line⟩ := afterPeriod_slot h.once h.listed c n
  rw [stageAsk_empty (list.symm.trans hl)] at ask line
  exact ⟨ask.trans ((Proofs.slotBusy_iff _).mp (h.slotBusy_iff.mpr free)).1, line.trans h.given_same.1⟩

/-- While the slot is busy nothing is asked, and a channel that leaves vacates the ask (R116, R117). -/
theorem DrivesLeave.slot_busy
    (busy : ¬ (s.pump.ask = .none ∧ ∀ u, s.pump.busyUntil = some u → reached s.clock.site u = true)) :
    (afterPeriod c n d).line = s.line ∧ (afterPeriod c n d).pump.busyUntil = s.pump.busyUntil ∧
    (afterPeriod c n d).pump.ask = (stageCommands c d).pump.ask := by
  obtain ⟨-, ask, busy', -, line⟩ := afterPeriod_slot h.once h.listed c n
  rw [stageAsk_busy (Bool.eq_true_of_not_eq_false (mt h.slotBusy_iff.mp busy))] at ask line busy'
  refine ⟨line.trans h.given_same.1, ?_, ask⟩
  rw [busy', (stageCommands_parts h.once h.listed).2.2, h.busy]

/-- Out of CODA the show is as it was, and a holding group closes when its pump stands (R94). -/
theorem DrivesLeave.out_of_coda (hs : s.ctl.state ≠ .coda) :
    onlyChanges [.pump, .wind, .line, .jets, .events] s (afterPeriod c n d) ∧
    ∀ g : Fin 4, (afterPeriod c n d).jets[g] = { s.jets[g] with mode := match s.jets[g].mode with
      | .holding held => if (afterPeriod c n d).pump.chan[g].dOut = 0 then .closed else .holding held
      | .closed => .closed
      | .following => .following } := by
  have ctl : (withNext n (periodEnd c d)).ctl = s.ctl :=
    (by simp [withNext, periodEnd] : _ = d.ctl).trans (h.changes .ctl (by decide))
  have after : afterPeriod c n d = withNext n (periodEnd c d) := codaTest_of_not_coda (by rwa [ctl])
  rw [after]
  refine ⟨onlyChanges_trans (q := [.pump, .line, .jets, .events]) h.changes
    (by simp [onlyChanges_iff, withNext, periodEnd]) (by decide), fun g => ?_⟩
  have jets : (stageSlew c (stageAsk (stageCommands c d))).jets = s.jets :=
    (by simp : _ = d.jets).trans (h.changes .jets (by decide))
  have closed := closeStopped_jet (stageSlew c (stageAsk (stageCommands c d))) g
  rw [jets] at closed
  exact closed

/-- In CODA the test for its end follows (R19). -/
theorem DrivesLeave.in_coda (hs : s.ctl.state = .coda) :
    let ends := (∃ u, s.ctl.codaDeadline = some u ∧ reached s.clock.site u = true) ∧
      ∀ p : Fin 4, (afterPeriod c n d).pump.chan[p].dOut = 0 ∧ (afterPeriod c n d).pump.chan[p].runOutput = false
    (ends → (afterPeriod c n d).ctl.state = .idle) ∧ (¬ ends → (afterPeriod c n d).ctl = s.ctl) := by
  intro ends
  have ctl : (withNext n (periodEnd c d)).ctl = s.ctl :=
    (by simp [withNext, periodEnd] : _ = d.ctl).trans (h.changes .ctl (by decide))
  have clock : (withNext n (periodEnd c d)).clock = s.clock :=
    (by simp [withNext, periodEnd] : _ = d.clock).trans (h.changes .clock (by decide))
  have complete : codaComplete (withNext n (periodEnd c d)) = true ↔ ends := by
    rw [codaComplete_iff, ctl, clock, and_iff_right hs]
    refine and_congr_right' (forall_congr' fun p => ?_)
    obtain ⟨height, chan⟩ := (codaTest_pump (withNext n (periodEnd c d))).1 p
    rw [afterPeriod, chan]
    exact Iff.rfl
  refine ⟨fun he => ?_, fun he => ?_⟩
  · have done : afterPeriod c n d = completeCoda (withNext n (periodEnd c d)) := if_pos (complete.mpr he)
    rw [done]
    simp [completeCoda]
  · have stands : afterPeriod c n d = withNext n (periodEnd c d) := if_neg (mt complete.mp he)
    rw [stands, ctl]

/-- The commands of the pump period channel by channel (R112 to R116, R122, R123). -/
theorem DrivesLeave.channel (p : Fin 4) :
    let q := (afterPeriod c n d).pump.chan[p]
    let was := s.pump.chan[p]
    let running := was.runOutput = true ∧ faultsAt c s fb p = false
    q.dCmd = (if running then preStart c d p else 0) ∧
    (q.dCmd = 0 ∨ c.pump[p].dMin ≤ q.dCmd) ∧ q.dCmd ≤ q.dT ∧
    (running → q.dOut =
      (if was.dOut < preStart c d p then min (preStart c d p) (was.dOut + c.pump[p].rampUp)
      else max (preStart c d p) (was.dOut - if s.ctl.state = .halted then c.pump[p].haltRamp else c.pump[p].rampDown))) ∧
    (¬ running → q.dOut = 0) ∧ q.ranAtPeriod = q.runOutput ∧
    (running → q.stage = (if preStart c d p = 0 ∧ q.dOut = 0 then .off else .on)) ∧
    (¬ running → preStart c d p = 0 → q.stage = .off) ∧
    (¬ running → preStart c d p ≠ 0 → q.stage.inList = true) ∧
    (faultsAt c s fb p = true → q.faulted = true ∧ (afterPeriod c n d).events.pending.getLsbD 2 = true ∧
      q.cause = if was.phase = .confirmed then .lost else .noConfirm) ∧
    (faultsAt c s fb p = false → q.faulted = was.faulted ∧ q.cause = was.cause) := by
  intro q was running
  have ctl : d.ctl = s.ctl := h.changes .ctl (by decide)
  have runs : d.pump.chan[p].stage = .on ↔ running := h.runs p
  have on (r : running) := afterPeriod_running h.once h.listed c n p (runs.mpr r)
  obtain ⟨-, -, faulted, cause⟩ := afterPeriod_keeps h.once h.listed c n p
  obtain ⟨least, most⟩ := h.dCmd_bounds n p
  have resting (r : ¬ running) : q.dOut = 0 ∧ q.ranAtPeriod = q.runOutput ∧ (preStart c d p = 0 → q.stage = .off) ∧
      (preStart c d p ≠ 0 → q.stage.inList = true) := by
    obtain ⟨-, dOut, -, ran, leaves, waits⟩ := afterPeriod_not_running h.once h.listed c n p (mt runs.mp r)
    exact ⟨dOut, ran, leaves, waits⟩
  refine ⟨h.dCmd n p, least, most, fun r => ?_, fun r => (resting r).1, ?_, fun r => ?_,
    fun r => (resting r).2.2.1, fun r => (resting r).2.2.2, fun hf => ?_, fun hf => ?_⟩
  · obtain ⟨-, dOut, -, -⟩ := on r
    rw [(h.sound p r.2).2.1, ctl] at dOut
    exact dOut
  · by_cases r : running
    · exact (on r).2.2.2
    · exact (resting r).2.1
  · exact (on r).2.2.1
  · obtain ⟨marked, pending, why⟩ := h.fault p hf
    exact ⟨faulted.trans marked, afterPeriod_pending h.once h.listed c n _ pending, cause.trans why⟩
  · obtain ⟨-, -, marked, why⟩ := h.sound p hf
    exact ⟨faulted.trans marked, cause.trans why⟩

/-- The pre-start command read after the period (R112). -/
theorem DrivesLeave.command (p : Fin 4) : preStart c d p = if (afterPeriod c n d).pump.chan[p].dC < c.pump[p].dMin ∨
    dryCovers s p = true ∨ drivable c s fb p = false ∨ s.ctl.state.inShow = false then 0
    else (afterPeriod c n d).pump.chan[p].dC := by
  rw [(afterPeriod_keeps h.once h.listed c n p).1]
  exact h.pre p

end

/-- Settles O48: the drives leave the state the commands of the period start from, and the rest of the period is read off it. -/
theorem pumpPeriodCommands : Obligations.PumpPeriodCommands := by
  intro s c fb hh hc inv due
  have h := drivesLeave_driven inv c fb
  refine ⟨_, exec_pumpPeriod fb hh hc due, ?_, h.out_of_coda _, h.in_coda _⟩
  generalize driven c fb s = d at h ⊢
  generalize multipleAfter s.clock.site 10000 = n
  simp only [← h.command n]
  refine ⟨h.channel n, h.power_le n, h.startList n, ?_, ?_, ?_, ?_⟩
  · exact fun free p rest hl hx hq => h.asks_with_frame n hl free hx hq
  · exact fun free p rest hl hx => h.asks_at_once n hl free hx
  · exact fun free hl => h.asks_nothing n hl free
  · intro busy
    obtain ⟨line, busyUntil, ask⟩ := h.slot_busy n busy
    have vacated := stageCommands_ask (c := c) h.once h.listed h.asks
    rw [h.ask] at vacated
    exact ⟨line, busyUntil, ask.trans vacated⟩

end Sys2Proof.Proofs
end

