-- ==== Sys2Proof/Proofs/SiteClock.lean ====
section
/-! SUPPORT. The beacon time of a round, and what a step of site time leaves in the clock and in the parts it reaches. -/

namespace Sys2Proof.Proofs

open Sys2Proof Sys2Proof.Machine Sys2Proof.Safety

/-! ### The beacon of a round, and a step of site time (R26, R34, R127) -/

/-- The beacon time of a round in a configured node (R28). -/
theorem beaconTime_of_config {s : State} {c : ConfigRecord} (hc : s.config = some c) (start : SiteTime) :
    beaconTime c s start = start + BitVec.ofNat 48 (c.own.val * (1000 * c.interval) / 32) := by
  simp only [beaconTime, intervalUs, hc, plus_natCast]

/-- The clock after a step of site time by the mean of a round (R34). -/
theorem stepClock_clock {s : State} {c : ConfigRecord} (hc : s.config = some c) (mean : Int) : (stepClock c mean s).clock =
    let site := plus s.clock.site mean
    let start := multipleBelow site (1000 * c.interval)
    let beacon := start + BitVec.ofNat 48 (c.own.val * (1000 * c.interval) / 32)
    { s.clock with
      site := site, sinceStep := 0, roundStart := some start, offsets := Vector.replicate 32 none
      beaconDue := if reached site beacon then none else some beacon, correction := 0, made := 0, roundLocal := 0 } := by
  dsimp only [stepClock]
  rw [enterRound_clock (by simpa using hc)]
  simp only [plus_natCast]
  rfl

/-- A step of site time abandons the wind window, and a backward one begins the periods of 10 ms anew (R26, R127). -/
theorem stepClock_periods (c : ConfigRecord) (mean : Int) (s : State) :
    (stepClock c mean s).wind = { s.wind with
      window := none, count := 0, next := multipleAfter (plus s.clock.site mean) 1000000 } ∧
    (stepClock c mean s).pump = { s.pump with
      next := if mean < 0 then multipleAfter (plus s.clock.site mean) 10000 else s.pump.next } ∧
    (stepClock c mean s).lamps = { s.lamps with
      next := if mean < 0 then multipleAfter (plus s.clock.site mean) 10000 else s.lamps.next } ∧
    (stepClock c mean s).audio = { s.audio with
      nextGain := if mean < 0 then multipleAfter (plus s.clock.site mean) 10000 else s.audio.nextGain } := by
  simp [stepClock, abandonWindow]

end Sys2Proof.Proofs
end

