-- ==== Sys2Proof/Proofs/Stores.lean ====
section
/-! SUPPORT. The stores of bounded size as one record, and what the shared operations do to each of them. -/

namespace Sys2Proof.Proofs

open Sys2Proof Sys2Proof.Machine Sys2Proof.Safety

/-! ### The stores, and when two states hold the same -/

/-- What the invariant of the stores reads: the two queues, the lock counts, the window history, the wind factors and the two
memories. -/
structure Stores where
  frames  : List TxFrame
  actions : List Action
  within  : Nat
  outside : Nat
  history : List Nat
  applied : Nat
  factor  : Nat
  mem     : Memory
  ring    : Memory

/-- The stores a state holds. -/
def stores (s : State) : Stores where
  frames := s.line.queue
  actions := s.cue.queue
  within := s.clock.within
  outside := s.clock.outside
  history := s.wind.history
  applied := s.wind.applied
  factor := s.wind.factor
  mem := s.score.mem
  ring := s.audio.ring

/-- The transmit queue: at most 8 frames, in class order (R45). -/
def FramesKept (q : List TxFrame) : Prop :=
  q.length ≤ 8 ∧ q.Pairwise fun f g => frameClass f.payload ≤ frameClass g.payload

/-- The action queue: at most 64 actions, in due-time order (R74). -/
def ActionsKept (q : List Action) : Prop := q.length ≤ 64 ∧ q.Pairwise fun a b => a.due ≤ b.due

/-- Every store within its bounds and in its order. -/
structure StoresKept (x : Stores) : Prop where
  frames  : FramesKept x.frames
  actions : ActionsKept x.actions
  counts  : x.within ≤ 4 ∧ x.outside ≤ 2
  wind    : x.history.length ≤ 8 ∧ x.applied ≤ x.factor
  mem     : x.mem.wf = true
  ring    : x.ring.wf = true

/-- The invariant is about the stores alone. -/
theorem storeInv_iff (s : State) : StoreInv s ↔ StoresKept (stores s) :=
  ⟨fun ⟨frames, classes, actions, dues, within, outside, history, applied, mem, ring⟩ =>
      ⟨⟨frames, classes⟩, ⟨actions, dues⟩, ⟨within, outside⟩, ⟨history, applied⟩, mem, ring⟩,
    fun ⟨⟨frames, classes⟩, ⟨actions, dues⟩, ⟨within, outside⟩, ⟨history, applied⟩, mem, ring⟩ =>
      ⟨frames, classes, actions, dues, within, outside, history, applied, mem, ring⟩⟩

section
variable {s t : State} (h : StoreInv s)
include h

/-- Work that writes none of the stores keeps them. -/
theorem storeInv_congr (same : stores t = stores s) : StoreInv t := by
  rw [storeInv_iff, same]
  exact (storeInv_iff s).mp h

/-- Work that writes the transmit queue alone of the stores; the lemmas after it are about one other store each. -/
theorem storeInv_of_frames (kept : FramesKept t.line.queue) (same : stores t = { stores s with frames := t.line.queue }) :
    StoreInv t := by
  rw [storeInv_iff, same]
  exact { (storeInv_iff s).mp h with frames := kept }

theorem storeInv_of_actions (kept : ActionsKept t.cue.queue) (same : stores t = { stores s with actions := t.cue.queue }) :
    StoreInv t := by
  rw [storeInv_iff, same]
  exact { (storeInv_iff s).mp h with actions := kept }

theorem storeInv_of_counts (kept : t.clock.within ≤ 4 ∧ t.clock.outside ≤ 2)
    (same : stores t = { stores s with within := t.clock.within, outside := t.clock.outside }) : StoreInv t := by
  rw [storeInv_iff, same]
  exact { (storeInv_iff s).mp h with counts := kept }

theorem storeInv_of_wind (kept : t.wind.history.length ≤ 8 ∧ t.wind.applied ≤ t.wind.factor)
    (same : stores t = { stores s with history := t.wind.history, applied := t.wind.applied, factor := t.wind.factor }) :
    StoreInv t := by
  rw [storeInv_iff, same]
  exact { (storeInv_iff s).mp h with wind := kept }

theorem storeInv_of_mem (kept : t.score.mem.wf = true) (same : stores t = { stores s with mem := t.score.mem }) :
    StoreInv t := by
  rw [storeInv_iff, same]
  exact { (storeInv_iff s).mp h with mem := kept }

theorem storeInv_of_ring (kept : t.audio.ring.wf = true) (same : stores t = { stores s with ring := t.audio.ring }) :
    StoreInv t := by
  rw [storeInv_iff, same]
  exact { (storeInv_iff s).mp h with ring := kept }

end

/-! ### The transmit queue (R45 to R47) -/

theorem framesKept_sublist {q r : List TxFrame} (h : FramesKept q) (hr : r.Sublist q) : FramesKept r :=
  ⟨hr.length_le.trans h.1, h.2.sublist hr⟩

/-- Frames rewritten in place keep the order where each keeps its class. -/
theorem framesKept_map {q : List TxFrame} (f : TxFrame → TxFrame) (hf : ∀ g, frameClass (f g).payload = frameClass g.payload)
    (h : FramesKept q) : FramesKept (q.map f) := by
  refine ⟨by simpa using h.1, List.pairwise_map.mpr ?_⟩
  simpa only [hf] using h.2

/-- A frame that joins at the end of its class keeps the class order (R45). -/
theorem insertFrame_sorted (q : List TxFrame) (f : TxFrame)
    (h : q.Pairwise fun x y => frameClass x.payload ≤ frameClass y.payload) :
    (insertFrame q f).Pairwise fun x y => frameClass x.payload ≤ frameClass y.payload := by
  induction q with
  | nil => simp [insertFrame]
  | cons x rest ih =>
    obtain ⟨hx, hrest⟩ := List.pairwise_cons.mp h
    by_cases before : frameClass x.payload ≤ frameClass f.payload
    · have later : insertFrame (x :: rest) f = x :: insertFrame rest f := by simp [insertFrame, before]
      have members : ∀ y ∈ insertFrame rest f, y ∈ rest ∨ y = f := by
        intro y hy
        simp only [insertFrame, List.mem_append, List.mem_cons] at hy
        rcases hy with hy | hy | hy
        · exact .inl (List.takeWhile_subset _ hy)
        · exact .inr hy
        · exact .inl (List.dropWhile_subset _ hy)
      rw [later, List.pairwise_cons]
      refine ⟨fun y hy => ?_, ih hrest⟩
      rcases members y hy with hy | rfl
      · exact hx y hy
      · exact before
    · have first : insertFrame (x :: rest) f = f :: x :: rest := by simp [insertFrame, before]
      rw [first, List.pairwise_cons]
      refine ⟨fun y hy => ?_, h⟩
      rcases List.mem_cons.mp hy with rfl | hy
      · omega
      · exact (Nat.le_of_not_le before).trans (hx y hy)

theorem eraseLastUnsent_sublist (q : List TxFrame) : (eraseLastUnsent q).Sublist q := by
  have erased := List.eraseP_sublist (p := fun f : TxFrame => !f.onLine) (l := q.reverse)
  simpa [eraseLastUnsent] using erased.reverse

/-- A frame replaced by a newer one of its kind keeps its class (R46). -/
theorem frameClass_of_isReplaced {p : Payload} {f : TxFrame} (h : isReplaced p f = true) : frameClass f.payload = frameClass p := by
  cases p <;> cases hf : f.payload <;> simp_all [isReplaced, replaceable, payloadKind, frameClass]

theorem enqueue_framesKept (p : Payload) (s : State) (h : FramesKept s.line.queue) : FramesKept (enqueue p s).line.queue := by
  refine ⟨enqueue_length_le p s h.1, ?_⟩
  simp only [enqueue]
  split
  · refine (framesKept_map (fun f => if isReplaced p f then freshFrame p else f) (fun g => ?_) h).2
    split
    case isTrue hg => exact (frameClass_of_isReplaced hg).symm
    case isFalse => rfl
  · split
    · exact insertFrame_sorted _ _ h.2
    · split
      · rw [dropFrame_queue]
        exact insertFrame_sorted _ _ (h.2.sublist (eraseLastUnsent_sublist _))
      · rw [dropFrame_queue]
        exact h.2

@[simp] theorem frameClass_stamped (t : SiteTime) (p : Payload) : frameClass (stamped t p) = frameClass p := by
  cases p <;> rfl

section
variable {s : State} (h : StoreInv s)
include h

theorem framesKept_of_storeInv : FramesKept s.line.queue := ⟨h.frames, h.classOrder⟩

/-- A queue left with some of its frames is in order still. -/
theorem storeInv_setQueue {q : List TxFrame} (hq : q.Sublist s.line.queue) : StoreInv (setQueue q s) :=
  storeInv_of_frames h (framesKept_sublist (framesKept_of_storeInv h) hq) (by simp [stores])

theorem storeInv_enqueue (p : Payload) : StoreInv (enqueue p s) :=
  storeInv_of_frames h (enqueue_framesKept p s (framesKept_of_storeInv h)) (by simp [stores])

theorem storeInv_requestFrame (p : Payload) : StoreInv (requestFrame p s) := by
  unfold requestFrame
  split
  · exact h
  · exact storeInv_enqueue h p

theorem storeInv_requestAsk (p : Fin 4) : StoreInv (requestAsk p s) := by
  unfold requestAsk
  split
  · exact storeInv_congr h (by simp [stores])
  · exact storeInv_enqueue h _

theorem storeInv_withdrawShowFrames : StoreInv (withdrawShowFrames s) := storeInv_setQueue h List.filter_sublist

theorem storeInv_withdrawAsk : StoreInv (withdrawAsk s) := by
  unfold withdrawAsk
  split
  · exact storeInv_congr (storeInv_setQueue h (q := s.line.queue.filter fun f => !isUnsentAsk f) List.filter_sublist)
      (by simp [stores])
  · exact h

theorem storeInv_dropFrame (p : Payload) : StoreInv (dropFrame p s) :=
  storeInv_congr h (by simp [stores, dropFrame_queue])

theorem storeInv_startAttempt : StoreInv (startAttempt s) := by
  refine storeInv_of_frames h ?_ (by simp [stores])
  have kept := framesKept_of_storeInv h
  unfold startAttempt
  split
  case h_1 => exact kept
  case h_2 f rest hq =>
    rw [hq] at kept
    obtain ⟨length, order⟩ := kept
    exact ⟨length, by simpa [List.pairwise_cons] using order⟩

theorem storeInv_completeAttempt (c : ConfigRecord) (f : TxFrame) : StoreInv (completeAttempt c f s) := by
  refine storeInv_of_frames h ?_ (by simp [stores])
  have left : (completeAttempt c f s).line.queue = s.line.queue.filter fun g => !g.onLine := by simp [completeAttempt]
  rw [left]
  exact framesKept_sublist (framesKept_of_storeInv h) List.filter_sublist

/-- The frame of a failed attempt leaves the queue, or waits in its place (R46, R50). -/
theorem storeInv_failAttempt (f : TxFrame) : StoreInv (failAttempt f s) := by
  have counted : StoreInv { s with line := { s.line with collisions := stopAt 255 (s.line.collisions + 1) } } :=
    storeInv_congr h rfl
  simp only [failAttempt]
  split
  · exact storeInv_setQueue counted List.filter_sublist
  · split
    · refine storeInv_of_frames h (framesKept_map _ (fun g => ?_) (framesKept_of_storeInv h)) rfl
      split <;> rfl
    · exact storeInv_dropFrame (storeInv_setQueue counted List.filter_sublist) _

/-- At the moment CLASH is set the transmit queue is emptied (R41). -/
theorem storeInv_hearClash : StoreInv (hearClash s) := by
  unfold hearClash
  split
  · exact storeInv_congr h (by simp [stores])
  · have set : StoreInv (raise .clash (setClock { s.clock with clash := true } s)) := storeInv_congr h rfl
    exact storeInv_congr (storeInv_setQueue set (List.nil_sublist _)) (by simp [stores])

end

/-! ### The action queue (R73, R74, R82) -/

theorem actionsKept_nil : ActionsKept [] := ⟨Nat.zero_le 64, .nil⟩

theorem actionsKept_insert {q as : List Action} (h : ActionsKept q) (room : q.length + as.length ≤ 64) :
    ActionsKept (insertActions q as) :=
  ⟨by rwa [insertActions_length], insertActions_sorted as q h.2⟩

section
variable {s t : State} (h : StoreInv s)
include h

/-- The action queue replaced, and with it what the cue engine holds beside it. -/
theorem storeInv_setCue (k : CueEngine) (kept : ActionsKept k.queue) : StoreInv { s with cue := k } :=
  storeInv_of_actions h kept rfl

theorem actionsKept_of_storeInv : ActionsKept s.cue.queue := ⟨h.actions, h.dueOrder⟩

/-- CUE STOP and CUE REWIND leave no action (R71, R79). -/
theorem storeInv_emptied (empty : t.cue.queue = []) (same : stores t = { stores s with actions := [] }) : StoreInv t :=
  storeInv_of_actions h (by rw [empty]; exact actionsKept_nil) (by rw [empty, same])

theorem storeInv_takeCue (room : cueRoom s = true) : StoreInv (takeCue s) :=
  storeInv_setCue h _ (actionsKept_insert (actionsKept_of_storeInv h) (of_decide_eq_true room))

theorem storeInv_waitForRoom : StoreInv (waitForRoom s) := by
  unfold waitForRoom
  split
  · exact storeInv_congr h rfl
  · exact h

theorem storeInv_retryHeldCue : StoreInv (retryHeldCue s) := by
  unfold retryHeldCue
  split
  case isTrue hd =>
    simp only [Bool.and_eq_true] at hd
    exact storeInv_waitForRoom (storeInv_takeCue h hd.2)
  case isFalse => exact h

/-- A counted mark changes no due time (R76). -/
theorem storeInv_countLate (a : Action) : StoreInv (countLate a s) := by
  unfold countLate
  split
  · refine storeInv_of_actions h ⟨?_, List.pairwise_map.mpr ?_⟩ rfl
    · simpa using h.actions
    · refine h.dueOrder.imp fun {x y} hxy => ?_
      split <;> split <;> exact hxy
  · exact h

/-! ### The transitions of the show controller -/

theorem storeInv_raise (src : Source) : StoreInv (raise src s) := storeInv_congr h rfl

theorem storeInv_evaluateLamps : StoreInv (evaluateLamps s) := storeInv_congr h (by simp [stores])

theorem storeInv_enterCountdown (g : GoRecord) : StoreInv (enterCountdown g s) :=
  storeInv_congr h (by simp [stores, enterCountdown_parts])

theorem storeInv_enterRunning : StoreInv (enterRunning s) := storeInv_congr h (by simp [stores])

theorem storeInv_enterCoda (cause : CodaCause) : StoreInv (enterCoda cause s) :=
  storeInv_emptied h (by simp [enterCoda]) (by simp [stores, enterCoda, audioFadeOut])

theorem storeInv_fireEnd : StoreInv (fireEnd s) := by
  unfold fireEnd
  split
  case h_1 => exact storeInv_enterCoda h _
  case h_2 => exact storeInv_enterCoda (storeInv_enterRunning h) _
  all_goals exact h

/-- The ring of an audio unit that is cleared holds no frame (R159). -/
theorem storeInv_enterIdle : StoreInv (enterIdle s) := by
  obtain ⟨-, -, audio, -⟩ := enterIdle_parts s
  have cleared : (enterIdle s).audio.ring = [] := by simp [audio, audioClear]
  exact storeInv_of_ring h (by rw [cleared]; rfl) (by simp [stores])

theorem storeInv_completeCoda : StoreInv (completeCoda s) := by
  have written : StoreInv (writeResult (codaResult s) (goShowId s) (showNow s) s) := storeInv_congr h rfl
  exact storeInv_raise (storeInv_enterIdle written) _

theorem storeInv_codaTest : StoreInv (codaTest s) := by
  unfold codaTest
  split
  · exact storeInv_completeCoda h
  · exact h

theorem storeInv_stopCountdown : StoreInv (stopCountdown s) :=
  storeInv_emptied h (by simp [stopCountdown_parts]) (by simp [stores, stopCountdown_parts])

/-- HALT entry on a request from outside: the action queue alone is emptied (R21). -/
theorem storeInv_enterHalted_peer : StoreInv (enterHalted false s) :=
  storeInv_emptied h (by simp [enterHalted]) (by simp [stores, enterHalted, audioFadeOut])

theorem storeInv_enterHalted (own : Bool) : StoreInv (enterHalted own s) := by
  rw [enterHalted_eq]
  split
  · exact storeInv_enterHalted_peer (storeInv_requestFrame (storeInv_withdrawShowFrames h) _)
  · exact storeInv_enterHalted_peer h

theorem storeInv_peerHalt : StoreInv (peerHalt s) := by
  unfold peerHalt
  split
  case h_1 | h_2 => exact h
  all_goals exact storeInv_enterHalted h _

theorem storeInv_ownHalt : StoreInv (ownHalt s) := by
  unfold ownHalt
  split
  case h_1 => exact h
  case h_2 => exact storeInv_raise (storeInv_requestFrame h _) _
  all_goals exact storeInv_enterHalted h _

theorem storeInv_enterArmed : StoreInv (enterArmed s) :=
  storeInv_emptied h (by simp [enterArmed_parts]) (by simp [stores, enterArmed_parts])

theorem storeInv_disarmed : StoreInv (disarmed s) :=
  storeInv_emptied h (by simp [disarmed_parts]) (by simp [stores, disarmed_parts])

theorem storeInv_released : StoreInv (released s) :=
  storeInv_emptied (storeInv_enterIdle h) (by simp [released]) (by simp [stores, released])

/-! ### Actions, and a late join by a seek -/

theorem storeInv_deliver (o : Origin) (due : Int) (act : Act) : StoreInv (deliver o due act s) := by
  unfold deliver
  split
  case h_5 gain len =>
    refine storeInv_congr h ?_
    unfold audioLevel
    split <;> rfl
  case h_6 => exact storeInv_congr h rfl
  case h_7 => exact storeInv_fireEnd h
  all_goals exact storeInv_congr h (by simp [stores])

theorem storeInv_fireHead : StoreInv (fireHead s) := by
  unfold fireHead
  split
  case h_1 => exact h
  case h_2 a rest hq =>
    have kept := actionsKept_of_storeInv h
    rw [hq] at kept
    have left : ActionsKept rest := ⟨Nat.le_of_succ_le kept.1, (List.pairwise_cons.mp kept.2).2⟩
    exact storeInv_retryHeldCue (storeInv_deliver (storeInv_countLate (storeInv_setCue h _ left) a) _ _ _)

theorem storeInv_handOver (as : List Action) : StoreInv (handOver as s) := by
  unfold handOver
  induction as generalizing s with
  | nil => exact h
  | cons a as ih => exact ih (storeInv_deliver h _ _ _)

/-- A seek queues the last 64 of the LEVELs still ahead (R82). -/
theorem storeInv_seekHanded (c : ConfigRecord) : StoreInv (seekHanded c s) := by
  have cleared : StoreInv (seekCleared s) := storeInv_congr h rfl
  have last : ActionsKept (insertActions [] ((seekLevels c s).drop ((seekLevels c s).length - 64))) := by
    refine actionsKept_insert actionsKept_nil ?_
    simp only [List.length_nil, List.length_drop]
    omega
  exact storeInv_setCue (storeInv_handOver cleared _) _ last

theorem storeInv_cueSeek (c : ConfigRecord) : StoreInv (cueSeek c s) := by
  have handed := storeInv_seekHanded h c
  rw [cueSeek_eq]
  split
  · exact storeInv_fireEnd (storeInv_setCue handed _ (actionsKept_of_storeInv handed))
  · exact storeInv_setCue handed _ (actionsKept_of_storeInv handed)

theorem storeInv_lateJoin (c : ConfigRecord) (g : GoRecord) : StoreInv (lateJoin c g s) := by
  unfold lateJoin
  split
  · exact storeInv_evaluateLamps (storeInv_cueSeek (storeInv_congr h (by simp [stores])) c)
  · exact storeInv_raise (storeInv_enterCountdown h g) _

end

/-! ### Site clock and wind (R38, R127 to R133) -/

section
variable {s : State} (h : StoreInv s)
include h

/-- The counts of a round stop at 4 and 2 (R38). -/
theorem storeInv_classifyRound (c : ConfigRecord) (mean : Int) : StoreInv (classifyRound c mean s) := by
  unfold classifyRound
  split
  case h_1 => exact h
  case h_2 cls _ =>
    obtain ⟨w, o⟩ := cls
    refine storeInv_of_counts h ?_ (by simp [stores])
    cases w <;> cases o <;> simp [countRound, stopAt]

theorem storeInv_endRound {c : ConfigRecord} (hc : s.config = some c) (start : SiteTime) : StoreInv (endRound c start s) := by
  have kept : StoreInv (removeOutliers c s) := storeInv_congr h rfl
  have classed := storeInv_classifyRound kept c (roundMean (removeOutliers c s))
  have config : (classifyRound c (roundMean (removeOutliers c s)) (removeOutliers c s)).config = some c := by simpa using hc
  simp only [endRound]
  split
  · exact storeInv_congr classed (by simp [stores, stepClock_clock config, stepClock_periods])
  · exact storeInv_congr classed rfl

theorem storeInv_elapse (us : Nat) : StoreInv (elapse us s) := storeInv_congr h rfl

/-- The applied factor falls with the factor (R133). -/
theorem storeInv_recomputeWind : StoreInv (recomputeWind s) := by
  unfold recomputeWind
  split
  · exact h
  · exact storeInv_of_wind h ⟨h.history, Nat.min_le_right _ _⟩ rfl

theorem storeInv_riseWind (c : ConfigRecord) : StoreInv (riseWind c s) :=
  storeInv_of_wind h ⟨h.history, Nat.min_le_left _ _⟩ rfl

theorem storeInv_closeWindow (c : ConfigRecord) : StoreInv (closeWindow c s) := by
  have opened {t : State} (ht : StoreInv t) : StoreInv (openWindow t) := storeInv_congr ht rfl
  unfold closeWindow
  split
  · have entered : StoreInv { s with wind := { s.wind with
        history := pushWindow s.wind.history (windowSpeed c.windScale s.wind.count)
        node := nodeWindOf c.depth (pushWindow s.wind.history (windowSpeed c.windScale s.wind.count)) } } :=
      storeInv_of_wind h ⟨pushWindow_length_le _ _ h.history, h.applied⟩ rfl
    exact opened (storeInv_recomputeWind entered)
  · exact opened h

theorem storeInv_recordBeacon (i : Fin 32) (b : Beacon) (seq : Byte) (arrival : SiteTime) :
    StoreInv (recordBeacon i b seq arrival s) :=
  storeInv_recomputeWind (storeInv_congr h (by simp [stores]))

/-! ### The pump period, and the sample ring (R103, R154) -/

theorem storeInv_stageAsk : StoreInv (stageAsk s) := by
  unfold stageAsk
  split
  case h_1 => exact h
  case h_2 p _ _ =>
    have asking : StoreInv (setAsk (.queued (some p)) (setStage p .asking s)) := storeInv_congr h rfl
    split
    · exact storeInv_requestAsk asking p
    · exact h

theorem storeInv_pumpStages (c : ConfigRecord) (fb : BitVec 4) : StoreInv (pumpStages c fb s) := by
  have commanded : StoreInv (stageCommands c (stageCaps c (stageGrant c (stageHeights c (stageFeedback c fb (riseWind c s)))))) :=
    storeInv_congr (storeInv_riseWind h c) (by simp [stores])
  exact storeInv_congr (storeInv_stageAsk commanded) (by simp [pumpStages, stores])

theorem storeInv_enterBlock (r : Reception) (bytes : List Byte) : StoreInv (enterBlock r bytes s) := by
  refine storeInv_of_ring h ?_ (by simp [stores])
  simp only [enterBlock]
  split
  · exact h.ringForm
  · simpa [refillTest] using ringWrite_wf _ _ _ _ h.ringForm

end

/-- A frame instant reads the ring and writes nothing there (R161). -/
theorem frameInstant_ring (c : ConfigRecord) (tau : Int) (s : State) : (frameInstant c tau s).audio.ring = s.audio.ring := by
  have silent (u : State) : (playSilence u).audio.ring = u.audio.ring := by
    unfold playSilence
    split <;> rfl
  have served (n : Nat) (u : State) : (serveOrSilence n u).audio.ring = u.audio.ring := by
    unfold serveOrSilence emptyInstant
    split
    · simp [silent]
    · split
      · rfl
      · exact silent u
  unfold frameInstant takeInstant
  dsimp only
  split_ifs <;> simp [endFrames, served, dropLate, refillTest]

end Sys2Proof.Proofs
end

