-- ==== Sys2Proof/Proofs/StoreInvariant.lean ====
section
/-! The invariant of the bounded stores (R24, R45, R61, R74, R126, R133, R154) is kept by every step. -/

namespace Sys2Proof.Proofs

open Sys2Proof Sys2Proof.Machine Sys2Proof.Safety

/-! ### Frames from peers -/

section
variable {s : State} (h : StoreInv s)
include h

theorem storeInv_takeGo (c : ConfigRecord) (g : GoRecord) : StoreInv (takeGo c g s) := by
  have missed : StoreInv (missStart g s) := storeInv_congr h rfl
  simp only [takeGo]
  split_ifs
  · exact missed
  · exact missed
  · exact storeInv_raise (storeInv_enterCountdown h g) _
  · exact storeInv_lateJoin h c g
  · exact missed

theorem storeInv_advanceGo (g : GoRecord) : StoreInv (advanceGo g s) := by
  have moved : StoreInv (refreshAll (setCtl { s.ctl with go := some g } s)) := storeInv_congr h (by simp [stores])
  unfold advanceGo
  split
  · exact h
  · dsimp only
    split_ifs
    · exact storeInv_enterRunning (storeInv_waitForRoom moved)
    · exact storeInv_waitForRoom moved
    · exact h

theorem storeInv_heardGo (g : GoRecord) : StoreInv (heardGo g s) := by
  unfold heardGo
  split
  · split
    · exact storeInv_takeGo h _ g
    · exact storeInv_raise h _
  · split
    · exact storeInv_advanceGo h g
    · exact storeInv_raise h _
  · exact h

theorem storeInv_heardStop (f : StopFrame) : StoreInv (heardStop f s) := by
  unfold heardStop
  split
  · split
    · exact storeInv_stopCountdown h
    · exact h
  · split_ifs
    · exact storeInv_enterCoda h _
    · exact storeInv_congr h (by simp [stores])
    · exact h
  · exact h

theorem storeInv_joinTest (c : ConfigRecord) (i : Fin 32) : StoreInv (joinTest c i s) := by
  unfold joinTest
  split
  · exact h
  · split
    · exact storeInv_lateJoin h c _
    · exact h

theorem storeInv_peerBeacon (c : ConfigRecord) (i : Fin 32) (seq : Byte) (b : Beacon) (arrival : SiteTime) :
    StoreInv (peerBeacon c i seq b arrival s) := by
  have taken : StoreInv (takeOffset c i b.stamp arrival (recordBeacon i b seq arrival s)) := by
    refine storeInv_congr (storeInv_recordBeacon h i b seq arrival) ?_
    unfold takeOffset
    split <;> rfl
  refine storeInv_joinTest ?_ c i
  split
  · exact storeInv_peerHalt taken
  · exact taken

/-- A received frame keeps the invariant where its hand-over does (R52). -/
theorem storeInv_receiveFrame (sender : Byte) (f : Fin 32 → State → State) (hf : ∀ i, StoreInv (f i (setRx .ready s))) :
    StoreInv (receiveFrame sender s f) := by
  unfold receiveFrame
  refine unlessHeld_of h ?_
  split
  · exact h
  · split
    · exact storeInv_congr h rfl
    · exact hf _

theorem storeInv_beaconReceived (sender seq : Byte) (b : Beacon) (arrival : SiteTime) :
    StoreInv (receiveFrame sender s fun i s => match s.config with
      | none => recordBeacon i b seq arrival s
      | some c => if i = c.own then hearClash s else peerBeacon c i seq b arrival s) := by
  have ready : StoreInv (setRx .ready s) := storeInv_congr h rfl
  refine storeInv_receiveFrame h sender _ fun i => ?_
  split
  · exact storeInv_recordBeacon ready i b seq arrival
  · split
    · exact storeInv_hearClash ready
    · exact storeInv_peerBeacon ready _ i seq b arrival

theorem storeInv_startAskReceived (sender pumpNo : Byte) (arrival : SiteTime) :
    StoreInv (receiveFrame sender s fun i s => match s.config with
      | none => withdrawAsk s
      | some c => askHeard c i pumpNo arrival (withdrawAsk s)) := by
  have ready : StoreInv (setRx .ready s) := storeInv_congr h rfl
  refine storeInv_receiveFrame h sender _ fun i => ?_
  split
  · exact storeInv_withdrawAsk ready
  · exact storeInv_congr (storeInv_withdrawAsk ready) (by simp [stores])

/-! ### Host commands -/

theorem storeInv_answer (reply : List Byte) : StoreInv (answer reply s) := storeInv_congr h rfl

theorem storeInv_settle (code : Byte) (r : Result) (ix : Option Nat) : StoreInv (settle code r ix s) := storeInv_congr h rfl

/-- A host command keeps the invariant where its body does (R186). -/
theorem storeInv_hostCommand (code : Byte) (body : State → State × Result × Option Nat) (hb : StoreInv (body s).1) :
    StoreInv (hostCommand code s body) := by
  unfold hostCommand
  refine unlessDeaf_of h ?_
  split
  · exact storeInv_settle h _ _ _
  · exact storeInv_settle hb _ _ _

theorem storeInv_incomplete (code : Byte) : StoreInv (incomplete code s) :=
  storeInv_congr (unlessDeaf_of h (storeInv_settle h code .incomplete none)) rfl

theorem storeInv_localStop : StoreInv (Machine.localStop s).1 := by
  have sent : StoreInv (sendStop s) := storeInv_requestFrame h _
  unfold Machine.localStop
  split
  case h_1 => exact storeInv_stopCountdown sent
  case h_2 =>
    split
    · exact h
    · exact storeInv_congr sent (by simp [stores])
  all_goals exact h

/-- CONFIGURE begins with both lock counts 0 and the applied wind factor at most the factor (R27, R133, R189). -/
theorem storeInv_acceptConfig (c : ConfigRecord) : StoreInv (acceptConfig c s) := by
  have stored : StoreInv (configurePeers c (storeConfig c s)) := storeInv_congr h (by simp [stores, storeConfig])
  have config : (configurePeers c (storeConfig c s)).config = some c := by simp [storeConfig]
  have entered : StoreInv (configureBlocks c (configurePeers c (storeConfig c s))) := by
    obtain ⟨frames, actions, -, ⟨history, -⟩, mem, ring⟩ := (storeInv_iff _).mp stored
    refine (storeInv_iff _).mpr ⟨?_, ?_, ?_, ?_, ?_, ?_⟩
    · simpa [stores] using frames
    · simpa [stores] using actions
    · simp [stores, configureBlocks_clock]
    · refine ⟨?_, ?_⟩
      · simpa only [stores, configureBlocks_wind config] using history
      · simp only [stores, configureBlocks_wind config]
        exact Nat.min_le_right _ _
    · simpa [stores] using mem
    · simpa [stores] using ring
  have idle : StoreInv (configured c s) := storeInv_evaluateLamps (storeInv_congr entered (by simp [stores]))
  rw [acceptConfig_eq]
  split
  · exact storeInv_enterHalted_peer idle
  · exact idle

theorem storeInv_configure (record : List Byte) : StoreInv (configure record s).1 := by
  unfold configure
  split
  · exact h
  · split
    · exact h
    · rw [accept_fst]
      exact storeInv_acceptConfig h _

theorem storeInv_setScore {sc : Score} (kept : sc.mem.wf = true) : StoreInv (setScore sc s) := storeInv_of_mem h kept rfl

theorem storeInv_scoreOpen (header : List Byte) : StoreInv (scoreOpen header s).1 := by
  unfold scoreOpen
  split_ifs
  · exact h
  · exact h
  · exact storeInv_setScore h h.scoreForm

theorem storeInv_scoreData (body : List Byte) : StoreInv (scoreData body s).1 := by
  unfold scoreData
  split
  · exact h
  split
  · exact h
  · have kept : (if byteAt body 0 = 1 then storeCues (byteAt body 1) (body.drop 2) s.score
        else storeRows (byteAt body 1) (body.drop 2) s.score).1.mem.wf = true := by
      split
      · exact storeCues_wf _ _ _ h.scoreForm
      · exact storeRows_wf _ _ _ h.scoreForm
    dsimp only
    split <;> exact storeInv_setScore h kept

theorem storeInv_scoreClose : StoreInv (scoreClose s).1 := by
  simp only [scoreClose]
  split_ifs
  · exact h
  · exact h
  · exact h
  · split
    · exact h
    · exact storeInv_setScore h h.scoreForm

theorem storeInv_audio {t : State} (start count : Nat) (ht : judgeAudio start count s = .inl t) : StoreInv t := by
  simp only [judgeAudio] at ht
  split_ifs at ht
  cases ht
  exact storeInv_congr h rfl

/-! ### Resets -/

omit h in
theorem storeInv_hardReset (cause : ResetCause) (s : State) : StoreInv (hardReset cause s) := storeInv_congr storeInv_reset rfl

/-- A soft reset keeps score memory (R61). -/
theorem storeInv_softReset : StoreInv (softReset s) :=
  storeInv_of_mem (storeInv_hardReset .soft s) h.scoreForm rfl

/-! ### Every command, and the clock's own work -/

theorem storeInv_withNext (n : SiteTime) : StoreInv (withNext n s) := storeInv_congr h rfl

theorem storeInv_stableChange (c : ConfigRecord) (i : Fin 8) : StoreInv (stableChange c i s) := by
  have changed : StoreInv (debounced c i s) := storeInv_congr h (by simp [debounced, stores])
  rw [stableChange_eq]
  split
  · exact storeInv_ownHalt changed
  · exact changed

end

/-- What holds of the state and of an occurrence's work holds after the occurrence, which acts only when it is due. -/
theorem whenDue_of {P : State → Prop} {s : State} (due : State → Bool) (f : State → State) (hs : P s) (hf : P (f s)) :
    P (unlessHeld s fun s => if due s then f s else s) := by
  refine unlessHeld_of hs ?_
  split <;> assumption

theorem storeInv_exec {s t : State} (i : Instr) (h : StoreInv s) (he : exec i s = .next t) : StoreInv t := by
  cases i with
  | nop => cases he; exact h
  | softReset => cases he; exact unlessDeaf_of h (storeInv_softReset h)
  | ident => cases he; exact unlessDeaf_of h (storeInv_answer h _)
  | status => cases he; exact unlessDeaf_of h (storeInv_answer h _)
  | events => cases he; exact unlessDeaf_of h (storeInv_answer h _)
  | peers => cases he; exact unlessDeaf_of h (storeInv_answer h _)
  | pump channel =>
    cases he
    refine unlessDeaf_of h ?_
    split <;> exact storeInv_answer h _
  | configure record =>
    cases he
    split
    · exact storeInv_incomplete h _
    · exact storeInv_hostCommand h _ _ (storeInv_configure h record)
  | scoreOpen header =>
    cases he
    split
    · exact storeInv_incomplete h _
    · exact storeInv_hostCommand h _ _ (storeInv_scoreOpen h header)
  | scoreData body =>
    cases he
    split
    · exact storeInv_hostCommand h _ _ (storeInv_scoreData h body)
    · exact storeInv_incomplete h _
  | scoreClose => cases he; exact storeInv_hostCommand h _ _ (storeInv_scoreClose h)
  | arm =>
    cases he
    refine storeInv_hostCommand h _ _ ?_
    split
    · exact h
    · exact storeInv_enterArmed h
  | disarm =>
    cases he
    refine storeInv_hostCommand h _ _ ?_
    split
    · exact storeInv_disarmed h
    · exact h
  | go delay =>
    cases he
    refine storeInv_hostCommand h _ _ ?_
    split
    · exact h
    · exact storeInv_requestFrame (storeInv_enterCountdown h _) _
  | stop => cases he; exact storeInv_hostCommand h _ _ (storeInv_localStop h)
  | release =>
    cases he
    refine storeInv_hostCommand h _ _ ?_
    split
    · exact storeInv_released h
    · exact h
  | audio start count =>
    cases he
    refine unlessDeaf_of h ?_
    split
    · exact storeInv_settle h _ _ _
    · split
      case h_1 hj => exact storeInv_audio h _ _ hj
      case h_2 => exact storeInv_settle h _ _ _
  | eventClear set =>
    cases he
    refine storeInv_hostCommand h _ _ ?_
    split
    · exact h
    · exact storeInv_congr h rfl
  | eventMask set =>
    cases he
    refine storeInv_hostCommand h _ _ ?_
    split
    · exact h
    · exact storeInv_congr h rfl
  | unknownCommand code =>
    cases he
    split
    · exact h
    · exact storeInv_hostCommand h _ _ h
  | commandIncomplete code =>
    cases he
    split
    · exact storeInv_incomplete h _
    · exact storeInv_congr h rfl
  | audioEnd bytes =>
    cases he
    refine storeInv_congr (unlessDeaf_of (f := fun s => match s.audio.reception with
      | none => s
      | some r => settle 0x50 .ok none (enterBlock r bytes s)) h ?_) rfl
    split
    · exact h
    · exact storeInv_settle (storeInv_enterBlock h _ bytes) _ _ _
  | powerOnReset => cases he; exact storeInv_hardReset _ _
  | pinReset => cases he; exact storeInv_hardReset _ _
  | resetExit => cases he; exact storeInv_congr h rfl
  | beaconReceived sender seq b arrival => cases he; exact storeInv_beaconReceived h sender seq b arrival
  | goFrameReceived sender g =>
    cases he
    exact storeInv_receiveFrame h _ _ fun _ => storeInv_heardGo (s := setRx .ready s) (storeInv_congr h rfl) g
  | stopFrameReceived sender f =>
    cases he
    exact storeInv_receiveFrame h _ _ fun _ => storeInv_heardStop (s := setRx .ready s) (storeInv_congr h rfl) f
  | haltFrameReceived sender inputs =>
    cases he
    exact storeInv_receiveFrame h _ _ fun _ => storeInv_peerHalt (storeInv_congr h rfl)
  | startAskReceived sender pumpNo arrival => cases he; exact storeInv_startAskReceived h sender pumpNo arrival
  | frameFault bytes =>
    cases he
    refine unlessHeld_of h ?_
    split
    · exact h
    · unfold countFailure
      split
      case h_5 => exact h
      all_goals exact storeInv_congr h rfl
  | beaconDue =>
    cases he
    refine unlessHeld_of h ?_
    split
    · exact h
    · split
      · exact storeInv_requestFrame (s := setClock { s.clock with beaconDue := none } s) (storeInv_congr h rfl) _
      · exact h
  | attemptStart idleBits =>
    cases he
    exact whenDue_of (attemptDue · idleBits) startAttempt h (storeInv_startAttempt h)
  | transmissionComplete =>
    cases he
    refine unlessHeld_of h ?_
    split
    · exact storeInv_completeAttempt h _ _
    · exact h
  | attemptFailed =>
    cases he
    refine unlessHeld_of h ?_
    split
    · exact storeInv_failAttempt h _
    · exact h
  | receiverReady idleBits =>
    cases he
    refine unlessHeld_of h ?_
    split
    · exact storeInv_congr h rfl
    · exact h
  | roundEnd =>
    cases he
    refine unlessHeld_of h ?_
    split
    case h_1 hc _ =>
      split
      · exact storeInv_endRound h hc _
      · exact h
    case h_2 => exact h
  | slewAdjustment => cases he; exact whenDue_of slewDue (fun s => elapse _ (setClock _ s)) h (storeInv_congr h rfl)
  | peerStale peer =>
    cases he
    exact whenDue_of (staleDue · peer) (fun s => recomputeWind (makeStale peer s)) h
      (storeInv_recomputeWind (s := makeStale peer s) (storeInv_congr h rfl))
  | peerAbsent peer =>
    cases he
    exact whenDue_of (absentDue · peer) (fun s => recomputeWind (makeAbsent peer s)) h
      (storeInv_recomputeWind (s := makeAbsent peer s) (storeInv_congr h rfl))
  | startReached => cases he; exact whenDue_of startDue enterRunning h (storeInv_enterRunning h)
  | pendingCodaReached => cases he; exact whenDue_of pendingCodaDue (enterCoda .stop) h (storeInv_enterCoda h _)
  | codaDeadline =>
    cases he
    exact whenDue_of codaDeadlineDue (fun s => codaTest (setCtl { s.ctl with codaTested := true } s)) h
      (storeInv_codaTest (s := setCtl { s.ctl with codaTested := true } s) (storeInv_congr h rfl))
  | checksumComplete =>
    cases he
    refine unlessHeld_of h ?_
    split
    · exact storeInv_congr h rfl
    · exact h
  | cueTaken =>
    cases he
    refine unlessHeld_of h ?_
    split_ifs
    case pos _ room => exact storeInv_waitForRoom (storeInv_takeCue h room)
    case neg _ _ => exact storeInv_waitForRoom h
    case neg _ => exact h
  | actionFires => cases he; exact whenDue_of actionDue fireHead h (storeInv_fireHead h)
  | figureStepBoundary group view =>
    cases he
    exact whenDue_of (boundaryDue · group view) (refreshView group view) h (storeInv_congr h (by simp [stores]))
  | figureEnd group =>
    cases he
    exact whenDue_of (figureEndDue · group) (fun s => reportEnd group (refreshView group .lamp s)) h
      (storeInv_congr h (by simp [stores]))
  | pumpPeriod feedback =>
    cases he
    refine unlessHeld_of h ?_
    split
    · exact h
    · split
      · exact storeInv_codaTest (storeInv_withNext (storeInv_pumpStages h _ feedback) _)
      · exact h
  | holdWindowEnd => cases he; exact whenDue_of windowEndDue endWindow h (storeInv_congr h (by simp [stores]))
  | anemometerPulse =>
    cases he
    refine unlessHeld_of h ?_
    split
    · exact storeInv_congr h rfl
    · exact h
  | windowClose =>
    cases he
    refine unlessHeld_of h ?_
    split
    · exact h
    · split
      · exact storeInv_closeWindow h _
      · exact h
  | lampPeriod =>
    cases he
    refine unlessHeld_of h ?_
    split
    · exact storeInv_congr (storeInv_evaluateLamps h) rfl
    · exact h
  | gainUpdate =>
    cases he
    refine unlessHeld_of h ?_
    split
    · exact storeInv_congr h rfl
    · exact h
  | frameInstant =>
    cases he
    refine unlessHeld_of h ?_
    split
    · split
      · exact storeInv_congr h (by simp [stores, frameInstant_ring])
      · exact h
    · exact h
  | safetyLevelChange input high =>
    cases he
    dsimp only
    split
    · exact h
    · exact storeInv_congr h rfl
  | debounceExpiry input =>
    cases he
    refine unlessHeld_of h ?_
    split
    · exact h
    · split
      · exact storeInv_stableChange h _ _
      · exact h

/-- Settles O59: a step is one command, or one microsecond of local time. -/
theorem stepKeepsStores : Obligations.StepKeepsStores := by
  intro s t h hs
  unfold step at hs
  split at hs
  case h_1 i rest _ =>
    have front : StoreInv { s with pending := rest } := storeInv_congr h rfl
    exact storeInv_exec i front hs
  case h_2 =>
    unfold idle at hs
    split at hs
    · cases hs; exact h
    · split at hs
      · exact storeInv_exec _ h hs
      · cases hs
        exact unlessHeld_of (f := elapse 1) h (storeInv_elapse h 1)

end Sys2Proof.Proofs
end

