-- ==== Sys2Proof/Proofs/TransmitQueue.lean ====
section
/-! The transmit queue: replacement, room, and the frame a full queue drops. -/

namespace Sys2Proof.Proofs

open Sys2Proof Sys2Proof.Machine Sys2Proof.Safety

/-! ### The frame that a full queue drops (R46) -/

/-- The kinds of which a newer frame replaces the unsent one are those of the classes 1 and 4 (R45, R46). -/
theorem replaceable_eq (p : Payload) : replaceable p = (decide (frameClass p = 1) || decide (frameClass p = 4)) := by
  cases p <;> rfl

theorem isReplaced_eq (p : Payload) (f : TxFrame) : isReplaced p f =
    (!f.onLine && decide (payloadKind f.payload = payloadKind p) && (decide (frameClass p = 1) || decide (frameClass p = 4))) := by
  rw [isReplaced, replaceable_eq, Bool.and_assoc, Bool.and_assoc, Bool.and_comm (decide (payloadKind f.payload = payloadKind p))]

section
variable {before behind : List TxFrame} {v : TxFrame} (unsent : v.onLine = false) (sent : ∀ f ∈ behind, f.onLine = true)
include unsent sent

/-- With every frame behind it on the line, an unsent frame is the last unsent one. -/
theorem find_lastUnsent : (before ++ v :: behind).reverse.find? (fun f => !f.onLine) = some v := by
  have none_behind : behind.reverse.find? (fun f => !f.onLine) = none := by simpa using sent
  simp [List.find?_append, none_behind, unsent]

theorem eraseLastUnsent_eq : eraseLastUnsent (before ++ v :: behind) = before ++ behind := by
  have none_behind : ∀ f ∈ behind.reverse, ¬ (!f.onLine) = true := by simpa using sent
  have split : (before ++ v :: behind).reverse = behind.reverse ++ v :: before.reverse := by simp
  rw [eraseLastUnsent, split, List.eraseP_append_right _ none_behind, List.eraseP_cons_of_pos (by simp [unsent])]
  simp

theorem victim_eq {p : Payload} (later : frameClass p < frameClass v.payload) : victim p (before ++ v :: behind) = some v := by
  rw [victim, find_lastUnsent unsent sent, Option.filter_some, if_pos (decide_eq_true later)]

end

/-- With no unsent frame of a class above its own, a new frame is dropped itself (R46). -/
theorem victim_none {p : Payload} {q : List TxFrame} (h : ∀ f ∈ q, f.onLine = false → frameClass f.payload ≤ frameClass p) :
    victim p q = none := by
  rw [victim, Option.filter_eq_none_iff]
  intro v hv later
  have member : v ∈ q := List.mem_reverse.mp (List.mem_of_find?_eq_some hv)
  have unsent : v.onLine = false := by simpa using List.find?_some hv
  exact absurd (h v member unsent) (not_le.mpr (of_decide_eq_true later))

/-- In class order no unsent frame stands behind the last unsent one of the highest class (R45). -/
theorem sent_behind {before behind : List TxFrame} {v : TxFrame}
    (order : (before ++ v :: behind).Pairwise fun f g => frameClass f.payload ≤ frameClass g.payload)
    (lower : ∀ f ∈ behind, f.onLine = false → frameClass f.payload < frameClass v.payload) :
    ∀ f ∈ behind, f.onLine = true := by
  intro f hf
  have above : frameClass v.payload ≤ frameClass f.payload :=
    (List.pairwise_cons.mp (List.pairwise_append.mp order).2.1).1 f hf
  by_contra unsent
  exact absurd (lower f hf (by simpa using unsent)) (not_lt.mpr above)

/-! ### The report of a drop (R47, R50, R118) -/

theorem askLost_unasked {s : State} (h : ∀ ch, s.pump.ask ≠ .queued ch) : askLost s = s := by
  unfold askLost
  split
  case h_1 ha => exact absurd ha (h _)
  case h_2 ha => exact absurd ha (h _)
  all_goals rfl

theorem askLost_vacant {s : State} (h : s.pump.ask = .queued none) : askLost s = setAsk .none s := by
  simp only [askLost, h]

theorem askLost_channel {s : State} {ch : Fin 4} (h : s.pump.ask = .queued (some ch)) :
    askLost s = returnToHead ch (setAsk .none s) := by
  simp only [askLost, h]

/-- A frame of payload `p` is dropped between `s` and `t`, and `frames` are left: the count, the event, and the report of a
START-ASK to the pump controller (R46, R47, R50, R118). -/
def frameDropped (p : Payload) (frames : List TxFrame) (s t : State) : Prop :=
  t.line = { s.line with queue := frames, drops := min 255 (s.line.drops + 1) } ∧ t.events = s.events.raised .line ∧
  (frameClass p ≠ 3 ∨ (∀ ch, s.pump.ask ≠ .queued ch) → t.pump = s.pump) ∧
  (frameClass p = 3 → s.pump.ask = .queued none → t.pump = { s.pump with ask := .none }) ∧
  (∀ ch, frameClass p = 3 → s.pump.ask = .queued (some ch) →
    t.pump = { s.pump with ask := .none, startList := ch :: s.pump.startList.erase ch, chan := t.pump.chan } ∧
    t.pump.chan[ch] = { s.pump.chan[ch] with stage := .waiting } ∧ ∀ p : Fin 4, p ≠ ch → t.pump.chan[p] = s.pump.chan[p])

/-- A drop is counted and raises LINE (R50). -/
def dropCounted (s : State) : State := raise .line { s with line := { s.line with drops := min 255 (s.line.drops + 1) } }

theorem dropFrame_eq (p : Payload) (s : State) : dropFrame p s =
    if frameClass p = 3 then askLost (dropCounted s) else dropCounted s := by
  cases p <;> rfl

theorem frameDropped_dropFrame (p : Payload) (frames : List TxFrame) (s : State) :
    frameDropped p frames s (dropFrame p (setQueue frames s)) := by
  have pump : (dropCounted (setQueue frames s)).pump = s.pump := rfl
  rw [dropFrame_eq]
  split
  case isFalse hp => exact ⟨rfl, rfl, fun _ => rfl, fun h => absurd h hp, fun _ h => absurd h hp⟩
  case isTrue hp =>
    refine ⟨by simp [dropCounted], by simp [dropCounted], fun h => ?_, fun _ h => ?_, fun ch _ h => ?_⟩
    · rw [askLost_unasked (s := dropCounted (setQueue frames s)) (h.resolve_left (not_not.mpr hp)), pump]
    · rw [askLost_vacant (s := dropCounted (setQueue frames s)) h, setAsk_pump, pump]
    · rw [askLost_channel (s := dropCounted (setQueue frames s)) h]
      refine ⟨rfl, ?_, fun p hne => ?_⟩
      · simp [returnToHead, pump]
      · simp [returnToHead, pump, Fin.val_ne_of_ne hne]

/-! ### The request (R41, R45, R46) -/

section
variable {s : State} {p : Payload} (clear : s.clock.clash = false)
include clear

theorem requestFrame_replaces (h : ∃ f ∈ s.line.queue, isReplaced p f = true) :
    requestFrame p s = setQueue (s.line.queue.map fun f => if isReplaced p f then freshFrame p else f) s := by
  have any : s.line.queue.any (isReplaced p) = true := List.any_eq_true.mpr h
  simp [requestFrame, clear, enqueue, any]

variable (fresh : ∀ f ∈ s.line.queue, isReplaced p f = false) (full : 8 ≤ s.line.queue.length)
include fresh full

/-- A full queue drops its newest unsent frame of the highest class for a frame of a lower one (R46). -/
theorem requestFrame_drops_victim {before behind : List TxFrame} {v : TxFrame} (split : s.line.queue = before ++ v :: behind)
    (unsent : v.onLine = false) (sent : ∀ f ∈ behind, f.onLine = true) (later : frameClass p < frameClass v.payload) :
    requestFrame p s = dropFrame v.payload (setQueue (insertFrame (before ++ behind) (freshFrame p)) s) := by
  have any : s.line.queue.any (isReplaced p) = false := by simpa using fresh
  have dropped : victim p s.line.queue = some v := by rw [split, victim_eq unsent sent later]
  have left : eraseLastUnsent s.line.queue = before ++ behind := by rw [split, eraseLastUnsent_eq unsent sent]
  simp [requestFrame, clear, enqueue, any, not_lt.mpr full, dropped, left]

theorem requestFrame_drops_itself (h : ∀ f ∈ s.line.queue, f.onLine = false → frameClass f.payload ≤ frameClass p) :
    requestFrame p s = dropFrame p (setQueue s.line.queue s) := by
  have any : s.line.queue.any (isReplaced p) = false := by simpa using fresh
  have unchanged : setQueue s.line.queue s = s := rfl
  rw [unchanged]
  simp [requestFrame, clear, enqueue, any, not_lt.mpr full, victim_none h]

end

/-- Settles O33: CLASH, replacement, room, and the two drops of a full queue, each as the request answers it. -/
theorem framesAreQueued : Obligations.FramesAreQueued := by
  intro s p q t replaced joined dropped
  have same (f : TxFrame) : replaced f = isReplaced p f := (isReplaced_eq p f).symm
  refine ⟨fun set => if_pos set, fun clear => ⟨by simp [onlyChanges_iff, t], fun h => ?_, fun fresh room => ?_,
    fun fresh full order => ?_⟩⟩
  · simp only [same] at h ⊢
    have asked : t = _ := requestFrame_replaces clear h
    rw [asked]
    exact ⟨by simp [onlyChanges_iff], rfl⟩
  · simp only [same] at fresh
    have asked : t = _ := requestFrame_room clear fresh room
    rw [asked]
    exact ⟨by simp [onlyChanges_iff], rfl⟩
  · simp only [same] at fresh
    refine ⟨fun before v behind split unsent later _ lower => ?_, fun low => ?_⟩
    · have asked : t = _ := requestFrame_drops_victim clear fresh full split unsent (sent_behind (split ▸ order) lower) later
      have drop := frameDropped_dropFrame v.payload (insertFrame (before ++ behind) (freshFrame p)) s
      rwa [← asked] at drop
    · have asked : t = _ := requestFrame_drops_itself clear fresh full low
      have drop := frameDropped_dropFrame p q s
      rwa [← asked] at drop

end Sys2Proof.Proofs
end

