-- ==== Sys2Proof/Proofs/Attempts.lean ====
section
/-! The start of an attempt: the head frame's wait, the frame on the line, and its first bit. -/

namespace Sys2Proof.Proofs

open Sys2Proof Sys2Proof.Machine Sys2Proof.Safety

/-! ### The wait of the head frame (R48) -/

theorem onLineFrame_none {s : State} (h : ∀ g ∈ s.line.queue, g.onLine = false) : onLineFrame s = none := by
  simpa [onLineFrame] using h

theorem attemptDue_iff {s : State} {f : TxFrame} {rest : List TxFrame} (hq : s.line.queue = f :: rest)
    (waiting : ∀ g ∈ s.line.queue, g.onLine = false) (idle : Nat) :
    attemptDue s idle = true ↔ frameGap f.payload + 40 * f.draw ≤ idle := by
  simp [attemptDue, onLineFrame_none waiting, hq]

/-- With no frame, or with one on the line, no attempt begins (R48). -/
theorem attemptDue_idle {s : State} (h : s.line.queue = [] ∨ ∃ g ∈ s.line.queue, g.onLine = true) (idle : Nat) :
    attemptDue s idle = false := by
  rcases h with empty | ⟨g, hg, driven⟩
  · simp [attemptDue, empty]
  · have busy : (onLineFrame s).isSome = true := List.find?_isSome.mpr ⟨g, hg, driven⟩
    simp [attemptDue, Option.isNone_eq_false_iff.mpr busy]

theorem exec_attemptStart {s : State} (hh : s.port.held = false) (idle : Nat) :
    exec (.attemptStart idle) s = .next (if attemptDue s idle then startAttempt s else s) :=
  congrArg Host.Outcome.next (unlessHeld_free s _ hh)

/-! ### The frame that goes on the line (R29, R49) -/

/-- The frame `f` as its attempt begins at site time `t`, with `seq` the present sequence counter (R29, R49). -/
def attempted (t : SiteTime) (seq : Byte) (f : TxFrame) : TxFrame where
  payload := stamped t f.payload
  attempts := f.attempts + 1
  draw := f.draw
  seq := some (f.seq.getD seq)
  onLine := true

theorem startAttempt_line {s : State} {f : TxFrame} {rest : List TxFrame} (hq : s.line.queue = f :: rest) :
    (startAttempt s).line = { s.line with
      queue := attempted s.clock.site s.line.seqCounter f :: rest
      seqCounter := if f.seq.isNone then s.line.seqCounter + 1 else s.line.seqCounter
      rx := .receiving
      wire := { s.line.wire with gather := none, out := [] } } := by
  simp only [startAttempt, hq, attempted]

/-- The bits of a frame of node `own`, from its sequence number and payload (R42, R43). -/
def bitsOf (own : Fin 32) (seq : Byte) (p : Payload) : List Bool := frameBits (frameBytes (BitVec.ofNat 8 (own.val + 1)) seq p)

/-- Every frame begins with the start bit of its delimiter, which is dominant, and goes on after it (R42). -/
theorem bitsOf_eq (own : Fin 32) (seq : Byte) (p : Payload) : ∃ b rest, bitsOf own seq p = false :: b :: rest :=
  ⟨_, _, rfl⟩

/-- As an attempt begins all the bits of its frame are ahead (R49). -/
theorem bitsAhead_startAttempt {s : State} {f : TxFrame} {rest : List TxFrame} {c : ConfigRecord} (hq : s.line.queue = f :: rest)
    (hc : s.config = some c) : bitsAhead (startAttempt s) =
      bitsOf c.own (f.seq.getD s.line.seqCounter) (stamped s.clock.site f.payload) := by
  have line := startAttempt_line hq
  have config : (startAttempt s).config = some c := by simpa using hc
  have driven : onLineFrame (startAttempt s) = some (attempted s.clock.site s.line.seqCounter f) := by
    simp [onLineFrame, line, attempted]
  have none_driven : (startAttempt s).line.wire.out = [] := by simp [line]
  simp only [bitsAhead, config, driven, none_driven]
  rfl

/-! ### The first bit time of an attempt (R42, R49, R52) -/

theorem takeCommand_of_exec {i : Instr} {s t : State} (h : exec i s = .next t) : takeCommand i s = t := by
  simp only [takeCommand, h]

/-- A receiver out of HUNT does not become READY by an idle line (R52). -/
theorem takeCommand_receiverReady {s : State} (h : s.line.rx ≠ .hunt) (idle : Nat) : takeCommand (.receiverReady idle) s = s := by
  refine takeCommand_of_exec (congrArg Host.Outcome.next ?_)
  unfold unlessHeld
  split
  · rfl
  · exact if_neg fun hunting => h hunting.1

/-- A bit read back as it was driven, with more to come, leaves the rest ahead (R49). -/
theorem driveBit_same {s : State} {level b : Bool} {rest : List Bool} (h : bitsAhead s = level :: b :: rest) :
    driveBit level s = setOut (b :: rest) s := by
  simp [driveBit, h]

/-- A dominant bit, where nothing of the frame has been gathered, is the start bit of its first byte (R52). -/
theorem receiveBit_start {s : State} (hr : s.line.rx = .receiving) (hg : s.line.wire.gather = none) (idle : Nat) :
    receiveBit false idle s = setGather (some { freshGather s with bits := [false] }) s := by
  simp [receiveBit, hr, hg, freshGather, betweenBytes]

/-- The bit time that begins an attempt drives the start bit of the delimiter on a quiet line, and the receiver gathers it (R49,
R52). -/
theorem bitTime_startAttempt {s t : State} (hh : s.port.held = false) (ht : exec (.attemptStart s.line.wire.idle) s = .next t)
    (hr : t.line.rx = .receiving) (hg : t.line.wire.gather = none) {b : Bool} {rest : List Bool}
    (ahead : bitsAhead t = false :: b :: rest) : bitTime true false s = { t with line := { t.line with wire :=
      { idle := 0, gather := some { arrival := t.clock.site, bytes := [], bits := [false] }, out := b :: rest } } } := by
  have level : lineLevel (drivenLevel t) true false = false := by rw [lineLevel_quiet, drivenLevel, ahead]; rfl
  have started : receiveBit false 0 (setOut (b :: rest) t) =
      setGather (some { freshGather (setOut (b :: rest) t) with bits := [false] }) (setOut (b :: rest) t) :=
    receiveBit_start (s := setOut (b :: rest) t) hr hg 0
  have dominant : idleAfter false t = 0 := rfl
  rw [bitTime, unlessHeld_free _ _ hh]
  simp only [takeCommand_of_exec ht, level, dominant, driveBit_same ahead, started]
  refine takeCommand_receiverReady ?_ 0
  simp [hr]

/-- Settles O34: the wait decides; the frame on the line and its bits are those of `attempted`, the first driven at once. -/
theorem attemptStarts : Obligations.AttemptStarts := by
  intro s idle hh
  have begins := exec_attemptStart hh idle
  refine ⟨?_, fun h => by rw [begins, attemptDue_idle h]; rfl⟩
  intro f rest hq waiting wait
  have due : attemptDue s idle = true ↔ wait ≤ idle := attemptDue_iff hq waiting idle
  have line := startAttempt_line hq
  refine ⟨fun early => ?_, fun ended => ⟨startAttempt s, ?_, by simp [onlyChanges_iff], ?_, ?_⟩⟩
  · rw [begins, if_neg (mt due.mp (not_le.mpr early))]
  · rw [begins, if_pos (due.mpr ended)]
  · rw [line, attempted]
    cases f.payload <;> cases f.seq <;> rfl
  · intro c hc bits
    have whole : bits = bitsOf c.own (f.seq.getD s.line.seqCounter) (stamped s.clock.site f.payload) := by
      cases hp : f.payload <;> simp only [bits, hp] <;> rfl
    have ahead : bitsAhead (startAttempt s) = bits := (bitsAhead_startAttempt hq hc).trans whole.symm
    obtain ⟨b, tail, cons⟩ := bitsOf_eq c.own (f.seq.getD s.line.seqCounter) (stamped s.clock.site f.payload)
    rw [← whole] at cons
    refine ⟨ahead, fun present => ?_⟩
    have began : exec (.attemptStart s.line.wire.idle) s = .next (startAttempt s) := by
      rw [← present, begins, if_pos (due.mpr ended)]
    have site : (startAttempt s).clock = s.clock := by simp
    rw [bitTime_startAttempt hh began (by rw [line]) (by rw [line]) (ahead.trans cons), site, cons]
    rfl

end Sys2Proof.Proofs
end

