-- ==== Sys2Proof/Proofs/RoundMean.lean ====
section
/-! The round mean: the members in order of value, one smallest and one largest removed. -/

namespace Sys2Proof.Proofs

open Sys2Proof Sys2Proof.Machine Sys2Proof.Safety

/-! ### Members in order of value (R33) -/

/-- The model's sort is the library's insertion sort. -/
theorem sortMembers_eq (l : List Int) : sortMembers l = l.insertionSort (· ≤ ·) := by
  have insert (x : Int) (l : List Int) : insertMember x l = l.orderedInsert (· ≤ ·) x := by
    induction l with
    | nil => rfl
    | cons y rest ih => rw [insertMember, List.orderedInsert_cons, ih]
  induction l with
  | nil => rfl
  | cons x rest ih => rw [List.insertionSort_cons, ← ih, ← insert]; rfl

theorem sortMembers_sorted (l : List Int) : (sortMembers l).Pairwise (· ≤ ·) := by
  rw [sortMembers_eq]
  exact List.pairwise_insertionSort _ l

/-- The order of the members does not matter to the sort. -/
theorem sortMembers_of_perm {a b : List Int} (h : a.Perm b) : sortMembers a = sortMembers b :=
  (((sortMembers_perm a).trans h).trans (sortMembers_perm b).symm).eq_of_pairwise' (sortMembers_sorted a) (sortMembers_sorted b)

theorem sortMembers_sum (l : List Int) : (sortMembers l).sum = l.sum := (sortMembers_perm l).sum_eq

theorem sortMembers_length (l : List Int) : (sortMembers l).length = l.length := (sortMembers_perm l).length_eq

/-! ### The mean (R33) -/

theorem meanOf_few {members : List Int} (h : members.length < 3) : meanOf members = Int.tdiv members.sum members.length := by
  simp only [meanOf, sortMembers_length, if_neg (not_le.mpr h), sortMembers_sum]

/-- What is left of members in order once the first and the last are removed. -/
theorem trimmed_of_sorted {l : List Int} {lo hi : Int} (sorted : l.Pairwise (· ≤ ·)) (many : 3 ≤ l.length)
    (hlo : lo ∈ l) (hhi : hi ∈ l)
    (bounds : ∀ x ∈ l, lo ≤ x ∧ x ≤ hi) :
    l.tail.dropLast.sum = l.sum - lo - hi ∧ ((l.tail.dropLast.length : Nat) : Int) = (l.length : Int) - 2 := by
  obtain ⟨first, rest, rfl⟩ := List.exists_cons_of_length_pos (l := l) (by omega)
  obtain ⟨middle, last, rfl⟩ : ∃ middle last, rest = middle ++ [last] := by
    refine ⟨rest.dropLast, rest.getLast ?_, (List.dropLast_append_getLast _).symm⟩
    rintro rfl
    simp at many
  have smallest : first = lo := by
    refine le_antisymm ?_ (bounds first (by simp)).1
    rcases List.mem_cons.mp hlo with rfl | later
    · exact le_refl _
    · exact (List.pairwise_cons.mp sorted).1 lo later
  have largest : last = hi := by
    refine le_antisymm (bounds last (by simp)).2 ?_
    rw [← List.cons_append] at sorted hhi
    rcases List.mem_append.mp hhi with earlier | same
    · exact (List.pairwise_append.mp sorted).2.2 hi earlier last (by simp)
    · exact (List.mem_singleton.mp same).le
  subst smallest largest
  constructor
  · simp
  · simp
    ring

/-- Of three members or more one smallest and one largest are removed (R33). -/
theorem meanOf_many {members : List Int} {lo hi : Int} (many : 3 ≤ members.length) (hlo : lo ∈ members) (hhi : hi ∈ members)
    (bounds : ∀ x ∈ members, lo ≤ x ∧ x ≤ hi) :
    meanOf members = Int.tdiv (members.sum - lo - hi) ((members.length : Int) - 2) := by
  have mem (x : Int) : x ∈ sortMembers members ↔ x ∈ members := (sortMembers_perm members).mem_iff
  have more : 3 ≤ (sortMembers members).length := by rwa [sortMembers_length]
  obtain ⟨sum, length⟩ := trimmed_of_sorted (sortMembers_sorted members) more ((mem lo).mpr hlo) ((mem hi).mpr hhi)
    fun x hx => bounds x ((mem x).mp hx)
  rw [sortMembers_sum] at sum
  rw [sortMembers_length] at length
  simp only [meanOf, sortMembers_length, if_pos many, sum, length]

/-- Settles O36: the sort keeps the members, so the mean is of their sum and number alone. -/
theorem roundMeanTrims : Obligations.RoundMeanTrims := by
  refine ⟨fun members _ few => meanOf_few few, fun members lo hi many hlo hhi bounds => meanOf_many many hlo hhi bounds,
    ?_, rfl, ?_, ?_⟩
  · intro a b h
    simp only [meanOf, sortMembers_of_perm h]
  · intro e
    rw [meanOf_few (by simp)]
    simp
  · intro x y z hxy hyz
    have trimmed := meanOf_many (members := [x, y, z]) (lo := x) (hi := z) (by simp) (by simp) (by simp) (by simp; omega)
    have middle : [x, y, z].sum - x - z = y := by simp
    rw [trimmed, middle]
    simp

end Sys2Proof.Proofs
end

