-- ==== Sys2Proof/Proofs/RoundEnd.lean ====
section
/-! The end of a round: outliers, the class of the round, and the step or the next round. -/

namespace Sys2Proof.Proofs

open Sys2Proof Sys2Proof.Machine Sys2Proof.Safety

/-! ### The members of the set at a round end (R31, R32) -/

theorem inShow_iff (st : ShowState) : st.inShow = true ↔ st = .countdown ∨ st = .running ∨ st = .coda := by
  cases st <;> simp [ShowState.inShow]

theorem gen_toList {α : Type} {n : Nat} (f : Fin n → α) : (gen f).toList = (List.finRange n).map f := by
  simp [gen, List.ofFn_eq_map]

/-- The offset of record `i` that stays in the set at the round end (R32). -/
def keptOffset (c : ConfigRecord) (s : State) (i : Fin 32) : Option Int :=
  if isOutlier c s s.clock.offsets[i] then none else s.clock.offsets[i]

theorem peerMembers_removeOutliers (c : ConfigRecord) (s : State) :
    peerMembers (removeOutliers c s) = (List.finRange 32).filterMap (keptOffset c s) := by
  have kept : (removeOutliers c s).clock.offsets = gen (keptOffset c s) := rfl
  rw [peerMembers, kept, gen_toList, List.filterMap_map]
  rfl

theorem isOutlier_iff (c : ConfigRecord) (s : State) (o : Option Int) : isOutlier c s o = true ↔
    ∃ e, o = some e ∧ s.ctl.state.inShow = true ∧ c.outlier < e.natAbs := by
  cases o <;> simp [isOutlier]

/-- An outlier is an offset that the set no longer holds (R32). -/
theorem isOutlier_iff_left (c : ConfigRecord) (s : State) (i : Fin 32) : isOutlier c s s.clock.offsets[i] = true ↔
    (s.clock.offsets[i]).isSome = true ∧ (keptOffset c s i).isNone = true := by
  unfold keptOffset
  generalize s.clock.offsets[i] = o
  by_cases out : isOutlier c s o = true
  · obtain ⟨e, rfl, -⟩ := (isOutlier_iff c s o).mp out
    simp [out]
  · cases o <;> simp [out]

/-- An outlier is counted in its record (R32). -/
theorem removeOutliers_peer (c : ConfigRecord) (s : State) (i : Fin 32) : (removeOutliers c s).peers[i] =
    if isOutlier c s s.clock.offsets[i] then { s.peers[i] with outliers := min 255 (s.peers[i].outliers + 1) } else s.peers[i] := by
  rw [removeOutliers]
  exact gen_get_fin _ i

/-- Out of a show no member is an outlier (R32). -/
theorem removeOutliers_peers_of_still {s : State} (h : s.ctl.state.inShow = false) (c : ConfigRecord) :
    (removeOutliers c s).peers = s.peers := by
  refine Vector.ext fun i hi => ?_
  have none_out : isOutlier c s s.clock.offsets[i] = false := by simp [isOutlier, h]
  refine (removeOutliers_peer c s ⟨i, hi⟩).trans ?_
  simp [none_out]

/-! ### The class of a round, and LOCKED (R38, R39) -/

/-- A round is not classed where the set is empty while a peer is FRESH or STALE (R38). -/
def unclassed (c : ConfigRecord) (s : State) : Prop :=
  peerMembers s = [] ∧ ∃ i : Fin 32, i ≠ c.own ∧ s.peers[i].presence ≠ .absent

theorem roundClass_unclassed {s : State} {c : ConfigRecord} (hc : s.config = some c) (h : unclassed c s) (mean : Int) :
    roundClass c s mean = none := by
  obtain ⟨alone, i, hi, heard⟩ := h
  have any : ((List.finRange 32).any fun i => isPeer s i && decide (s.peers[i].presence ≠ .absent)) = true :=
    List.any_eq_true.mpr ⟨i, List.mem_finRange i, by simpa [isPeer, hc] using ⟨hi, heard⟩⟩
  simp only [roundClass, alone, any]
  rfl

theorem roundClass_classed {s : State} {c : ConfigRecord} (hc : s.config = some c) (h : ¬ unclassed c s) (mean : Int) :
    roundClass c s mean = if mean.natAbs ≤ c.lockWindow then some (true, false)
      else if mean.natAbs ≤ c.unlockWindow then some (false, false) else some (false, true) := by
  have classed : ((peerMembers s).isEmpty &&
      (List.finRange 32).any fun i => isPeer s i && decide (s.peers[i].presence ≠ .absent)) = false := by
    refine Bool.eq_false_iff.mpr fun both => h ?_
    obtain ⟨alone, heard⟩ := Bool.and_eq_true_iff.mp both
    obtain ⟨i, -, hi⟩ := List.any_eq_true.mp heard
    exact ⟨List.isEmpty_iff.mp alone, i, by simpa [isPeer, hc] using hi⟩
  simp only [roundClass, classed, Bool.false_eq_true, if_false]

theorem classifyRound_none {s : State} {c : ConfigRecord} {mean : Int} (h : roundClass c s mean = none) :
    classifyRound c mean s = s := by
  simp only [classifyRound, h]

/-- The clock after a round of class `cls`: its counts, and LOCKED by them (R38, R39). -/
theorem classifyRound_clock {s : State} {c : ConfigRecord} {mean : Int} {cls : Bool × Bool} (h : roundClass c s mean = some cls) :
    (classifyRound c mean s).clock =
      { countRound (some cls) s.clock with locked := lockAfter (countRound (some cls) s.clock) } := by
  simp [classifyRound, h]

/-- LOCK is raised at each change of LOCKED (R39). -/
theorem classifyRound_events (c : ConfigRecord) (mean : Int) (s : State) : (classifyRound c mean s).events =
    if (classifyRound c mean s).clock.locked = s.clock.locked then s.events else s.events.raised .lock := by
  cases h : roundClass c s mean with
  | none => rw [classifyRound_none h, if_pos rfl]
  | some cls =>
    rw [classifyRound_clock h]
    simp only [classifyRound, h, raiseIf_events, setClock_frame, bne_iff_ne, ne_eq, ite_not]

/-- What a round's class leaves of the clock (R38, R39). -/
theorem classifyRound_keeps (c : ConfigRecord) (mean : Int) (s : State) : (classifyRound c mean s).clock =
    { s.clock with
      within := (classifyRound c mean s).clock.within, outside := (classifyRound c mean s).clock.outside
      locked := (classifyRound c mean s).clock.locked } := by
  cases h : roundClass c s mean with
  | none => rw [classifyRound_none h]
  | some cls => rw [classifyRound_clock h]; rfl

/-- The counts and LOCKED of `k` after a round of mean `mean`, where the round is not classed and in each class (R38, R39). -/
def countsAfter (c : ConfigRecord) (none : Prop) (mean : Int) (k k' : Clock) : Prop :=
  (none → k'.within = k.within ∧ k'.outside = k.outside ∧ k'.locked = k.locked) ∧
  (¬ none → mean.natAbs ≤ c.lockWindow →
    k'.within = min 4 (k.within + 1) ∧ k'.outside = 0 ∧ k'.locked = (k.locked || decide (3 ≤ k.within))) ∧
  (¬ none → c.lockWindow < mean.natAbs → mean.natAbs ≤ c.unlockWindow →
    k'.within = 0 ∧ k'.outside = 0 ∧ k'.locked = k.locked) ∧
  (¬ none → c.lockWindow < mean.natAbs → c.unlockWindow < mean.natAbs →
    k'.within = 0 ∧ k'.outside = min 2 (k.outside + 1) ∧ k'.locked = (k.locked && decide (k.outside = 0)))

theorem countsAfter_classifyRound {s : State} {c : ConfigRecord} (hc : s.config = some c) (mean : Int) :
    countsAfter c (unclassed c s) mean s.clock (classifyRound c mean s).clock := by
  refine ⟨fun h => ?_, fun h inside => ?_, fun h outside inside => ?_, fun h outside1 outside2 => ?_⟩
  · rw [classifyRound_none (roundClass_unclassed hc h mean)]
    exact ⟨rfl, rfl, rfl⟩
  · have cls : roundClass c s mean = some (true, false) := by rw [roundClass_classed hc h, if_pos inside]
    rw [classifyRound_clock cls]
    refine ⟨rfl, rfl, ?_⟩
    by_cases many : 3 ≤ s.clock.within
    · simp [lockAfter, countRound, stopAt, many]
    · have few : min 4 (s.clock.within + 1) ≠ 4 := by omega
      simp [lockAfter, countRound, stopAt, few, many]
  · have cls : roundClass c s mean = some (false, false) := by
      rw [roundClass_classed hc h, if_neg (not_le.mpr outside), if_pos inside]
    rw [classifyRound_clock cls]
    exact ⟨rfl, rfl, rfl⟩
  · have cls : roundClass c s mean = some (false, true) := by
      rw [roundClass_classed hc h, if_neg (not_le.mpr outside1), if_neg (not_le.mpr outside2)]
    rw [classifyRound_clock cls]
    refine ⟨rfl, rfl, ?_⟩
    by_cases first : s.clock.outside = 0
    · simp [lockAfter, countRound, stopAt, first]
    · have two : min 2 (s.clock.outside + 1) = 2 := by omega
      simp [lockAfter, countRound, stopAt, two, first]

/-! ### The end of the round (R34, R35) -/

theorem exec_roundEnd {s : State} {c : ConfigRecord} {start : SiteTime} (hh : s.port.held = false) (hc : s.config = some c)
    (hs : s.clock.roundStart = some start) : exec .roundEnd s = .next
      (if reached s.clock.site (multipleAfter start (1000 * c.interval)) then endRound c start s else s) := by
  refine congrArg Host.Outcome.next ((unlessHeld_free s _ hh).trans ?_)
  simp [hc, hs, roundEndDue, roundEndTime, intervalUs]

/-- The node with the outliers gone and the round classed, before site time steps or the next round begins. -/
def roundClassed (c : ConfigRecord) (mean : Int) (s : State) : State := classifyRound c mean (removeOutliers c s)

theorem roundClassed_keeps (c : ConfigRecord) (mean : Int) (s : State) :
    (roundClassed c mean s).ctl = s.ctl ∧ (roundClassed c mean s).config = s.config ∧
    (roundClassed c mean s).peers = (removeOutliers c s).peers := by
  simp [roundClassed]

theorem roundClassed_clock (c : ConfigRecord) (mean : Int) (s : State) : (roundClassed c mean s).clock =
    { (removeOutliers c s).clock with
      within := (roundClassed c mean s).clock.within, outside := (roundClassed c mean s).clock.outside
      locked := (roundClassed c mean s).clock.locked } := classifyRound_keeps c mean (removeOutliers c s)

theorem onlyChanges_roundClassed (c : ConfigRecord) (mean : Int) (s : State) :
    onlyChanges [.clock, .peers, .events] s (roundClassed c mean s) := by
  simp [onlyChanges_iff, roundClassed]

theorem stepsAt_iff (s : State) (mean : Int) :
    stepsAt s mean = true ↔ ¬ (s.ctl.state.inShow = true ∨ mean.natAbs ≤ 1000) := by
  simp [stepsAt]

section
variable {s : State} {c : ConfigRecord} (hc : s.config = some c) {mean : Int} (hm : roundMean (removeOutliers c s) = mean)
include hc hm

theorem endRound_stays (start : SiteTime) (h : s.ctl.state.inShow = true ∨ mean.natAbs ≤ 1000) : endRound c start s =
    beginRound c (multipleAfter start (1000 * c.interval)) (clamp (Int.tdiv mean 2) (-(c.slewLimit : Int)) c.slewLimit)
      (roundClassed c mean s) := by
  have stay : ¬ stepsAt (roundClassed c mean s) mean = true := by
    rw [stepsAt_iff, (roundClassed_keeps c mean s).1, not_not]
    exact h
  have next : roundEndTime s start = multipleAfter start (1000 * c.interval) := by simp [roundEndTime, intervalUs, hc]
  simp only [endRound, hm, next]
  exact if_neg stay

omit hc in
theorem endRound_steps (start : SiteTime) (h : ¬ (s.ctl.state.inShow = true ∨ mean.natAbs ≤ 1000)) : endRound c start s =
    stepClock c mean (roundClassed c mean s) := by
  have step : stepsAt (roundClassed c mean s) mean = true := by
    rw [stepsAt_iff, (roundClassed_keeps c mean s).1]
    exact h
  simp only [endRound, hm]
  exact if_pos step

/-- What a round's end leaves of the clock, the events and the table, whether site time steps or not. -/
theorem endRound_common (start : SiteTime) :
    let t := endRound c start s
    let u := roundClassed c mean s
    (t.clock.within = u.clock.within ∧ t.clock.outside = u.clock.outside ∧ t.clock.locked = u.clock.locked) ∧
    t.clock.offsets = Vector.replicate 32 none ∧ t.clock.made = 0 ∧ t.clock.roundLocal = 0 ∧ t.clock.clash = s.clock.clash ∧
    t.events = u.events ∧ t.peers = (removeOutliers c s).peers := by
  intro t u
  have clash : u.clock.clash = s.clock.clash := by simp only [u]; rw [roundClassed_clock]; rfl
  obtain ⟨-, config, peers⟩ := roundClassed_keeps c mean s
  by_cases h : s.ctl.state.inShow = true ∨ mean.natAbs ≤ 1000
  · have stay : t = _ := endRound_stays hc hm start h
    rw [stay]
    exact ⟨⟨rfl, rfl, rfl⟩, rfl, rfl, rfl, clash, rfl, peers⟩
  · have step : t = _ := endRound_steps hm start h
    have clock := stepClock_clock (config.trans hc) mean
    simp only [step, clock, stepClock_frame]
    exact ⟨⟨rfl, rfl, rfl⟩, trivial, trivial, trivial, clash, rfl, peers⟩

end

/-- The round is classed by the table as it was: an outlier's count is not its presence (R32, R38). -/
theorem unclassed_removeOutliers (c : ConfigRecord) (s : State) : unclassed c (removeOutliers c s) ↔
    (List.finRange 32).filterMap (keptOffset c s) = [] ∧ ∃ i : Fin 32, i ≠ c.own ∧ s.peers[i].presence ≠ .absent := by
  have presence (i : Fin 32) : (removeOutliers c s).peers[i].presence = s.peers[i].presence := by
    rw [removeOutliers_peer]
    split <;> rfl
  simp only [unclassed, peerMembers_removeOutliers, presence]

/-- Settles O37: the set without its outliers gives the mean, the mean the class, and site time steps or the next round begins. -/
theorem roundEnds : Obligations.RoundEnds := by
  intro s c start hh hc hs _ us next kept members mean none_classed stays stepped beaconAt
  have kept_eq : kept = keptOffset c s := by
    funext i
    simp only [kept, keptOffset, isOutlier, ← inShow_iff]
    cases s.clock.offsets[i] <;> simp
  have members_eq : members = (List.finRange 32).filterMap (keptOffset c s) := by rw [← kept_eq]
  have hm : roundMean (removeOutliers c s) = mean := by rw [roundMean, peerMembers_removeOutliers, ← members_eq]
  have ends := exec_roundEnd hh hc hs
  refine ⟨fun early => ?_, fun due => ⟨endRound c start s, ends.trans (congrArg _ (if_pos due)), ?_⟩⟩
  · rw [ends, if_neg (by simpa using early)]
  obtain ⟨⟨within, outside, locked⟩, offsets, made, localTime, clash, events, peers⟩ := endRound_common hc hm start
  obtain ⟨ctl, config, -⟩ := roundClassed_keeps c mean s
  have clock := roundClassed_clock c mean s
  have counts : countsAfter c none_classed mean s.clock (endRound c start s).clock := by
    have table : unclassed c (removeOutliers c s) ↔ none_classed := by rw [unclassed_removeOutliers, ← members_eq]
    have classed : countsAfter c (unclassed c (removeOutliers c s)) mean s.clock (roundClassed c mean s).clock :=
      countsAfter_classifyRound (s := removeOutliers c s) hc mean
    rw [countsAfter, within, outside, locked, ← propext table]
    exact classed
  obtain ⟨none_counts, inside, between, beyond⟩ := counts
  refine ⟨none_counts, inside, between, beyond, ?_, fun i => ?_, offsets, made, localTime, clash, fun stay => ?_,
    fun step => ?_⟩
  · rw [events, locked]
    exact classifyRound_events c mean (removeOutliers c s)
  · rw [peers, removeOutliers_peer, kept_eq]
    exact if_congr (isOutlier_iff_left c s i) rfl rfl
  · rw [endRound_stays hc hm start stay, beginRound]
    refine ⟨?_, rfl, ?_, rfl, ?_, onlyChanges_trans (onlyChanges_roundClassed c mean s) (q := [.clock]) ?_ (by decide)⟩
    · rw [clock]; rfl
    · exact congrArg some (beaconTime_of_config (config.trans hc) next)
    · rw [clock]; rfl
    · simp [onlyChanges_iff]
  · have still : s.ctl.state.inShow = false := by
      simp only [stays, not_or] at step
      simpa using step.1
    have site : plus (roundClassed c mean s).clock.site mean = stepped := by rw [clock]; rfl
    obtain ⟨wind, pump, lamps, audio⟩ := stepClock_periods c mean (roundClassed c mean s)
    rw [endRound_steps hm start step, wind, pump, lamps, audio, stepClock_clock (config.trans hc), site]
    refine ⟨rfl, rfl, rfl, rfl, rfl, ?_, ?_, ?_, ?_, ?_⟩
    · simp [roundClassed]
    · simp [roundClassed]
    · simp [roundClassed]
    · simp [roundClassed]
    · simp [onlyChanges_iff, roundClassed, removeOutliers_peers_of_still still]

end Sys2Proof.Proofs
end

