-- ==== Sys2Proof/Proofs/LocalTime.lean ====
section
/-! Local time: the step on an empty queue, and the adjustments of the slew. -/

namespace Sys2Proof.Proofs

open Sys2Proof Sys2Proof.Machine Sys2Proof.Safety

/-! ### One microsecond of local time (R25, R173) -/

theorem sampleInputs_get (v : Vector SafetyInput 8) (i : Fin 8) : (sampleInputs v)[i] = { v[i] with before := none } :=
  gen_get_fin _ i

theorem onlyChanges_elapse (us : Nat) (s : State) : onlyChanges [.clock, .score, .safety] s (elapse us s) := by
  simp [onlyChanges_iff]

/-! ### The step on an empty queue (R25, R36) -/

theorem step_idle {s : State} (h : s.pending = []) : step s = idle s := by
  simp only [step, h]

theorem idle_held {s : State} (h : s.port.held = true) : idle s = .next s := by
  simp [idle, h]

theorem idle_due {s : State} {i : Instr} (h : s.port.held = false) (due : dueOccurrence s = some i) : idle s = exec i s := by
  simp [idle, h, due]

theorem idle_quiet {s : State} (h : s.port.held = false) (quiet : dueOccurrence s = none) : idle s = .next (elapse 1 s) := by
  simp [idle, tick, h, quiet]

/-- Settles O2: held, an occurrence due, and a microsecond of local time. -/
theorem idleStepRunsClock : Obligations.IdleStepRunsClock := by
  intro s empty
  rw [step_idle empty]
  refine ⟨idle_held, fun free i due => idle_due free due, fun free quiet => ⟨_, idle_quiet free quiet, ?_⟩⟩
  exact ⟨plus_natCast s.clock.site 1, rfl, rfl, sampleInputs_get s.safety, onlyChanges_elapse 1 s⟩

/-! ### The slew (R36) -/

theorem slewDue_iff {s : State} {c : ConfigRecord} (hc : s.config = some c) : slewDue s = true ↔
    s.clock.made < s.clock.correction.natAbs ∧
      s.clock.made * (1000 * c.interval / s.clock.correction.natAbs) ≤ s.clock.roundLocal := by
  simp [slewDue, intervalUs, hc]

theorem exec_slewAdjustment {s : State} (hh : s.port.held = false) : exec .slewAdjustment s = .next (if slewDue s then
    elapse (if 0 < s.clock.correction then 2 else 0) (setClock { s.clock with made := s.clock.made + 1 } s) else s) :=
  congrArg Host.Outcome.next (unlessHeld_free s _ hh)

/-- Settles O38: the adjustment is a microsecond of local time in which site time advances by two or by none. -/
theorem slewAdjusts : Obligations.SlewAdjusts := by
  intro s c hh hc size due
  have adjusts := exec_slewAdjustment hh
  have decides : slewDue s = true ↔ due := slewDue_iff hc
  refine ⟨fun early => ?_, fun now => ⟨_, adjusts.trans (congrArg _ (if_pos (decides.mpr now))), ?_, ?_, ?_, rfl⟩⟩
  · rw [adjusts, if_neg (mt decides.mp early)]
  · simp [onlyChanges_iff]
  · exact sampleInputs_get s.safety
  · have site : plus s.clock.site ((if 0 < s.clock.correction then 2 else 0 : Nat) : Int) =
        if 0 < s.clock.correction then s.clock.site + 2 else s.clock.site := by
      split
      · exact plus_natCast _ 2
      · exact (plus_natCast _ 0).trans (BitVec.add_zero _)
    rw [elapse_clock, setClock_clock, site]
    rfl

end Sys2Proof.Proofs
end

