-- ==== Sys2Proof/Proofs/PeerAgeing.lean ====
section
/-! The peer table: ageing of a record, and the beacon that carries the node's own number. -/

namespace Sys2Proof.Proofs

open Sys2Proof Sys2Proof.Machine Sys2Proof.Safety

/-! ### Ageing (R27, R59) -/

theorem isPeer_iff (s : State) (i : Fin 32) : isPeer s i = true ↔ ∀ c, s.config = some c → i ≠ c.own := by
  cases hc : s.config <;> simp [isPeer, hc]

theorem staleReached_eq (s : State) (p : Peer) :
    staleReached s p = reached s.clock.site (p.lastArrival + BitVec.ofNat 48 (3 * intervalUs s)) := by
  rw [staleReached, ← plus_natCast]
  norm_cast

theorem absentReached_eq (s : State) (p : Peer) :
    absentReached s p = reached s.clock.site (p.lastArrival + BitVec.ofNat 48 (20 * intervalUs s)) := by
  rw [absentReached, ← plus_natCast]
  norm_cast

theorem staleDue_iff (s : State) (i : Fin 32) : staleDue s i = true ↔ isPeer s i = true ∧ s.peers[i].presence = .fresh ∧
    staleReached s s.peers[i] = true ∧ ¬ absentReached s s.peers[i] = true := by
  simp [staleDue, and_assoc]

theorem absentDue_iff (s : State) (i : Fin 32) : absentDue s i = true ↔ isPeer s i = true ∧ s.peers[i].presence ≠ .absent ∧
    absentReached s s.peers[i] = true := by
  simp [absentDue, and_assoc]

theorem exec_peerStale {s : State} (hh : s.port.held = false) (i : Fin 32) : exec (.peerStale i) s =
    .next (if staleDue s i then recomputeWind (makeStale i s) else s) := congrArg Host.Outcome.next (unlessHeld_free s _ hh)

theorem exec_peerAbsent {s : State} (hh : s.port.held = false) (i : Fin 32) : exec (.peerAbsent i) s =
    .next (if absentDue s i then recomputeWind (makeAbsent i s) else s) := congrArg Host.Outcome.next (unlessHeld_free s _ hh)

/-- The wind of a configured node follows the table as it stands after a recomputation; in STANDBY it stays (R131). -/
theorem recomputeWind_follows (s : State) : (s.config = none → (recomputeWind s).wind = s.wind) ∧
    ∀ c, s.config = some c → (recomputeWind s).wind = { s.wind with
      site := siteWind c (recomputeWind s), factor := windFactor c (siteWind c (recomputeWind s))
      applied := min s.wind.applied (windFactor c (siteWind c (recomputeWind s))) } := by
  refine ⟨fun hc => ?_, fun c hc => ?_⟩
  · simp [recomputeWind, hc]
  · have same : siteWind c (recomputeWind s) = siteWind c s :=
      siteWind_congr (by simp) (recomputeWind_node s) (by simp) c
    rw [same, recomputeWind_wind hc]

/-- Settles O39: which change is due decides, and the change is followed by the wind. -/
theorem recordsAge : Obligations.RecordsAge := by
  intro s i hh us peer stale absent windFollows
  have interval : intervalUs s = us := rfl
  have isP : isPeer s i = true ↔ peer := isPeer_iff s i
  have staleR : staleReached s s.peers[i] = true ↔ stale := by rw [staleReached_eq, interval]
  have absentR : absentReached s s.peers[i] = true ↔ absent := by rw [absentReached_eq, interval]
  have staleD := staleDue_iff s i
  have absentD := absentDue_iff s i
  rw [isP, staleR, absentR] at staleD
  rw [isP, absentR] at absentD
  have ages := exec_peerStale hh i
  have leaves := exec_peerAbsent hh i
  refine ⟨fun hp fresh old young => ⟨recomputeWind (makeStale i s), ?_, ?_, fun j hj => ?_, ?_, ?_⟩,
    fun hp known gone => ⟨recomputeWind (makeAbsent i s), ?_, ?_, ?_, fun j hj => ?_, ?_, ?_⟩, fun h => ?_, fun h => ?_⟩
  · rw [ages, if_pos (staleD.mpr ⟨hp, fresh, old, young⟩)]
  · simp [makeStale]
  · simp [makeStale, Fin.val_ne_of_ne hj]
  · simpa [windFollows] using recomputeWind_follows (makeStale i s)
  · simp [onlyChanges_iff]
  · rw [leaves, if_pos (absentD.mpr ⟨hp, known, gone⟩)]
  · simp [makeAbsent]
  · simp [makeAbsent]
  · simp [makeAbsent, Fin.val_ne_of_ne hj]
  · simpa [windFollows] using recomputeWind_follows (makeAbsent i s)
  · simp [onlyChanges_iff]
  · rw [ages, if_neg]
    rw [staleD]
    rintro ⟨hp, fresh, old, young⟩
    rcases h with h | h | h | h
    · exact h hp
    · exact h fresh
    · exact h old
    · exact young h
  · rw [leaves, if_neg]
    rw [absentD]
    rintro ⟨hp, known, gone⟩
    rcases h with h | h | h
    · exact h hp
    · exact known h
    · exact h gone

/-! ### A beacon with the own number (R40, R41, R121) -/

theorem exec_beacon_own {s : State} {c : ConfigRecord} {sender : Byte} (h : frameHandedOver s sender c.own)
    (hc : s.config = some c) (seq : Byte) (b : Beacon) (arrival : SiteTime) :
    exec (.beaconReceived sender seq b arrival) s = .next (hearClash (setRx .ready s)) := by
  obtain ⟨hh, hr, hi⟩ := h
  refine congrArg Host.Outcome.next ((receiveFrame_handed sender c.own s _ hh hr hi).trans ?_)
  simp [hc]

theorem hearClash_again {s : State} (h : s.clock.clash = true) : hearClash s = raise .clash s := by
  simp [hearClash, h]

/-- The node with CLASH just set: the queue is empty, the frame on the line cut off (R40, R41). -/
def clashSet (s : State) : State := setQueue [] (raise .clash (setClock { s.clock with clash := true } s))

theorem hearClash_first {s : State} (h : s.clock.clash = false) : hearClash s = askCompleted s.clock.site (clashSet s) := by
  simp [hearClash, h, clashSet]

/-- A queued START-ASK that completes opens its hold window and asks for its channel no more (R118, R121). -/
theorem askCompleted_channel {s : State} {p : Fin 4} (h : s.pump.ask = .queued (some p)) (t : SiteTime) :
    (askCompleted t s).pump.ask = .window (t + 100000) (some p) ∧ (askCompleted t s).pump.chan[p].stage = .asked := by
  simp only [askCompleted, h]
  exact ⟨rfl, by simp [extendBusy]⟩

theorem askCompleted_unasked {s : State} (h : s.pump.ask = .none) (t : SiteTime) : askCompleted t s = s := by
  simp only [askCompleted, h]

/-- Settles O21: the first such beacon sets CLASH, a later one raises it again. -/
theorem ownNumberSetsClash : Obligations.OwnNumberSetsClash := by
  intro s c sender seq b arrival handed hc
  refine ⟨_, exec_beacon_own handed hc seq b arrival, ?_⟩
  cases clash : s.clock.clash with
  | false =>
    have first := hearClash_first (s := setRx .ready s) clash
    rw [first]
    refine ⟨by simp [clashSet], by simp [clashSet], fun _ => ⟨by simp [clashSet], ?_, ?_⟩, nofun,
      by simp [onlyChanges_iff, clashSet]⟩
    · exact fun p asks => askCompleted_channel (s := clashSet (setRx .ready s)) asks _
    · intro unasked
      rw [askCompleted_unasked (s := clashSet (setRx .ready s)) unasked]
      rfl
  | true =>
    rw [hearClash_again (s := setRx .ready s) clash]
    exact ⟨by simp [← clash], by simp, nofun, fun _ => ⟨by simp, by simp⟩, by simp [onlyChanges_iff]⟩

end Sys2Proof.Proofs
end

