-- ==== Sys2Proof/Proofs/StartAsks.lean ====
section
/-! A START-ASK heard: withdrawal of the own one, busy-until, and the deferral of a hold window. -/

namespace Sys2Proof.Proofs

open Sys2Proof Sys2Proof.Machine Sys2Proof.Safety

/-! ### The return of a channel to the start list (R116) -/

/-- A lost or deferred ask: no ask is held, and the channel it carried is back at the head as WAITING (R116, R118, R119). -/
def askReturned (p : Fin 4) (s t : State) : Prop :=
  t.pump.ask = .none ∧ t.pump.startList = p :: s.pump.startList.erase p ∧ t.pump.chan[p].stage = .waiting

theorem askReturned_returnToHead (p : Fin 4) (s : State) : askReturned p s (returnToHead p (setAsk .none s)) :=
  ⟨rfl, rfl, by simp [returnToHead]⟩

/-- The return of a channel leaves what was heard of the slot. -/
theorem returnToHead_slot (p : Fin 4) (s : State) : (returnToHead p s).pump.busyUntil = s.pump.busyUntil ∧
    (returnToHead p s).pump.lastAsk = s.pump.lastAsk := ⟨rfl, rfl⟩

theorem askLost_busyUntil (s : State) : (askLost s).pump.busyUntil = s.pump.busyUntil := by
  unfold askLost
  split <;> rfl

/-! ### Withdrawal (R47) -/

theorem withdrawAsk_nothing {s : State} (h : ∀ f ∈ s.line.queue, isUnsentAsk f = false) : withdrawAsk s = s := by
  have none_unsent : s.line.queue.any isUnsentAsk = false := by simpa using h
  simp [withdrawAsk, none_unsent]

theorem withdrawAsk_unsent {s : State} (h : ∃ f ∈ s.line.queue, isUnsentAsk f = true) :
    withdrawAsk s = askLost (setQueue (s.line.queue.filter fun f => !isUnsentAsk f) s) :=
  if_pos (List.any_eq_true.mpr h)

theorem withdrawAsk_line (s : State) :
    (withdrawAsk s).line = { s.line with queue := s.line.queue.filter fun f => !isUnsentAsk f } := by
  by_cases h : ∃ f ∈ s.line.queue, isUnsentAsk f = true
  · simp [withdrawAsk_unsent h]
  · have none_unsent : ∀ f ∈ s.line.queue, isUnsentAsk f = false := by simpa using h
    have all : s.line.queue.filter (fun f => !isUnsentAsk f) = s.line.queue :=
      List.filter_eq_self.mpr fun f hf => by simp [none_unsent f hf]
    rw [withdrawAsk_nothing none_unsent, all]

theorem withdrawAsk_busyUntil (s : State) : (withdrawAsk s).pump.busyUntil = s.pump.busyUntil := by
  unfold withdrawAsk
  split
  · exact askLost_busyUntil _
  · rfl

/-! ### What is heard of the slot (R117, R119) -/

theorem ofNat_nodeNumber {sender : Byte} {i : Fin 32} (h : nodeIndex sender = some i) :
    BitVec.ofNat 8 (nodeNumber i) = sender := by
  unfold nodeIndex at h
  split at h
  case isFalse => exact nomatch h
  case isTrue range =>
    obtain rfl := Option.some.inj h
    have back : sender.toNat - 1 + 1 = sender.toNat := Nat.sub_add_cancel range.1
    simp [nodeNumber, back]

theorem settleUs_of_config {s : State} {c : ConfigRecord} (hc : s.config = some c) : settleUs s = 1000 * (c.settle : Int) := by
  simp [settleUs, hc]

/-- The later of the held busy-until and `e` (R117). -/
def busyAfter (held : Option SiteTime) (e : SiteTime) : Option SiteTime :=
  match held with
  | none => some e
  | some b => some (if reached b e then b else e)

theorem extendBusy_pump (e : SiteTime) (s : State) :
    (extendBusy e s).pump = { s.pump with busyUntil := busyAfter s.pump.busyUntil e } := by
  cases h : s.pump.busyUntil <;> simp [extendBusy, busyAfter, later, h]

/-- An ask heard is noted, and makes the slot busy from its arrival on (R119). -/
def askNoted (c : ConfigRecord) (a : AskHeard) (s : State) : State :=
  extendBusy (a.arrival + BitVec.ofNat 48 (1000 * c.settle)) { s with pump := { s.pump with lastAsk := some a } }

theorem askNoted_pump (c : ConfigRecord) (a : AskHeard) (s : State) : (askNoted c a s).pump = { s.pump with
    lastAsk := some a, busyUntil := busyAfter s.pump.busyUntil (a.arrival + BitVec.ofNat 48 (1000 * c.settle)) } :=
  extendBusy_pump _ _

section
variable {s : State} {c : ConfigRecord} {sender : Byte} {i : Fin 32} (hc : s.config = some c) (hi : nodeIndex sender = some i)
include hc hi

/-- The own window is looked at once the ask heard has been noted (R119). -/
theorem askHeard_noted (pumpNo : Byte) (arrival : SiteTime) : askHeard c i pumpNo arrival s =
    (let u := askNoted c ⟨sender, pumpNo, arrival⟩ s
     match u.pump.ask with
     | .window _ (some p) => if i < c.own then returnToHead p (setAsk .none u) else u
     | .window _ none | .none | .queued _ => u) := by
  simp only [askHeard, ofNat_nodeNumber hi, settleUs_of_config hc, plus_milliseconds]
  rfl

/-- An own window with a channel is deferred to a lower number (R119). -/
theorem askHeard_deferred {e : SiteTime} {p : Fin 4} (ask : s.pump.ask = .window e (some p)) (lower : i < c.own)
    (pumpNo : Byte) (arrival : SiteTime) : askHeard c i pumpNo arrival s =
      returnToHead p (setAsk .none (askNoted c ⟨sender, pumpNo, arrival⟩ s)) := by
  have held : (askNoted c ⟨sender, pumpNo, arrival⟩ s).pump.ask = .window e (some p) := ask
  simp only [askHeard_noted hc hi, held, if_pos lower]

/-- Any other own ask is kept (R119). -/
theorem askHeard_kept (h : c.own ≤ i ∨ ∀ e p, s.pump.ask ≠ .window e (some p)) (pumpNo : Byte) (arrival : SiteTime) :
    askHeard c i pumpNo arrival s = askNoted c ⟨sender, pumpNo, arrival⟩ s := by
  simp only [askHeard_noted hc hi]
  split
  next e p ask => exact if_neg (not_lt.mpr (h.resolve_right fun none_held => none_held e p ask))
  all_goals rfl

/-- Deferred or not, the ask heard is noted (R119). -/
theorem askHeard_slot (pumpNo : Byte) (arrival : SiteTime) :
    (askHeard c i pumpNo arrival s).pump.lastAsk = some ⟨sender, pumpNo, arrival⟩ ∧
    (askHeard c i pumpNo arrival s).pump.busyUntil =
      busyAfter s.pump.busyUntil (arrival + BitVec.ofNat 48 (1000 * c.settle)) := by
  have noted := askNoted_pump c ⟨sender, pumpNo, arrival⟩ s
  by_cases h : c.own ≤ i ∨ ∀ e p, s.pump.ask ≠ .window e (some p)
  · simp [askHeard_kept hc hi h, noted]
  · push Not at h
    obtain ⟨lower, e, p, ask⟩ := h
    rw [askHeard_deferred hc hi ask lower]
    simp [returnToHead_slot, noted]

end

/-! ### The frame (R47, R54, R119) -/

section
variable {s : State} {sender : Byte} {i : Fin 32} (handed : frameHandedOver s sender i)
include handed

/-- In STANDBY the frame withdraws an own one and goes no further (R54). -/
theorem exec_startAskReceived_standby (hc : s.config = none) (pumpNo : Byte) (arrival : SiteTime) :
    exec (.startAskReceived sender pumpNo arrival) s = .next (withdrawAsk (setRx .ready s)) := by
  obtain ⟨hh, hr, hi⟩ := handed
  refine congrArg Host.Outcome.next ((receiveFrame_handed sender i s _ hh hr hi).trans ?_)
  simp [hc]

theorem exec_startAskReceived_configured {c : ConfigRecord} (hc : s.config = some c) (pumpNo : Byte) (arrival : SiteTime) :
    exec (.startAskReceived sender pumpNo arrival) s =
      .next (askHeard c i pumpNo arrival (withdrawAsk (setRx .ready s))) := by
  obtain ⟨hh, hr, hi⟩ := handed
  refine congrArg Host.Outcome.next ((receiveFrame_handed sender i s _ hh hr hi).trans ?_)
  simp [hc]

end

/-- Settles O26: the own unsent ask is withdrawn first, then a configured node hears the frame. -/
theorem startAskHeard : Obligations.StartAskHeard := by
  intro s sender pumpNo arrival i handed
  obtain ⟨-, -, hi⟩ := id handed
  let u := withdrawAsk (setRx .ready s)
  have line : u.line = { s.line with rx := .ready, queue := s.line.queue.filter fun f => !isUnsentAsk f } := withdrawAsk_line _
  have busy : u.pump.busyUntil = s.pump.busyUntil := withdrawAsk_busyUntil _
  have unsent (p : Fin 4) (h : ∃ f ∈ s.line.queue, isUnsentAsk f = true) (ask : s.pump.ask = .queued (some p)) :
      askReturned p s u := by
    have lost : u = _ := withdrawAsk_unsent (s := setRx .ready s) h
    rw [lost, askLost_channel (s := setQueue _ (setRx .ready s)) ask]
    exact askReturned_returnToHead p _
  have nothing (h : ∀ f ∈ s.line.queue, isUnsentAsk f = false) : u = setRx .ready s :=
    withdrawAsk_nothing (s := setRx .ready s) h
  cases hc : s.config with
  | none =>
    exact ⟨u, exec_startAskReceived_standby handed hc pumpNo arrival, line, fun _ h => by rw [nothing h]; rfl, nofun,
      nofun, nofun, unsent, by simp [onlyChanges_iff, u]⟩
  | some c =>
    have config : u.config = some c := by simpa [u] using hc
    obtain ⟨lastAsk, busyUntil⟩ := askHeard_slot config hi pumpNo arrival
    refine ⟨askHeard c i pumpNo arrival u, exec_startAskReceived_configured handed hc pumpNo arrival,
      by simpa using line, nofun, ?_, ?_, ?_, ?_, by simp [onlyChanges_iff, u]⟩
    · rintro _ ⟨⟩
      exact ⟨lastAsk, by rw [busyUntil, busy]; rfl⟩
    · rintro _ e p ⟨⟩ h ask lower
      rw [nothing h] at config ⊢
      rw [askHeard_deferred config hi ask lower]
      exact askReturned_returnToHead p _
    · rintro _ ⟨⟩ h kept
      rw [nothing h] at config ⊢
      rw [askHeard_kept config hi kept, askNoted_pump]
      rfl
    · intro p h ask
      obtain ⟨lost, list, stage⟩ := unsent p h ask
      have none_held : ∀ e q, u.pump.ask ≠ .window e (some q) := by simp [lost]
      rw [askHeard_kept config hi (.inr none_held), askNoted_pump]
      exact ⟨lost, list, stage⟩

end Sys2Proof.Proofs
end

