-- ==== Sys2Proof/Proofs/Judgement.lean ====
section
/-! SUPPORT. The judgement of a received frame, failure by failure (R53). -/

namespace Sys2Proof.Proofs

open Sys2Proof Sys2Proof.Machine Sys2Proof.Safety

/-! ### The tests in their order (R43, R53) -/

/-- A byte that has arrived is wrong in form: the delimiter, the sender, the kind, or the length. -/
abbrev formWrong (bytes : List Byte) : Prop :=
  (1 ≤ bytes.length ∧ byteAt bytes 0 ≠ 0xC3) ∨
  (2 ≤ bytes.length ∧ (byteAt bytes 1 = 0 ∨ 32 < byteAt bytes 1)) ∨
  (3 ≤ bytes.length ∧ byteAt bytes 2 ∉ [0x10, 0x21, 0x22, 0x30, 0x41]) ∨ (5 ≤ bytes.length ∧ 32 < byteAt bytes 4)

/-- The bytes end before the frame does. -/
abbrev cutShort (bytes : List Byte) : Prop := bytes.length < 5 ∨ bytes.length < byteAt bytes 4 + 7

/-- The check that arrived is that of the bytes before it (R44). -/
abbrev checkHolds (bytes : List Byte) : Prop :=
  (frameCheck ((bytes.drop 1).take (byteAt bytes 4 + 4))).toNat =
    256 * byteAt bytes (byteAt bytes 4 + 5) + byteAt bytes (byteAt bytes 4 + 6)

/-- The length is that of the kind. -/
abbrev sizeHolds (bytes : List Byte) : Prop :=
  (byteAt bytes 2, byteAt bytes 4) ∈ [(0x10, 23), (0x21, 10), (0x22, 8), (0x30, 1), (0x41, 1)]

theorem senderOk_iff (b : Byte) : senderOk b = true ↔ b.toNat ≠ 0 ∧ b.toNat ≤ 32 := by
  simp [senderOk, nodeIndex, Nat.one_le_iff_ne_zero]

/-- The kind table, by the number of the kind byte (R43). -/
theorem kindSize_toNat (k : Byte) : kindSize k =
    if k.toNat = 0x10 then some 23 else if k.toNat = 0x21 then some 10 else if k.toNat = 0x22 then some 8
    else if k.toNat = 0x30 then some 1 else if k.toNat = 0x41 then some 1 else none := by
  simp only [kindSize, BitVec.toNat_eq]
  rfl

theorem kindSize_eq_none (k : Byte) : kindSize k = none ↔ k.toNat ∉ [0x10, 0x21, 0x22, 0x30, 0x41] := by
  rw [kindSize_toNat]
  split_ifs <;> simp [*]

theorem kindSize_eq_some (k : Byte) (n : Nat) : kindSize k = some n ↔
    (k.toNat, n) ∈ [(0x10, 23), (0x21, 10), (0x22, 8), (0x30, 1), (0x41, 1)] := by
  rw [kindSize_toNat]
  split_ifs <;> simp [*, eq_comm]

theorem beField_two {bytes : List Byte} {n : Nat} (h : n + 2 ≤ bytes.length) :
    beField bytes n 2 = 256 * byteAt bytes n + byteAt bytes (n + 1) := by
  have first : n < bytes.length := by omega
  have second : n + 1 < bytes.length := by omega
  have field : (bytes.drop n).take 2 = [bytes[n], bytes[n + 1]] := by
    rw [List.drop_eq_getElem_cons first, List.drop_eq_getElem_cons second]
    rfl
  simp [beField, field, beVal, byteAt, first, second]

/-- The bytes behind the length: cut short, or with a check to compare and a length to test (R53). -/
theorem judgeBody_eq (d sender k seq len : Byte) (rest : List Byte) :
    let bytes := d :: sender :: k :: seq :: len :: rest
    judgeBody sender k seq len rest =
      if cutShort bytes then .truncated
      else if ¬ checkHolds bytes then .checkError
      else if ¬ sizeHolds bytes then .formatLength
      else (parsePayload k (rest.take len.toNat)).elim .formatEarly (.intact sender seq) := by
  intro bytes
  have short : cutShort bytes ↔ rest.length < len.toNat + 2 := by
    simp [cutShort, bytes, byteAt]
  have size : sizeHolds bytes ↔ kindSize k = some len.toNat := (kindSize_eq_some k len.toNat).symm
  unfold judgeBody
  by_cases hs : rest.length < len.toNat + 2
  · rw [if_pos hs, if_pos (short.mpr hs)]
  · have field : beField rest len.toNat 2 = 256 * byteAt bytes (len.toNat + 5) + byteAt bytes (len.toNat + 6) :=
      beField_two (by omega)
    have small : 256 * byteAt bytes (len.toNat + 5) + byteAt bytes (len.toNat + 6) < 2 ^ 16 := by
      simp only [byteAt]
      omega
    have check : checkHolds bytes ↔
        frameCheck ([sender, k, seq, len] ++ rest.take len.toNat) = BitVec.ofNat 16 (beField rest len.toNat 2) := by
      rw [field, BitVec.toNat_eq, BitVec.toNat_ofNat, Nat.mod_eq_of_lt small]
      exact Iff.rfl
    rw [if_neg hs, if_neg (mt short.mp hs)]
    simp only [check, size, ne_eq]
    cases parsePayload k (rest.take len.toNat) <;> rfl

theorem delimiter_ne (d : Byte) : d ≠ 0xC3 ↔ d.toNat ≠ 0xC3 := BitVec.toNat_ne

theorem senderWrong_iff (b : Byte) : (!senderOk b) = true ↔ b.toNat = 0 ∨ 32 < b.toNat := by
  rw [Bool.not_eq_true', ← Bool.not_eq_true, senderOk_iff]
  omega

/-- Bytes that end before the length are cut short where none of them is wrong (R53). -/
theorem judge_head {bytes : List Byte} (h : bytes.length < 5) :
    judge bytes = if formWrong bytes then .formatEarly else .truncated := by
  match bytes with
  | [] => simp [judge]
  | [d] =>
    simp only [judge, delimiter_ne, formWrong, byteAt]
    simp
  | [d, sender] =>
    simp only [judge, delimiter_ne, senderWrong_iff, formWrong, byteAt]
    simp [ite_or]
  | [d, sender, k] =>
    simp only [judge, delimiter_ne, senderWrong_iff, kindSize_eq_none, formWrong, byteAt]
    simp [ite_or]
  | [d, sender, k, seq] =>
    simp only [judge, delimiter_ne, senderWrong_iff, kindSize_eq_none, formWrong, byteAt]
    simp [ite_or]

/-- With its length there, a frame goes on to its body where no byte so far is wrong (R53). -/
theorem judge_whole (d sender k seq len : Byte) (rest : List Byte) : judge (d :: sender :: k :: seq :: len :: rest) =
    if formWrong (d :: sender :: k :: seq :: len :: rest) then .formatEarly else judgeBody sender k seq len rest := by
  simp only [judge, delimiter_ne, senderWrong_iff, kindSize_eq_none, formWrong, byteAt]
  simp [ite_or]

/-- The first failure found decides (R53); a frame with none carries a payload, for its kind is known. -/
theorem judge_eq (bytes : List Byte) : judge bytes =
    if formWrong bytes then .formatEarly
    else if cutShort bytes then .truncated
    else if ¬ checkHolds bytes then .checkError
    else if ¬ sizeHolds bytes then .formatLength
    else (parsePayload (payloadByte bytes 2) ((bytes.drop 5).take (byteAt bytes 4))).elim .formatEarly
      (.intact (payloadByte bytes 1) (payloadByte bytes 3)) := by
  match bytes with
  | [] | [_] | [_, _] | [_, _, _] | [_, _, _, _] =>
    rw [judge_head (by simp), if_pos (c := cutShort _) (.inl (by simp))]
  | d :: sender :: k :: seq :: len :: rest =>
    rw [judge_whole, judgeBody_eq d]
    rfl

/-! ### One lemma a verdict -/

section
variable {bytes : List Byte}

theorem judge_formatEarly (h : formWrong bytes) : judge bytes = .formatEarly := by rw [judge_eq, if_pos h]

variable (form : ¬ formWrong bytes)
include form

theorem judge_truncated (h : cutShort bytes) : judge bytes = .truncated := by rw [judge_eq, if_neg form, if_pos h]

variable (whole : ¬ cutShort bytes)
include whole

theorem judge_checkError (h : ¬ checkHolds bytes) : judge bytes = .checkError := by
  rw [judge_eq, if_neg form, if_neg whole, if_pos h]

variable (check : checkHolds bytes)
include check

theorem judge_formatLength (h : ¬ sizeHolds bytes) : judge bytes = .formatLength := by
  rw [judge_eq, if_neg form, if_neg whole, if_neg (not_not.mpr check), if_pos h]

theorem judge_intact (size : sizeHolds bytes) {p : Payload}
    (h : parsePayload (payloadByte bytes 2) ((bytes.drop 5).take (byteAt bytes 4)) = some p) :
    judge bytes = .intact (payloadByte bytes 1) (payloadByte bytes 3) p := by
  rw [judge_eq, if_neg form, if_neg whole, if_neg (not_not.mpr check), if_neg (not_not.mpr size), h]
  rfl

end

/-- A kind of the table carries a payload (R43). -/
theorem parsePayload_isSome {bytes : List Byte} (h : sizeHolds bytes) (p : List Byte) :
    ∃ payload, parsePayload (payloadByte bytes 2) p = some payload := by
  have known : kindSize (payloadByte bytes 2) = some (byteAt bytes 4) := (kindSize_eq_some _ _).mpr h
  unfold parsePayload
  split_ifs with beacon go stop halt ask
  case neg =>
    rw [kindSize, if_neg beacon, if_neg go, if_neg stop, if_neg halt, if_neg ask] at known
    exact nomatch known
  all_goals exact ⟨_, rfl⟩

end Sys2Proof.Proofs
end

