-- ==== Sys2Proof/Proofs/Receiver.lean ====
section
/-! The receiver: failures and their counts, HUNT, and the bit times of a node that drives nothing. -/

namespace Sys2Proof.Proofs

open Sys2Proof Sys2Proof.Machine Sys2Proof.Safety

/-! ### Failures and HUNT (R52, R53) -/

theorem exec_frameFault {s : State} (hh : s.port.held = false) (hr : s.line.rx ≠ .hunt) (bytes : List Byte) :
    exec (.frameFault bytes) s = .next (countFailure (judge bytes) s) :=
  congrArg Host.Outcome.next ((unlessHeld_free s _ hh).trans (if_neg hr))

theorem exec_frameFault_hunt {s : State} (hh : s.port.held = false) (hr : s.line.rx = .hunt) (bytes : List Byte) :
    exec (.frameFault bytes) s = .next s :=
  congrArg Host.Outcome.next ((unlessHeld_free s _ hh).trans (if_pos hr))

theorem exec_receiverReady {s : State} (hh : s.port.held = false) (hr : s.line.rx = .hunt) {idle : Nat} (h : 10 ≤ idle) :
    exec (.receiverReady idle) s = .next (setRx .ready s) :=
  congrArg Host.Outcome.next ((unlessHeld_free s _ hh).trans (if_pos ⟨hr, h⟩))

theorem onlyChanges_countFailure (v : Verdict) (s : State) : onlyChanges [.line] s (countFailure v s) := by
  simp [onlyChanges_iff]

theorem takeCommand_receiverReady_hunt {s : State} (hh : s.port.held = false) (hr : s.line.rx = .hunt) {idle : Nat}
    (h : 10 ≤ idle) : takeCommand (.receiverReady idle) s = setRx .ready s :=
  takeCommand_of_exec (exec_receiverReady hh hr h)

theorem takeCommand_receiverReady_early (s : State) {idle : Nat} (h : idle < 10) : takeCommand (.receiverReady idle) s = s := by
  refine takeCommand_of_exec (congrArg Host.Outcome.next ?_)
  unfold unlessHeld
  split
  · rfl
  · exact if_neg fun ready => absurd h (not_lt.mpr ready.2)

/-! ### A bit time with nothing to drive (R42, R52) -/

/-- The node follows the line and drives nothing: it is not held, no frame of its own is on the line, and none begins. -/
structure Listening (s : State) : Prop where
  free : s.port.held = false
  silent : ∀ f ∈ s.line.queue, f.onLine = false
  waits : attemptDue s s.line.wire.idle = false

theorem bitsAhead_silent {s : State} (h : ∀ f ∈ s.line.queue, f.onLine = false) : bitsAhead s = [] := by
  cases hc : s.config <;> simp [bitsAhead, hc, onLineFrame_none h]

/-- The line has the level that the other nodes leave it at (R42). -/
theorem bitTime_listening {s : State} (h : Listening s) (level : Bool) : bitTime level false s =
    takeCommand (.receiverReady (idleAfter level s))
      (setIdle (idleAfter level s) (receiveBit level (idleAfter level s) (setOut [] s))) := by
  have ahead := bitsAhead_silent h.silent
  have stays : takeCommand (.attemptStart s.line.wire.idle) s = s :=
    takeCommand_of_exec ((exec_attemptStart h.free _).trans (by simp [h.waits]))
  have seen : lineLevel (drivenLevel s) level false = level := by simp [lineLevel, drivenLevel, ahead]
  have lets_go : driveBit level s = setOut [] s := by simp [driveBit, ahead]
  rw [bitTime, unlessHeld_free _ _ h.free]
  simp only [stays, seen, lets_go]

theorem idleAfter_dominant (s : State) : idleAfter false s = 0 := rfl

/-- Out of a byte a recessive level adds to the idle time (R42). -/
theorem idleAfter_recessive {s : State} (silent : ∀ f ∈ s.line.queue, f.onLine = false)
    (h : s.line.rx = .receiving → ∀ g ∈ s.line.wire.gather, g.bits = []) : idleAfter true s = s.line.wire.idle + 1 := by
  have out : withinByte s = false := by
    cases hg : s.line.wire.gather with
    | none => simp [withinByte, bitsAhead_silent silent, hg]
    | some g => simpa [withinByte, bitsAhead_silent silent, hg] using fun hr => h hr g hg
  simp [idleAfter, out]

/-- Within a byte the line is not idle, whatever its level (R42). -/
theorem idleAfter_within {s : State} {g : Gather} (hr : s.line.rx = .receiving) (hg : s.line.wire.gather = some g)
    (h : g.bits ≠ []) (level : Bool) : idleAfter level s = 0 := by
  simp [idleAfter, withinByte, hr, hg, h]

/-! ### A frame cut short (R53) -/

/-- A truncated frame is counted, and the receiver hunts (R53). -/
theorem failGather_truncated {s : State} {g : Gather} (hh : s.port.held = false) (hr : s.line.rx ≠ .hunt)
    (h : judge g.bytes = .truncated) : failGather g s = setGather none (countFailure .truncated s) := by
  rw [failGather, takeCommand_of_exec (exec_frameFault hh hr g.bytes), h]

theorem receiveBit_gathering {s : State} {g : Gather} (hr : s.line.rx = .receiving) (hg : s.line.wire.gather = some g)
    (level : Bool) (idle : Nat) :
    receiveBit level idle s = if g.bits.isEmpty then betweenBytes level idle g s else gatherBit level g s := by
  simp only [receiveBit, hr, hg, Option.getD_some]

section
variable {s : State} (h : Listening s)
include h

section
variable {g : Gather} (hr : s.line.rx = .receiving) (hg : s.line.wire.gather = some g) (truncated : judge g.bytes = .truncated)
include hr hg truncated

/-- A dominant stop bit cuts the frame short (R53). -/
theorem bitTime_dominant_stop (stop : g.bits.length = 9) :
    bitTime false false s = setIdle 0 (setGather none (countFailure .truncated (setOut [] s))) := by
  have within : g.bits.isEmpty = false := by simpa using List.ne_nil_of_length_eq_add_one stop
  have fails : receiveBit false 0 (setOut [] s) = failGather g (setOut [] s) := by
    rw [receiveBit_gathering (s := setOut [] s) hr hg]
    simp [within, gatherBit, stop]
  rw [bitTime_listening h, idleAfter_dominant, takeCommand_receiverReady_early _ (by decide), fails,
    failGather_truncated (s := setOut [] s) h.free (by simp [hr]) truncated]

/-- The tenth idle bit time between two bytes cuts the frame short, and the receiver is READY at once (R52, R53). -/
theorem bitTime_tenth_idle (between : g.bits = []) (some_bytes : g.bytes ≠ []) (nine : 9 ≤ s.line.wire.idle) :
    bitTime true false s =
      setRx .ready (setIdle (s.line.wire.idle + 1) (setGather none (countFailure .truncated (setOut [] s)))) := by
  have idle : idleAfter true s = s.line.wire.idle + 1 := idleAfter_recessive h.silent (by simp [hg, between])
  have ten : 10 ≤ s.line.wire.idle + 1 := by omega
  have fails : receiveBit true (s.line.wire.idle + 1) (setOut [] s) = failGather g (setOut [] s) := by
    rw [receiveBit_gathering (s := setOut [] s) hr hg]
    simp [betweenBytes, between, some_bytes, nine]
  rw [bitTime_listening h, idle, fails, failGather_truncated (s := setOut [] s) h.free (by simp [hr]) truncated,
    takeCommand_receiverReady_hunt ?_ rfl ten]
  exact h.free

end

variable (hr : s.line.rx = .hunt)
include hr

omit h in
theorem receiveBit_hunt (level : Bool) (idle : Nat) : receiveBit level idle (setOut [] s) = setGather none (setOut [] s) := by
  simp [receiveBit, hr]

/-- In HUNT a dominant level begins nothing and ends the idle time (R52). -/
theorem bitTime_hunt_dominant : bitTime false false s = setIdle 0 (setGather none (setOut [] s)) := by
  rw [bitTime_listening h, idleAfter_dominant, takeCommand_receiverReady_early _ (by decide), receiveBit_hunt hr]

/-- In HUNT the tenth idle bit time makes the receiver READY (R52). -/
theorem bitTime_hunt_recessive : bitTime true false s = setRx (if 9 ≤ s.line.wire.idle then .ready else .hunt)
    (setIdle (s.line.wire.idle + 1) (setGather none (setOut [] s))) := by
  have idle : idleAfter true s = s.line.wire.idle + 1 := idleAfter_recessive h.silent (by simp [hr])
  rw [bitTime_listening h, idle, receiveBit_hunt hr]
  by_cases nine : 9 ≤ s.line.wire.idle
  · rw [takeCommand_receiverReady_hunt ?_ ?_ (by omega), if_pos nine]
    · exact h.free
    · exact hr
  · rw [takeCommand_receiverReady_early _ (by omega), if_neg nine, ← hr]
    rfl

end

/-- Settles O27: the verdict gives the count; a bit time cuts a frame short at its stop bit or its tenth idle bit. -/
theorem failedFramesAreCounted : Obligations.FailedFramesAreCounted := by
  intro s bytes hh n form short check size
  refine ⟨fun hr => ⟨countFailure (judge bytes) s, exec_frameFault hh hr bytes, onlyChanges_countFailure _ s, fun hf => ?_,
    fun hf hs => ?_, fun hf hs hc => ?_, fun hf hs hc hz => ?_, fun hf hs hc hz => ?_⟩,
    fun hr => exec_frameFault_hunt hh hr bytes,
    fun hr idle h => ⟨_, exec_receiverReady hh hr h, rfl, onlyChanges_setRx _ s⟩, fun silent waits => ?_⟩
  · rw [judge_formatEarly hf]; rfl
  · rw [judge_truncated hf hs]; rfl
  · rw [judge_checkError hf hs hc]; rfl
  · rw [judge_formatLength hf hs hc hz]; rfl
  · obtain ⟨p, hp⟩ := parsePayload_isSome hz ((bytes.drop 5).take (byteAt bytes 4))
    rw [judge_intact hf hs hc hz hp]; rfl
  · have h : Listening s := ⟨hh, silent, waits⟩
    refine ⟨fun g hr hg truncated => ⟨fun stop => ?_, fun between some_bytes nine => ?_⟩, fun hr => ⟨?_, ?_⟩⟩
    · rw [bitTime_dominant_stop h hr hg truncated stop]; rfl
    · rw [bitTime_tenth_idle h hr hg truncated between some_bytes nine]; rfl
    · rw [bitTime_hunt_dominant h hr, ← hr]; rfl
    · rw [bitTime_hunt_recessive h hr]; rfl

end Sys2Proof.Proofs
end

