-- ==== Sys2Proof/Proofs/FrameFields.lean ====
section
/-! SUPPORT. A frame as a sender writes it, and as a receiver reads it: its form, its check and its fields (R43, R44, R53). -/

namespace Sys2Proof.Proofs

open Sys2Proof Sys2Proof.Machine Sys2Proof.Safety

/-! ### Numbers, most significant byte first (R42) -/

theorem beVal_append_byte (bytes : List Byte) (b : Byte) : beVal (bytes ++ [b]) = 256 * beVal bytes + b.toNat := by
  simp [beVal]

/-- A number that fits is read as it was written (R42). -/
theorem beVal_be {n v : Nat} (h : v < 256 ^ n) : beVal (be n v) = v := by
  induction n generalizing v with
  | zero =>
    obtain rfl : v = 0 := by simpa using h
    rfl
  | succ n ih =>
    have high : v / 256 < 256 ^ n := by
      rw [Nat.div_lt_iff_lt_mul (by decide)]
      rwa [pow_succ] at h
    have split : be (n + 1) v = be n (v / 256) ++ [BitVec.ofNat 8 v] := by simp [be, le]
    rw [split, beVal_append_byte, ih high, BitVec.toNat_ofNat]
    omega

theorem ofNat_beVal_be_two (x : Word16) : BitVec.ofNat 16 (beVal (be 2 x.toNat)) = x := by
  rw [beVal_be (n := 2) (by have := x.isLt; omega), BitVec.ofNat_toNat, BitVec.setWidth_eq]

theorem ofNat_beVal_be_six (x : SiteTime) : BitVec.ofNat 48 (beVal (be 6 x.toNat)) = x := by
  rw [beVal_be (n := 6) (by have := x.isLt; omega), BitVec.ofNat_toNat, BitVec.setWidth_eq]

/-! ### Payloads (R43) -/

/-- Every field of a payload is read where it is written (R43). -/
theorem parsePayload_payloadBytes (p : Payload) : parsePayload (payloadKind p) (payloadBytes p) = some p := by
  cases p with
  | beacon b =>
    have fields : parsePayload 0x10 (payloadBytes (.beacon b)) = some (.beacon
        { stamp := BitVec.ofNat 48 (beVal (be 6 b.stamp.toNat)), state := b.state, flags := b.flags
          showId := BitVec.ofNat 16 (beVal (be 2 b.showId.toNat)), checksum := BitVec.ofNat 16 (beVal (be 2 b.checksum.toNat))
          showStart := BitVec.ofNat 48 (beVal (be 6 b.showStart.toNat)), demand := BitVec.ofNat 16 (beVal (be 2 b.demand.toNat))
          wind := BitVec.ofNat 16 (beVal (be 2 b.wind.toNat)), interval := b.interval }) := rfl
    simp only [payloadKind, fields, ofNat_beVal_be_two, ofNat_beVal_be_six]
  | go g =>
    have fields : parsePayload 0x21 (payloadBytes (.go g)) = some (.go ⟨BitVec.ofNat 16 (beVal (be 2 g.showId.toNat)),
        BitVec.ofNat 16 (beVal (be 2 g.checksum.toNat)), BitVec.ofNat 48 (beVal (be 6 g.start.toNat))⟩) := rfl
    simp only [payloadKind, fields, ofNat_beVal_be_two, ofNat_beVal_be_six]
  | stop f =>
    have fields : parsePayload 0x22 (payloadBytes (.stop f)) = some (.stop ⟨BitVec.ofNat 16 (beVal (be 2 f.showId.toNat)),
        BitVec.ofNat 48 (beVal (be 6 f.codaTime.toNat))⟩) := rfl
    simp only [payloadKind, fields, ofNat_beVal_be_two, ofNat_beVal_be_six]
  | halt inputs => rfl
  | startAsk pump => rfl

theorem kindSize_payload (p : Payload) : kindSize (payloadKind p) = some (payloadBytes p).length := by cases p <;> rfl

theorem payloadBytes_length_le (p : Payload) : (payloadBytes p).length ≤ 23 := by cases p <;> simp [payloadBytes, be]

/-! ### Whole frames (R43, R44, R53) -/

/-- The length byte of a payload. -/
def lengthByte (p : Payload) : Byte := BitVec.ofNat 8 (payloadBytes p).length

theorem lengthByte_toNat (p : Payload) : (lengthByte p).toNat = (payloadBytes p).length := by
  have := payloadBytes_length_le p
  rw [lengthByte, BitVec.toNat_ofNat, Nat.mod_eq_of_lt (by omega)]

/-- The two bytes of the check of a frame. -/
def checkBytes (sender seq : Byte) (p : Payload) : List Byte := be 2 (frameCheck (frameBody sender seq p)).toNat

theorem checkBytes_length (sender seq : Byte) (p : Payload) : (checkBytes sender seq p).length = 2 := by
  simp [checkBytes, be]

theorem frameBytes_eq (sender seq : Byte) (p : Payload) : frameBytes sender seq p =
    0xC3 :: sender :: payloadKind p :: seq :: lengthByte p :: (payloadBytes p ++ checkBytes sender seq p) := rfl

theorem frameBytes_length (sender seq : Byte) (p : Payload) :
    (frameBytes sender seq p).length = (payloadBytes p).length + 7 := by
  simp [frameBytes_eq, checkBytes_length]

theorem frameBody_length (sender seq : Byte) (p : Payload) : (frameBody sender seq p).length = (payloadBytes p).length + 4 := by
  simp [frameBody]

section
variable (sender seq : Byte) (p : Payload)

theorem frameBytes_length_byte : byteAt (frameBytes sender seq p) 4 = (payloadBytes p).length := lengthByte_toNat p

theorem frame_not_cutShort : ¬ cutShort (frameBytes sender seq p) := by
  rw [cutShort, frameBytes_length_byte, frameBytes_length]
  omega

/-- The check that a sender writes is the one a receiver computes (R44). -/
theorem frame_checkHolds : checkHolds (frameBytes sender seq p) := by
  have bytes : frameBytes sender seq p = (0xC3 :: frameBody sender seq p) ++ checkBytes sender seq p := rfl
  have ahead : (0xC3 :: frameBody sender seq p).length = (payloadBytes p).length + 5 := by simp [frameBody_length]
  have covered : ((frameBytes sender seq p).drop 1).take ((payloadBytes p).length + 4) = frameBody sender seq p :=
    List.take_left' (frameBody_length sender seq p)
  have written : beField (frameBytes sender seq p) ((payloadBytes p).length + 5) 2 =
      (frameCheck (frameBody sender seq p)).toNat := by
    rw [beField, bytes, List.drop_left' ahead, List.take_of_length_le (checkBytes_length sender seq p).le, checkBytes]
    exact beVal_be (BitVec.isLt _)
  rw [checkHolds, frameBytes_length_byte, covered, ← written]
  exact beField_two (by rw [frameBytes_length])

/-- The length that a sender writes is that of the kind (R43). -/
theorem frame_sizeHolds : sizeHolds (frameBytes sender seq p) := by
  rw [sizeHolds, frameBytes_length_byte]
  exact (kindSize_eq_some (payloadKind p) _).mp (kindSize_payload p)

variable {sender} (h : isNodeNumber sender = true)
include h

theorem frame_not_formWrong : ¬ formWrong (frameBytes sender seq p) := by
  have node : 1 ≤ sender.toNat ∧ sender.toNat ≤ 32 := of_decide_eq_true h
  have kind : ¬ (payloadKind p).toNat ∉ [0x10, 0x21, 0x22, 0x30, 0x41] := by
    rw [← kindSize_eq_none, kindSize_payload]
    nofun
  have short := payloadBytes_length_le p
  rintro (⟨-, delimiter⟩ | ⟨-, number⟩ | ⟨-, unknown⟩ | ⟨-, long⟩)
  · exact delimiter rfl
  · have same : byteAt (frameBytes sender seq p) 1 = sender.toNat := rfl
    omega
  · exact kind unknown
  · rw [frameBytes_length_byte] at long
    omega

/-- A whole frame is intact (R53). -/
theorem judge_frameBytes : judge (frameBytes sender seq p) = .intact sender seq p := by
  refine judge_intact (frame_not_formWrong seq p h) (frame_not_cutShort sender seq p) (frame_checkHolds sender seq p)
    (frame_sizeHolds sender seq p) ?_
  have payload : ((frameBytes sender seq p).drop 5).take (payloadBytes p).length = payloadBytes p := List.take_left' rfl
  rw [frameBytes_length_byte, payload]
  exact parsePayload_payloadBytes p

end

/-! ### Parts of a frame (R53) -/

theorem byteAt_take (bytes : List Byte) {i k : Nat} (h : i < k) : byteAt (bytes.take k) i = byteAt bytes i := by
  simp [byteAt, List.getElem?_take_of_lt h]

/-- The first bytes of a frame are not wrong where the whole frame has none that is. -/
theorem not_formWrong_take {bytes : List Byte} (h : ¬ formWrong bytes) (k : Nat) : ¬ formWrong (bytes.take k) := by
  have arrived (i : Nat) (wrong : Nat → Prop) (hi : i + 1 ≤ (bytes.take k).length ∧ wrong (byteAt (bytes.take k) i)) :
      i + 1 ≤ bytes.length ∧ wrong (byteAt bytes i) := by
    obtain ⟨there, found⟩ := hi
    rw [List.length_take] at there
    rw [byteAt_take bytes (by omega)] at found
    exact ⟨by omega, found⟩
  exact mt (Or.imp (arrived 0 (· ≠ 0xC3)) (Or.imp (arrived 1 fun n => n = 0 ∨ 32 < n)
    (Or.imp (arrived 2 (· ∉ [0x10, 0x21, 0x22, 0x30, 0x41])) (arrived 4 (32 < ·))))) h

/-- A frame of which bytes are still to come is cut short (R53). -/
theorem judge_take {sender : Byte} (h : isNodeNumber sender = true) (seq : Byte) (p : Payload) {k : Nat}
    (hk : k < (frameBytes sender seq p).length) : judge ((frameBytes sender seq p).take k) = .truncated := by
  refine judge_truncated (not_formWrong_take (frame_not_formWrong seq p h) k) ?_
  have length : ((frameBytes sender seq p).take k).length = k := by
    rw [List.length_take]
    omega
  rw [frameBytes_length] at hk
  rw [cutShort, length]
  by_cases early : k < 5
  · exact .inl early
  · rw [byteAt_take _ (by omega), frameBytes_length_byte]
    exact .inr hk

end Sys2Proof.Proofs
end

