-- ==== Sys2Proof/Proofs/FrameArrives.lean ====
section
/-! A frame arriving bit by bit: the bytes a receiver gathers, and the command of an intact frame. -/

namespace Sys2Proof.Proofs

open Sys2Proof Sys2Proof.Machine Sys2Proof.Safety

/-! ### Bit times one after the other -/

/-- The bit times of a quiet line on which the other nodes leave `levels`. -/
def bitTimes (levels : List Bool) (s : State) : State := levels.foldl (fun x level => bitTime level false x) s

theorem bitTimes_cons (level : Bool) (levels : List Bool) (s : State) :
    bitTimes (level :: levels) s = bitTimes levels (bitTime level false s) := rfl

theorem bitTimes_append (first second : List Bool) (s : State) :
    bitTimes (first ++ second) s = bitTimes second (bitTimes first s) := List.foldl_append

/-! ### A receiver within a frame (R42, R52) -/

/-- The node with `g` gathered of a frame, on a line that is not idle, and nothing of its own to drive. -/
def withGathered (g : Gather) (s : State) : State :=
  { s with line := { s.line with rx := .receiving, wire := { idle := 0, gather := some g, out := [] } } }

theorem onlyChanges_withGathered (g : Gather) (s : State) : onlyChanges [.line] s (withGathered g s) := by
  simp [onlyChanges_iff, withGathered]

/-- No frame is due on a line that is not idle (R48). -/
theorem attemptDue_zero (s : State) : attemptDue s 0 = false := by
  have gap (p : Payload) : 0 < frameGap p := by cases p <;> simp [frameGap]
  cases hq : s.line.queue with
  | nil => simp [attemptDue, hq]
  | cons f rest => simp [attemptDue, hq, (gap f.payload).ne']

/-- The bit time of a receiver within a frame: the line is not idle after it. -/
theorem bitTime_withGathered {s : State} (hh : s.port.held = false) (silent : ∀ f ∈ s.line.queue, f.onLine = false)
    (g : Gather) {level : Bool} (within : level = true → g.bits ≠ []) :
    bitTime level false (withGathered g s) = setIdle 0 (receiveBit level 0 (withGathered g s)) := by
  have listening : Listening (withGathered g s) := ⟨hh, silent, attemptDue_zero _⟩
  have idle : idleAfter level (withGathered g s) = 0 := by
    cases level with
    | false => rfl
    | true => exact idleAfter_within rfl rfl (within rfl) true
  rw [bitTime_listening listening, idle, takeCommand_receiverReady_early _ (by decide)]
  rfl

section
variable {s : State} (hh : s.port.held = false) (silent : ∀ f ∈ s.line.queue, f.onLine = false)
include hh silent

/-- The start bit of a frame's next byte (R42, R52). -/
theorem bitTime_startBit (arrival : SiteTime) (bytes : List Byte) :
    bitTime false false (withGathered ⟨arrival, bytes, []⟩ s) = withGathered ⟨arrival, bytes, [false]⟩ s :=
  bitTime_withGathered hh silent _ nofun

/-- A data bit of a byte (R42). -/
theorem bitTime_dataBit {g : Gather} (some_bits : g.bits ≠ []) (more : g.bits.length < 9) (level : Bool) :
    bitTime level false (withGathered g s) = withGathered { g with bits := g.bits ++ [level] } s := by
  have within : g.bits.isEmpty = false := by simpa using some_bits
  rw [bitTime_withGathered hh silent g fun _ => some_bits, receiveBit_gathering rfl rfl]
  simp only [within, gatherBit, if_pos more]
  rfl

theorem bitTimes_dataBits {g : Gather} (some_bits : g.bits ≠ []) (levels : List Bool)
    (fits : g.bits.length + levels.length ≤ 9) :
    bitTimes levels (withGathered g s) = withGathered { g with bits := g.bits ++ levels } s := by
  induction levels generalizing g with
  | nil => simp [bitTimes]
  | cons level levels ih =>
    rw [List.length_cons] at fits
    rw [bitTimes_cons, bitTime_dataBit hh silent some_bits (by omega), ih (by simp) (by simp; omega)]
    simp

/-- A recessive stop bit ends a byte, and the frame is judged (R42, R53). -/
theorem bitTime_stopBit {g : Gather} (nine : g.bits.length = 9) : bitTime true false (withGathered g s) =
    setIdle 0 (byteGathered { g with bytes := g.bytes ++ [byteOfBits g.bits.tail], bits := [] } (withGathered g s)) := by
  have some_bits : g.bits ≠ [] := List.ne_nil_of_length_eq_add_one nine
  have within : g.bits.isEmpty = false := by simpa using some_bits
  rw [bitTime_withGathered hh silent g fun _ => some_bits, receiveBit_gathering rfl rfl]
  simp only [within, gatherBit, nine]
  rfl

end

/-! ### A byte (R42) -/

/-- The eight data bits of a byte, most significant first. -/
def dataBits (b : Byte) : List Bool := (List.range 8).map fun i => b.getLsbD (7 - i)

theorem getElem_boolByte (l : Bool) (i : Nat) (hi : i < 8) : (boolByte l)[i] = (decide (i = 0) && l) := by
  cases l <;> simp [boolByte]

theorem byteOfBits_dataBits (b : Byte) : byteOfBits (dataBits b) = b := by
  have bits : dataBits b = [b[7], b[6], b[5], b[4], b[3], b[2], b[1], b[0]] := rfl
  ext i hi
  rw [bits]
  simp only [byteOfBits, List.foldl]
  interval_cases i <;> simp [getElem_boolByte]

/-- The bits of some bytes and one more: those of the bytes, a start bit, the data bits and a stop bit. -/
theorem frameBits_append_byte (bytes : List Byte) (b : Byte) :
    frameBits (bytes ++ [b]) = frameBits bytes ++ (false :: (dataBits b ++ [true])) := by
  simp [frameBits, byteBits, dataBits]

/-! ### A frame (R52 to R54) -/

section
variable {s : State} (h : Listening s)
include h

/-- A dominant level in READY begins a frame, its arrival stamp the present site time (R52). -/
theorem bitTime_ready_dominant (hr : s.line.rx = .ready) :
    bitTime false false s = withGathered ⟨s.clock.site, [], [false]⟩ s := by
  have begins : receiveBit false 0 (setOut [] s) =
      setGather (some ⟨s.clock.site, [], [false]⟩) (setRx .receiving (setOut [] s)) := by
    simp only [receiveBit, setOut_line, hr]
    rfl
  rw [bitTime_listening h, idleAfter_dominant, takeCommand_receiverReady_early _ (by decide), begins]
  rfl

/-- Where a dominant level begins byte `b`, its bits bring the receiver to judge the frame with it (R42, R53). -/
theorem bitTimes_byte {x : State} {arrival : SiteTime} {bytes : List Byte}
    (starts : bitTime false false x = withGathered ⟨arrival, bytes, [false]⟩ s) (b : Byte) :
    bitTimes (false :: (dataBits b ++ [true])) x =
      setIdle 0 (byteGathered ⟨arrival, bytes ++ [b], []⟩ (withGathered ⟨arrival, bytes, false :: dataBits b⟩ s)) := by
  have data : bitTimes (dataBits b) (withGathered ⟨arrival, bytes, [false]⟩ s) =
      withGathered ⟨arrival, bytes, false :: dataBits b⟩ s :=
    bitTimes_dataBits h.free h.silent (List.cons_ne_nil _ _) _ (by simp [dataBits])
  rw [bitTimes_cons, starts, bitTimes_append, data, bitTimes_cons, bitTime_stopBit h.free h.silent (by simp [dataBits])]
  simp only [List.tail_cons, byteOfBits_dataBits]
  rfl

variable (hr : s.line.rx = .ready) {frame : List Byte} (cut : ∀ k < frame.length, judge (frame.take k) = .truncated)
include hr cut

/-- Up to the start bit of each of its bytes, the bytes of a frame are gathered as they were sent (R52). -/
theorem bitTime_nextStart {k : Nat} (hk : k < frame.length) :
    bitTime false false (bitTimes (frameBits (frame.take k)) s) = withGathered ⟨s.clock.site, frame.take k, [false]⟩ s := by
  induction k with
  | zero => exact bitTime_ready_dominant h hr
  | succ k ih =>
    have before : k < frame.length := by omega
    have goes_on : byteGathered ⟨s.clock.site, frame.take (k + 1), []⟩
        (withGathered ⟨s.clock.site, frame.take k, false :: dataBits frame[k]⟩ s) =
          withGathered ⟨s.clock.site, frame.take (k + 1), []⟩ s := by
      simp only [byteGathered, cut (k + 1) hk]
      rfl
    have last : frame.take k ++ [frame[k]] = frame.take (k + 1) := (List.take_succ_eq_append_getElem before).symm
    have gathered : bitTimes (frameBits (frame.take (k + 1))) s = withGathered ⟨s.clock.site, frame.take (k + 1), []⟩ s := by
      rw [← last, frameBits_append_byte, bitTimes_append, bitTimes_byte h (ih before), last, goes_on]
      rfl
    rw [gathered]
    exact bitTime_startBit h.free h.silent _ _

end

/-- A command of the line is always taken. -/
theorem exec_handedOver (sender seq : Byte) (p : Payload) (arrival : SiteTime) (s : State) :
    exec (handedOver sender seq p arrival) s = .next (takeCommand (handedOver sender seq p arrival) s) := by
  cases p <;> rfl

/-- At the last stop bit of an intact frame its command is taken, with the site time of the first start bit (R52, R54). -/
theorem bitTimes_intact {s : State} (h : Listening s) (hr : s.line.rx = .ready) {bytes : List Byte} {last : Byte}
    (cut : ∀ k < (bytes ++ [last]).length, judge ((bytes ++ [last]).take k) = .truncated) {sender seq : Byte} {p : Payload}
    (intact : judge (bytes ++ [last]) = .intact sender seq p) : bitTimes (frameBits (bytes ++ [last])) s =
      setIdle 0 (setGather none (takeCommand (handedOver sender seq p s.clock.site)
        (withGathered ⟨s.clock.site, bytes, false :: dataBits last⟩ s))) := by
  have begins := bitTime_nextStart h hr cut (k := bytes.length) (by simp)
  rw [List.take_left] at begins
  rw [frameBits_append_byte, bitTimes_append, bitTimes_byte h begins]
  simp only [byteGathered, intact]

/-- Settles O28: the tests hold of every whole frame and none of its parts is more than cut short, so that its last bit hands it
over. -/
theorem frameJudgedIntact : Obligations.FrameJudgedIntact := by
  intro sender seq p node
  have intact := judge_frameBytes seq p node
  refine ⟨intact, fun s hh hr silent waits => ?_⟩
  intro bits command
  obtain ⟨bytes, last, frame⟩ : ∃ bytes last, frameBytes sender seq p = bytes ++ [last] :=
    ⟨_, _, (List.dropLast_concat_getLast (List.cons_ne_nil _ _)).symm⟩
  have cut (k : Nat) := judge_take node seq p (k := k)
  have same : command = handedOver sender seq p s.clock.site := by cases p <;> rfl
  have sent : bits = frameBits (bytes ++ [last]) := by rw [← frame]; rfl
  rw [frame] at intact cut
  refine ⟨withGathered ⟨s.clock.site, bytes, false :: dataBits last⟩ s, _, onlyChanges_withGathered _ s, rfl,
    by rw [same]; exact exec_handedOver _ _ _ _ _, ?_⟩
  rw [sent]
  exact bitTimes_intact ⟨hh, silent, waits⟩ hr cut intact

end Sys2Proof.Proofs
end

