-- ==== Sys2Proof/Proofs/AttemptEnds.lean ====
section
/-! The end of an attempt: complete, failed, and the bit read back that decides it. -/

namespace Sys2Proof.Proofs

open Sys2Proof Sys2Proof.Machine Sys2Proof.Safety

/-! ### The report of a completed frame (R49, R58, R118) -/

/-- A queued START-ASK that completes opens its window, marks its channel, and makes the slot busy (R118). -/
theorem askCompleted_pump {s : State} {c : ConfigRecord} {ch : Option (Fin 4)} (hc : s.config = some c)
    (h : s.pump.ask = .queued ch) (t : SiteTime) :
    (askCompleted t s).pump.ask = .window (t + 100000) ch ∧ (askCompleted t s).pump.startList = s.pump.startList ∧
    (askCompleted t s).pump.busyUntil = busyAfter s.pump.busyUntil (t + BitVec.ofNat 48 (1000 * c.settle)) ∧
    ∀ p : Fin 4, (askCompleted t s).pump.chan[p] =
      { s.pump.chan[p] with stage := if ch = some p then .asked else s.pump.chan[p].stage } := by
  have settle := settleUs_of_config hc
  cases ch with
  | none =>
    simp only [askCompleted, h, settle, plus_milliseconds, extendBusy_pump]
    exact ⟨rfl, rfl, rfl, fun p => rfl⟩
  | some q =>
    simp only [askCompleted, h, settle, plus_milliseconds, extendBusy_pump]
    refine ⟨rfl, rfl, rfl, fun p => ?_⟩
    by_cases hp : p = q
    · subst hp
      simp
    · simp [Fin.val_ne_of_ne hp, Ne.symm hp]

theorem askCompleted_unqueued {s : State} (h : ∀ ch, s.pump.ask ≠ .queued ch) (t : SiteTime) : askCompleted t s = s := by
  unfold askCompleted
  split
  case h_1 ha => exact absurd ha (h _)
  case h_2 ha => exact absurd ha (h _)
  all_goals rfl

theorem reportSent_beacon {f : TxFrame} {b : Beacon} (h : f.payload = .beacon b) (c : ConfigRecord) (s : State) :
    reportSent c f s = recordOwnBeacon c b (f.seq.getD 0) s := by
  simp only [reportSent, h]

/-- The pump controller is told of a START-ASK, the frame of class 3 (R118). -/
theorem reportSent_ask {f : TxFrame} (h : frameClass f.payload = 3) (c : ConfigRecord) (s : State) :
    reportSent c f s = askCompleted s.clock.site s := by
  cases hp : f.payload with
  | startAsk pump => simp only [reportSent, hp]
  | halt _ | go _ | stop _ | beacon _ => simp [frameClass, hp] at h

/-- HALT, GO and STOP, the frames of a class below 3, are reported to no block (R49). -/
theorem reportSent_none {f : TxFrame} (h : frameClass f.payload < 3) (c : ConfigRecord) (s : State) : reportSent c f s = s := by
  cases hp : f.payload with
  | halt _ | go _ | stop _ => simp only [reportSent, hp]
  | startAsk _ | beacon _ => simp [frameClass, hp] at h

/-! ### The two ends (R49, R50) -/

/-- The node once a frame has gone out whole, before its report (R49, R52). -/
def frameSent (c : ConfigRecord) (f : TxFrame) (s : State) : State :=
  { s with line := { s.line with
      queue := s.line.queue.filter fun g => !g.onLine
      rx := if s.line.rx = .receiving then .ready else s.line.rx
      sent := frameBytes (BitVec.ofNat 8 (c.own.val + 1)) (f.seq.getD 0) f.payload } }

theorem completeAttempt_eq (c : ConfigRecord) (f : TxFrame) (s : State) :
    completeAttempt c f s = reportSent c f (frameSent c f s) := rfl

/-- A failed attempt is counted (R50). -/
def collided (s : State) : State := { s with line := { s.line with collisions := min 255 (s.line.collisions + 1) } }

/-- The frame on the line goes back to wait with a new draw (R50). -/
def redrawn (r : Nat) (f : TxFrame) : TxFrame := if f.onLine then { f with onLine := false, draw := r } else f

/-- A newer frame of its kind stands beside `f`, which it replaces (R46). -/
abbrev superseded (f : TxFrame) (s : State) : Prop := replaceable f.payload = true ∧
  ∃ g ∈ s.line.queue.filter fun g => !g.onLine, payloadKind g.payload = payloadKind f.payload

theorem superseded_iff (f : TxFrame) (s : State) :
    (s.line.queue.filter fun g => !g.onLine).any (isReplaced f.payload) = true ↔ superseded f s := by
  rw [List.any_eq_true]
  constructor
  · rintro ⟨g, waits, replaced⟩
    simp only [isReplaced, Bool.and_eq_true, decide_eq_true_eq] at replaced
    obtain ⟨⟨-, newer⟩, kind⟩ := replaced
    exact ⟨newer, g, waits, kind⟩
  · rintro ⟨newer, g, waits, kind⟩
    have unsent : (!g.onLine) = true := (List.mem_filter.mp waits).2
    exact ⟨g, waits, by simp [isReplaced, unsent, newer, kind]⟩

section
variable {s : State} {f : TxFrame}

theorem failAttempt_superseded (h : superseded f s) :
    failAttempt f s = setQueue (s.line.queue.filter fun g => !g.onLine) (collided s) :=
  if_pos ((superseded_iff f s).mpr h)

theorem failAttempt_again (h : ¬ superseded f s) (few : f.attempts < 8) : ∃ r, r < 2 ^ min f.attempts 5 ∧
    failAttempt f s = { setQueue (s.line.queue.map (redrawn r)) (collided s) with draws := s.draws + 1 } :=
  ⟨_, Nat.mod_lt _ (by positivity), (if_neg (mt (superseded_iff f s).mp h)).trans (if_pos few)⟩

theorem failAttempt_drops (h : ¬ superseded f s) (many : 8 ≤ f.attempts) :
    failAttempt f s = dropFrame f.payload (setQueue (s.line.queue.filter fun g => !g.onLine) (collided s)) :=
  (if_neg (mt (superseded_iff f s).mp h)).trans (if_neg (not_lt.mpr many))

end

/-! ### The occurrences -/

section
variable {s : State} (hh : s.port.held = false)
include hh

theorem exec_transmissionComplete {c : ConfigRecord} {f : TxFrame} (hc : s.config = some c) (hf : onLineFrame s = some f) :
    exec .transmissionComplete s = .next (completeAttempt c f s) := by
  refine congrArg Host.Outcome.next ((unlessHeld_free s _ hh).trans ?_)
  simp only [hc, hf]

theorem exec_attemptFailed {f : TxFrame} (hf : onLineFrame s = some f) : exec .attemptFailed s = .next (failAttempt f s) := by
  refine congrArg Host.Outcome.next ((unlessHeld_free s _ hh).trans ?_)
  simp only [hf]

/-- With no frame on the line neither occurrence has an effect. -/
theorem exec_ends_silent (h : ∀ f ∈ s.line.queue, f.onLine = false) :
    exec .transmissionComplete s = .next s ∧ exec .attemptFailed s = .next s := by
  have none_driven := onLineFrame_none h
  refine ⟨congrArg Host.Outcome.next ((unlessHeld_free s _ hh).trans ?_),
    congrArg Host.Outcome.next ((unlessHeld_free s _ hh).trans ?_)⟩
  · cases hc : s.config <;> simp only [none_driven]
  · simp only [none_driven]

end

/-! ### The bit read back (R49, R50) -/

theorem driveBit_differs {s : State} {level b : Bool} {rest : List Bool} (h : bitsAhead s = b :: rest) (differs : level ≠ b) :
    driveBit level s = setOut [] (takeCommand .attemptFailed s) := by
  simp only [driveBit, h, if_pos differs]

theorem driveBit_last {s : State} {level : Bool} (h : bitsAhead s = [level]) :
    driveBit level s = setOut [] (takeCommand .transmissionComplete s) := by
  simp [driveBit, h]

/-- Settles O35: what is left of a completed and of a failed frame, and which bit read back decides between them. -/
theorem attemptEnds : Obligations.AttemptEnds := by
  intro s c hh hc others
  refine ⟨exec_ends_silent hh, fun f hf => ?_, fun driven others => by simp [lineLevel]⟩
  have completes := exec_transmissionComplete hh hc hf
  have fails := exec_attemptFailed hh hf
  refine ⟨⟨_, completes, ?_⟩, ⟨_, fails, ?_⟩, fun b rest level ahead => ?_⟩
  · rw [completeAttempt_eq]
    refine ⟨by simp [onlyChanges_iff, frameSent], by simp [frameSent, others], fun b hb => ?_, fun ask => ?_, fun plain => ?_⟩
    · rw [reportSent_beacon hb]
      exact ⟨rfl, fun i hi => put_get_ne _ _ _ _ hi, (put_get _ _ _ _).trans (if_pos rfl)⟩
    · rw [reportSent_ask ask]
      refine ⟨by simp [frameSent], fun ch queued => ?_, fun unqueued => ?_⟩
      · obtain ⟨window, list, busy, chan⟩ := askCompleted_pump (s := frameSent c f s) hc queued s.clock.site
        exact ⟨window, list, busy, chan⟩
      · exact congrArg (·.pump) (askCompleted_unqueued (s := frameSent c f s) unqueued s.clock.site)
    · rw [reportSent_none plain]
      simp [onlyChanges_iff, frameSent]
  · refine ⟨by simp [onlyChanges_iff], fun newer => ?_, fun alone few => ?_, fun alone many => ?_⟩
    · rw [failAttempt_superseded newer]
      exact ⟨by simp [onlyChanges_iff, collided], rfl⟩
    · obtain ⟨r, below, again⟩ := failAttempt_again alone few
      rw [again]
      exact ⟨by simp [onlyChanges_iff, collided], r, below, rfl⟩
    · obtain ⟨line, events, kept, -, returned⟩ := frameDropped_dropFrame f.payload others (collided s)
      have drops : failAttempt f s = dropFrame f.payload (setQueue others (collided s)) := failAttempt_drops alone many
      rw [drops]
      refine ⟨events, by simp [collided], line, fun other => kept (.inl other), fun p ask queued => ?_⟩
      obtain ⟨pump, channel, -⟩ := returned p ask queued
      rw [channel, pump]
      exact ⟨rfl, rfl, rfl⟩
  · intro stopped
    refine ⟨fun differs => ⟨_, fails, ?_⟩, fun same last => ⟨_, completes, ?_⟩, fun same more => ?_⟩
    · rw [driveBit_differs ahead differs, takeCommand_of_exec fails]; rfl
    · subst same last
      rw [driveBit_last ahead, takeCommand_of_exec completes]; rfl
    · obtain ⟨next, rest, rfl⟩ := List.exists_cons_of_ne_nil more
      rw [← same] at ahead
      rw [driveBit_same ahead]; rfl

end Sys2Proof.Proofs
end

