-- ==== Sys2Proof/Proofs/ScoreLoading.lean ====
section
/-! SCORE OPEN, SCORE CLOSE and the end of the checksum computation. -/

namespace Sys2Proof.Proofs

open Sys2Proof Sys2Proof.Machine Sys2Proof.Safety

/-! ### What the score commands share -/

/-- A host command whose work is on the score alone, accepted or not, writes the score and the last result record. -/
theorem command_scored {s : State} {x : Host.Outcome State Fault Refusal} {code : Byte} {r : Result} {ix : Option Nat} {sc : Score}
    {body : State → State × Result × Option Nat} (hx : x = .next (hostCommand code s body)) (h : commandTaken s)
    (hb : body s = (setScore sc s, r, ix)) :
    ∃ t, x = .next t ∧ recorded code r ix s t ∧ t.score = sc ∧ onlyChanges [.port, .score] s t := by
  obtain ⟨⟨hh, hi⟩, hc⟩ := h
  refine ⟨_, hx, ?_⟩
  rw [hostCommand_taken _ _ _ hh hi hc, hb]
  exact ⟨recorded_settle _ _ _ rfl, rfl, by simp [onlyChanges_iff]⟩

/-- The states in which R63 refuses the score commands. -/
theorem scoreOpenable_false_iff (s : State) : scoreOpenable s = false ↔ s.ctl.state ≠ .idle ∨ s.score.frozen = true := by
  simp [← Bool.not_eq_true, scoreOpenable_iff, imp_iff_not_or]

/-! ### SCORE OPEN (R63, R64) -/

theorem exec_scoreOpen_whole (s : State) {header : List Byte} (h : 6 ≤ header.length) :
    exec (.scoreOpen header) s = .next (hostCommand 0x30 s (scoreOpen header)) :=
  congrArg Host.Outcome.next (if_neg (Nat.not_lt.mpr h))

theorem exec_scoreOpen_short (s : State) {header : List Byte} (h : header.length < 6) :
    exec (.scoreOpen header) s = .next (incomplete 0x30 s) :=
  congrArg Host.Outcome.next (if_pos h)

/-- The test of a header that SCORE OPEN makes (R64). -/
theorem headerOutside_iff (header : List Byte) :
    (!within 1 2048 (leAt header 2 2) || decide (1024 < leAt header 4 2)) = true ↔
      leAt header 2 2 = 0 ∨ 2048 < leAt header 2 2 ∨ 1024 < leAt header 4 2 := by
  simp only [within, Bool.or_eq_true, Bool.not_eq_true', decide_eq_false_iff_not, decide_eq_true_eq]
  omega

theorem scoreOpen_closed (header : List Byte) {s : State} (h : scoreOpenable s = false) :
    scoreOpen header s = (s, .state, none) := by
  simp [scoreOpen, h, refuse]

theorem scoreOpen_outside {header : List Byte} {s : State} (h : scoreOpenable s = true)
    (hr : leAt header 2 2 = 0 ∨ 2048 < leAt header 2 2 ∨ 1024 < leAt header 4 2) : scoreOpen header s = (s, .param, none) := by
  rw [scoreOpen, h, if_neg (by decide), if_pos ((headerOutside_iff header).mpr hr), refuse]

theorem scoreOpen_stored {header : List Byte} {s : State} (h : scoreOpenable s = true)
    (hr : ¬ (leAt header 2 2 = 0 ∨ 2048 < leAt header 2 2 ∨ 1024 < leAt header 4 2)) :
    scoreOpen header s = (setScore (openScore header s.score) s, .ok, none) := by
  rw [scoreOpen, h, if_neg (by decide), if_neg (mt (headerOutside_iff header).mp hr), accept]

/-! ### SCORE CLOSE (R63, R67) -/

theorem exec_scoreClose (s : State) : exec .scoreClose s = .next (hostCommand 0x32 s scoreClose) := rfl

/-- Cue `i`, where it is a FIGURE cue, reaches only loaded rows (R67). -/
def reachesLoaded (sc : Score) (i : Nat) : Prop :=
  isFigureKind (byteAt (cueBytes sc i) 0) = true → ∀ k, k < (cueFigure (cueBytes sc i)).steps →
    figureRow (cueFigure (cueBytes sc i)).startRow (cueFigure (cueBytes sc i)).pitch k < sc.rowCount

theorem figureLoaded_iff (rowCount : Nat) (f : Figure) :
    figureLoaded rowCount f = true ↔ ∀ k, k < f.steps → figureRow f.startRow f.pitch k < rowCount := by
  simp [figureLoaded]

/-- The search of SCORE CLOSE passes over a cue that reaches only loaded rows (R67). -/
theorem reachesLoaded_iff (sc : Score) (i : Nat) : reachesLoaded sc i ↔
    (!(isFigureKind (byteAt (cueBytes sc i) 0) && !figureLoaded sc.rowCount (cueFigure (cueBytes sc i)))) = true := by
  rw [reachesLoaded, ← figureLoaded_iff, Bool.not_eq_true', Bool.and_eq_false_imp, Bool.not_eq_false']

theorem unloadedFigure_eq_none {sc : Score} (h : ∀ i, i < sc.cueCount → reachesLoaded sc i) : unloadedFigure sc = none :=
  List.find?_range_eq_none.mpr fun i hi => (reachesLoaded_iff sc i).mp (h i hi)

theorem unloadedFigure_eq_some {sc : Score} {i : Nat} (hi : i < sc.cueCount) (hn : ¬ reachesLoaded sc i)
    (hb : ∀ j, j < i → reachesLoaded sc j) : unloadedFigure sc = some i := by
  rw [reachesLoaded_iff, Bool.not_eq_true, Bool.not_eq_false'] at hn
  exact List.find?_range_eq_some.mpr ⟨hn, List.mem_range.mpr hi, fun j hj => (reachesLoaded_iff sc j).mp (hb j hj)⟩

/-- SCORE CLOSE and SCORE DATA are open: IDLE, the score not frozen, a load begun (R63). -/
abbrev loadOpen (s : State) : Prop := s.ctl.state = .idle ∧ s.score.frozen = false ∧ s.score.status = .loading

/-- Every record and row of the header is loaded, and the last cue is an END (R67). -/
abbrev loadEnded (sc : Score) : Prop :=
  (sc.cuesLoaded = sc.cueCount ∧ sc.rowsLoaded = sc.rowCount) ∧ byteAt (cueBytes sc (sc.cueCount - 1)) 0 = 0x0F

theorem loadClosed_iff (s : State) : (!scoreOpenable s || decide (s.score.status ≠ .loading)) = true ↔ ¬ loadOpen s := by
  simp only [loadOpen, Bool.or_eq_true, Bool.not_eq_true', scoreOpenable_false_iff, decide_eq_true_eq, not_and_or,
    Bool.not_eq_false, or_assoc, ne_eq]

theorem scoreClose_closed {s : State} (h : ¬ loadOpen s) : scoreClose s = (s, .state, none) := by
  rw [scoreClose, if_pos ((loadClosed_iff s).mpr h), refuse]

theorem scoreClose_unended {s : State} (h : loadOpen s) (he : ¬ loadEnded s.score) : scoreClose s = (s, .param, none) := by
  rw [scoreClose, if_neg (mt (loadClosed_iff s).mp (not_not.mpr h))]
  by_cases hl : s.score.cuesLoaded = s.score.cueCount ∧ s.score.rowsLoaded = s.score.rowCount
  · rw [if_neg (by simp [hl]), if_pos fun hk => he ⟨hl, hk⟩, refuse]
  · rw [if_pos (not_and_or.mp hl), refuse]

/-- Past the other tests, the search for a FIGURE cue that reaches a row not loaded decides (R67). -/
theorem scoreClose_ended {s : State} (h : loadOpen s) (he : loadEnded s.score) : scoreClose s =
    (unloadedFigure s.score).elim (setScore { s.score with status := .checking, checkAge := 0 } s, .ok, none)
      fun i => (s, .param, some i) := by
  obtain ⟨⟨hc, hr⟩, hk⟩ := he
  rw [scoreClose, if_neg (mt (loadClosed_iff s).mp (not_not.mpr h)), if_neg (by simp [hc, hr]), if_neg (by simp [hk])]
  cases unloadedFigure s.score <;> rfl

/-- Settles O11: the tests of SCORE OPEN and SCORE CLOSE, each in its order. -/
theorem scoreOpenAndClose : Obligations.ScoreOpenAndClose := by
  refine ⟨?_, fun s header hl short => command_cut (exec_scoreOpen_short s short) hl, ?_⟩
  · intro s header taken whole cues rows
    have command := exec_scoreOpen_whole s whole
    refine ⟨fun idle thawed least most few => ?_, fun idle thawed outside => ?_, fun closed => ?_⟩
    · have inside : ¬ (cues = 0 ∨ 2048 < cues ∨ 1024 < rows) := by omega
      exact command_scored command taken (scoreOpen_stored ((scoreOpenable_iff s).mpr ⟨idle, thawed⟩) inside)
    · exact command_refused command taken (scoreOpen_outside ((scoreOpenable_iff s).mpr ⟨idle, thawed⟩) outside)
    · exact command_refused command taken (scoreOpen_closed header ((scoreOpenable_false_iff s).mpr closed))
  · intro s taken sc opened loaded ended reaches
    have command := exec_scoreClose s
    refine ⟨fun ho hl he all => ?_, fun ho hn => ?_, fun ho hl he i hi stops before => ?_, fun hc => ?_⟩
    · exact command_scored command taken (by rw [scoreClose_ended ho ⟨hl, he⟩, unloadedFigure_eq_none all, Option.elim])
    · exact command_refused command taken (scoreClose_unended ho hn)
    · exact command_refused command taken (by rw [scoreClose_ended ho ⟨hl, he⟩, unloadedFigure_eq_some hi stops before, Option.elim])
    · exact command_refused command taken (scoreClose_closed hc)

/-! ### The checksum computation (R68) -/

theorem exec_checksumComplete {s : State} (hh : s.port.held = false) (hc : s.score.status = .checking) :
    exec .checksumComplete s =
      .next { setScore { s.score with checksum := imageChecksum s.score, status := .valid } s with draws := s.draws + 1 } :=
  congrArg Host.Outcome.next ((unlessHeld_free s _ hh).trans (if_pos hc))

/-- Settles O14: the image begins at the address of cue record 0, and the sum is the model's own. -/
theorem checksumMakesValid : Obligations.ChecksumMakesValid := by
  intro s hh hc sc word
  refine ⟨_, exec_checksumComplete hh hc, ?_, by simp [onlyChanges_iff]⟩
  have first : cueAddress 0 = 0 := rfl
  simp only [first, Nat.zero_add]
  rfl

end Sys2Proof.Proofs
end

