-- ==== Sys2Proof/Proofs/ScoreData.lean ====
section
/-! SCORE DATA: the records stored one after the other, up to the first that is refused. -/

namespace Sys2Proof.Proofs

open Sys2Proof Sys2Proof.Machine Sys2Proof.Safety

/-! ### Records written to memory one after the other -/

/-- `new` is `old` with the first `count` records of `content`, `size` bytes each, written from `base` on. -/
structure RecordsWritten (old new : Memory) (base size count : Nat) (content : Nat → List Byte) : Prop where
  form : new.wf = true
  inside : ∀ a, base ≤ a → a < base + size * count →
    (new.read a).toNat = byteAt (content ((a - base) / size)) ((a - base) % size)
  outside : ∀ a, a < base ∨ base + size * count ≤ a → new.read a = old.read a

theorem RecordsWritten.none {m : Memory} (h : m.wf = true) (base size : Nat) (content : Nat → List Byte) :
    RecordsWritten m m base size 0 content where
  form := h
  inside a low high := by omega
  outside _ _ := rfl

theorem RecordsWritten.next {old new : Memory} {base size count : Nat} {content : Nat → List Byte}
    (h : RecordsWritten old new base size count content) (full : (content count).length = size) :
    RecordsWritten old (new.writeAll (base + size * count) (content count)) base size (count + 1) content where
  form := Memory.writeAll_wf _ _ _ h.form
  inside a low high := by
    rw [Nat.mul_succ] at high
    rcases Nat.lt_or_ge a (base + size * count) with before | from_here
    · rw [Memory.read_writeAll_outside _ _ _ _ (.inl before)]
      exact h.inside a low before
    · obtain ⟨i, rfl⟩ := Nat.exists_eq_add_of_le from_here
      have short : i < size := by omega
      have offset : base + size * count + i - base = size * count + i := by omega
      have written := Memory.read_writeAll_inside new (base + size * count) i (content count) h.form (by omega)
      rw [written, offset, Nat.mul_add_div (by omega), Nat.div_eq_of_lt short, Nat.mul_add_mod, Nat.mod_eq_of_lt short, byteAt,
        Nat.add_zero, List.getElem?_eq_getElem (by omega), Option.getD_some]
  outside a away := by
    rw [Nat.mul_succ] at away
    rw [Memory.read_writeAll_outside _ _ _ _ (by omega)]
    exact h.outside a (by omega)

theorem byteAt_drop (bytes : List Byte) (k i : Nat) : byteAt (bytes.drop k) i = byteAt bytes (k + i) := by
  rw [byteAt, List.getElem?_drop, byteAt]

/-! ### Cue records (R65, R66) -/

/-- Cue record `k` of those a SCORE DATA carries. -/
abbrev cueRecord (bytes : List Byte) (k : Nat) : List Byte := (bytes.drop (16 * k)).take 16

/-- The cue time that record `k` must not come before (R65). -/
abbrev timeBefore (sc : Score) (bytes : List Byte) (k : Nat) : Nat :=
  if k = 0 then sc.prevTime else cueTime (cueRecord bytes (k - 1))

theorem cueFailure_eq_none {b : List Byte} {sc : Score} (place : sc.cuesLoaded < sc.cueCount)
    (legal : cueLegal sc.cueCount sc.cuesLoaded b = true) (ordered : sc.cuesLoaded = 0 ∨ sc.prevTime ≤ cueTime b) :
    cueFailure b sc = none := by
  have inOrder : ¬ (sc.cuesLoaded ≠ 0 ∧ cueTime b < sc.prevTime) := by omega
  rw [cueFailure, if_neg (Nat.not_le.mpr place), legal, if_neg (by decide), if_neg inOrder]

/-- The checks in their order: a place, the legal fields, the order (R65). -/
theorem cueFailure_eq_some {b : List Byte} {sc : Score} {r : Result}
    (h : (sc.cueCount ≤ sc.cuesLoaded ∧ r = .space) ∨
      (sc.cuesLoaded < sc.cueCount ∧ cueLegal sc.cueCount sc.cuesLoaded b = false ∧ r = .param) ∨
      (sc.cuesLoaded < sc.cueCount ∧ cueLegal sc.cueCount sc.cuesLoaded b = true ∧
        ¬ (sc.cuesLoaded = 0 ∨ sc.prevTime ≤ cueTime b) ∧ r = .order)) :
    cueFailure b sc = some r := by
  rcases h with ⟨full, rfl⟩ | ⟨place, illegal, rfl⟩ | ⟨place, legal, disordered, rfl⟩
  · rw [cueFailure, if_pos full]
  · rw [cueFailure, if_neg (Nat.not_le.mpr place), illegal, if_pos (by decide)]
  · have late : sc.cuesLoaded ≠ 0 ∧ cueTime b < sc.prevTime := by omega
    rw [cueFailure, if_neg (Nat.not_le.mpr place), legal, if_neg (by decide), if_pos late]

theorem storeCues_of_passes {bytes : List Byte} {sc : Score} (h : cueFailure (bytes.take 16) sc = none) (n : Nat) :
    storeCues (n + 1) bytes sc = storeCues n (bytes.drop 16) (storeCue (bytes.take 16) sc) := by
  simp only [storeCues, h]

theorem storeCues_of_fails {bytes : List Byte} {sc : Score} {r : Result} (h : cueFailure (bytes.take 16) sc = some r) (n : Nat) :
    storeCues (n + 1) bytes sc = ({ sc with status := .failed }, some (r, sc.cuesLoaded)) := by
  simp only [storeCues, h]

/-- Once `m` records are stored, the rest goes on from the score they left. -/
theorem storeCues_add {m : Nat} {bytes : List Byte} {sc sc' : Score} (h : storeCues m bytes sc = (sc', none)) (n : Nat) :
    storeCues (m + n) bytes sc = storeCues n (bytes.drop (16 * m)) sc' := by
  induction m generalizing bytes sc with
  | zero =>
    obtain ⟨rfl, -⟩ := Prod.mk.inj h
    simp
  | succ m ih =>
    rw [Nat.succ_add]
    cases passes : cueFailure (bytes.take 16) sc with
    | none =>
      rw [storeCues_of_passes passes] at h ⊢
      rw [ih h, List.drop_drop, Nat.mul_succ, Nat.add_comm (16 * m)]
    | some r => simp [storeCues_of_fails passes] at h

/-- The score with the first `m` records of a SCORE DATA stored at the next indices. -/
abbrev withCues (sc : Score) (bytes : List Byte) (m : Nat) (mem : Memory) : Score :=
  { sc with mem := mem, cuesLoaded := sc.cuesLoaded + m, prevTime := timeBefore sc bytes m }

/-- Records that pass their checks are stored at the next indices with their clamped values (R65, R66). -/
theorem storeCues_stores {m : Nat} {bytes : List Byte} {sc : Score} (form : sc.mem.wf = true) (whole : 16 * m ≤ bytes.length)
    (passes : ∀ k, k < m → sc.cuesLoaded + k < sc.cueCount ∧
      cueLegal sc.cueCount (sc.cuesLoaded + k) (cueRecord bytes k) = true ∧
      (sc.cuesLoaded + k = 0 ∨ timeBefore sc bytes k ≤ cueTime (cueRecord bytes k))) :
    ∃ mem, storeCues m bytes sc = (withCues sc bytes m mem, none) ∧
      RecordsWritten sc.mem mem (cueAddress sc.cuesLoaded) 16 m fun k => cueClamped (cueRecord bytes k) := by
  induction m with
  | zero => exact ⟨sc.mem, rfl, .none form _ _ _⟩
  | succ m ih =>
    obtain ⟨mem, stored, written⟩ := ih (by omega) fun k hk => passes k (by omega)
    obtain ⟨place, legal, ordered⟩ := passes m (Nat.lt_succ_self m)
    have passed : cueFailure (cueRecord bytes m) (withCues sc bytes m mem) = none := cueFailure_eq_none place legal ordered
    have full : (cueClamped (cueRecord bytes m)).length = 16 := by
      rw [cueClamped_length, List.length_take, List.length_drop]
      omega
    refine ⟨_, ?_, written.next full⟩
    rw [storeCues_add stored, storeCues_of_passes passed, storeCues, storeCue, cueAddress, cueAddress, Nat.mul_add]
    rfl

/-! ### Pattern rows (R65) -/

/-- Pattern row `k` of those a SCORE DATA carries. -/
abbrev rowRecord (bytes : List Byte) (k : Nat) : List Byte := (bytes.drop (2 * k)).take 2

/-- The score with the first `m` rows of a SCORE DATA stored at the next indices. -/
abbrev withRows (sc : Score) (m : Nat) (mem : Memory) : Score := { sc with mem := mem, rowsLoaded := sc.rowsLoaded + m }

theorem storeRows_of_place {sc : Score} (h : sc.rowsLoaded < sc.rowCount) (n : Nat) (bytes : List Byte) :
    storeRows (n + 1) bytes sc = storeRows n (bytes.drop 2)
      (withRows sc 1 (sc.mem.writeAll (rowAddress sc.rowsLoaded) (bytes.take 2))) := by
  rw [storeRows, if_neg (Nat.not_le.mpr h)]

theorem storeRows_of_full {sc : Score} (h : sc.rowCount ≤ sc.rowsLoaded) (n : Nat) (bytes : List Byte) :
    storeRows (n + 1) bytes sc = ({ sc with status := .failed }, some (.space, sc.rowsLoaded)) := by
  rw [storeRows, if_pos h]

/-- Once `m` rows are stored, the rest goes on from the score they left. -/
theorem storeRows_add {m : Nat} {bytes : List Byte} {sc sc' : Score} (h : storeRows m bytes sc = (sc', none)) (n : Nat) :
    storeRows (m + n) bytes sc = storeRows n (bytes.drop (2 * m)) sc' := by
  induction m generalizing bytes sc with
  | zero =>
    obtain ⟨rfl, -⟩ := Prod.mk.inj h
    simp
  | succ m ih =>
    rw [Nat.succ_add]
    rcases Nat.lt_or_ge sc.rowsLoaded sc.rowCount with place | full
    · rw [storeRows_of_place place] at h ⊢
      rw [ih h, List.drop_drop, Nat.mul_succ, Nat.add_comm (2 * m)]
    · simp [storeRows_of_full full] at h

/-- Rows that find a place are stored at the next indices (R65). -/
theorem storeRows_stores {m : Nat} {bytes : List Byte} {sc : Score} (form : sc.mem.wf = true) (whole : 2 * m ≤ bytes.length)
    (places : sc.rowsLoaded + m ≤ sc.rowCount) :
    ∃ mem, storeRows m bytes sc = (withRows sc m mem, none) ∧
      RecordsWritten sc.mem mem (rowAddress sc.rowsLoaded) 2 m (rowRecord bytes) := by
  induction m with
  | zero => exact ⟨sc.mem, rfl, .none form _ _ _⟩
  | succ m ih =>
    obtain ⟨mem, stored, written⟩ := ih (by omega) (by omega)
    have full : (rowRecord bytes m).length = 2 := by
      rw [List.length_take, List.length_drop]
      omega
    have place : (withRows sc m mem).rowsLoaded < (withRows sc m mem).rowCount := places
    refine ⟨_, ?_, written.next full⟩
    rw [storeRows_add stored, storeRows_of_place place, storeRows, rowAddress, rowAddress, Nat.mul_add, ← Nat.add_assoc]
    rfl

/-! ### SCORE DATA (R63, R65) -/

/-- What SCORE DATA answers of the score its records leave, and of the failure that stopped them. -/
def loadAnswer (s : State) : Score × Option (Result × Nat) → State × Result × Option Nat
  | (sc, none) => (setScore sc s, .ok, none)
  | (sc, some (r, ix)) => (setScore sc s, r, some ix)

theorem scoreData_taken {s : State} {body : List Byte} (h : loadOpen s) (hl : legalPart body = true) :
    scoreData body s = loadAnswer s
      (if byteAt body 0 = 1 then storeCues (byteAt body 1) (body.drop 2) s.score
      else storeRows (byteAt body 1) (body.drop 2) s.score) := by
  rw [scoreData, if_neg (mt (loadClosed_iff s).mp (not_not.mpr h)), hl, if_neg (by decide)]
  cases out : (if byteAt body 0 = 1 then storeCues (byteAt body 1) (body.drop 2) s.score
      else storeRows (byteAt body 1) (body.drop 2) s.score) with
  | mk sc failure => cases failure <;> rfl

section
variable {s : State} {part : Byte} {n : Nat} {records : List Byte}

theorem countByte_toNat (h : n ≤ 32) : (BitVec.ofNat 8 n).toNat = n := by
  rw [BitVec.toNat_ofNat]
  omega

/-- SCORE DATA with a legal part and as many records as it counts arrives whole and passes the tests before the records. -/
theorem exec_scoreData_records (h : loadOpen s) (hp : part = 1 ∨ part = 2) (least : 1 ≤ n) (most : n ≤ 32)
    (whole : records.length = partSize part.toNat * n) :
    exec (.scoreData ([part, BitVec.ofNat 8 n] ++ records)) s =
      .next (hostCommand 0x31 s (scoreData ([part, BitVec.ofNat 8 n] ++ records))) ∧
    scoreData ([part, BitVec.ofNat 8 n] ++ records) s =
      loadAnswer s (if part = 1 then storeCues n records s.score else storeRows n records s.score) := by
  have count := countByte_toNat most
  have legalCount : within 1 32 n = true := by simp [within, least, most]
  have legalByte := (within_part_iff part).mpr hp
  have isCues : (part.toNat = 1) = (part = 1) := by simp [BitVec.toNat_eq]
  have length : dataLength ([part, BitVec.ofNat 8 n] ++ records) ≤ ([part, BitVec.ofNat 8 n] ++ records).length := by
    rw [List.cons_append, List.cons_append, dataLength_count, count, legalByte, legalCount, if_pos rfl, if_pos rfl]
    simp only [List.nil_append, List.length_cons, whole, Nat.mul_comm]
    omega
  have legal : legalPart ([part, BitVec.ofNat 8 n] ++ records) = true := by
    simp [legalPart, byteAt, legalByte, legalCount, count]
  have taken := scoreData_taken h legal
  simp only [byteAt, List.cons_append, List.nil_append, List.getElem?_cons_zero, List.getElem?_cons_succ, Option.getD_some, count,
    isCues, List.drop_succ_cons, List.drop_zero] at taken
  exact ⟨exec_scoreData_whole s length, taken⟩

end

/-- Settles O12: the first `m` records are stored, and record `m`, where there is one, fails the check named. -/
theorem scoreDataStoresCues : Obligations.ScoreDataStoresCues := by
  intro s n m records sc cue before ordered taken idle thawed loading form least most whole few passes r status ix outcome
  obtain ⟨mem, stored, written⟩ := storeCues_stores form (whole ▸ Nat.mul_le_mul_left 16 few) passes
  obtain ⟨command, answer⟩ := exec_scoreData_records (part := 1) (n := n) (records := records) ⟨idle, thawed, loading⟩ (.inl rfl)
    least most whole
  have left : scoreData ([1, BitVec.ofNat 8 n] ++ records) s =
      (setScore { withCues sc records m mem with status := status } s, r, ix) := by
    rw [answer, if_pos rfl]
    rcases outcome with ⟨rfl, rfl, rfl, rfl⟩ | ⟨more, rfl, rfl, check⟩
    · rw [stored, loadAnswer, ← loading]
    · have fails : cueFailure (cueRecord records m) (withCues sc records m mem) = some r := cueFailure_eq_some check
      obtain ⟨k, rfl⟩ := Nat.exists_eq_add_of_lt more
      rw [Nat.add_assoc, storeCues_add stored, storeCues_of_fails fails, loadAnswer]
  obtain ⟨t, done, record, score, frame⟩ := command_scored command taken left
  have next : cueAddress (sc.cuesLoaded + m) = cueAddress sc.cuesLoaded + 16 * m := Nat.mul_add 16 _ _
  refine ⟨t, done, record, ?_, ?_, ?_, frame⟩
  · rw [score]
  · rw [score, next]
    exact written.inside
  · rw [score, next]
    exact written.outside

/-- Settles O13: the first `m` rows are stored, and row `m`, where there is one, finds no place. -/
theorem scoreDataStoresRows : Obligations.ScoreDataStoresRows := by
  intro s n m records sc taken idle thawed loading form least most whole few places r status ix outcome
  obtain ⟨mem, stored, written⟩ := storeRows_stores form (whole ▸ Nat.mul_le_mul_left 2 few) places
  obtain ⟨command, answer⟩ := exec_scoreData_records (part := 2) (n := n) (records := records) ⟨idle, thawed, loading⟩ (.inr rfl)
    least most whole
  have left : scoreData ([2, BitVec.ofNat 8 n] ++ records) s =
      (setScore { withRows sc m mem with status := status } s, r, ix) := by
    rw [answer, if_neg (by decide)]
    rcases outcome with ⟨rfl, rfl, rfl, rfl⟩ | ⟨more, full, rfl, rfl, rfl⟩
    · rw [stored, loadAnswer, ← loading]
    · obtain ⟨k, rfl⟩ := Nat.exists_eq_add_of_lt more
      have noPlace : (withRows sc m mem).rowCount ≤ (withRows sc m mem).rowsLoaded := full.ge
      rw [Nat.add_assoc, storeRows_add stored, storeRows_of_full noPlace, loadAnswer]
  obtain ⟨t, done, record, score, frame⟩ := command_scored command taken left
  have next : rowAddress (sc.rowsLoaded + m) = rowAddress sc.rowsLoaded + 2 * m := by
    rw [rowAddress, rowAddress, Nat.mul_add, Nat.add_assoc]
  refine ⟨t, done, record, ?_, ?_, ?_, frame⟩
  · rw [score]
  · intro a low high
    rw [next] at high
    rw [score, written.inside a low high, byteAt_take _ (Nat.mod_lt _ (by decide)), byteAt_drop, Nat.div_add_mod]
  · rw [score, next]
    exact written.outside

end Sys2Proof.Proofs
end

