-- ==== Sys2Proof/Proofs/CueTaking.lean ====
section
/-! CUE_TAKEN: the test of room, the cue at the pointer taken, and the actions of a cue by its kind. -/

namespace Sys2Proof.Proofs

open Sys2Proof Sys2Proof.Machine Sys2Proof.Safety

/-! ### The tests of CUE_TAKEN (R73) -/

theorem exec_cueTaken {s : State} (hh : s.port.held = false) : exec .cueTaken s =
    .next (if cueReached s then (if cueRoom s then waitForRoom (takeCue s) else waitForRoom s) else s) :=
  congrArg Host.Outcome.next (unlessHeld_free s _ hh)

/-- The cue at the pointer is reached. -/
theorem cueReached_iff {s : State} {g : GoRecord} (hg : s.ctl.go = some g) : cueReached s = true ↔
    s.cue.taking = true ∧ s.cue.pointer < s.score.cueCount ∧
      1000 * ((cueTime (cueBytes s.score s.cue.pointer) : Int) - s.cue.horizon) ≤ sdiff s.clock.site g.start := by
  unfold cueReached takingTime
  simp [showTime_of_go hg, and_assoc]

theorem cueRoom_iff {s : State} {c : ConfigRecord} (hc : s.config = some c) : cueRoom s = true ↔
    s.cue.queue.length + (cueActions c s.score s.cue.pointer).length ≤ 64 := by
  simp [cueRoom, nextActions, hc]

/-- The cue at the pointer is reached and finds no room. -/
def lacksRoom (s : State) : Bool := cueReached s && !cueRoom s

theorem lacksRoom_iff {s : State} {c : ConfigRecord} {g : GoRecord} (hc : s.config = some c) (hg : s.ctl.go = some g) :
    lacksRoom s = true ↔ (s.cue.taking = true ∧ s.cue.pointer < s.score.cueCount ∧
      1000 * ((cueTime (cueBytes s.score s.cue.pointer) : Int) - s.cue.horizon) ≤ sdiff s.clock.site g.start) ∧
      64 < s.cue.queue.length + (cueActions c s.score s.cue.pointer).length := by
  rw [lacksRoom, Bool.and_eq_true, cueReached_iff hg, Bool.not_eq_true', ← Bool.not_eq_true, cueRoom_iff hc, Nat.not_le]

/-- A cue without room waits, and QUEUE FULL is raised where it did not wait already. -/
theorem waitForRoom_parts (s : State) : (waitForRoom s).cue = { s.cue with waiting := s.cue.waiting || lacksRoom s } ∧
    (waitForRoom s).events = if lacksRoom s && !s.cue.waiting then s.events.raised .queueFull else s.events := by
  have same : waitForRoom s = if lacksRoom s && !s.cue.waiting then
      raise .queueFull { s with cue := { s.cue with waiting := true } } else s := rfl
  rw [same]
  by_cases begins : (lacksRoom s && !s.cue.waiting) = true
  · obtain ⟨lacks, -⟩ := Bool.and_eq_true_iff.mp begins
    rw [if_pos begins, if_pos begins, lacks, Bool.or_true]
    exact ⟨rfl, rfl⟩
  · have stands : (s.cue.waiting || lacksRoom s) = s.cue.waiting := by
      cases waits : s.cue.waiting with
      | true => rfl
      | false => simpa [waits] using begins
    rw [if_neg begins, if_neg begins, stands]
    exact ⟨rfl, rfl⟩

theorem onlyChanges_waitForRoom (s : State) : onlyChanges [.cue, .events] s (waitForRoom s) := by
  simp [onlyChanges_iff]

/-! ### The cue at the pointer taken (R73, R74) -/

theorem takeCue_cue {s : State} {c : ConfigRecord} (hc : s.config = some c) : (takeCue s).cue =
    { s.cue with
      queue := insertActions s.cue.queue (cueActions c s.score s.cue.pointer)
      pointer := s.cue.pointer + 1
      waiting := false } := by
  simp only [takeCue, nextActions, hc]

/-- A cue taken puts its actions into the queue, and the next cue waits at once where it lacks room. -/
theorem waitForRoom_takeCue {s : State} {c : ConfigRecord} (hc : s.config = some c) :
    (waitForRoom (takeCue s)).cue =
      { s.cue with
        queue := insertActions s.cue.queue (cueActions c s.score s.cue.pointer)
        pointer := s.cue.pointer + 1
        waiting := lacksRoom (takeCue s) } ∧
    (waitForRoom (takeCue s)).events =
      (if lacksRoom (takeCue s) then s.events.raised .queueFull else s.events) ∧
    onlyChanges [.cue, .events] s (waitForRoom (takeCue s)) := by
  obtain ⟨cue, events⟩ := waitForRoom_parts (takeCue s)
  have taken : onlyChanges [.cue] s (takeCue s) := by simp [onlyChanges_iff]
  refine ⟨?_, ?_, onlyChanges_trans taken (onlyChanges_waitForRoom (takeCue s)) (by decide)⟩
  · rw [cue, takeCue_cue hc, Bool.false_or]
  · rw [events, takeCue_cue hc, Bool.not_false, Bool.and_true]
    rfl

/-- Whether the cue after the one taken lacks room, in terms of the state before. -/
theorem lacksRoom_takeCue {s : State} {c : ConfigRecord} {g : GoRecord} (hc : s.config = some c) (hg : s.ctl.go = some g)
    (taking : s.cue.taking = true) : lacksRoom (takeCue s) = true ↔ s.cue.pointer + 1 < s.score.cueCount ∧
      1000 * ((cueTime (cueBytes s.score (s.cue.pointer + 1)) : Int) - s.cue.horizon) ≤ sdiff s.clock.site g.start ∧
      64 < (insertActions s.cue.queue (cueActions c s.score s.cue.pointer)).length +
        (cueActions c s.score (s.cue.pointer + 1)).length := by
  rw [lacksRoom_iff (s := takeCue s) hc hg, takeCue_cue hc, taking, and_assoc, and_assoc, eq_self, true_and]
  rfl

/-! ### The actions of a cue by its kind (R70, R71) -/

/-- An action of cue `i` as it joins the queue: its counted mark clear (R71). -/
abbrev freshAction (i : Nat) (due : Int) (act : Act) : Action := { due := due, act := act, cue := i, counted := false }

/-- The kinds of FIGURE cues name their group in the two low bits (R62). -/
theorem figureKind_group {k : Nat} (g : Fin 4) (h : k = 0x20 + g ∨ k = 0x28 + g) :
    isFigureKind k = true ∧ Fin.ofNat 4 k = g ∧ k ≠ 0x01 := by
  refine ⟨?_, Fin.ext ?_, by omega⟩
  · simp only [isFigureKind, within, Bool.or_eq_true, decide_eq_true_eq]
    omega
  · rw [Fin.val_ofNat]
    omega

/-- The kinds below those of FIGURE cues. -/
theorem isFigureKind_low {k : Nat} (h : k < 0x20) : isFigureKind k = false := by
  simp only [isFigureKind, within, Bool.or_eq_false_iff, decide_eq_false_iff_not]
  omega

section
variable (c : ConfigRecord) {sc : Score} {i : Nat}

theorem cueActions_height (h : byteAt (cueBytes sc i) 0 = 0x01) : cueActions c sc i =
    (List.finRange 4).filterMap fun p : Fin 4 =>
      if (byteAt (cueBytes sc i) 4).testBit p then
        some (freshAction i (1000 * (cueTime (cueBytes sc i) : Int) - 1000 * c.pump[p].lead)
          (.height p (leAt (cueBytes sc i) 5 2) (leAt (cueBytes sc i) 7 2)))
      else none := by
  have bit (p : Fin 4) : (BitVec.ofNat 4 (byteAt (cueBytes sc i) 4)).getLsbD p = (byteAt (cueBytes sc i) 4).testBit p := by
    rw [BitVec.getLsbD_ofNat, decide_eq_true p.isLt, Bool.true_and]
  simp only [cueActions, cueActs, h, if_pos, bit]
  rw [List.map_map, ← List.filterMap_eq_map, List.filterMap_filter]
  rfl

theorem cueActions_figure (g : Fin 4) (h : byteAt (cueBytes sc i) 0 = 0x20 + g ∨ byteAt (cueBytes sc i) 0 = 0x28 + g) :
    cueActions c sc i =
      [freshAction i (1000 * (cueTime (cueBytes sc i) : Int) - 1000 * c.valveLead[g]) (.figure .valve g (cueFigure (cueBytes sc i))),
        freshAction i (1000 * (cueTime (cueBytes sc i) : Int)) (.figure .lamp g (cueFigure (cueBytes sc i)))] := by
  obtain ⟨figure, group, noHeight⟩ := figureKind_group g h
  simp only [cueActions, cueActs, if_neg noHeight, figure, if_pos, group, List.map_cons, List.map_nil]

theorem cueActions_colour (h : byteAt (cueBytes sc i) 0 = 0x02) : cueActions c sc i =
    [freshAction i (1000 * (cueTime (cueBytes sc i) : Int)) (.colour (BitVec.ofNat 16 (leAt (cueBytes sc i) 4 2))
      ⟨byteAt (cueBytes sc i) 6, byteAt (cueBytes sc i) 7, byteAt (cueBytes sc i) 8⟩ (leAt (cueBytes sc i) 9 2))] := by
  simp [cueActions, cueActs, h, isFigureKind_low]

theorem cueActions_master (h : byteAt (cueBytes sc i) 0 = 0x03) : cueActions c sc i =
    [freshAction i (1000 * (cueTime (cueBytes sc i) : Int)) (.master (leAt (cueBytes sc i) 4 2) (leAt (cueBytes sc i) 6 2))] := by
  simp [cueActions, cueActs, h, isFigureKind_low]

theorem cueActions_level (h : byteAt (cueBytes sc i) 0 = 0x04) : cueActions c sc i =
    [freshAction i (1000 * (cueTime (cueBytes sc i) : Int) + (zoneDelayUs c : Int))
      (.level (leAt (cueBytes sc i) 4 2) (leAt (cueBytes sc i) 6 2))] := by
  simp [cueActions, cueActs, h, isFigureKind_low]

theorem cueActions_mark (h : byteAt (cueBytes sc i) 0 = 0x05) : cueActions c sc i =
    [freshAction i (1000 * (cueTime (cueBytes sc i) : Int)) (.mark (byteAt (cueBytes sc i) 4))] := by
  simp [cueActions, cueActs, h, isFigureKind_low]

theorem cueActions_end (h : byteAt (cueBytes sc i) 0 = 0x0F) : cueActions c sc i =
    [freshAction i (1000 * (cueTime (cueBytes sc i) : Int)) .endShow] := by
  simp [cueActions, cueActs, h, isFigureKind_low]

end

/-- Settles O42: the cue taken joins the queue in order, the next may wait at once, and each kind gives its actions. -/
theorem cueTaken : Obligations.CueTaken := by
  intro s c g hh hc hg sorted acts due
  have command := exec_cueTaken hh
  have reached : cueReached s = true ↔ due := cueReached_iff hg
  have room : cueRoom s = true ↔ s.cue.queue.length + acts.length ≤ 64 := cueRoom_iff hc
  refine ⟨fun hd hr => ?_, fun hd hn => ?_, fun hd => ?_, fun i => ?_⟩
  · rw [reached.mpr hd, room.mpr hr, if_pos rfl, if_pos rfl] at command
    obtain ⟨taking, -, -⟩ := hd
    obtain ⟨cue, events, frame⟩ := waitForRoom_takeCue hc
    refine ⟨_, command, frame, ?_, ?_, ?_, fun d => ?_, ?_, ?_⟩
    · rw [cue]
    · rw [cue]
      exact insertActions_perm acts s.cue.queue
    · rw [cue]
      exact insertActions_sorted acts s.cue.queue sorted
    · rw [cue, insertActions_filter_due _ sorted, List.filter_append]
    · rw [cue]
      exact lacksRoom_takeCue hc hg taking
    · rw [events, cue]
  · rw [reached.mpr hd, Bool.eq_false_iff.mpr (mt room.mp (Nat.not_le.mpr hn)), if_pos rfl, if_neg (by decide)] at command
    have lacks : lacksRoom s = true := (lacksRoom_iff hc hg).mpr ⟨hd, hn⟩
    obtain ⟨cue, events⟩ := waitForRoom_parts s
    rw [lacks, Bool.or_true] at cue
    refine ⟨_, command, onlyChanges_waitForRoom s, cue, ?_⟩
    rw [events, lacks, Bool.true_and]
    cases s.cue.waiting <;> rfl
  · rw [Bool.eq_false_iff.mpr (mt reached.mp hd)] at command
    exact command
  · exact ⟨cueActions_height c, cueActions_figure c, cueActions_colour c, cueActions_master c, cueActions_level c,
      cueActions_mark c, cueActions_end c⟩

end Sys2Proof.Proofs
end

