-- ==== Sys2Proof/Proofs/PumpSlot.lean ====
section
/-! SUPPORT. What the pump controller's invariant reads, the runs of the channels apart from the start list and the own ask; what each
operation of the start slot does to them. -/

namespace Sys2Proof.Proofs

open Sys2Proof Sys2Proof.Machine Sys2Proof.Safety

/-! ### What the invariant reads -/

/-- What the invariant reads of a channel. -/
structure Run where
  stage : Stage
  dCmd  : Nat
  dOut  : Nat
  ran   : Bool

/-- The run of a channel. -/
def runOf (ch : Channel) : Run where
  stage := ch.stage
  dCmd := ch.dCmd
  dOut := ch.dOut
  ran := ch.ranAtPeriod

/-- What the invariant reads of the pump controller: the runs, the start list and the own ask. -/
structure Pumps where
  run  : Fin 4 → Run
  list : List (Fin 4)
  ask  : Ask

/-- What the invariant reads of a state's pump controller. -/
def pumps (s : State) : Pumps where
  run p := runOf s.pump.chan[p]
  list := s.pump.startList
  ask := s.pump.ask

/-- A channel that does not run has no drive, and the lamps do not see it run; in HALTED none has a command (R95, R114, R115). -/
structure RunKept (halted : Prop) (r : Run) : Prop where
  stopped : r.stage ≠ .on → r.dOut = 0
  seen    : r.ran = true → r.stage = .on
  halted  : halted → r.dCmd = 0

/-- The start list, the own ask and the stages agree (R101, R116, R118). -/
structure SlotKept (x : Pumps) : Prop where
  listed : ∀ p, p ∈ x.list ↔ (x.run p).stage.inList = true
  once   : x.list.Nodup
  asks   : ∀ p, askCarries x.ask (x.run p).stage p
  atHead : ∀ p, (x.run p).stage = .asking ∨ (x.run p).stage = .asked → x.list.head? = some p

/-- The invariant is about the runs one by one, and about the slot. -/
theorem pumpInv_iff (s : State) :
    PumpInv s ↔ (∀ p, RunKept (s.ctl.state = .halted) ((pumps s).run p)) ∧ SlotKept (pumps s) := by
  have off (ch : Channel) : ch.runOutput = false ↔ ch.stage ≠ .on := by simp [Channel.runOutput]
  have on (ch : Channel) : ch.runOutput = true ↔ ch.stage = .on := by simp [Channel.runOutput]
  constructor
  · rintro ⟨stopped, seen, halted, listed, once, asks, atHead⟩
    exact ⟨fun p => ⟨fun h => stopped p ((off _).mpr h), fun h => (on _).mp (seen p h), fun h => halted h p⟩,
      listed, once, asks, atHead⟩
  · rintro ⟨runs, listed, once, asks, atHead⟩
    exact ⟨fun p h => (runs p).stopped ((off _).mp h), fun p h => (on _).mpr ((runs p).seen h), fun h p => (runs p).halted h,
      listed, once, asks, atHead⟩

theorem RunKept.mono {a b : Prop} {r : Run} (h : RunKept a r) (hab : b → a) : RunKept b r :=
  ⟨h.stopped, h.seen, h.halted ∘ hab⟩

/-- A channel that does not run keeps its invariant in whatever stage it comes to. -/
theorem RunKept.of_stage {a : Prop} {r : Run} (h : RunKept a r) (off : r.stage ≠ .on) (st : Stage) :
    RunKept a { r with stage := st } :=
  ⟨fun _ => h.stopped off, fun ran => absurd (h.seen ran) off, h.halted⟩

/-- Work that leaves the runs, the start list and the own ask, and does not enter HALTED, keeps the invariant. -/
theorem pumpInv_of_pumps {s t : State} (h : PumpInv s) (same : pumps t = pumps s)
    (halted : t.ctl.state = .halted → s.ctl.state = .halted) : PumpInv t := by
  obtain ⟨runs, slot⟩ := (pumpInv_iff s).mp h
  rw [pumpInv_iff, same]
  exact ⟨fun p => (runs p).mono halted, slot⟩

/-- Work on other parts than the pumps that does not enter HALTED keeps the invariant. -/
theorem pumpInv_congr {s t : State} (h : PumpInv s) (pump : t.pump = s.pump)
    (halted : t.ctl.state = .halted → s.ctl.state = .halted) : PumpInv t :=
  pumpInv_of_pumps h (by simp only [pumps, pump]) halted

/-- The same for work that leaves the show controller alone too. -/
theorem pumpInv_frame {s t : State} (h : PumpInv s) (pump : t.pump = s.pump) (ctl : t.ctl = s.ctl) : PumpInv t :=
  pumpInv_congr h pump fun halted => by rwa [← ctl]

/-! ### One channel's change of stage -/

theorem runOf_put (v : Vector Channel 4) (p : Fin 4) (ch : Channel) :
    (fun q : Fin 4 => runOf (put v p ch)[q]) = Function.update (fun q : Fin 4 => runOf v[q]) p (runOf ch) := by
  funext q
  rw [put_get, Function.update_apply]
  split <;> rfl

theorem pumps_setStage (p : Fin 4) (st : Stage) (s : State) :
    pumps (setStage p st s) = { pumps s with run := Function.update (pumps s).run p { (pumps s).run p with stage := st } } := by
  simp only [pumps, setStage_pump, runOf_put]
  rfl

theorem pumps_setAsk (a : Ask) (s : State) : pumps (setAsk a s) = { pumps s with ask := a } := rfl

theorem pumps_extendBusy (u : SiteTime) (s : State) : pumps (extendBusy u s) = pumps s := rfl

/-- The own ask carries the channel. -/
def Carries (a : Ask) (p : Fin 4) : Prop := a = .queued (some p) ∨ ∃ e, a = .window e (some p)

theorem carries_unique {a : Ask} {p q : Fin 4} (hp : Carries a p) (hq : Carries a q) : q = p := by
  rcases hp with rfl | ⟨e, rfl⟩ <;> simpa [Carries, eq_comm] using hq

/-- The ask carries one channel at most. -/
theorem alone_of_carries {a : Ask} {p : Fin 4} (carried : Carries a p) (q : Fin 4) (hq : q ≠ p) : ¬ Carries a q :=
  fun other => hq (carries_unique carried other)

theorem carries_iff {a : Ask} {st : Stage} {p : Fin 4} (h : askCarries a st p) : st = .asking ∨ st = .asked ↔ Carries a p :=
  or_congr h.1 h.2

/-- A channel that neither asks nor is asked is not carried. -/
theorem askCarries_of_not {a : Ask} {st : Stage} {p : Fin 4} (carried : ¬ Carries a p) (h : ¬ (st = .asking ∨ st = .asked)) :
    askCarries a st p := by
  obtain ⟨notQueued, notWindow⟩ := not_or.mp carried
  obtain ⟨notAsking, notAsked⟩ := not_or.mp h
  exact ⟨iff_of_false notAsking notQueued, iff_of_false notAsked notWindow⟩

section
variable {x : Pumps} (h : SlotKept x)
include h

theorem SlotKept.carries (p : Fin 4) : (x.run p).stage = .asking ∨ (x.run p).stage = .asked ↔ Carries x.ask p :=
  carries_iff (h.asks p)

/-- One channel changes its stage, and with it the list and the ask, while no other channel asks or is asked. -/
theorem SlotKept.update {p : Fin 4} {r : Run} {l : List (Fin 4)} {a : Ask} (alone : ∀ q, q ≠ p → ¬ Carries x.ask q)
    (once : l.Nodup) (others : ∀ q, q ≠ p → (q ∈ l ↔ q ∈ x.list)) (listed : p ∈ l ↔ r.stage.inList = true)
    (ask : askCarries a r.stage p) (rest : ∀ q, q ≠ p → ¬ Carries a q)
    (head : r.stage = .asking ∨ r.stage = .asked → l.head? = some p) :
    SlotKept { run := Function.update x.run p r, list := l, ask := a } := by
  refine ⟨fun q => ?_, once, fun q => ?_, fun q hq => ?_⟩
  all_goals
    by_cases same : q = p
    · subst same
      simp_all
  · simp only [Function.update_of_ne same, others q same, h.listed q]
  · simp only [Function.update_of_ne same]
    exact askCarries_of_not (rest q same) (mt (h.carries q).mp (alone q same))
  · simp only [Function.update_of_ne same] at hq
    exact absurd ((h.carries q).mp hq) (alone q same)

/-- A carried channel stands at the head of the start list, and does not run. -/
theorem SlotKept.carried {p : Fin 4} (carried : Carries x.ask p) :
    x.list.head? = some p ∧ (x.run p).stage ≠ .on := by
  have asks := (h.carries p).mpr carried
  refine ⟨h.atHead p asks, fun on => ?_⟩
  simp [on] at asks

/-- The carried channel leaves the ask for the head of the start list (R116, R118). -/
theorem SlotKept.returned {p : Fin 4} (carried : Carries x.ask p) : SlotKept
    { run := Function.update x.run p { x.run p with stage := .waiting }, list := p :: x.list.erase p, ask := .none } := by
  refine h.update (alone_of_carries carried) (List.nodup_cons.mpr ⟨h.once.not_mem_erase, h.once.erase p⟩) (fun q hq => ?_)
    (by simp [Stage.inList]) (by simp [askCarries]) (fun q _ => by simp [Carries]) (by simp)
  simp [hq, List.mem_erase_of_ne hq]

/-- The carried channel is granted: it leaves the list with its run output on (R120). -/
theorem SlotKept.granted {p : Fin 4} (carried : Carries x.ask p) {r : Run} (on : r.stage = .on) :
    SlotKept { run := Function.update x.run p r, list := x.list.erase p, ask := .none } := by
  refine h.update (alone_of_carries carried) (h.once.erase p) (fun q hq => List.mem_erase_of_ne hq) ?_
    (by simp [askCarries, on]) (fun q _ => by simp [Carries]) (by simp [on])
  simp [on, Stage.inList, h.once.not_mem_erase]

/-- The ask of a carried channel is completed (R118). -/
theorem SlotKept.completed {p : Fin 4} (carried : Carries x.ask p) (e : SiteTime) :
    SlotKept { x with run := Function.update x.run p { x.run p with stage := .asked }, ask := .window e (some p) } := by
  have asks := (h.carries p).mpr carried
  have head := h.atHead p asks
  exact h.update (alone_of_carries carried) h.once (fun q _ => Iff.rfl) (iff_of_true (List.mem_of_mem_head? head) rfl)
    (by simp [askCarries]) (fun q hq => by simpa [Carries, eq_comm] using hq) fun _ => head

/-- The head of the start list asks, where no ask is out (R118). -/
theorem SlotKept.asking {p : Fin 4} (free : x.ask = .none) (head : x.list.head? = some p) :
    SlotKept { x with run := Function.update x.run p { x.run p with stage := .asking }, ask := .queued (some p) } := by
  exact h.update (fun q _ => by simp [Carries, free]) h.once (fun q _ => Iff.rfl) (iff_of_true (List.mem_of_mem_head? head) rfl)
    (by simp [askCarries]) (fun q hq => by simpa [Carries, eq_comm] using hq) fun _ => head

/-- An ask that carries no channel is replaced by another such. -/
theorem SlotKept.vacant {a : Ask} (before : ∀ p, ¬ Carries x.ask p) (after : ∀ p, ¬ Carries a p) : SlotKept { x with ask := a } :=
  ⟨h.listed, h.once, fun p => askCarries_of_not (after p) (mt (h.carries p).mp (before p)), h.atHead⟩

end

/-! ### Work on the slot (R102, R116 to R121) -/

/-- Work on the slot keeps it in order, and changes of the runs the stages alone, of channels that do not run. -/
structure SlotWork (x y : Pumps) : Prop where
  slot : SlotKept y
  runs : ∀ p, y.run p = x.run p ∨ (x.run p).stage ≠ .on ∧ ∃ st, y.run p = { x.run p with stage := st }

theorem slotWork_refl {x : Pumps} (h : SlotKept x) : SlotWork x x := ⟨h, fun _ => .inl rfl⟩

/-- One channel that does not run changes its stage. -/
theorem slotWork_update {x y : Pumps} {p : Fin 4} {st : Stage} (slot : SlotKept y) (off : (x.run p).stage ≠ .on)
    (run : y.run = Function.update x.run p { x.run p with stage := st }) : SlotWork x y := by
  refine ⟨slot, fun q => ?_⟩
  rw [run]
  by_cases same : q = p
  · subst same
    exact .inr ⟨off, st, Function.update_self ..⟩
  · exact .inl (Function.update_of_ne same ..)

theorem pumpInv_of_slotWork {s t : State} (h : PumpInv s) (work : SlotKept (pumps s) → SlotWork (pumps s) (pumps t))
    (halted : t.ctl.state = .halted → s.ctl.state = .halted) : PumpInv t := by
  obtain ⟨runs, slot⟩ := (pumpInv_iff s).mp h
  refine (pumpInv_iff t).mpr ⟨fun p => ?_, (work slot).slot⟩
  rcases (work slot).runs p with same | ⟨off, st, same⟩
  · rw [same]
    exact (runs p).mono halted
  · rw [same]
    exact ((runs p).of_stage off st).mono halted

section
variable {s : State} (h : SlotKept (pumps s))
include h

/-- The carried channel returns to the head of the start list (R116). -/
theorem slotWork_returnToHead {p : Fin 4} (carried : Carries s.pump.ask p) :
    SlotWork (pumps s) (pumps (returnToHead p (setAsk .none s))) := by
  have returned : pumps (returnToHead p (setAsk .none s)) =
      { run := Function.update (pumps s).run p { (pumps s).run p with stage := .waiting }
        list := p :: (pumps s).list.erase p, ask := .none } := by
    have staged := pumps_setStage p .waiting (setAsk .none s)
    exact congrArg (fun x : Pumps => { x with list := p :: s.pump.startList.erase p }) staged
  rw [returned]
  exact slotWork_update (h.returned carried) (h.carried carried).2 rfl

/-- The own ask is dropped or withdrawn (R118). -/
theorem slotWork_askLost : SlotWork (pumps s) (pumps (askLost s)) := by
  unfold askLost
  split
  case h_1 ask =>
    exact ⟨h.vacant (by simp [pumps, ask, Carries]) (by simp [Carries]), fun _ => .inl rfl⟩
  case h_2 p ask => exact slotWork_returnToHead h (.inl ask)
  case h_3 | h_4 => exact slotWork_refl h

/-- The own START-ASK is completed (R118). -/
theorem slotWork_askCompleted (t : SiteTime) : SlotWork (pumps s) (pumps (askCompleted t s)) := by
  unfold askCompleted
  split
  case h_1 ask =>
    exact ⟨h.vacant (a := .window (plus t holdWindow) none) (by simp [pumps, ask, Carries]) (by simp [Carries]),
      fun _ => .inl rfl⟩
  case h_2 p ask =>
    have carried : Carries (pumps s).ask p := .inl ask
    rw [pumps_extendBusy, pumps_setStage]
    exact slotWork_update (h.completed carried (plus t holdWindow)) (h.carried carried).2 rfl
  case h_3 | h_4 => exact slotWork_refl h

/-- The head of the start list asks (R118). -/
theorem slotKept_asking {p : Fin 4} (free : s.pump.ask = .none) (head : s.pump.startList.head? = some p) :
    SlotKept (pumps (setAsk (.queued (some p)) (setStage p .asking s))) := by
  rw [pumps_setAsk, pumps_setStage]
  exact h.asking free head

end

/-! ### Frames asked for and dropped (R46, R47, R50) -/

/-- What a frame asked for, sent or dropped does to the pump controller: nothing, or the report of a lost START-ASK. -/
def sameOrLost (s t : State) : Prop := t.pump = s.pump ∨ t.pump = (askLost s).pump

theorem sameOrLost_of_pump {s u t : State} (h : sameOrLost u t) (pump : u.pump = s.pump) : sameOrLost s t := by
  unfold sameOrLost at h ⊢
  rwa [pump, askLost_pump_congr pump] at h

theorem dropFrame_pump (p : Payload) (s : State) : sameOrLost s (dropFrame p s) := by
  cases p with
  | startAsk x => exact .inr (askLost_pump_congr rfl)
  | beacon | go | stop | halt => exact .inl rfl

theorem enqueue_pump (p : Payload) (s : State) : sameOrLost s (enqueue p s) := by
  simp only [enqueue]
  split
  · exact .inl rfl
  · split
    · exact .inl rfl
    · split
      · exact sameOrLost_of_pump (dropFrame_pump _ _) rfl
      · exact dropFrame_pump p s

theorem failAttempt_pump (f : TxFrame) (s : State) : sameOrLost s (failAttempt f s) := by
  simp only [failAttempt]
  split
  · exact .inl rfl
  · split
    · exact .inl rfl
    · exact sameOrLost_of_pump (dropFrame_pump _ _) rfl

theorem slotWork_sameOrLost {s t : State} (h : SlotKept (pumps s)) (st : sameOrLost s t) : SlotWork (pumps s) (pumps t) := by
  rcases st with pump | pump
  · have same : pumps t = pumps s := by simp only [pumps, pump]
    rw [same]
    exact slotWork_refl h
  · have same : pumps t = pumps (askLost s) := by simp only [pumps, pump]
    rw [same]
    exact slotWork_askLost h

/-! ### The slot over a pump period (R112, R116, R118) -/

/-- Channels that leave ON leave the slot as it was. -/
theorem slotKept_of_stopped {s t : State} (h : SlotKept (pumps s)) (list : t.pump.startList = s.pump.startList)
    (ask : t.pump.ask = s.pump.ask) (stage : ∀ p : Fin 4, t.pump.chan[p].stage = s.pump.chan[p].stage ∨
      s.pump.chan[p].stage = .on ∧ t.pump.chan[p].stage = .off) : SlotKept (pumps t) := by
  have sameList : (pumps t).list = (pumps s).list := list
  have sameAsk : (pumps t).ask = (pumps s).ask := ask
  have stages (p : Fin 4) : ((pumps t).run p).stage = ((pumps s).run p).stage ∨
      ((pumps s).run p).stage = .on ∧ ((pumps t).run p).stage = .off := stage p
  refine ⟨fun p => ?_, sameList ▸ h.once, fun p => ?_, fun p hp => ?_⟩
  · rw [sameList, h.listed p]
    rcases stages p with same | ⟨on, off⟩
    · rw [same]
    · simp [on, off, Stage.inList]
  · have before := h.asks p
    rw [sameAsk]
    rcases stages p with same | ⟨on, off⟩
    · rwa [same]
    · simpa [askCarries, on, off] using before
  · rw [sameList]
    rcases stages p with same | ⟨-, off⟩
    · exact h.atHead p (same ▸ hp)
    · simp [off] at hp

theorem slotKept_driven {s : State} (h : PumpInv s) (c : ConfigRecord) (fb : BitVec 4) : SlotKept (pumps (driven c fb s)) := by
  obtain ⟨list, ask, -⟩ := driven_slot c fb s
  exact slotKept_of_stopped ((pumpInv_iff s).mp h).2 list ask (driven_stage c fb s)

/-- A channel asks, or is asked, after the commands where it was before and its command is not to leave (R116). -/
theorem commanded_asks (pre : Nat) (ch : Channel) :
    ((commanded pre ch).stage = .asking ↔ ch.stage = .asking ∧ pre ≠ 0) ∧
    ((commanded pre ch).stage = .asked ↔ ch.stage = .asked ∧ pre ≠ 0) := by
  cases st : ch.stage <;> by_cases hp : pre = 0 <;> simp [commanded, st, hp]

/-- A channel is in the start list after the commands where it does not run and its command is not to leave (R116). -/
theorem commanded_inList (pre : Nat) (ch : Channel) : (commanded pre ch).stage.inList = true ↔
    (ch.stage.inList = true ∨ ch.stage = .off) ∧ pre ≠ 0 := by
  cases st : ch.stage <;> by_cases hp : pre = 0 <;> simp [commanded, st, hp, Stage.inList]

section
variable {d : State} (h : SlotKept (pumps d)) (c : ConfigRecord)
include h

theorem stageCommands_asks (p : Fin 4) :
    askCarries (stageCommands c d).pump.ask (stageCommands c d).pump.chan[p].stage p := by
  have before : askCarries d.pump.ask d.pump.chan[p].stage p := h.asks p
  rw [stageCommands_ask h.once h.listed h.asks, (stageCommands_parts h.once h.listed).1, askCarries,
    (commanded_asks _ _).1, (commanded_asks _ _).2, before.1, before.2]
  have stays (q : Fin 4) : (if preStart c d q = 0 then none else some q) = some p ↔ q = p ∧ preStart c d p ≠ 0 := by
    by_cases same : q = p
    · simp [same]
    · simp [same]
  cases d.pump.ask with
  | none => simp
  | queued o => cases o <;> simp [stays]
  | window e o => cases o <;> simp [stays]

/-- The commands keep the start list in order: those that leave, leave the list, and those that join it were not in it (R116). -/
theorem slotKept_stageCommands : SlotKept (pumps (stageCommands c d)) := by
  obtain ⟨chan, list, -⟩ := stageCommands_parts h.once h.listed (c := c)
  have once : d.pump.startList.Nodup := h.once
  have listed (p : Fin 4) : p ∈ d.pump.startList ↔ d.pump.chan[p].stage.inList = true := h.listed p
  refine ⟨fun p => ?_, ?_, stageCommands_asks h c, fun p hp => ?_⟩
  · simp only [pumps, runOf, chan, list]
    rw [commanded_inList, ← listed]
    simp only [List.mem_append, List.mem_filter, List.mem_finRange, true_and, decide_eq_true_eq, or_and_right]
  · simp only [pumps, list]
    refine (once.filter _).append ((List.nodup_finRange 4).filter _) fun p before joins => ?_
    have stays := (listed p).mp (List.mem_of_mem_filter before)
    rw [(of_decide_eq_true (List.mem_filter.mp joins).2).1] at stays
    cases stays
  · simp only [pumps, runOf, chan, (commanded_asks _ _).1, (commanded_asks _ _).2, ← or_and_right] at hp
    obtain ⟨asks, stays⟩ := hp
    have head : d.pump.startList.head? = some p := h.atHead p asks
    obtain ⟨rest, split⟩ := List.head?_eq_some_iff.mp head
    simp [pumps, list, split, stays]

/-- The ask of the head keeps the slot in order, also where its frame is dropped at once (R118, R121). -/
theorem slotKept_stageAsk : SlotKept (pumps (stageAsk d)) := by
  cases list : d.pump.startList with
  | nil => rwa [stageAsk_empty list]
  | cons p rest =>
    cases slot : slotBusy d with
    | true => rwa [stageAsk_busy slot]
    | false =>
      by_cases waits : d.pump.chan[p].stage = .waiting
      · have asking := slotKept_asking h ((slotBusy_iff d).mp slot).1 (p := p) (by simp [list])
        rw [stageAsk_head list slot waits, requestAsk]
        split
        · exact (slotWork_askCompleted asking _).slot
        · exact (slotWork_sameOrLost asking (enqueue_pump _ _)).slot
      · have stands : stageAsk d = d := by simp [stageAsk, list, waits, -Fin.getElem_fin]
        rwa [stands]

end

end Sys2Proof.Proofs
end

