-- ==== Sys2Proof/Proofs/PumpInvariant.lean ====
section
/-! The pump controller's invariant (R95, R101, R114 to R118) is kept by every step. -/

namespace Sys2Proof.Proofs

open Sys2Proof Sys2Proof.Machine Sys2Proof.Safety

/-! ### The requests to the pump controller (R104, R105, R115, R124) -/

/-- Work on the channels one by one that leaves their runs. -/
theorem pumps_mapChannels {f : Fin 4 → Channel → Channel} (same : ∀ p ch, runOf (f p ch) = runOf ch) (s : State) :
    pumps (mapChannels f s) = pumps s := by
  simp only [pumps, mapChannels_pump, gen_get_fin, same]

theorem pumps_pumpCoda (len : Nat) (s : State) : pumps (pumpCoda len s) = pumps s := by
  unfold pumpCoda
  exact pumps_mapChannels (by intros; rfl) s

theorem pumps_pumpClear (s : State) : pumps (pumpClear s) = pumps s := by
  unfold pumpClear
  exact pumps_mapChannels (by intros; rfl) s

theorem pumps_pumpRearm (s : State) : pumps (pumpRearm s) = pumps s := by
  unfold pumpRearm
  exact pumps_mapChannels (by intros; rfl) s

theorem pumps_pumpHeight (p : Fin 4) (target len : Nat) (anchor : Int) (s : State) :
    pumps (pumpHeight p target len anchor s) = pumps s := by
  have same := runOf_put s.pump.chan p
    { s.pump.chan[p] with height := s.pump.chan[p].height.fadeTo (showTime s) target anchor len }
  have unchanged : Function.update (fun q : Fin 4 => runOf s.pump.chan[q]) p (runOf s.pump.chan[p]) = (pumps s).run :=
    Function.update_eq_self p _
  exact congrArg (fun r => { pumps s with run := r }) (same.trans unchanged)

/-- What is read of the pumps of two states with the same pump controller. -/
theorem pumps_congr {s t : State} (h : t.pump = s.pump) : pumps t = pumps s := by simp only [pumps, h]

/-- PUMP HALT leaves no command, nothing waiting, and an ask that carries no channel (R115). -/
theorem slotKept_pumpHalt (s : State) : SlotKept (pumps (pumpHalt s)) := by
  have stage (p : Fin 4) : ((pumps (pumpHalt s)).run p).stage = if s.pump.chan[p].stage = .on then .on else .off := by
    simp [pumps, runOf, pumpHalt_pump]
  have list : (pumps (pumpHalt s)).list = [] := by simp [pumps, pumpHalt_pump]
  have quiet (p : Fin 4) : ¬ (((pumps (pumpHalt s)).run p).stage = .asking ∨ ((pumps (pumpHalt s)).run p).stage = .asked) := by
    rw [stage]
    split <;> simp
  have vacant (p : Fin 4) : ¬ Carries (pumps (pumpHalt s)).ask p := by
    have ask : (pumps (pumpHalt s)).ask = vacated s.pump.ask := by simp [pumps, pumpHalt_pump]
    rw [ask]
    cases s.pump.ask <;> simp [vacated, Carries]
  refine ⟨fun p => ?_, by simp [list], fun p => askCarries_of_not (vacant p) (quiet p), fun p h => absurd h (quiet p)⟩
  rw [list, stage]
  split <;> simp [Stage.inList]

section
variable {s t : State} (h : PumpInv s)
include h

/-- HALT entry takes every command away (R21, R115). -/
theorem pumpInv_enterHalted_peer : PumpInv (enterHalted false s) := by
  have same : pumps (enterHalted false s) = pumps (pumpHalt s) := pumps_congr (by simp [enterHalted, pumpHalt_pump])
  obtain ⟨runs, -⟩ := (pumpInv_iff s).mp h
  rw [pumpInv_iff, same]
  refine ⟨fun p => ?_, slotKept_pumpHalt s⟩
  have run : (pumps (pumpHalt s)).run p = { (pumps s).run p with
      dCmd := 0, stage := if s.pump.chan[p].stage = .on then .on else .off } := by
    simp [pumps, runOf, pumpHalt_pump]
  rw [run]
  refine ⟨fun off => (runs p).stopped fun on => off ?_, fun ran => ?_, fun _ => rfl⟩
  · exact if_pos on
  · exact if_pos ((runs p).seen ran)

/-! ### The start slot (R46, R47, R117 to R121) -/

theorem pumpInv_of_sameOrLost (st : sameOrLost s t) (ctl : t.ctl = s.ctl) : PumpInv t :=
  pumpInv_of_slotWork h (fun slot => slotWork_sameOrLost slot st) fun halted => by rwa [← ctl]

theorem pumpInv_requestFrame (p : Payload) : PumpInv (requestFrame p s) := by
  unfold requestFrame
  split
  · exact h
  · exact pumpInv_of_sameOrLost h (enqueue_pump p s) (by simp)

theorem pumpInv_failAttempt (f : TxFrame) : PumpInv (failAttempt f s) :=
  pumpInv_of_sameOrLost h (failAttempt_pump f s) (by simp)

theorem pumpInv_withdrawAsk : PumpInv (withdrawAsk s) := by
  unfold withdrawAsk
  split
  · exact pumpInv_of_sameOrLost h (.inr (askLost_pump_congr rfl)) (by simp)
  · exact h

theorem pumpInv_askCompleted (u : SiteTime) : PumpInv (askCompleted u s) :=
  pumpInv_of_slotWork h (fun slot => slotWork_askCompleted slot u) (by simp)

theorem pumpInv_completeAttempt (c : ConfigRecord) (f : TxFrame) : PumpInv (completeAttempt c f s) := by
  unfold completeAttempt reportSent
  split
  case h_1 => exact pumpInv_frame h rfl rfl
  case h_2 =>
    refine pumpInv_askCompleted ?_ _
    exact pumpInv_frame h rfl rfl
  case h_3 | h_4 | h_5 => exact pumpInv_frame h rfl rfl

/-- At the moment CLASH is set a queued START-ASK counts as completed (R121). -/
theorem pumpInv_hearClash : PumpInv (hearClash s) := by
  unfold hearClash
  split
  · exact pumpInv_frame h rfl rfl
  · refine pumpInv_askCompleted ?_ _
    exact pumpInv_frame h rfl rfl

/-- A START-ASK heard from a lower number takes the hold window (R119). -/
theorem pumpInv_askHeard (c : ConfigRecord) (i : Fin 32) (n : Byte) (arrival : SiteTime) : PumpInv (askHeard c i n arrival s) := by
  have heard : PumpInv (extendBusy (plus arrival (settleUs s))
      { s with pump := { s.pump with lastAsk := some ⟨BitVec.ofNat 8 (nodeNumber i), n, arrival⟩ } }) :=
    pumpInv_of_pumps h rfl id
  simp only [askHeard]
  split
  case h_1 e p ask =>
    split
    · exact pumpInv_of_slotWork heard (fun slot => slotWork_returnToHead slot (.inr ⟨e, ask⟩)) id
    · exact heard
  all_goals exact heard

/-- The end of the hold window grants the channel in it, if one is (R120). -/
theorem pumpInv_endWindow : PumpInv (endWindow s) := by
  obtain ⟨runs, slot⟩ := (pumpInv_iff s).mp h
  unfold endWindow
  split
  case h_1 e p ask =>
    have carried : Carries (pumps s).ask p := .inr ⟨e, ask⟩
    have granted : pumps (grantChannel p (setAsk .none s)) =
        { run := Function.update (pumps s).run p { (pumps s).run p with stage := .on, dCmd := 0, dOut := 0 }
          list := (pumps s).list.erase p, ask := .none } := by
      simp only [pumps, grantChannel, runOf_put, setAsk_pump]
      rfl
    rw [pumpInv_iff, granted]
    refine ⟨fun q => ?_, slot.granted carried rfl⟩
    by_cases same : q = p
    · subst same
      simp only [Function.update_self]
      exact ⟨fun off => absurd rfl off, fun _ => rfl, fun _ => rfl⟩
    · simp only [Function.update_of_ne same]
      exact runs q
  case h_2 e ask =>
    refine (pumpInv_iff _).mpr ⟨runs, slot.vacant ?_ (by simp [Carries])⟩
    simp [pumps, ask, Carries]
  case h_3 | h_4 => exact h

/-! ### The transitions of the show controller -/

theorem pumpInv_raise (src : Source) : PumpInv (raise src s) := pumpInv_frame h rfl rfl

theorem pumpInv_evaluateLamps : PumpInv (evaluateLamps s) := pumpInv_frame h (by simp) (by simp)

theorem pumpInv_enterCountdown (g : GoRecord) : PumpInv (enterCountdown g s) := pumpInv_congr h (by simp) (by simp)

theorem pumpInv_enterRunning : PumpInv (enterRunning s) := pumpInv_congr h (by simp) (by simp)

theorem pumpInv_enterCoda (cause : CodaCause) : PumpInv (enterCoda cause s) := by
  refine pumpInv_of_pumps h (t := enterCoda cause s) ?_ (by simp)
  have ramps : (enterCoda cause s).pump = (pumpCoda (codaLength s) s).pump := by
    simp [enterCoda, pumpCoda, showTime, showNow]
  rw [pumps_congr ramps, pumps_pumpCoda]

theorem pumpInv_fireEnd : PumpInv (fireEnd s) := by
  unfold fireEnd
  split
  case h_1 => exact pumpInv_enterCoda h _
  case h_2 => exact pumpInv_enterCoda (pumpInv_enterRunning h) _
  all_goals exact h

theorem pumpInv_enterIdle : PumpInv (enterIdle s) := by
  obtain ⟨-, pump, -⟩ := enterIdle_parts s
  exact pumpInv_of_pumps h ((pumps_congr pump).trans (pumps_pumpClear s)) (by simp)

theorem pumpInv_completeCoda : PumpInv (completeCoda s) := by
  have written : PumpInv (writeResult (codaResult s) (goShowId s) (showNow s) s) := pumpInv_congr h rfl id
  exact pumpInv_raise (pumpInv_enterIdle written) _

theorem pumpInv_codaTest : PumpInv (codaTest s) := by
  unfold codaTest
  split
  · exact pumpInv_completeCoda h
  · exact h

theorem pumpInv_stopCountdown : PumpInv (stopCountdown s) := by
  obtain ⟨-, -, pump, -⟩ := stopCountdown_parts s
  exact pumpInv_of_pumps h ((pumps_congr pump).trans (pumps_pumpClear s)) (by simp)

theorem pumpInv_enterHalted (own : Bool) : PumpInv (enterHalted own s) := by
  have withdrawn : PumpInv (withdrawShowFrames s) := pumpInv_frame h rfl rfl
  rw [enterHalted_eq]
  split
  · exact pumpInv_enterHalted_peer (pumpInv_requestFrame withdrawn _)
  · exact pumpInv_enterHalted_peer h

theorem pumpInv_peerHalt : PumpInv (peerHalt s) := by
  unfold peerHalt
  split
  case h_1 | h_2 => exact h
  all_goals exact pumpInv_enterHalted h _

theorem pumpInv_ownHalt : PumpInv (ownHalt s) := by
  unfold ownHalt
  split
  case h_1 => exact h
  case h_2 => exact pumpInv_raise (pumpInv_requestFrame h _) _
  all_goals exact pumpInv_enterHalted h _

theorem pumpInv_enterArmed : PumpInv (enterArmed s) := by
  have pump : (enterArmed s).pump = (pumpRearm s).pump := (enterArmed_parts s).2.1
  exact pumpInv_of_pumps h ((pumps_congr pump).trans (pumps_pumpRearm s)) (by simp)

theorem pumpInv_disarmed : PumpInv (disarmed s) := pumpInv_congr h (by simp) (by simp)

theorem pumpInv_released : PumpInv (released s) := pumpInv_frame (pumpInv_enterIdle h) rfl rfl

/-! ### Actions, and a late join by a seek -/

theorem pumpInv_deliver (o : Origin) (due : Int) (act : Act) : PumpInv (deliver o due act s) := by
  unfold deliver
  split
  case h_1 => exact pumpInv_of_pumps h (pumps_pumpHeight _ _ _ _ s) id
  case h_7 => exact pumpInv_fireEnd h
  all_goals exact pumpInv_frame h (by simp) (by simp)

theorem pumpInv_fireHead : PumpInv (fireHead s) := by
  unfold fireHead
  split
  case h_1 => exact h
  case h_2 a rest _ =>
    have left : PumpInv (countLate a { s with cue := { s.cue with queue := rest } }) := pumpInv_frame h (by simp) (by simp)
    exact pumpInv_frame (pumpInv_deliver left .fired a.due a.act) (by simp) (by simp)

theorem pumpInv_setCue (k : CueEngine) : PumpInv { s with cue := k } := pumpInv_frame h rfl rfl

theorem pumpInv_handOver (as : List Action) : PumpInv (handOver as s) := by
  unfold handOver
  induction as generalizing s with
  | nil => exact h
  | cons a as ih => exact ih (pumpInv_deliver h _ _ _)

theorem pumpInv_cueSeek (c : ConfigRecord) : PumpInv (cueSeek c s) := by
  have cleared : PumpInv (seekCleared s) := pumpInv_frame h rfl rfl
  have handed : PumpInv (seekHanded c s) := pumpInv_setCue (pumpInv_handOver cleared (retained (seekDue c s))) _
  rw [cueSeek_eq]
  split
  · exact pumpInv_fireEnd (pumpInv_setCue handed _)
  · exact pumpInv_setCue handed _

theorem pumpInv_lateJoin (c : ConfigRecord) (g : GoRecord) : PumpInv (lateJoin c g s) := by
  unfold lateJoin
  split
  · exact pumpInv_evaluateLamps (pumpInv_cueSeek (pumpInv_congr h (by simp) (by simp)) c)
  · exact pumpInv_raise (pumpInv_enterCountdown h g) _

/-! ### Frames from peers -/

theorem pumpInv_takeGo (c : ConfigRecord) (g : GoRecord) : PumpInv (takeGo c g s) := by
  have missed : PumpInv (missStart g s) := pumpInv_congr h rfl id
  simp only [takeGo]
  split_ifs
  · exact missed
  · exact missed
  · exact pumpInv_raise (pumpInv_enterCountdown h g) _
  · exact pumpInv_lateJoin h c g
  · exact missed

theorem pumpInv_advanceGo (g : GoRecord) : PumpInv (advanceGo g s) := by
  have moved : PumpInv (waitForRoom (refreshAll (setCtl { s.ctl with go := some g } s))) := pumpInv_congr h (by simp) (by simp)
  unfold advanceGo
  split
  · exact h
  · dsimp only
    split_ifs
    · exact pumpInv_enterRunning moved
    · exact moved
    · exact h

theorem pumpInv_heardGo (g : GoRecord) : PumpInv (heardGo g s) := by
  unfold heardGo
  split
  · split
    · exact pumpInv_takeGo h _ g
    · exact pumpInv_raise h _
  · split
    · exact pumpInv_advanceGo h g
    · exact pumpInv_raise h _
  · exact h

theorem pumpInv_pendCoda (u : SiteTime) : PumpInv (pendCoda u s) := pumpInv_congr h rfl id

theorem pumpInv_heardStop (f : StopFrame) : PumpInv (heardStop f s) := by
  unfold heardStop
  split
  · split
    · exact pumpInv_stopCountdown h
    · exact h
  · split_ifs
    · exact pumpInv_enterCoda h _
    · exact pumpInv_pendCoda h _
    · exact h
  · exact h

theorem pumpInv_joinTest (c : ConfigRecord) (i : Fin 32) : PumpInv (joinTest c i s) := by
  unfold joinTest
  split
  · exact h
  · split
    · exact pumpInv_lateJoin h c _
    · exact h

theorem pumpInv_peerBeacon (c : ConfigRecord) (i : Fin 32) (seq : Byte) (b : Beacon) (arrival : SiteTime) :
    PumpInv (peerBeacon c i seq b arrival s) := by
  have taken : PumpInv (takeOffset c i b.stamp arrival (recordBeacon i b seq arrival s)) := pumpInv_frame h (by simp) (by simp)
  refine pumpInv_joinTest ?_ c i
  split
  · exact pumpInv_peerHalt taken
  · exact taken

/-- A received frame keeps the invariant where its hand-over does (R52). -/
theorem pumpInv_receiveFrame (sender : Byte) (f : Fin 32 → State → State) (hf : ∀ i, PumpInv (f i (setRx .ready s))) :
    PumpInv (receiveFrame sender s f) := by
  unfold receiveFrame
  refine unlessHeld_of h ?_
  split
  · exact h
  · split
    · exact pumpInv_frame h (by simp) (by simp)
    · exact hf _

theorem pumpInv_beaconReceived (sender seq : Byte) (b : Beacon) (arrival : SiteTime) :
    PumpInv (receiveFrame sender s fun i s => match s.config with
      | none => recordBeacon i b seq arrival s
      | some c => if i = c.own then hearClash s else peerBeacon c i seq b arrival s) := by
  have ready : PumpInv (setRx .ready s) := pumpInv_frame h rfl rfl
  refine pumpInv_receiveFrame h sender _ fun i => ?_
  split
  · exact pumpInv_frame ready (by simp) (by simp)
  · split
    · exact pumpInv_hearClash ready
    · exact pumpInv_peerBeacon ready _ i seq b arrival

theorem pumpInv_startAskReceived (sender pumpNo : Byte) (arrival : SiteTime) :
    PumpInv (receiveFrame sender s fun i s => match s.config with
      | none => withdrawAsk s
      | some c => askHeard c i pumpNo arrival (withdrawAsk s)) := by
  have ready : PumpInv (setRx .ready s) := pumpInv_frame h rfl rfl
  refine pumpInv_receiveFrame h sender _ fun i => ?_
  split
  · exact pumpInv_withdrawAsk ready
  · exact pumpInv_askHeard (pumpInv_withdrawAsk ready) _ i pumpNo arrival

/-! ### Host commands -/

theorem pumpInv_answer (reply : List Byte) : PumpInv (answer reply s) := pumpInv_frame h rfl rfl

theorem pumpInv_settle (code : Byte) (r : Result) (ix : Option Nat) : PumpInv (settle code r ix s) := pumpInv_frame h rfl rfl

/-- A host command keeps the invariant where its body does (R186). -/
theorem pumpInv_hostCommand (code : Byte) (body : State → State × Result × Option Nat) (hb : PumpInv (body s).1) :
    PumpInv (hostCommand code s body) := by
  unfold hostCommand
  refine unlessDeaf_of h ?_
  split
  · exact pumpInv_settle h _ _ _
  · exact pumpInv_settle hb _ _ _

theorem pumpInv_incomplete (code : Byte) : PumpInv (incomplete code s) :=
  pumpInv_frame (unlessDeaf_of h (pumpInv_settle h code .incomplete none)) rfl rfl

theorem pumpInv_localStop : PumpInv (Machine.localStop s).1 := by
  have sent : PumpInv (sendStop s) := pumpInv_requestFrame h _
  unfold Machine.localStop
  split
  case h_1 => exact pumpInv_stopCountdown sent
  case h_2 =>
    split
    · exact h
    · exact pumpInv_pendCoda sent _
  all_goals exact h

/-- CONFIGURE sets the time of the next pump period alone of the pumps, and enters IDLE or HALTED (R189). -/
theorem pumpInv_acceptConfig (c : ConfigRecord) : PumpInv (acceptConfig c s) := by
  have stored : PumpInv (storeConfig c s) := pumpInv_of_pumps h rfl id
  have idle : PumpInv (Proofs.configured c s) := pumpInv_congr stored (by simp [Proofs.configured]) (by simp [Proofs.configured])
  rw [acceptConfig_eq]
  split
  · exact pumpInv_enterHalted_peer idle
  · exact idle

theorem pumpInv_configure (record : List Byte) : PumpInv (configure record s).1 := by
  unfold configure
  split
  · exact h
  · split
    · exact h
    · rw [accept_fst]
      exact pumpInv_acceptConfig h _

theorem pumpInv_setScore (sc : Score) : PumpInv (setScore sc s) := pumpInv_frame h rfl rfl

theorem pumpInv_scoreOpen (header : List Byte) : PumpInv (scoreOpen header s).1 := by
  unfold scoreOpen
  split_ifs
  · exact h
  · exact h
  · exact pumpInv_setScore h _

theorem pumpInv_scoreData (body : List Byte) : PumpInv (scoreData body s).1 := by
  unfold scoreData
  split
  · exact h
  · split
    · exact h
    · dsimp only
      split <;> exact pumpInv_setScore h _

theorem pumpInv_scoreClose : PumpInv (scoreClose s).1 := by
  simp only [scoreClose]
  split_ifs
  · exact h
  · exact h
  · exact h
  · split
    · exact h
    · exact pumpInv_setScore h _

theorem pumpInv_audio (start count : Nat) (ht : judgeAudio start count s = .inl t) : PumpInv t := by
  simp only [judgeAudio] at ht
  split_ifs at ht
  cases ht
  exact pumpInv_frame h rfl rfl

/-! ### The pump period (R103) -/

omit h in
/-- A channel whose run output is the one the lamps see. -/
theorem runKept_runOf {ch : Channel} {halted : Prop} (stopped : ch.stage ≠ .on → ch.dOut = 0)
    (seen : ch.ranAtPeriod = ch.runOutput) (noCommand : halted → ch.dCmd = 0) : RunKept halted (runOf ch) :=
  ⟨stopped, fun ran => of_decide_eq_true (seen.symm.trans ran), noCommand⟩

/-- A channel at the end of a pump period: the drive of one that has left ON is 0, and the lamps see it as it is (R114, R144). -/
theorem runKept_afterPeriod (c : ConfigRecord) (fb : BitVec 4) (n : SiteTime) (p : Fin 4) :
    RunKept (s.ctl.state = .halted) ((pumps (afterPeriod c n (driven c fb s))).run p) := by
  have drives := drivesLeave_driven h c fb
  generalize driven c fb s = d at drives ⊢
  obtain ⟨dCmd, -, -, -, rests, ran, stays, -⟩ := drives.channel n p
  refine runKept_runOf (ch := (afterPeriod c n d).pump.chan[p]) (fun off => ?_) ran fun halted => ?_
  · by_cases running : s.pump.chan[p].runOutput = true ∧ faultsAt c s fb p = false
    · have stage := stays running
      split at stage
      case isTrue ends => exact ends.2
      case isFalse => exact absurd stage off
    · exact rests running
  · have zero : preStart c d p = 0 := by
      rw [drives.command n p, halted]
      simp [ShowState.inShow]
    rw [zero, ite_self] at dCmd
    exact dCmd

omit h in
theorem afterPeriod_halted (c : ConfigRecord) (fb : BitVec 4) (n : SiteTime)
    (halted : (afterPeriod c n (driven c fb s)).ctl.state = .halted) : s.ctl.state = .halted := by
  have ctl : (withNext n (periodEnd c (driven c fb s))).ctl = s.ctl := by simp [withNext, periodEnd, driven]
  unfold afterPeriod codaTest at halted
  split at halted
  · simp at halted
  · rwa [ctl] at halted

omit h in
/-- A channel that runs takes no part in the ask (R118). -/
theorem stageAsk_of_on (c : ConfigRecord) {d : State} (slot : SlotKept (pumps d)) {p : Fin 4}
    (on : d.pump.chan[p].stage = .on) : (stageAsk (stageCommands c d)).pump.chan[p].stage = .on := by
  rcases (periodEnd_chan slot.once slot.listed c p).1 with stage | ⟨list, -⟩
  · rw [stage, commanded_of_on on]
    exact on
  · rw [commanded_of_on on] at list
    simp [on, Stage.inList, -Fin.getElem_fin] at list

theorem slotKept_afterPeriod (c : ConfigRecord) (fb : BitVec 4) (n : SiteTime) :
    SlotKept (pumps (afterPeriod c n (driven c fb s))) := by
  have slot := slotKept_driven h c fb
  generalize driven c fb s = d at slot
  have asked := slotKept_stageAsk (slotKept_stageCommands slot c)
  obtain ⟨list, ask, -⟩ := afterPeriod_slot slot.once slot.listed c n
  have commands : (stageAsk (stageCommands c d)).pump.startList = (stageCommands c d).pump.startList := by
    obtain ⟨-, pump, -⟩ := stageAsk_pump fun p => stageCommands_listed slot.once slot.listed c (p := p)
    rw [pump]
  refine slotKept_of_stopped asked (list.trans commands.symm) ask fun p => ?_
  by_cases on : d.pump.chan[p].stage = .on
  · have stage := (afterPeriod_running slot.once slot.listed c n p on).2.2.1
    have was := stageAsk_of_on c slot on
    split at stage
    · exact .inr ⟨was, stage⟩
    · exact .inl (stage.trans was.symm)
  · exact .inl (afterPeriod_not_running slot.once slot.listed c n p on).2.2.1

theorem pumpInv_pumpPeriod (c : ConfigRecord) (fb : BitVec 4) (n : SiteTime) :
    PumpInv (codaTest (withNext n (pumpStages c fb s))) := by
  rw [pumpStages_eq_periodEnd]
  exact (pumpInv_iff (afterPeriod c n (driven c fb s))).mpr ⟨fun p => (runKept_afterPeriod h c fb n p).mono (afterPeriod_halted c fb n),
    slotKept_afterPeriod h c fb n⟩

/-! ### Every command, and the clock's own work -/

omit h in
theorem pumpInv_hardReset (cause : ResetCause) (s : State) : PumpInv (hardReset cause s) :=
  pumpInv_of_pumps pumpInv_reset rfl id

omit h in
theorem pumpInv_softReset (s : State) : PumpInv (softReset s) := pumpInv_frame (pumpInv_hardReset .soft s) rfl rfl

theorem pumpInv_endRound {c : ConfigRecord} (hc : s.config = some c) (start : SiteTime) : PumpInv (endRound c start s) := by
  have classed : PumpInv (classifyRound c (roundMean (removeOutliers c s)) (removeOutliers c s)) :=
    pumpInv_frame h (by simp) (by simp)
  have config : (classifyRound c (roundMean (removeOutliers c s)) (removeOutliers c s)).config = some c := by simpa using hc
  simp only [endRound]
  split
  · exact pumpInv_of_pumps classed (by simp [pumps, stepClock_periods]) (by simp)
  · exact pumpInv_frame classed rfl rfl

theorem pumpInv_stableChange (c : ConfigRecord) (i : Fin 8) : PumpInv (stableChange c i s) := by
  have changed : PumpInv (debounced c i s) := pumpInv_frame h (by simp [debounced]) (by simp [debounced])
  rw [stableChange_eq]
  split
  · exact pumpInv_ownHalt changed
  · exact changed

end

theorem pumpInv_exec {s t : State} (i : Instr) (h : PumpInv s) (he : exec i s = .next t) : PumpInv t := by
  cases i with
  | nop => cases he; exact h
  | softReset => cases he; exact unlessDeaf_of h (pumpInv_softReset s)
  | ident | status | events | peers => cases he; exact unlessDeaf_of h (pumpInv_answer h _)
  | pump channel =>
    cases he
    refine unlessDeaf_of h ?_
    split <;> exact pumpInv_answer h _
  | configure record =>
    cases he
    split
    · exact pumpInv_incomplete h _
    · exact pumpInv_hostCommand h _ _ (pumpInv_configure h record)
  | scoreOpen header =>
    cases he
    split
    · exact pumpInv_incomplete h _
    · exact pumpInv_hostCommand h _ _ (pumpInv_scoreOpen h header)
  | scoreData body =>
    cases he
    split
    · exact pumpInv_hostCommand h _ _ (pumpInv_scoreData h body)
    · exact pumpInv_incomplete h _
  | scoreClose => cases he; exact pumpInv_hostCommand h _ _ (pumpInv_scoreClose h)
  | arm =>
    cases he
    refine pumpInv_hostCommand h _ _ ?_
    split
    · exact h
    · exact pumpInv_enterArmed h
  | disarm =>
    cases he
    refine pumpInv_hostCommand h _ _ ?_
    split
    · exact pumpInv_disarmed h
    · exact h
  | go delay =>
    cases he
    refine pumpInv_hostCommand h _ _ ?_
    split
    · exact h
    · exact pumpInv_requestFrame (pumpInv_enterCountdown h _) _
  | stop => cases he; exact pumpInv_hostCommand h _ _ (pumpInv_localStop h)
  | release =>
    cases he
    refine pumpInv_hostCommand h _ _ ?_
    split
    · exact pumpInv_released h
    · exact h
  | audio start count =>
    cases he
    refine unlessDeaf_of h ?_
    split
    · exact pumpInv_settle h _ _ _
    · split
      case h_1 hj => exact pumpInv_audio h _ _ hj
      case h_2 => exact pumpInv_settle h _ _ _
  | eventClear | eventMask =>
    cases he
    refine pumpInv_hostCommand h _ _ ?_
    split
    · exact h
    · exact pumpInv_frame h rfl rfl
  | unknownCommand code =>
    cases he
    split
    · exact h
    · exact pumpInv_hostCommand h _ _ h
  | commandIncomplete code =>
    cases he
    split
    · exact pumpInv_incomplete h _
    · exact pumpInv_frame h rfl rfl
  | audioEnd bytes =>
    cases he
    refine pumpInv_frame (unlessDeaf_of (f := fun s => match s.audio.reception with
      | none => s
      | some r => settle 0x50 .ok none (enterBlock r bytes s)) h ?_) rfl rfl
    split
    · exact h
    · exact pumpInv_frame h (by simp) (by simp)
  | powerOnReset | pinReset => cases he; exact pumpInv_hardReset _ _
  | resetExit => cases he; exact pumpInv_frame h rfl rfl
  | beaconReceived sender seq b arrival => cases he; exact pumpInv_beaconReceived h sender seq b arrival
  | goFrameReceived sender g =>
    cases he
    exact pumpInv_receiveFrame h _ _ fun _ => pumpInv_heardGo (s := setRx .ready s) (pumpInv_frame h rfl rfl) g
  | stopFrameReceived sender f =>
    cases he
    exact pumpInv_receiveFrame h _ _ fun _ => pumpInv_heardStop (s := setRx .ready s) (pumpInv_frame h rfl rfl) f
  | haltFrameReceived sender inputs =>
    cases he
    exact pumpInv_receiveFrame h _ _ fun _ => pumpInv_peerHalt (pumpInv_frame h rfl rfl)
  | startAskReceived sender pumpNo arrival => cases he; exact pumpInv_startAskReceived h sender pumpNo arrival
  | frameFault bytes =>
    cases he
    refine unlessHeld_of h ?_
    split
    · exact h
    · exact pumpInv_frame h (by simp) (by simp)
  | beaconDue =>
    cases he
    refine unlessHeld_of h ?_
    split
    · exact h
    · split
      · exact pumpInv_requestFrame (s := setClock { s.clock with beaconDue := none } s) (pumpInv_frame h rfl rfl) _
      · exact h
  | attemptStart idleBits =>
    cases he
    exact whenDue_of (attemptDue · idleBits) startAttempt h (pumpInv_frame h (by simp) (by simp))
  | transmissionComplete =>
    cases he
    refine unlessHeld_of h ?_
    split
    · exact pumpInv_completeAttempt h _ _
    · exact h
  | attemptFailed =>
    cases he
    refine unlessHeld_of h ?_
    split
    · exact pumpInv_failAttempt h _
    · exact h
  | roundEnd =>
    cases he
    refine unlessHeld_of h ?_
    split
    case h_1 hc _ =>
      split
      · exact pumpInv_endRound h hc _
      · exact h
    case h_2 => exact h
  | slewAdjustment => cases he; exact whenDue_of slewDue (fun s => elapse _ (setClock _ s)) h (pumpInv_frame h rfl rfl)
  | peerStale peer =>
    cases he
    exact whenDue_of (staleDue · peer) (fun s => recomputeWind (makeStale peer s)) h (pumpInv_frame h (by simp) (by simp))
  | peerAbsent peer =>
    cases he
    exact whenDue_of (absentDue · peer) (fun s => recomputeWind (makeAbsent peer s)) h (pumpInv_frame h (by simp) (by simp))
  | startReached => cases he; exact whenDue_of startDue enterRunning h (pumpInv_enterRunning h)
  | pendingCodaReached => cases he; exact whenDue_of pendingCodaDue (enterCoda .stop) h (pumpInv_enterCoda h _)
  | codaDeadline =>
    cases he
    exact whenDue_of codaDeadlineDue (fun s => codaTest (setCtl { s.ctl with codaTested := true } s)) h
      (pumpInv_codaTest (s := setCtl { s.ctl with codaTested := true } s) (pumpInv_congr h rfl id))
  | cueTaken =>
    cases he
    refine unlessHeld_of h ?_
    split_ifs
    · exact pumpInv_frame h (by simp) (by simp)
    · exact pumpInv_frame h (by simp) (by simp)
    · exact h
  | actionFires => cases he; exact whenDue_of actionDue fireHead h (pumpInv_fireHead h)
  | figureStepBoundary group view =>
    cases he
    exact whenDue_of (boundaryDue · group view) (refreshView group view) h (pumpInv_frame h (by simp) (by simp))
  | figureEnd group =>
    cases he
    exact whenDue_of (figureEndDue · group) (fun s => reportEnd group (refreshView group .lamp s)) h
      (pumpInv_frame h (by simp) (by simp))
  | pumpPeriod feedback =>
    cases he
    refine unlessHeld_of h ?_
    split
    · exact h
    · split
      · exact pumpInv_pumpPeriod h _ feedback _
      · exact h
  | holdWindowEnd => cases he; exact whenDue_of windowEndDue endWindow h (pumpInv_endWindow h)
  | windowClose =>
    cases he
    refine unlessHeld_of h ?_
    split
    · exact h
    · split
      · exact pumpInv_frame h (by simp) (by simp)
      · exact h
  | lampPeriod =>
    cases he
    refine unlessHeld_of h ?_
    split
    · exact pumpInv_frame (pumpInv_evaluateLamps h) rfl rfl
    · exact h
  | receiverReady | checksumComplete | anemometerPulse | gainUpdate =>
    cases he
    refine unlessHeld_of h ?_
    split
    · exact pumpInv_frame h rfl rfl
    · exact h
  | frameInstant =>
    cases he
    refine unlessHeld_of h ?_
    split
    · split
      · exact pumpInv_frame h (by simp) (by simp)
      · exact h
    · exact h
  | safetyLevelChange input high =>
    cases he
    dsimp only
    split
    · exact h
    · exact pumpInv_frame h rfl rfl
  | debounceExpiry input =>
    cases he
    refine unlessHeld_of h ?_
    split
    · exact h
    · split
      · exact pumpInv_stableChange h _ _
      · exact h

/-- Settles O58: a step is one command, or one microsecond of local time. -/
theorem stepKeepsPumps : Obligations.StepKeepsPumps := by
  intro s t h hs
  unfold step at hs
  split at hs
  case h_1 i rest _ =>
    have front : PumpInv { s with pending := rest } := pumpInv_frame h rfl rfl
    exact pumpInv_exec i front hs
  case h_2 =>
    unfold idle at hs
    split at hs
    · cases hs; exact h
    · split at hs
      · exact pumpInv_exec _ h hs
      · cases hs
        exact unlessHeld_of (f := elapse 1) h (pumpInv_frame h (by simp) (by simp))

end Sys2Proof.Proofs
end

