-- ==== Sys2Proof/Proofs/Figures.lean ====
section
/-! The evaluation of a figure, the valves its view opens, and the moments of a view. -/

namespace Sys2Proof.Proofs

open Sys2Proof Sys2Proof.Machine Sys2Proof.Safety

/-! ### The phase of a figure (R87) -/

/-- The whole milliseconds since a figure's start (R87). -/
def sinceStart (f : Figure) (t : Int) : Nat := ((t - f.start) / 1000).toNat

theorem le_sinceStart {f : Figure} {t : Int} (begun : f.start ≤ t) (m : Nat) :
    m ≤ sinceStart f t ↔ f.start + 1000 * (m : Int) ≤ t := by
  unfold sinceStart
  omega

theorem evalFigure_early {f : Figure} {t : Int} (early : t < f.start) : evalFigure (some f) (some t) = .notBegun :=
  if_pos early

/-- From its start on a figure is in a step of a pass (R87). -/
theorem evalFigure_begun {f : Figure} {t : Int} (begun : f.start ≤ t) : evalFigure (some f) (some t) =
    if f.passes = 0 ∨ sinceStart f t / f.period / f.steps < f.passes then
      .playing (sinceStart f t / f.period % f.steps) (sinceStart f t / f.period / f.steps)
    else .ended :=
  if_neg (Int.not_lt.mpr begun)

/-- The span of step `k` of pass `n` (R87). -/
theorem evalFigure_step {f : Figure} {t : Int} {k n : Nat} (hk : k < f.steps)
    (since : f.start + 1000 * ((f.period * (f.steps * n + k) : Nat) : Int) ≤ t)
    (before : t < f.start + 1000 * ((f.period * (f.steps * n + k + 1) : Nat) : Int)) :
    evalFigure (some f) (some t) = if f.passes = 0 ∨ n < f.passes then .playing k n else .ended := by
  have begun : f.start ≤ t := by omega
  have step : sinceStart f t / f.period = f.steps * n + k := by
    refine Nat.div_eq_of_lt_le ?_ ?_
    · rw [Nat.mul_comm]
      exact (le_sinceStart begun _).mpr since
    · rw [Nat.mul_comm]
      exact Nat.lt_of_not_le (mt (le_sinceStart begun _).mp (Int.not_le.mpr before))
  have pass : (f.steps * n + k) / f.steps = n := by
    rw [Nat.mul_add_div (by omega), Nat.div_eq_of_lt hk, Nat.add_zero]
  rw [evalFigure_begun begun, step, pass, Nat.mul_add_mod, Nat.mod_eq_of_lt hk]

/-- A figure with passes ends at its start + 1000 × period × steps × passes (R87). -/
theorem evalFigure_ended_iff {f : Figure} (t : Int) (period : 0 < f.period) (steps : 0 < f.steps) (passes : 0 < f.passes) :
    evalFigure (some f) (some t) = .ended ↔ f.start + 1000 * ((f.period * f.steps * f.passes : Nat) : Int) ≤ t := by
  by_cases early : t < f.start
  · rw [evalFigure_early early]
    exact iff_of_false Phase.noConfusion (by omega)
  · have begun := Int.not_lt.mp early
    have later : f.passes ≤ sinceStart f t / f.period / f.steps ↔ f.period * f.steps * f.passes ≤ sinceStart f t := by
      rw [Nat.div_div_eq_div_mul, Nat.le_div_iff_mul_le (Nat.mul_pos period steps), Nat.mul_comm]
    rw [evalFigure_begun begun, ← le_sinceStart begun, ← later]
    have limited : f.passes ≠ 0 := by omega
    by_cases plays : sinceStart f t / f.period / f.steps < f.passes
    · simp [limited, plays]
    · simp [limited, plays, Nat.le_of_not_lt plays]

/-! ### The open set of a view (R88, R89) -/

theorem windowHolds_iff (f : Figure) (k : Nat) : windowHolds f k = true ↔
    (f.wStart ≤ f.wEnd ∧ f.wStart ≤ k ∧ k ≤ f.wEnd) ∨ (f.wEnd < f.wStart ∧ (f.wStart ≤ k ∨ k ≤ f.wEnd)) := by
  unfold windowHolds
  split
  · next straight => simp [straight, Nat.not_lt.mpr straight]
  · next wraps => simp [wraps, Nat.lt_of_not_le wraps]

/-- A view that is empty, or does not play, opens no valve (R88). -/
theorem openSet_dark (sc : Score) {v : ViewRecord} (h : v.presence = .empty ∨ ∀ k n, v.shown ≠ .playing k n) : openSet sc v = 0 := by
  unfold openSet
  split
  case h_1 held playing =>
    obtain ⟨present, -⟩ := (fig_eq_some v _).mp held
    rcases h with empty | still
    · rw [empty] at present
      cases present
    · exact absurd playing (still _ _)
  case h_2 => rfl

theorem openSet_playing (sc : Score) {v : ViewRecord} {k n : Nat} (held : v.presence = .held) (playing : v.shown = .playing k n) :
    openSet sc v =
      if windowHolds v.figure k then rowSet sc (figureRow v.figure.startRow v.figure.pitch k) else 0 := by
  simp only [openSet, (fig_eq_some v v.figure).mpr ⟨held, rfl⟩, playing]

/-- Settles O45: the span of a step fixes the step and the pass, and the window of the figure decides whether its row shows. -/
theorem figurePhase : Obligations.FigurePhase := by
  refine ⟨fun tau => rfl, fun f => rfl, fun f tau period steps => ⟨evalFigure_early, fun k n hk => evalFigure_step hk,
    evalFigure_ended_iff tau period steps⟩, fun sc v => ⟨openSet_dark sc, fun k n held playing => ?_⟩⟩
  simp only [openSet_playing sc held playing, windowHolds_iff]
  rfl

/-! ### The moments of a view (R90, R98) -/

/-- The valve view of a configured node runs ahead by the group's valve lead (R92). -/
theorem viewTime_valve {s : State} {c : ConfigRecord} (hc : s.config = some c) (i : Fin 4) :
    viewTime s i .valve = (showTime s).map fun tau => tau + 1000 * (c.valveLead[i] : Int) := by
  simp [viewTime, hc]

theorem boundaryDue_iff (s : State) (i : Fin 4) (v : View) :
    boundaryDue s i v = true ↔ s.ctl.state.inShow = true ∧ (s.jets[i].view v).shown ≠ viewPhase s i v := by
  simp [boundaryDue]

theorem figureEndDue_iff (s : State) (i : Fin 4) : figureEndDue s i = true ↔
    s.ctl.state.inShow = true ∧ s.jets[i].lamp.endReported = false ∧ viewPhase s i .lamp = .ended := by
  simp [figureEndDue, and_assoc]

theorem exec_figureStepBoundary {s : State} (hh : s.port.held = false) (i : Fin 4) (v : View) :
    exec (.figureStepBoundary i v) s = .next (if boundaryDue s i v then refreshView i v s else s) :=
  congrArg Host.Outcome.next (unlessHeld_free s _ hh)

theorem exec_figureEnd {s : State} (hh : s.port.held = false) (i : Fin 4) :
    exec (.figureEnd i) s = .next (if figureEndDue s i then reportEnd i (refreshView i .lamp s) else s) :=
  congrArg Host.Outcome.next (unlessHeld_free s _ hh)

/-- A view shows its present phase, and no other group is touched (R90). -/
theorem refreshView_jets (i : Fin 4) (v : View) (s : State) :
    (refreshView i v s).jets[i] = s.jets[i].withView v { s.jets[i].view v with shown := viewPhase s i v } ∧
    ∀ j : Fin 4, j ≠ i → (refreshView i v s).jets[j] = s.jets[j] :=
  ⟨(put_get ..).trans (if_pos rfl), fun _ hj => put_get_ne _ _ _ _ hj⟩

/-- The end of a lamp view is marked, and no other group is touched (R98). -/
theorem reportEnd_jets (i : Fin 4) (s : State) :
    (reportEnd i s).jets[i] = { s.jets[i] with lamp := { s.jets[i].lamp with endReported := true } } ∧
    ∀ j : Fin 4, j ≠ i → (reportEnd i s).jets[j] = s.jets[j] :=
  ⟨(put_get ..).trans (if_pos rfl), fun _ hj => put_get_ne _ _ _ _ hj⟩

/-- FIGURE_STEP_BOUNDARY of a configured node (R90). -/
theorem figureStepBoundary_shows {s : State} (hh : s.port.held = false) (i : Fin 4) (v : View) :
    (s.ctl.state.inShow = true → (s.jets[i].view v).shown ≠ viewPhase s i v →
      ∃ t, exec (.figureStepBoundary i v) s = .next t ∧
        t.jets[i] = s.jets[i].withView v { s.jets[i].view v with shown := viewPhase s i v } ∧
        (∀ j : Fin 4, j ≠ i → t.jets[j] = s.jets[j]) ∧ onlyChanges [.jets] s t) ∧
    (s.ctl.state.inShow = false ∨ (s.jets[i].view v).shown = viewPhase s i v →
      exec (.figureStepBoundary i v) s = .next s) := by
  rw [exec_figureStepBoundary hh]
  refine ⟨fun inShow left => ?_, fun stands => ?_⟩
  · obtain ⟨shown, others⟩ := refreshView_jets i v s
    rw [if_pos ((boundaryDue_iff s i v).mpr ⟨inShow, left⟩)]
    exact ⟨_, rfl, shown, others, by simp [onlyChanges_iff]⟩
  · rw [if_neg]
    rw [boundaryDue_iff]
    rintro ⟨inShow, left⟩
    rcases stands with out | same
    · rw [out] at inShow
      cases inShow
    · exact left same

/-- FIGURE_END of a configured node (R98). -/
theorem figureEnd_reports {s : State} (hh : s.port.held = false) (i : Fin 4) :
    (figureEndDue s i = true → ∃ t, exec (.figureEnd i) s = .next t ∧ t.events = s.events.raised .figureEnd ∧
      t.jets[i] = { s.jets[i] with lamp := { s.jets[i].lamp with shown := .ended, endReported := true } } ∧
      (∀ j : Fin 4, j ≠ i → t.jets[j] = s.jets[j]) ∧ onlyChanges [.jets, .events] s t) ∧
    (figureEndDue s i ≠ true → exec (.figureEnd i) s = .next s) := by
  rw [exec_figureEnd hh]
  refine ⟨fun ends => ?_, fun stands => by rw [if_neg stands]⟩
  obtain ⟨marked, others⟩ := reportEnd_jets i (refreshView i .lamp s)
  obtain ⟨shown, others'⟩ := refreshView_jets i .lamp s
  obtain ⟨-, -, phase⟩ := (figureEndDue_iff s i).mp ends
  rw [shown, phase] at marked
  rw [if_pos ends]
  exact ⟨_, rfl, rfl, marked, fun j hj => (others j hj).trans (others' j hj), by simp [onlyChanges_iff]⟩

/-- Settles O46: a view's evaluation is `viewPhase`, and each command tests it against what the view shows. -/
theorem figureMoments : Obligations.FigureMoments := by
  intro s c i hh hc now
  have phase (v : View) : evalFigure (s.jets[i].view v).fig (now v) = viewPhase s i v := by
    cases v with
    | lamp => exact congrArg (evalFigure _) Option.map_id'
    | valve => exact congrArg (evalFigure _) (viewTime_valve hc i).symm
  refine ⟨fun v => ?_, ?_⟩
  · simp only [phase]
    exact figureStepBoundary_shows hh i v
  · have lamp : evalFigure s.jets[i].lamp.fig (now .lamp) = viewPhase s i .lamp := phase .lamp
    simp only [lamp, ← figureEndDue_iff]
    exact figureEnd_reports hh i

end Sys2Proof.Proofs
end

