-- ==== Sys2Proof/Proofs/Lamps.lean ====
section
/-! The duties of a lamp by the show state, the lamp period and the gain update. -/

namespace Sys2Proof.Proofs

open Sys2Proof Sys2Proof.Machine Sys2Proof.Safety

/-! ### From colour to duty (R147, R148) -/

/-- Between two points of a curve a value counts by its part of the 8 steps (R147). -/
theorem gammaValue_eq (curve : Vector Nat 33) (v : Nat) : gammaValue curve v =
    (curve[v / 8]?).getD 0 + ((curve[v / 8 + 1]?).getD 0 - (curve[v / 8]?).getD 0) * (v % 8) / 8 := by
  rw [gammaValue, Nat.mod_def]

/-- A channel of value 0, or under a master level of 0, is dark; any other has min duty at least (R148). -/
theorem channelDuty_eq (curve : Vector Nat 33) (m minDuty v : Nat) : channelDuty curve m minDuty v =
    if v = 0 then 0 else if m = 0 then 0 else max (gammaValue curve v * m / 1024) minDuty := by
  unfold channelDuty
  by_cases dark : m = 0
  · simp [dark]
  · simp only [dark, Nat.pos_of_ne_zero dark, true_and, if_false]
    congr 1
    split <;> omega

/-- The duty of a channel of a lamp in a show (R147, R148). -/
def litLevel (c : ConfigRecord) (l : Fin 16) (master v : Nat) : Nat :=
  if v = 0 then 0
  else if master = 0 then 0
  else
    max (((c.gamma[c.lamp[l].curve][v / 8]?).getD 0 + ((c.gamma[c.lamp[l].curve][v / 8 + 1]?).getD 0 -
      (c.gamma[c.lamp[l].curve][v / 8]?).getD 0) * (v % 8) / 8) * master / 1024) c.minDuty

theorem colourDuty_eq (c : ConfigRecord) (l : Fin 16) (m : Nat) (v : Rgb) : colourDuty c c.lamp[l].curve m v =
    { r := litLevel c l m v.r, g := litLevel c l m v.g, b := litLevel c l m v.b } := by
  simp only [colourDuty, channelDuty_eq, gammaValue_eq, litLevel]

/-! ### The duties by the show state (R146, R149) -/

theorem waterPresent_iff {s : State} {c : ConfigRecord} (hc : s.config = some c) (v : Fin 64) : waterPresent s v = true ↔
    lampOpen s v = true ∧ c.pump[valveGroup v].visible ≤ s.pump.chan[valveGroup v].dOut ∧
      s.pump.chan[valveGroup v].ranAtPeriod = true := by
  simp [waterPresent, hc, and_assoc]

/-- Out of a show and out of HALTED every lamp is dark (R149). -/
theorem lampDuty_out {s : State} (h : s.ctl.state = .standby ∨ s.ctl.state = .idle ∨ s.ctl.state = .armed) (c : ConfigRecord)
    (l : Fin 16) : lampDuty s c l = black := by
  rcases h with standby | dark
  · simp [lampDuty, standby]
  · exact lampDuty_dark dark c l

/-- In a show a lamp that is not blanked has the duties of its values (R145, R149). -/
theorem lampDuty_inShow {s : State} (h : s.ctl.state.inShow = true) (c : ConfigRecord) (l : Fin 16) : lampDuty s c l =
    if lampBlanked s c l then black
    else colourDuty c c.lamp[l].curve (s.lamps.master.present (showTime s)) (lampValues s c l) := by
  unfold lampDuty
  cases state : s.ctl.state with
  | countdown | running | coda => rfl
  | standby | idle | armed | halted => simp [state, ShowState.inShow] at h

/-- A free lamp is never blanked and shows its own colour (R145, R146). -/
theorem lampDuty_free {s : State} {c : ConfigRecord} {l : Fin 16} (h : s.ctl.state.inShow = true) (free : c.lamp[l].valve = none) :
    lampDuty s c l = colourDuty c c.lamp[l].curve (s.lamps.master.present (showTime s)) (s.lamps.lamp[l].colour (showTime s)) := by
  rw [lampDuty_inShow h, lampBlanked, lampValues, free]
  rfl

section
variable {s : State} {c : ConfigRecord} {l : Fin 16} {v : Fin 64} (h : s.ctl.state.inShow = true)
  (bound : c.lamp[l].valve = some v)
include h bound

/-- A bound lamp with no water at its valve is dark (R146). -/
theorem lampDuty_dry (dry : waterPresent s v ≠ true) : lampDuty s c l = black := by
  rw [lampDuty_inShow h, lampBlanked, bound]
  simp [dry]

/-- A bound lamp with water at its valve shows the active accent, before CODA, or its own colour (R145). -/
theorem lampDuty_wet (wet : waterPresent s v = true) : lampDuty s c l =
    colourDuty c c.lamp[l].curve (s.lamps.master.present (showTime s))
      (if s.ctl.state = .coda then s.lamps.lamp[l].colour (showTime s)
      else (accentAt s v).getD (s.lamps.lamp[l].colour (showTime s))) := by
  rw [lampDuty_inShow h, lampBlanked, lampValues, bound]
  simp [wet]

end

/-! ### The periods (R144, R165) -/

theorem lampDue_configured {s : State} {c : ConfigRecord} (hc : s.config = some c) :
    lampDue s = reached s.clock.site s.lamps.next := by
  simp [lampDue, hc]

theorem gainDue_configured {s : State} {c : ConfigRecord} (hc : s.config = some c) :
    gainDue s = reached s.clock.site s.audio.nextGain := by
  simp [gainDue, hc]

section
variable {s : State} {c : ConfigRecord} (hh : s.port.held = false) (hc : s.config = some c)
include hh hc

theorem exec_lampPeriod_early (early : reached s.clock.site s.lamps.next = false) : exec .lampPeriod s = .next s := by
  refine congrArg Host.Outcome.next ((unlessHeld_free s _ hh).trans ?_)
  rw [lampDue_configured hc, early]
  rfl

/-- The lamp period evaluates the lamps and sets the time of the next (R26, R144). -/
theorem exec_lampPeriod_due (due : reached s.clock.site s.lamps.next = true) : exec .lampPeriod s = .next
    { s with lamps := { s.lamps with
        next := multipleAfter s.clock.site 10000
        lamp := gen fun l => { s.lamps.lamp[l] with duty := lampDuty s c l } } } := by
  refine congrArg Host.Outcome.next ((unlessHeld_free s _ hh).trans ?_)
  rw [lampDue_configured hc, due]
  simp [evaluateLamps, hc]

theorem exec_gainUpdate_early (early : reached s.clock.site s.audio.nextGain = false) : exec .gainUpdate s = .next s := by
  refine congrArg Host.Outcome.next ((unlessHeld_free s _ hh).trans ?_)
  rw [gainDue_configured hc, early]
  rfl

/-- The gain update applies the present gain, which in HALTED never rises (R165, R166). -/
theorem exec_gainUpdate_due (due : reached s.clock.site s.audio.nextGain = true) : exec .gainUpdate s = .next
    { s with audio := { s.audio with
        applied := if s.ctl.state = .halted then min s.audio.applied (s.audio.gain.present (showTime s))
          else s.audio.gain.present (showTime s)
        nextGain := multipleAfter s.clock.site 10000 } } := by
  refine congrArg Host.Outcome.next ((unlessHeld_free s _ hh).trans ?_)
  rw [gainDue_configured hc, due]
  rfl

end

/-- Settles O52: each lamp's duty is `lampDuty` of the state before, which is read off case by case. -/
theorem lampAndGainPeriods : Obligations.LampAndGainPeriods := by
  intro s c hh hc master gamma level lit colour water
  have lights (l : Fin 16) (v : Rgb) : colourDuty c c.lamp[l].curve master v = lit l v := colourDuty_eq c l master v
  have wet (v : Fin 64) : waterPresent s v = true ↔ water v := waterPresent_iff hc v
  refine ⟨exec_lampPeriod_early hh hc, fun due => ?_, exec_gainUpdate_early hh hc, fun due => ?_⟩
  · refine ⟨_, exec_lampPeriod_due hh hc due, by simp [onlyChanges_iff], rfl, rfl, fun l => ?_⟩
    have duty : (gen fun l : Fin 16 => { s.lamps.lamp[l] with duty := lampDuty s c l })[l] =
      { s.lamps.lamp[l] with duty := lampDuty s c l } := gen_get_fin _ l
    simp only [duty]
    refine ⟨trivial, (lampDuty_out · c l), fun halted => lampDuty_halted halted c l, fun inShow free => ?_, fun v inShow bound => ?_⟩
    · exact (lampDuty_free inShow free).trans (lights l _)
    · refine ⟨fun dry => lampDuty_dry inShow bound (mt (wet v).mp dry), fun present => ?_⟩
      rw [lampDuty_wet inShow bound ((wet v).mpr present)]
      refine (lights l _).trans (congrArg (lit l) ?_)
      cases accentAt s v with
      | none => exact ite_self _
      | some accent => rfl
  · exact ⟨_, exec_gainUpdate_due hh hc due, by simp [onlyChanges_iff], rfl⟩

end Sys2Proof.Proofs
end

