-- ==== Sys2Proof/Proofs/HoldWindow.lean ====
section
/-! The end of the hold window (R120). -/

namespace Sys2Proof.Proofs

open Sys2Proof Sys2Proof.Machine Sys2Proof.Safety

/-! ### The window's end and what it grants (R120) -/

theorem windowEndDue_window {s : State} {e : SiteTime} {ch : Option (Fin 4)} (h : s.pump.ask = .window e ch) :
    windowEndDue s = reached s.clock.site e := by
  simp [windowEndDue, h]

theorem windowEndDue_iff (s : State) : windowEndDue s = true ↔
    ∃ e ch, s.pump.ask = .window e ch ∧ reached s.clock.site e = true := by
  unfold windowEndDue
  cases s.pump.ask <;> simp

theorem endWindow_vacant {s : State} {e : SiteTime} (h : s.pump.ask = .window e none) : endWindow s = setAsk .none s := by
  simp [endWindow, h]

theorem endWindow_of_channel {s : State} {e : SiteTime} {p : Fin 4} (h : s.pump.ask = .window e (some p)) :
    endWindow s = grantChannel p (setAsk .none s) := by
  simp [endWindow, h]

/-- The channel as it is granted: its run begins now, unconfirmed (R120). -/
def grantedChannel (pc : PumpConfig) (now : SiteTime) (ch : Channel) : Channel :=
  { ch with
    stage := .on
    dOut := 0
    dCmd := 0
    runOn := now
    phase := if pc.confirm = 0 then .none else .confirming }

theorem grantChannel_pump {s : State} {c : ConfigRecord} (hc : s.config = some c) (p : Fin 4) : (grantChannel p s).pump =
    { s.pump with
      startList := s.pump.startList.erase p
      chan := put s.pump.chan p (grantedChannel c.pump[p] s.clock.site s.pump.chan[p]) } := by
  simp [grantChannel, grantedChannel, hc]

section
variable {s : State} (hh : s.port.held = false)
include hh

theorem exec_holdWindowEnd_due {e : SiteTime} {ch : Option (Fin 4)} (h : s.pump.ask = .window e ch)
    (due : reached s.clock.site e = true) : exec .holdWindowEnd s = .next (endWindow s) :=
  congrArg Host.Outcome.next ((unlessHeld_free s _ hh).trans (if_pos ((windowEndDue_window h).trans due)))

theorem exec_holdWindowEnd_early (early : windowEndDue s = false) : exec .holdWindowEnd s = .next s :=
  congrArg Host.Outcome.next ((unlessHeld_free s _ hh).trans (if_neg (Bool.eq_false_iff.mp early)))

end

/-- Settles O49: the window grants its channel, or nothing where it is vacant. -/
theorem holdWindowEnds : Obligations.HoldWindowEnds := by
  intro s c hh hc
  refine ⟨fun e p ask due => ?_, fun e ask due => ?_, fun early => ?_⟩
  · have pump : (endWindow s).pump = { s.pump with
        ask := .none, startList := s.pump.startList.erase p
        chan := put s.pump.chan p (grantedChannel c.pump[p] s.clock.site s.pump.chan[p]) } := by
      rw [endWindow_of_channel ask]
      exact grantChannel_pump (s := setAsk .none s) hc p
    have chan (q : Fin 4) : (endWindow s).pump.chan[q] =
        if q = p then grantedChannel c.pump[p] s.clock.site s.pump.chan[p] else s.pump.chan[q] := by
      rw [pump]
      exact put_get _ _ _ _
    refine ⟨_, exec_holdWindowEnd_due hh ask due, by simp [onlyChanges_iff], ?_, fun q hq => ?_, ?_, ?_⟩
    · rw [pump]
    · rw [chan, if_neg hq]
    · rw [chan, if_pos rfl]
      rfl
    · rw [chan, if_pos rfl]
      rfl
  · refine ⟨_, exec_holdWindowEnd_due hh ask due, ?_, by simp [onlyChanges_iff]⟩
    rw [endWindow_vacant ask, setAsk_pump]
  · refine exec_holdWindowEnd_early hh (Bool.eq_false_iff.mpr fun due => ?_)
    obtain ⟨e, ch, ask, ended⟩ := (windowEndDue_iff s).mp due
    rw [early e ch ask] at ended
    cases ended

end Sys2Proof.Proofs
end

