-- ==== Sys2Proof/Proofs/PumpDrives.lean ====
section
/-! The drives of the pump period, its demand, grant and caps (R103, R106 to R111, R133). -/

namespace Sys2Proof.Proofs

open Sys2Proof Sys2Proof.Machine Sys2Proof.Safety

/-! ### What the drives set, and the rest of the period keeps -/

/-- What the drives set of a channel. -/
structure Drive where
  hNow : Nat
  hEff : Nat
  dT   : Nat
  dC   : Nat

/-- The drive of a channel. -/
def driveOf (ch : Channel) : Drive where
  hNow := ch.hNow
  hEff := ch.hEff
  dT := ch.dT
  dC := ch.dC

/-- What the feedback and the drives set of the pump controller, beside the runs. -/
structure PeriodDrives where
  feedback : BitVec 4
  demand   : Nat
  viewSum  : Nat
  grant    : Nat
  drive    : Fin 4 → Drive

/-- The drives a pump controller holds. -/
def periodDrives (q : PumpController) : PeriodDrives where
  feedback := q.feedback
  demand := q.demand
  viewSum := q.viewSum
  grant := q.grant
  drive p := driveOf q.chan[p]

theorem driveOf_commanded (pre : Nat) (ch : Channel) : driveOf (commanded pre ch) = driveOf ch := by
  unfold commanded
  split <;> rfl

theorem driveOf_settled (pc : PumpConfig) (halted : Bool) (ch : Channel) : driveOf (settled pc halted ch) = driveOf ch := by
  simp only [settled]
  split <;> rfl

theorem driveOf_put {v : Vector Channel 4} {p : Fin 4} {ch : Channel} (h : driveOf ch = driveOf v[p]) (q : Fin 4) :
    driveOf (put v p ch)[q] = driveOf v[q] := by
  rw [put_get]
  split
  · next same => rw [same, h]
  · rfl

theorem periodDrives_commandChannel (c : ConfigRecord) (s : State) (p : Fin 4) :
    periodDrives (commandChannel c s p).pump = periodDrives s.pump := by
  rw [commandChannel_eq]
  simp only [periodDrives, driveOf_put (driveOf_commanded _ _)]

theorem periodDrives_stageCommands (c : ConfigRecord) (s : State) :
    periodDrives (stageCommands c s).pump = periodDrives s.pump :=
  foldl_keeps (commandChannel c) (periodDrives ·.pump) (periodDrives_commandChannel c) _ _

theorem periodDrives_stageAsk (s : State) : periodDrives (stageAsk s).pump = periodDrives s.pump := by
  unfold stageAsk
  split
  · rfl
  · next p rest list =>
    split
    · obtain ⟨⟨st, -, pump⟩, -⟩ := requestAsk_head list
      have stage : driveOf { s.pump.chan[p] with stage := st } = driveOf s.pump.chan[p] := rfl
      rw [pump]
      simp only [periodDrives, driveOf_put stage]
    · rfl

theorem periodDrives_stageSlew (c : ConfigRecord) (s : State) :
    periodDrives (stageSlew c s).pump = periodDrives s.pump := by
  simp only [periodDrives, stageSlew, mapChannels_pump, gen_get_fin, driveOf_settled]

theorem periodDrives_codaTest (s : State) : periodDrives (codaTest s).pump = periodDrives s.pump := by
  obtain ⟨chan, rest, -⟩ := codaTest_pump s
  have drive (p : Fin 4) : driveOf (codaTest s).pump.chan[p] = driveOf s.pump.chan[p] := by
    obtain ⟨height, same⟩ := chan p
    rw [same]
    rfl
  rw [rest]
  simp only [periodDrives, drive]

/-- Commands, ask, slew and the test for the coda's end keep what the drives have set (R103). -/
theorem periodDrives_afterPeriod (c : ConfigRecord) (n : SiteTime) (d : State) :
    periodDrives (afterPeriod c n d).pump = periodDrives d.pump :=
  calc periodDrives (afterPeriod c n d).pump
      = periodDrives (withNext n (periodEnd c d)).pump := periodDrives_codaTest _
    _ = periodDrives (stageSlew c (stageAsk (stageCommands c d))).pump := rfl
    _ = periodDrives (stageAsk (stageCommands c d)).pump := periodDrives_stageSlew c _
    _ = periodDrives (stageCommands c d).pump := periodDrives_stageAsk _
    _ = periodDrives d.pump := periodDrives_stageCommands c d

theorem afterPeriod_next (c : ConfigRecord) (n : SiteTime) (d : State) : (afterPeriod c n d).pump.next = n :=
  congrArg (·.next) (codaTest_pump (withNext n (periodEnd c d))).2.1

theorem afterPeriod_wind (c : ConfigRecord) (n : SiteTime) (d : State) : (afterPeriod c n d).wind = d.wind := by
  simp [afterPeriod, withNext, periodEnd]

/-! ### The state the drives leave (R106 to R111, R133) -/

/-- The applied wind factor rises at the period's start (R133). -/
theorem driven_wind (c : ConfigRecord) (fb : BitVec 4) (s : State) :
    (driven c fb s).wind = { s.wind with applied := min s.wind.factor (s.wind.applied + c.fRise) } := by
  simp [driven, riseWind]

theorem driven_feedback (c : ConfigRecord) (fb : BitVec 4) (s : State) : (driven c fb s).pump.feedback = fb := by
  simp [driven, stageCaps, stageGrant, stageHeights, stageFeedback_pump]

/-- The node with its heights and uncapped drives set (R106 to R108). -/
def lifted (c : ConfigRecord) (fb : BitVec 4) (s : State) : State := stageHeights c (stageFeedback c fb (riseWind c s))

theorem driven_eq_capped (c : ConfigRecord) (fb : BitVec 4) (s : State) : driven c fb s = capped c (lifted c fb s) := rfl

theorem drives_capped (c : ConfigRecord) (s : State) (p : Fin 4) : drives c (capped c s) p = drives c s p := by
  simp only [drives, capped_chan]

theorem drives_lifted (c : ConfigRecord) (fb : BitVec 4) (s : State) (p : Fin 4) :
    drives c (lifted c fb s) p = drivable c s fb p := by
  rw [← drives_capped, ← driven_eq_capped, drives_driven]

theorem stageHeights_chan (c : ConfigRecord) (s : State) (p : Fin 4) : (stageHeights c s).pump.chan[p] =
    { s.pump.chan[p] with
      hNow := s.pump.chan[p].height.present (showTime s)
      hEff := if drives c s p then windHeight c.pump[p] s.wind.applied (s.pump.chan[p].height.present (showTime s)) else 0
      dT := liftDrive c.pump[p].lift
        (if drives c s p then windHeight c.pump[p] s.wind.applied (s.pump.chan[p].height.present (showTime s)) else 0) } := by
  simp only [stageHeights, mapChannels_pump, gen_get_fin]

theorem drives_stageHeights (c : ConfigRecord) (s : State) (p : Fin 4) : drives c (stageHeights c s) p = drives c s p := by
  simp only [drives, stageHeights_chan]

theorem sampled_height (pc : PumpConfig) (now : SiteTime) (active : Bool) (ch : Channel) :
    (sampled pc now active ch).height = ch.height := by
  unfold sampled
  split
  · split <;> rfl
  · rfl

theorem stageFeedback_height (c : ConfigRecord) (fb : BitVec 4) (s : State) (p : Fin 4) :
    (stageFeedback c fb s).pump.chan[p].height = s.pump.chan[p].height := by
  rw [stageFeedback_pump, gen_get_fin, sampled_height]

/-- A channel's heights and uncapped drive (R106 to R108). -/
theorem lifted_chan (c : ConfigRecord) (fb : BitVec 4) (s : State) (p : Fin 4) :
    let ch := (lifted c fb s).pump.chan[p]
    ch.hNow = s.pump.chan[p].height.present (showTime s) ∧
    ch.hEff = (if drivable c s fb p then
      windHeight c.pump[p] (min s.wind.factor (s.wind.applied + c.fRise)) ch.hNow else 0) ∧
    ch.dT = liftDrive c.pump[p].lift ch.hEff := by
  have drive : drives c (stageFeedback c fb (riseWind c s)) p = drivable c s fb p := by
    rw [← drives_stageHeights]
    exact drives_lifted c fb s p
  have height : (stageFeedback c fb (riseWind c s)).pump.chan[p].height = s.pump.chan[p].height := by
    rw [stageFeedback_height]
    rfl
  have time : showTime (stageFeedback c fb (riseWind c s)) = showTime s := by simp [showTime]
  have wind : (stageFeedback c fb (riseWind c s)).wind.applied = min s.wind.factor (s.wind.applied + c.fRise) := by
    simp [riseWind]
  simp only [lifted, stageHeights_chan, drive, height, time, wind]
  exact ⟨trivial, trivial, trivial⟩

/-- The capped drive of a channel (R111). -/
theorem driven_dC (c : ConfigRecord) (fb : BitVec 4) (s : State) (p : Fin 4) :
    let q := (driven c fb s).pump
    q.chan[p].dC = if drivable c s fb p then cappedDrive c.pump[p].rated q.grant q.demand q.chan[p].dT else 0 := by
  rw [← drives_lifted]
  simp only [driven_eq_capped, capped_chan]

/-- A channel that drives stands in the stage it had before the period. -/
theorem lifted_stage {c : ConfigRecord} {fb : BitVec 4} {s : State} {p : Fin 4} (h : drivable c s fb p = true) :
    (lifted c fb s).pump.chan[p].stage = s.pump.chan[p].stage := by
  have sound : faultsAt c s fb p = false := by
    simp only [drivable, Bool.and_eq_true, Bool.not_eq_true'] at h
    exact h.2
  have stage := (driven_of_no_fault sound).1
  rwa [driven_eq_capped, capped_chan] at stage

/-- The demand counts the channels ON or in the start list (R109). -/
theorem driven_demand (c : ConfigRecord) (fb : BitVec 4) (s : State) : (driven c fb s).pump.demand =
    sumOver fun p : Fin 4 => if drivable c s fb p = true ∧ s.pump.chan[p].stage ≠ .off then
      power c.pump[p].rated (driven c fb s).pump.chan[p].dT else 0 := by
  have counted : (driven c fb s).pump.demand = sumOver (demandOf c (lifted c fb s)) := rfl
  rw [counted]
  refine congrArg sumOver (funext fun p => ?_)
  have dT : (driven c fb s).pump.chan[p].dT = (lifted c fb s).pump.chan[p].dT := by rw [driven_eq_capped, capped_chan]
  rw [demandOf, drives_lifted, dT]
  cases drive : drivable c s fb p with
  | false => simp
  | true => simp [lifted_stage drive, -Fin.getElem_fin]

/-- The view sum adds the demands of the peers that are not ABSENT (R110). -/
theorem driven_viewSum {s : State} {c : ConfigRecord} (hc : s.config = some c) (fb : BitVec 4) :
    (driven c fb s).pump.viewSum = (driven c fb s).pump.demand + sumOver fun i : Fin 32 =>
      if i ≠ c.own ∧ s.peers[i].presence ≠ .absent then min 20000 s.peers[i].demand.toNat else 0 := by
  have peers : (lifted c fb s).peers = s.peers := by simp [lifted]
  have config : (lifted c fb s).config = some c := by simp [lifted, hc]
  have counted : (driven c fb s).pump.viewSum = (driven c fb s).pump.demand + peerDemand (lifted c fb s) := rfl
  rw [counted]
  refine congrArg _ (congrArg sumOver (funext fun i => ?_))
  rw [peers]
  simp [isPeer, config]

theorem driven_grant (c : ConfigRecord) (fb : BitVec 4) (s : State) : (driven c fb s).pump.grant =
    grantOf c.budget (driven c fb s).pump.demand (driven c fb s).pump.viewSum := rfl

/-! ### The lift curve and the caps (R108, R111) -/

theorem liftDrive_zero (lift : Vector Nat 17) : liftDrive lift 0 = 0 := rfl

theorem liftDrive_top (lift : Vector Nat 17) {h : Nat} (top : 1024 ≤ h) : liftDrive lift h = lift[16] := by
  rw [liftDrive, if_neg (by omega), if_pos top]

/-- Between two points of the curve the drive is interpolated (R108). -/
theorem liftDrive_segment (lift : Vector Nat 17) {h : Nat} (pos : 0 < h) (below : h < 1024) {seg : Nat} (hs : seg < 16)
    (place : seg = h / 64) : liftDrive lift h = lift[seg] + (lift[seg + 1] - lift[seg]) * (h % 64) / 64 := by
  subst place
  have here : lift[h / 64]? = some lift[h / 64] := Vector.getElem?_eq_getElem (by omega)
  have next : lift[h / 64 + 1]? = some lift[h / 64 + 1] := Vector.getElem?_eq_getElem (by omega)
  rw [liftDrive, if_neg (by omega), if_neg (by omega), here, next]
  rfl

theorem cappedDrive_within {grant demand : Nat} (h : demand ≤ grant) (rated dT : Nat) :
    cappedDrive rated grant demand dT = dT := if_pos h

/-- Beyond the grant the cap leaves the largest drive whose power is within the channel's share (R111). -/
theorem cappedDrive_beyond {rated grant demand dT d : Nat} (h : grant < demand) (cap : d = cappedDrive rated grant demand dT) :
    d ≤ dT ∧ power rated d ≤ grant * power rated dT / demand ∧
      ∀ e, d < e → e ≤ dT → grant * power rated dT / demand < power rated e := by
  rw [cap, cappedDrive, if_neg (Nat.not_le.mpr h)]
  exact largestDrive_spec _ _ _

/-! ### The whole period (R103) -/

/-- What the drives set, of the state before the period (R106 to R111). -/
structure DrivesSet (c : ConfigRecord) (fb : BitVec 4) (s : State) (q : PeriodDrives) : Prop where
  feedback : q.feedback = fb
  demand : q.demand = sumOver fun p : Fin 4 => if drivable c s fb p = true ∧ s.pump.chan[p].stage ≠ .off then
    power c.pump[p].rated (q.drive p).dT else 0
  viewSum : q.viewSum = q.demand + sumOver fun i : Fin 32 =>
    if i ≠ c.own ∧ s.peers[i].presence ≠ .absent then min 20000 s.peers[i].demand.toNat else 0
  grant : q.grant = grantOf c.budget q.demand q.viewSum
  hNow : ∀ p, (q.drive p).hNow = s.pump.chan[p].height.present (showTime s)
  hEff : ∀ p, (q.drive p).hEff = if drivable c s fb p then
    windHeight c.pump[p] (min s.wind.factor (s.wind.applied + c.fRise)) (q.drive p).hNow else 0
  dT : ∀ p, (q.drive p).dT = liftDrive c.pump[p].lift (q.drive p).hEff
  dC : ∀ p, (q.drive p).dC = if drivable c s fb p then cappedDrive c.pump[p].rated q.grant q.demand (q.drive p).dT else 0

theorem drivesSet_driven {s : State} {c : ConfigRecord} (hc : s.config = some c) (fb : BitVec 4) :
    DrivesSet c fb s (periodDrives (driven c fb s).pump) where
  feedback := driven_feedback c fb s
  demand := driven_demand c fb s
  viewSum := driven_viewSum hc fb
  grant := driven_grant c fb s
  hNow p := by simp only [periodDrives, driveOf, driven_eq_capped, capped_chan, (lifted_chan c fb s p).1]
  hEff p := by simp only [periodDrives, driveOf, driven_eq_capped, capped_chan, (lifted_chan c fb s p).2.1]
  dT p := by simp only [periodDrives, driveOf, driven_eq_capped, capped_chan, (lifted_chan c fb s p).2.2]
  dC := driven_dC c fb s

theorem drivesSet_afterPeriod {s : State} {c : ConfigRecord} (hc : s.config = some c) (fb : BitVec 4) (n : SiteTime) :
    DrivesSet c fb s (periodDrives (afterPeriod c n (driven c fb s)).pump) := by
  rw [periodDrives_afterPeriod]
  exact drivesSet_driven hc fb

section
variable {c : ConfigRecord} {fb : BitVec 4} {s : State} {q : PeriodDrives} (h : DrivesSet c fb s q) {p : Fin 4}
include h

/-- A channel that drives: the curve at its effective height, and the cap (R107, R108, R111). -/
theorem DrivesSet.of_drivable (drive : drivable c s fb p = true) :
    (q.drive p).hEff = windHeight c.pump[p] (min s.wind.factor (s.wind.applied + c.fRise)) (q.drive p).hNow ∧
    (q.drive p).dC = cappedDrive c.pump[p].rated q.grant q.demand (q.drive p).dT := by
  rw [h.hEff, h.dC, if_pos drive, if_pos drive]
  exact ⟨rfl, rfl⟩

/-- A channel that drives nothing (R100, R123). -/
theorem DrivesSet.of_not_drivable (rests : drivable c s fb p = false) :
    (q.drive p).hEff = 0 ∧ (q.drive p).dT = 0 ∧ (q.drive p).dC = 0 := by
  have hEff : (q.drive p).hEff = 0 := by rw [h.hEff, rests]; rfl
  have dC : (q.drive p).dC = 0 := by rw [h.dC, rests]; rfl
  exact ⟨hEff, by rw [h.dT, hEff, liftDrive_zero], dC⟩

end

theorem exec_pumpPeriod_early {s : State} (fb : BitVec 4) (hh : s.port.held = false)
    (early : reached s.clock.site s.pump.next = false) : exec (.pumpPeriod fb) s = .next s := by
  have rests : pumpDue s = false := by simp [pumpDue, early]
  refine congrArg Host.Outcome.next ((unlessHeld_free s _ hh).trans ?_)
  simp only [rests]
  split <;> rfl

/-- Settles O47: the drives set the figures of the period, and the rest of the period keeps them. -/
theorem pumpPeriodDrives : Obligations.PumpPeriodDrives := by
  intro s c fb hh hc
  refine ⟨exec_pumpPeriod_early fb hh, fun due => ⟨_, exec_pumpPeriod fb hh hc due, ?_⟩⟩
  generalize multipleAfter s.clock.site 10000 = n
  have h := drivesSet_afterPeriod hc fb n
  have next := afterPeriod_next c n (driven c fb s)
  have wind := (afterPeriod_wind c n (driven c fb s)).trans (driven_wind c fb s)
  generalize afterPeriod c n (driven c fb s) = t at h next wind ⊢
  refine ⟨next, h.feedback, wind, h.demand, h.viewSum, h.grant, fun p => ⟨h.hNow p, fun drive => ?_,
    h.of_not_drivable⟩⟩
  obtain ⟨hEff, dC⟩ := h.of_drivable drive
  refine ⟨?_, fun zero => ?_, fun pos below seg hs place => ?_, fun top => ?_, fun within => ?_, fun beyond => ?_⟩
  · rw [wind]
    exact hEff
  · exact (h.dT p).trans (congrArg _ zero)
  · exact (h.dT p).trans (liftDrive_segment _ pos below hs place)
  · exact (h.dT p).trans (liftDrive_top _ top)
  · exact dC.trans (cappedDrive_within within _ _)
  · exact cappedDrive_beyond beyond dC

end Sys2Proof.Proofs
end

