-- ==== Sys2Proof/Proofs/Wind.lean ====
section
/-! The wind monitor: the factor by band, the windows, the node wind and the site wind (R127 to R133). -/

namespace Sys2Proof.Proofs

open Sys2Proof Sys2Proof.Machine Sys2Proof.Safety

/-! ### The factor by band (R132) -/

section
variable {c : ConfigRecord} {v w : Nat}

theorem windFactor_low (h : w ≤ c.wLow) : windFactor c w = 1024 := if_pos h

theorem windFactor_sloping (low : c.wLow < w) (high : w < c.wHigh) :
    windFactor c w = 1024 - (1024 - c.fMin) * (w - c.wLow) / (c.wHigh - c.wLow) := by
  rw [windFactor, if_neg (by omega), if_pos high]

/-- The quotient of the sloping band lies from 0 to 1024 − F_min (R132). -/
theorem slope_quotient_le (high : w ≤ c.wHigh) :
    (1024 - c.fMin) * (w - c.wLow) / (c.wHigh - c.wLow) ≤ 1024 - c.fMin := by
  refine Nat.div_le_of_le_mul ?_
  rw [Nat.mul_comm (c.wHigh - c.wLow)]
  exact Nat.mul_le_mul_left _ (Nat.sub_le_sub_right high _)

theorem fMin_le_windFactor_sloping (least : c.fMin ≤ 1024) (low : c.wLow < w) (high : w < c.wHigh) : c.fMin ≤ windFactor c w := by
  have quotient := slope_quotient_le (c := c) high.le
  rw [windFactor_sloping low high]
  omega

/-- The slope falls as the wind grows (R132). -/
theorem windFactor_sloping_antitone (low : c.wLow < v) (h : v ≤ w) (high : w < c.wHigh) : windFactor c w ≤ windFactor c v := by
  rw [windFactor_sloping low (by omega), windFactor_sloping (by omega) high]
  exact Nat.sub_le_sub_left (Nat.div_le_div_right (Nat.mul_le_mul_left _ (Nat.sub_le_sub_right h _))) _

/-- The bands above the slope begin beyond W_low (R132). -/
theorem windFactor_high (bands : c.wLow < c.wHigh) (high : c.wHigh ≤ w) (cut : w < c.wCut) : windFactor c w = c.fMin := by
  rw [windFactor, if_neg (by omega), if_neg (by omega), if_pos cut]

theorem windFactor_cut (bands : c.wLow < c.wHigh) (order : c.wHigh ≤ c.wCut) (cut : c.wCut ≤ w) : windFactor c w = 0 := by
  rw [windFactor, if_neg (by omega), if_neg (by omega), if_neg (by omega)]

theorem windFactor_le_fMin (bands : c.wLow < c.wHigh) (order : c.wHigh ≤ c.wCut) (high : c.wHigh ≤ w) : windFactor c w ≤ c.fMin := by
  rcases Nat.lt_or_ge w c.wCut with cut | cut
  · exact (windFactor_high bands high cut).le
  · rw [windFactor_cut bands order cut]
    exact Nat.zero_le _

theorem windFactor_le (least : c.fMin ≤ 1024) : windFactor c w ≤ 1024 := by
  unfold windFactor
  split_ifs
  · exact le_rfl
  · exact Nat.sub_le _ _
  · exact least
  · exact Nat.zero_le _

/-- No band rises, and each band's values lie below those of the band before it (R132). -/
theorem windFactor_antitone (bands : c.wLow < c.wHigh) (order : c.wHigh ≤ c.wCut) (least : c.fMin ≤ 1024) (h : v ≤ w) :
    windFactor c w ≤ windFactor c v := by
  rcases Nat.lt_or_ge c.wLow v with low | low
  · rcases Nat.lt_or_ge v c.wHigh with below | high
    · rcases Nat.lt_or_ge w c.wHigh with within | beyond
      · exact windFactor_sloping_antitone low h within
      · exact (windFactor_le_fMin bands order beyond).trans (fMin_le_windFactor_sloping least low below)
    · rcases Nat.lt_or_ge v c.wCut with below | cut
      · rw [windFactor_high bands high below]
        exact windFactor_le_fMin bands order (high.trans h)
      · rw [windFactor_cut bands order (cut.trans h)]
        exact Nat.zero_le _
  · rw [windFactor_low low]
    exact windFactor_le least

end

/-- Settles O50: the bands' equations, the bounds of the quotient, and the order of the bands. -/
theorem windFactorByBand : Obligations.WindFactorByBand := by
  intro c bands order least
  exact ⟨fun _ => windFactor_low,
    fun _ low high => ⟨windFactor_sloping low high, fMin_le_windFactor_sloping least low high, windFactor_le least⟩,
    fun _ => windFactor_high bands, fun _ => windFactor_cut bands order, fun _ _ => windFactor_antitone bands order least⟩

/-! ### The site wind (R130) -/

/-- The largest of a list of figures is one of them, and none is greater. -/
theorem foldl_max_zero_spec {l : List Nat} (h : l ≠ []) : l.foldl max 0 ∈ l ∧ ∀ x ∈ l, x ≤ l.foldl max 0 := by
  obtain ⟨member, bound⟩ := List.max?_eq_some_iff.mp (List.max?_cons' (x := 0) (xs := l))
  have above : ∀ x ∈ l, x ≤ l.foldl max 0 := fun x hx => bound x (List.mem_cons_of_mem _ hx)
  refine ⟨?_, above⟩
  rcases List.mem_cons.mp member with zero | member
  · obtain ⟨x, hx⟩ := List.exists_mem_of_ne_nil l h
    have : x = l.foldl max 0 := by have := above x hx; omega
    rwa [← this]
  · exact member

theorem mem_windSources {s : State} {c : ConfigRecord} (hc : s.config = some c) (w : Nat) : w ∈ windSources s ↔
    s.wind.node = some w ∨ ∃ i : Fin 32, i ≠ c.own ∧ s.peers[i].presence = .fresh ∧ s.peers[i].flags.getLsbD 2 = true ∧
      w = min 600 s.peers[i].wind.toNat := by
  have peer (i : Fin 32) : isPeer s i = true ↔ i ≠ c.own := by simp [isPeer, hc]
  simp [windSources, peer, Peer.windFlag, and_assoc, eq_comm (a := w)]

theorem siteWind_fallback {s : State} (h : ∀ w, w ∉ windSources s) (c : ConfigRecord) : siteWind c s = c.fallback := by
  simp [siteWind, List.eq_nil_iff_forall_not_mem.mpr h]

theorem siteWind_largest {s : State} {w : Nat} (h : w ∈ windSources s) (c : ConfigRecord) :
    siteWind c s ∈ windSources s ∧ ∀ x ∈ windSources s, x ≤ siteWind c s := by
  have some_source := List.ne_nil_of_mem h
  have largest : siteWind c s = (windSources s).foldl max 0 := by simp [siteWind, some_source]
  rw [largest]
  exact foldl_max_zero_spec some_source

/-! ### History and node wind (R128, R129) -/

/-- A full history loses its oldest entry (R128). -/
theorem pushWindow_eq {history : List Nat} (h : history.length ≤ 8) (speed : Nat) :
    pushWindow history speed = (if history.length = 8 then history.tail else history) ++ [speed] := by
  unfold pushWindow
  split
  case isTrue full => rw [full, List.drop_append_of_le_length (by omega), List.drop_one]
  case isFalse room => rw [show history.length + 1 - 8 = 0 by omega, List.drop_zero]

theorem pushWindow_ne_nil {history : List Nat} (h : history.length ≤ 8) (speed : Nat) : pushWindow history speed ≠ [] := by
  simp [pushWindow_eq h]

/-- The node wind is the mean of the newest entries, as many as the depth asks for or as there are (R129). -/
theorem nodeWindOf_eq {depth : Nat} {history : List Nat} (hd : 1 ≤ depth) (hne : history ≠ []) : nodeWindOf depth history =
    some ((history.reverse.take (min depth history.length)).sum / min depth history.length) := by
  have entries : min depth history.length ≠ 0 := by
    have := List.length_pos_of_ne_nil hne
    omega
  simp only [nodeWindOf, if_neg entries, List.take_reverse, List.sum_reverse]

/-! ### The window in progress, and its boundary (R127, R131, R133) -/

theorem openWindow_wind (s : State) : (openWindow s).wind = { s.wind with
    window := some (multipleBelow s.clock.site 1000000), count := 0, next := multipleAfter s.clock.site 1000000 } := rfl

theorem siteWind_openWindow (c : ConfigRecord) (s : State) : siteWind c (openWindow s) = siteWind c s :=
  siteWind_congr rfl rfl (by simp) c

/-- A window counted whole enters the history, and site wind, factor and applied factor follow (R128, R129, R131, R133). -/
theorem enterWindow_wind {s : State} {c : ConfigRecord} (hc : s.config = some c) : (enterWindow c s).wind = { s.wind with
    history := pushWindow s.wind.history (windowSpeed c.windScale s.wind.count)
    node := nodeWindOf c.depth (pushWindow s.wind.history (windowSpeed c.windScale s.wind.count))
    site := siteWind c (enterWindow c s)
    factor := windFactor c (siteWind c (enterWindow c s))
    applied := min s.wind.applied (windFactor c (siteWind c (enterWindow c s))) } :=
  (recomputeWind_follows _).2 c hc

theorem closeWindow_idle {s : State} (h : s.wind.window = none) (c : ConfigRecord) : closeWindow c s = openWindow s := by
  simp [closeWindow, h]

theorem closeWindow_counting {s : State} (h : s.wind.window ≠ none) (c : ConfigRecord) :
    closeWindow c s = openWindow (enterWindow c s) := by
  simp [closeWindow, Option.isSome_iff_ne_none.mpr h]

/-- Whatever the boundary closes, the next window is open from the multiple just reached (R127). -/
theorem closeWindow_opened (c : ConfigRecord) (s : State) :
    (closeWindow c s).wind.window = some (multipleBelow s.clock.site 1000000) ∧ (closeWindow c s).wind.count = 0 ∧
    (closeWindow c s).wind.next = multipleAfter s.clock.site 1000000 := by
  unfold closeWindow
  split <;> simp [openWindow_wind]

section
variable {s : State} {c : ConfigRecord} (hh : s.port.held = false)
include hh

theorem exec_anemometerPulse_idle (hw : s.wind.window = none) : exec .anemometerPulse s = .next s :=
  congrArg Host.Outcome.next ((unlessHeld_free s _ hh).trans (if_neg (by simp [hw])))

theorem exec_anemometerPulse_counting (hc : s.config = some c) (hw : s.wind.window ≠ none) : exec .anemometerPulse s =
    .next { s with wind := { s.wind with count := stopAt 65535 (s.wind.count + 1) } } :=
  congrArg Host.Outcome.next
    ((unlessHeld_free s _ hh).trans (if_pos ⟨Option.isSome_of_eq_some hc, Option.isSome_iff_ne_none.mpr hw⟩))

theorem exec_windowClose (hc : s.config = some c) : exec .windowClose s =
    .next (if c.windScale ≠ 0 ∧ reached s.clock.site s.wind.next = true then closeWindow c s else s) := by
  have due : windowDue s = true ↔ c.windScale ≠ 0 ∧ reached s.clock.site s.wind.next = true := by simp [windowDue, hc]
  refine congrArg Host.Outcome.next ((unlessHeld_free s _ hh).trans ?_)
  simp only [hc, due]

end

/-- Settles O51: the pulse, then the boundary by whether a window was counted whole, then the sources of the site wind. -/
theorem windWindows : Obligations.WindWindows := by
  intro s c hh hc hl
  have close := exec_windowClose hh hc
  obtain ⟨window, count, next⟩ := closeWindow_opened c s
  refine ⟨exec_anemometerPulse_idle hh,
    fun hw => ⟨_, exec_anemometerPulse_counting hh hc hw, rfl, by simp [onlyChanges_iff]⟩,
    fun rests => ?_, fun sensor due => ⟨closeWindow c s, ?_, by simp [onlyChanges_iff], window, count, next,
      fun idle => ?_, fun counting => ?_⟩, ?_⟩
  · rw [close, if_neg]
    rintro ⟨sensor, due⟩
    rcases rests with none_fitted | early
    · exact sensor none_fitted
    · exact Bool.false_ne_true (early.symm.trans due)
  · rw [close, if_pos ⟨sensor, due⟩]
  · rw [closeWindow_idle idle]
    rfl
  · have wind := enterWindow_wind hc
    simp only [closeWindow_counting counting, siteWind_openWindow, openWindow_wind]
    generalize enterWindow c s = entered at wind ⊢
    rw [wind]
    exact ⟨pushWindow_eq hl _, fun deep => nodeWindOf_eq deep (pushWindow_ne_nil hl _), rfl, rfl, rfl⟩
  · intro source
    have isSource (w : Nat) : source w ↔ w ∈ windSources s := (mem_windSources hc w).symm
    simp only [isSource]
    exact ⟨fun h => siteWind_fallback h c, fun ⟨_, h⟩ => siteWind_largest h c⟩

end Sys2Proof.Proofs
end

