-- ==== Sys2Proof/Proofs/AudioQueue.lean ====
section
/-! SUPPORT. The block queue as frames leave from its head and a block enters at its tail, and what the invariant of the audio unit
reads. -/

namespace Sys2Proof.Proofs

open Sys2Proof Sys2Proof.Machine Sys2Proof.Safety

/-! ### The queue (R154) -/

/-- The frames that a queue holds. -/
def framesIn (q : List Block) : Nat := (q.map (·.count)).sum

theorem ringFill_eq (a : AudioUnit) : ringFill a = framesIn a.queue := rfl

@[simp] theorem framesIn_nil : framesIn [] = 0 := rfl

@[simp] theorem framesIn_cons (b : Block) (q : List Block) : framesIn (b :: q) = b.count + framesIn q := by simp [framesIn]

theorem framesIn_snoc (q : List Block) (b : Block) : framesIn (q ++ [b]) = framesIn q + b.count := by simp [framesIn]

/-- The blocks of a queue: none empty, each at or after the end of the one before it, at positions of the ring. -/
structure Formed (q : List Block) : Prop where
  nonempty : ∀ b ∈ q, 0 < b.count
  ordered : q.Pairwise fun a b => a.start + a.count ≤ b.start
  inRing : ∀ b ∈ q, b.pos < 16384

/-- `r` holds no more blocks and frames than `q`, and none that ends elsewhere. -/
structure LeftOf (q r : List Block) : Prop where
  blocks : r.length ≤ q.length
  frames : framesIn r ≤ framesIn q
  ends : ∀ b ∈ r, ∃ a ∈ q, b.start + b.count = a.start + a.count

theorem formed_nil : Formed [] := ⟨by simp, .nil, by simp⟩

theorem leftOf_nil (q : List Block) : LeftOf q [] := ⟨Nat.zero_le _, Nat.zero_le _, by simp⟩

theorem leftOf_refl (q : List Block) : LeftOf q q := ⟨Nat.le_refl _, Nat.le_refl _, fun b hb => ⟨b, hb, rfl⟩⟩

theorem LeftOf.trans {p q r : List Block} (h : LeftOf p q) (h' : LeftOf q r) : LeftOf p r where
  blocks := h'.blocks.trans h.blocks
  frames := h'.frames.trans h.frames
  ends b hb := by
    obtain ⟨a, ha, same⟩ := h'.ends b hb
    obtain ⟨a', ha', same'⟩ := h.ends a ha
    exact ⟨a', ha', same.trans same'⟩

theorem Formed.tail {b : Block} {q : List Block} (h : Formed (b :: q)) : Formed q where
  nonempty a ha := h.nonempty a (.tail _ ha)
  ordered := (List.pairwise_cons.mp h.ordered).2
  inRing a ha := h.inRing a (.tail _ ha)

/-- The blocks behind the head begin at or after its end. -/
theorem Formed.behind {b : Block} {q : List Block} (h : Formed (b :: q)) : ∀ a ∈ q, b.start + b.count ≤ a.start :=
  (List.pairwise_cons.mp h.ordered).1

theorem formed_cons {b : Block} {q : List Block} (h : Formed q) (count : 0 < b.count)
    (behind : ∀ a ∈ q, b.start + b.count ≤ a.start) (pos : b.pos < 16384) : Formed (b :: q) where
  nonempty := List.forall_mem_cons.mpr ⟨count, h.nonempty⟩
  ordered := List.pairwise_cons.mpr ⟨behind, h.ordered⟩
  inRing := List.forall_mem_cons.mpr ⟨pos, h.inRing⟩

/-- A block enters at the tail, at or after the end of every block before it. -/
theorem formed_snoc {b : Block} {q : List Block} (h : Formed q) (count : 0 < b.count)
    (before : ∀ a ∈ q, a.start + a.count ≤ b.start) (pos : b.pos < 16384) : Formed (q ++ [b]) where
  nonempty := List.forall_mem_append.mpr ⟨h.nonempty, by simpa using count⟩
  ordered := List.pairwise_append.mpr ⟨h.ordered, List.pairwise_singleton _ _, by simpa using before⟩
  inRing := List.forall_mem_append.mpr ⟨h.inRing, by simpa using pos⟩

/-! ### Late frames discarded (R161) -/

/-- The queue once the frames with index below `n` are discarded. -/
def afterLate (n : Nat) (q : List Block) : List Block := (discardLate n q).1

/-- A head block that begins at `n` or later stays, and so does every block behind it. -/
theorem discardLate_early {n : Nat} {b : Block} (q : List Block) (h : n ≤ b.start) : discardLate n (b :: q) = (b :: q, 0) := by
  simp [discardLate, h]

/-- A head block whose frames are all late leaves the queue. -/
theorem discardLate_whole {n : Nat} {b : Block} (q : List Block) (h : b.start < n) (late : b.start + b.count ≤ n) :
    discardLate n (b :: q) = (afterLate n q, (discardLate n q).2 + b.count) := by
  simp [discardLate, afterLate, late, Nat.not_le.mpr h]

/-- A head block that holds frame `n` behind late ones begins with it. -/
theorem discardLate_part {n : Nat} {b : Block} (q : List Block) (h : b.start < n) (within : n < b.start + b.count) :
    discardLate n (b :: q) =
      ({ start := n, count := b.start + b.count - n, pos := (b.pos + (n - b.start)) % 16384 } :: q, n - b.start) := by
  simp [discardLate, ringSize, Nat.not_le.mpr h, Nat.not_le.mpr within]

/-- A block begins at `n` or later, ends at or before `n`, or holds frame `n` behind late ones. -/
theorem late_cases (n : Nat) (b : Block) :
    n ≤ b.start ∨ (b.start < n ∧ b.start + b.count ≤ n) ∨ (b.start < n ∧ n < b.start + b.count) := by omega

theorem formed_afterLate {n : Nat} {q : List Block} (h : Formed q) : Formed (afterLate n q) := by
  induction q with
  | nil => exact formed_nil
  | cons b q ih =>
    rcases late_cases n b with early | ⟨late, whole⟩ | ⟨late, part⟩
    · rwa [afterLate, discardLate_early q early]
    · rw [afterLate, discardLate_whole q late whole]
      exact ih h.tail
    · rw [afterLate, discardLate_part q late part]
      refine formed_cons h.tail (by dsimp; omega) (fun a ha => ?_) (Nat.mod_lt _ (by decide))
      have := h.behind a ha
      dsimp
      omega

theorem leftOf_afterLate {n : Nat} {q : List Block} (h : Formed q) : LeftOf q (afterLate n q) := by
  obtain ⟨blocks, members, -, frames⟩ := discardLate_spec n q h.ordered h.nonempty
  refine ⟨blocks, Nat.le.intro frames, fun b hb => ?_⟩
  obtain ⟨-, a, ha, -, same⟩ := members b hb
  exact ⟨a, ha, same⟩

/-- No late frame is left. -/
theorem start_of_mem_afterLate {n : Nat} {q : List Block} (h : Formed q) : ∀ b ∈ afterLate n q, n ≤ b.start := by
  induction q with
  | nil => simp [afterLate, discardLate]
  | cons b q ih =>
    have behind := h.behind
    rcases late_cases n b with early | ⟨late, whole⟩ | ⟨late, part⟩
    · rw [afterLate, discardLate_early q early]
      exact List.forall_mem_cons.mpr ⟨early, fun a ha => by have := behind a ha; omega⟩
    · rw [afterLate, discardLate_whole q late whole]
      exact ih h.tail
    · rw [afterLate, discardLate_part q late part]
      exact List.forall_mem_cons.mpr ⟨Nat.le_refl n, fun a ha => by have := behind a ha; omega⟩

/-- The frames discarded are those of each block below `n`. -/
theorem discardLate_count {n : Nat} {q : List Block} (h : Formed q) :
    (discardLate n q).2 = (q.map fun b => min b.count (n - b.start)).sum := by
  induction q with
  | nil => rfl
  | cons b q ih =>
    have none_behind (reaches : n ≤ b.start + b.count) : (q.map fun b => min b.count (n - b.start)).sum = 0 := by
      refine List.sum_eq_zero fun x hx => ?_
      obtain ⟨a, ha, rfl⟩ := List.mem_map.mp hx
      have := h.behind a ha
      omega
    rw [List.map_cons, List.sum_cons]
    rcases late_cases n b with early | ⟨late, whole⟩ | ⟨late, part⟩
    · rw [discardLate_early q early, none_behind (by omega)]
      dsimp
      omega
    · rw [discardLate_whole q late whole, ih h.tail]
      dsimp
      omega
    · rw [discardLate_part q late part, none_behind (by omega)]
      dsimp
      omega

/-! ### The head frame served (R161) -/

/-- The queue once frame `n`, where the head block begins with it, has left. -/
def afterServing (n : Nat) (q : List Block) : List Block :=
  match q with
  | [] => []
  | b :: rest =>
    if b.start = n then
      if b.count ≤ 1 then rest else { start := b.start + 1, count := b.count - 1, pos := (b.pos + 1) % 16384 } :: rest
    else b :: rest

theorem formed_afterServing {n : Nat} {q : List Block} (h : Formed q) : Formed (afterServing n q) := by
  unfold afterServing
  split
  · exact h
  · split_ifs
    · exact h.tail
    · refine formed_cons h.tail (by dsimp; omega) (fun a ha => ?_) (Nat.mod_lt _ (by decide))
      have := h.behind a ha
      dsimp
      omega
    · exact h

theorem leftOf_afterServing (n : Nat) {q : List Block} (h : Formed q) : LeftOf q (afterServing n q) := by
  unfold afterServing
  split
  · exact leftOf_refl _
  case h_2 b rest =>
    have count := h.nonempty b (.head _)
    split_ifs
    · exact ⟨by simp, by simp, fun a ha => ⟨a, .tail _ ha, rfl⟩⟩
    · refine ⟨by simp, by simp, List.forall_mem_cons.mpr ⟨⟨b, .head _, ?_⟩, fun a ha => ⟨a, .tail _ ha, rfl⟩⟩⟩
      dsimp
      omega
    · exact leftOf_refl _

/-! ### A block entered at the tail (R159) -/

/-- The refill test writes what it finds (R167). -/
theorem refillTest_audio (s : State) : (refillTest s).audio = { s.audio with refillHeld := refillCondition s.audio } := by
  simp [refillTest]

/-- The audio unit once the kept frames received whole have entered as a block, before the refill test. -/
def blockEntered (r : Reception) (bytes : List Byte) (a : AudioUnit) : AudioUnit :=
  { a with
    reception := none
    ring := ringWrite a.ring r.pos (keptReceived r bytes) (bytes.drop (4 * (r.keep - r.first)))
    queue := a.queue ++ [{ start := r.keep, count := keptReceived r bytes, pos := r.pos }]
    writePos := (r.pos + keptReceived r bytes) % 16384 }

theorem enterBlock_none {r : Reception} {bytes : List Byte} (h : keptReceived r bytes = 0) (s : State) :
    enterBlock r bytes s = { s with audio := { s.audio with reception := none } } := by simp [enterBlock, h]

theorem enterBlock_some {r : Reception} {bytes : List Byte} (h : keptReceived r bytes ≠ 0) (s : State) :
    enterBlock r bytes s = refillTest { s with audio := blockEntered r bytes s.audio } := by
  simp [enterBlock, h, blockEntered, ringSize]

/-! ### A frame instant's work on the audio unit (R161, R162) -/

/-- An instant that serves no frame writes the output and the decay alone. -/
theorem playSilence_audio (s : State) : (playSilence s).audio = { s.audio with
    outLeft := (playSilence s).audio.outLeft, outRight := (playSilence s).audio.outRight
    decay := (playSilence s).audio.decay } := by
  unfold playSilence
  split <;> rfl

theorem emptyInstant_audio (s : State) : (emptyInstant s).audio = { s.audio with
    outLeft := (emptyInstant s).audio.outLeft, outRight := (emptyInstant s).audio.outRight
    decay := (emptyInstant s).audio.decay, underrun := (emptyInstant s).audio.underrun
    underrunCount := (emptyInstant s).audio.underrunCount } := by
  unfold emptyInstant
  dsimp only
  rw [playSilence_audio]
  simp

/-- What serves or plays silence writes the queue, and beside it the output, the decay and the underrun alone. -/
theorem serveOrSilence_audio (n : Nat) (s : State) : (serveOrSilence n s).audio = { s.audio with
    queue := afterServing n s.audio.queue
    outLeft := (serveOrSilence n s).audio.outLeft, outRight := (serveOrSilence n s).audio.outRight
    decay := (serveOrSilence n s).audio.decay, underrun := (serveOrSilence n s).audio.underrun
    underrunCount := (serveOrSilence n s).audio.underrunCount } := by
  unfold serveOrSilence
  split
  case h_1 empty => rw [emptyInstant_audio]; simp [empty, afterServing]
  case h_2 b rest queue =>
    split
    case isTrue head => simp [queue, head, afterServing, serveFrame, ringSize]
    case isFalse gap => rw [playSilence_audio]; simp [queue, gap, afterServing]

theorem dropLate_audio (n : Nat) (s : State) : (dropLate n s).audio = { s.audio with
    queue := afterLate n s.audio.queue
    skipCount := min 4294967295 (s.audio.skipCount + (discardLate n s.audio.queue).2)
    skip := decide (0 < (discardLate n s.audio.queue).2) } := by
  simp [dropLate, afterLate, stopAt]

theorem takeInstant_audio (n : Nat) (s : State) : (takeInstant n s).audio = { (serveOrSilence n (dropLate n s)).audio with
    play := some n, next := n + 1, refillHeld := (takeInstant n s).audio.refillHeld } := by
  simp only [takeInstant]
  split <;> simp [refillTest]

theorem takeInstant_queue (n : Nat) (s : State) : (takeInstant n s).audio.queue = afterServing n (afterLate n s.audio.queue) := by
  rw [takeInstant_audio, serveOrSilence_audio, dropLate_audio]

theorem takeInstant_writePos (n : Nat) (s : State) : (takeInstant n s).audio.writePos = s.audio.writePos := by
  rw [takeInstant_audio, serveOrSilence_audio, dropLate_audio]

theorem takeInstant_reception (n : Nat) (s : State) : (takeInstant n s).audio.reception = s.audio.reception := by
  rw [takeInstant_audio, serveOrSilence_audio, dropLate_audio]

/-! ### What the invariant reads -/

/-- The queue, where the next block enters, and the command under reception. -/
structure Stream where
  queue     : List Block
  writePos  : Nat
  reception : Option Reception

def stream (s : State) : Stream where
  queue := s.audio.queue
  writePos := s.audio.writePos
  reception := s.audio.reception

theorem stream_congr {s t : State} (h : t.audio = s.audio) : stream t = stream s := by simp only [stream, h]

section
variable {s t : State} (h : AudioInv s)
include h

theorem formed_of_audioInv : Formed s.audio.queue := ⟨h.nonempty, h.ordered, h.positions.2⟩

/-- Frames that leave from the head, a command under reception that is dropped: neither breaks the invariant. -/
theorem audioInv_of_left (formed : Formed t.audio.queue) (left : LeftOf s.audio.queue t.audio.queue)
    (writePos : t.audio.writePos < 16384) (reception : ∀ r, t.audio.reception = some r → s.audio.reception = some r) :
    AudioInv t where
  blocks := left.blocks.trans h.blocks
  nonempty := formed.nonempty
  ordered := formed.ordered
  fill := left.frames.trans h.fill
  positions := ⟨writePos, formed.inRing⟩
  judged r hr := h.judged r (reception r hr)
  roomKept r hr kept := by
    obtain ⟨blocks, room, ends⟩ := h.roomKept r (reception r hr) kept
    refine ⟨left.blocks.trans_lt blocks, (Nat.add_le_add_right left.frames _).trans room, fun b hb => ?_⟩
    obtain ⟨a, ha, same⟩ := left.ends b hb
    exact same.trans_le (ends a ha)

/-- Work that leaves the stream keeps the invariant. -/
theorem audioInv_of_stream (same : stream t = stream s) : AudioInv t := by
  obtain ⟨queue, writePos, reception⟩ := Stream.mk.inj same
  refine audioInv_of_left h ?_ ?_ (writePos ▸ h.positions.1) (fun r hr => reception ▸ hr)
  · exact queue ▸ formed_of_audioInv h
  · exact queue ▸ leftOf_refl _

theorem audioInv_frame (same : t.audio = s.audio) : AudioInv t := audioInv_of_stream h (stream_congr same)

end

end Sys2Proof.Proofs
end

