-- ==== Sys2Proof/Proofs/AudioInvariant.lean ====
section
/-! The audio unit's invariant (R154, R156 to R158) is kept by every step. -/

namespace Sys2Proof.Proofs

open Sys2Proof Sys2Proof.Machine Sys2Proof.Safety

/-! ### Work that leaves the stream: the requests of the show controller, and what issues them -/

@[simp] theorem stream_raise (src : Source) (s : State) : stream (raise src s) = stream s := rfl

@[simp] theorem stream_settle (code : Byte) (r : Result) (ix : Option Nat) (s : State) : stream (settle code r ix s) = stream s :=
  rfl

@[simp] theorem stream_setCtl (k : Controller) (s : State) : stream (setCtl k s) = stream s := rfl

@[simp] theorem stream_setRx (rx : RxState) (s : State) : stream (setRx rx s) = stream s := rfl

@[simp] theorem stream_evaluateLamps (s : State) : stream (evaluateLamps s) = stream s := stream_congr (by simp)

@[simp] theorem stream_requestFrame (p : Payload) (s : State) : stream (requestFrame p s) = stream s := stream_congr (by simp)

@[simp] theorem stream_audioLevel (gain len : Nat) (anchor : Int) (s : State) :
    stream (audioLevel gain len anchor s) = stream s := by
  unfold audioLevel
  split <;> rfl

@[simp] theorem stream_enterCountdown (g : GoRecord) (s : State) : stream (enterCountdown g s) = stream s := by
  simp [stream, enterCountdown_parts]

@[simp] theorem stream_enterRunning (s : State) : stream (enterRunning s) = stream s := stream_congr (by simp)

@[simp] theorem stream_enterCoda (cause : CodaCause) (s : State) : stream (enterCoda cause s) = stream s := by
  simp [stream, enterCoda, audioFadeOut]

@[simp] theorem stream_fireEnd (s : State) : stream (fireEnd s) = stream s := by
  unfold fireEnd
  split <;> simp

@[simp] theorem stream_stopCountdown (s : State) : stream (stopCountdown s) = stream s := by
  simp [stream, stopCountdown_parts]

@[simp] theorem stream_enterHalted (own : Bool) (s : State) : stream (enterHalted own s) = stream s := by
  unfold enterHalted
  split <;> simp [stream, audioFadeOut]

@[simp] theorem stream_peerHalt (s : State) : stream (peerHalt s) = stream s := by
  unfold peerHalt
  split <;> simp

@[simp] theorem stream_ownHalt (s : State) : stream (ownHalt s) = stream s := by
  unfold ownHalt
  split <;> simp [sendHalt]

@[simp] theorem stream_enterArmed (s : State) : stream (enterArmed s) = stream s := by simp [stream, enterArmed_parts]

@[simp] theorem stream_disarmed (s : State) : stream (disarmed s) = stream s := by simp [stream, disarmed_parts]

@[simp] theorem stream_deliver (o : Origin) (due : Int) (act : Act) (s : State) : stream (deliver o due act s) = stream s := by
  unfold deliver
  split
  case h_5 => exact stream_audioLevel _ _ _ s
  case h_7 => exact stream_fireEnd s
  all_goals exact stream_congr (by simp)

@[simp] theorem stream_setCue (k : CueEngine) (s : State) : stream { s with cue := k } = stream s := rfl

@[simp] theorem stream_fireHead (s : State) : stream (fireHead s) = stream s := by
  unfold fireHead
  split
  · rfl
  case h_2 a rest _ =>
    have left (u : State) : stream (retryHeldCue u) = stream u := stream_congr (by simp)
    have counted (u : State) : stream (countLate a u) = stream u := stream_congr (by simp)
    rw [left, stream_deliver, counted, stream_setCue]

@[simp] theorem stream_handOver (as : List Action) (s : State) : stream (handOver as s) = stream s :=
  foldl_keeps _ stream (fun s _ => stream_deliver _ _ _ s) as s

@[simp] theorem stream_cueSeek (c : ConfigRecord) (s : State) : stream (cueSeek c s) = stream s := by
  have handed : stream (seekHanded c s) = stream s := stream_handOver (retained (seekDue c s)) (seekCleared s)
  rw [cueSeek_eq]
  split
  · rw [stream_fireEnd, stream_setCue, handed]
  · rw [stream_setCue, handed]

@[simp] theorem stream_lateJoin (c : ConfigRecord) (g : GoRecord) (s : State) : stream (lateJoin c g s) = stream s := by
  unfold lateJoin
  split
  · rw [stream_evaluateLamps, stream_cueSeek]
    simp [stream]
  · simp

/-! ### Frames from peers -/

@[simp] theorem stream_heardGo (g : GoRecord) (s : State) : stream (heardGo g s) = stream s := by
  have missed : stream (missStart g s) = stream s := stream_congr (by simp)
  have moved : stream (waitForRoom (refreshAll (setCtl { s.ctl with go := some g } s))) = stream s := stream_congr (by simp)
  have taken (c : ConfigRecord) : stream (takeGo c g s) = stream s := by
    simp only [takeGo]
    split_ifs <;> simp [missed]
  have advanced : stream (advanceGo g s) = stream s := by
    unfold advanceGo
    split
    · rfl
    · dsimp only
      split_ifs <;> simp [moved]
  unfold heardGo
  split
  · split <;> simp [taken]
  · split <;> simp [advanced]
  · rfl

@[simp] theorem stream_heardStop (f : StopFrame) (s : State) : stream (heardStop f s) = stream s := by
  have pending (u : SiteTime) : stream (pendCoda u s) = stream s := stream_congr (by simp)
  unfold heardStop
  split
  · split <;> simp
  · split_ifs <;> simp [pending]
  · rfl

@[simp] theorem stream_peerBeacon (c : ConfigRecord) (i : Fin 32) (seq : Byte) (b : Beacon) (arrival : SiteTime) (s : State) :
    stream (peerBeacon c i seq b arrival s) = stream s := by
  have joined (u : State) : stream (joinTest c i u) = stream u := by
    unfold joinTest
    split
    · rfl
    · split <;> simp
  have taken : stream (takeOffset c i b.stamp arrival (recordBeacon i b seq arrival s)) = stream s := stream_congr (by simp)
  unfold peerBeacon
  dsimp only
  rw [joined]
  split <;> simp [taken]

/-- A received frame leaves the stream where its hand-over does (R52). -/
theorem stream_receiveFrame (sender : Byte) {f : Fin 32 → State → State} (hf : ∀ i u, stream (f i u) = stream u) (s : State) :
    stream (receiveFrame sender s f) = stream s := by
  unfold receiveFrame
  refine unlessHeld_of (P := fun t => stream t = stream s) rfl ?_
  split
  · rfl
  · split
    · exact stream_congr (by simp)
    · rw [hf, stream_setRx]

/-! ### Host commands -/

@[simp] theorem stream_answer (reply : List Byte) (s : State) : stream (answer reply s) = stream s := rfl

@[simp] theorem stream_setScore (sc : Score) (s : State) : stream (setScore sc s) = stream s := rfl

@[simp] theorem stream_refuse (r : Result) (s : State) : stream (refuse s r).1 = stream s := rfl

@[simp] theorem stream_localStop (s : State) : stream (Machine.localStop s).1 = stream s := by
  have pending (u : SiteTime) (t : State) : stream (pendCoda u t) = stream t := stream_congr (by simp)
  unfold Machine.localStop
  split
  · simp [sendStop]
  · split <;> simp [sendStop, pending]
  all_goals rfl

@[simp] theorem stream_configure (record : List Byte) (s : State) : stream (configure record s).1 = stream s := by
  have idle (c : ConfigRecord) : stream (configured c s) = stream s := by simp [configured, storeConfig, stream]
  have accepted (c : ConfigRecord) : stream (acceptConfig c s) = stream s := by
    rw [acceptConfig_eq]
    split <;> simp [idle]
  unfold configure
  split
  · rfl
  · split
    · rfl
    · rw [accept_fst, accepted]

@[simp] theorem stream_scoreOpen (header : List Byte) (s : State) : stream (scoreOpen header s).1 = stream s := by
  unfold scoreOpen
  split_ifs <;> rfl

@[simp] theorem stream_scoreData (body : List Byte) (s : State) : stream (scoreData body s).1 = stream s := by
  unfold scoreData
  split
  · rfl
  · split
    · rfl
    · dsimp only
      split <;> simp only [accept_fst, stream_setScore]

@[simp] theorem stream_scoreClose (s : State) : stream (scoreClose s).1 = stream s := by
  simp only [scoreClose]
  split_ifs
  · rfl
  · rfl
  · rfl
  · split <;> rfl

/-! ### Site time, and the change of a safety input -/

@[simp] theorem stream_endRound (c : ConfigRecord) (start : SiteTime) (s : State) : stream (endRound c start s) = stream s := by
  simp only [endRound]
  split <;> simp [stream, stepClock_periods]

@[simp] theorem stream_stableChange (c : ConfigRecord) (i : Fin 8) (s : State) : stream (stableChange c i s) = stream s := by
  have changed : stream (debounced c i s) = stream s := stream_congr (by simp [debounced])
  rw [stableChange_eq]
  split <;> simp [changed]

/-! ### Work on the stream: AUDIO, its end, AUDIO CLEAR and the frame instants -/

section
variable {s t : State} (h : AudioInv s)
include h

/-- AUDIO CLEAR leaves an empty queue, and a command under reception only where it was trimmed entirely (R159, R168). -/
theorem audioInv_cleared (queue : t.audio.queue = []) (writePos : t.audio.writePos = 0)
    (reception : t.audio.reception = keptReception s) : AudioInv t := by
  refine audioInv_of_left h (queue ▸ formed_nil) (queue ▸ leftOf_nil _) (by omega) fun r hr => ?_
  rw [reception] at hr
  exact (Option.filter_eq_some_iff.mp hr).1

theorem audioInv_enterIdle : AudioInv (enterIdle s) := by
  obtain ⟨-, -, audio, -⟩ := enterIdle_parts s
  rw [audioClear_audio] at audio
  exact audioInv_cleared h (congrArg (·.queue) audio) (congrArg (·.writePos) audio) (congrArg (·.reception) audio)

theorem audioInv_codaTest : AudioInv (codaTest s) := by
  have written : AudioInv (writeResult (codaResult s) (goShowId s) (showNow s) s) := audioInv_frame h rfl
  unfold codaTest
  split
  · exact audioInv_frame (audioInv_enterIdle written) rfl
  · exact h

/-- A command taken has room for its kept frames behind the tail (R156 to R158). -/
theorem audioInv_judgeAudio (start count : Nat) (ht : judgeAudio start count s = .inl t) : AudioInv t := by
  simp only [judgeAudio] at ht
  split_ifs at ht with standby legal full
  cases ht
  refine ⟨h.blocks, h.nonempty, h.ordered, h.fill, h.positions, fun r hr => ?_, fun r hr kept => ?_⟩
  · cases hr
    exact ⟨Nat.le_max_left _ _, by dsimp; omega, h.positions.1⟩
  · cases hr
    have room : ¬ (32 ≤ s.audio.queue.length ∨ ringRoom s.audio < start + count - max start (tailEnd s.audio)) :=
      fun none_left => full ⟨kept, none_left⟩
    have fill := h.fill
    simp only [ringRoom, ringSize, not_or] at room
    have fits : ringFill s.audio + (start + count - max start (tailEnd s.audio)) ≤ 16384 := by omega
    refine ⟨by dsimp; omega, fits, fun b hb => ?_⟩
    exact (block_end_le_tailEnd _ h.ordered b hb).trans (Nat.le_max_right _ _)

omit h in
/-- The kept frames received whole are among those reserved (R158, R159). -/
theorem keptReceived_le_reserved (r : Reception) (bytes : List Byte) : keptReceived r bytes ≤ reserved r := by
  simp only [keptReceived, reserved]
  omega

/-- The block of a command fits where its room was reserved (R159). -/
theorem audioInv_enterBlock {r : Reception} (hr : s.audio.reception = some r) (bytes : List Byte) :
    AudioInv (enterBlock r bytes s) := by
  have queue := formed_of_audioInv h
  have ended : AudioInv { s with audio := { s.audio with reception := none } } :=
    audioInv_of_left h queue (leftOf_refl _) h.positions.1 (by simp)
  by_cases nothing : keptReceived r bytes = 0
  · rwa [enterBlock_none nothing]
  · have within := keptReceived_le_reserved r bytes
    obtain ⟨blocks, room, ends⟩ := h.roomKept r hr (by omega)
    obtain ⟨-, -, inRing⟩ := h.judged r hr
    have formed : Formed (blockEntered r bytes s.audio).queue := formed_snoc queue (Nat.pos_of_ne_zero nothing) ends inRing
    have fill : ringFill (blockEntered r bytes s.audio) = ringFill s.audio + keptReceived r bytes := framesIn_snoc _ _
    rw [enterBlock_some nothing]
    refine audioInv_of_stream (s := { s with audio := blockEntered r bytes s.audio }) ?_ (by simp [stream, refillTest_audio])
    refine ⟨?_, formed.nonempty, formed.ordered, fill.trans_le (by omega), ⟨Nat.mod_lt _ (by decide), formed.inRing⟩,
      by simp [blockEntered], by simp [blockEntered]⟩
    simpa [blockEntered] using blocks

/-- A frame instant leaves the stream but for the frames discarded and the one served. -/
theorem audioInv_frameInstant (c : ConfigRecord) (tau : Int) : AudioInv (frameInstant c tau s) := by
  have queue := formed_of_audioInv h
  have kept := formed_afterLate (n := highestFrame c tau) queue
  simp only [frameInstant]
  split
  · exact audioInv_of_stream h rfl
  · refine audioInv_of_left h ?_ ?_ ?_ fun r hr => ?_
    · rw [takeInstant_queue]
      exact formed_afterServing kept
    · rw [takeInstant_queue]
      exact (leftOf_afterLate queue).trans (leftOf_afterServing _ kept)
    · rw [takeInstant_writePos]
      exact h.positions.1
    · rwa [takeInstant_reception] at hr

theorem audioInv_hostCommand (code : Byte) (body : State → State × Result × Option Nat) (hb : AudioInv (body s).1) :
    AudioInv (hostCommand code s body) := by
  unfold hostCommand
  refine unlessDeaf_of h ?_
  split
  · exact audioInv_of_stream h (stream_settle _ _ _ s)
  · exact audioInv_of_stream hb (stream_settle _ _ _ _)

theorem audioInv_incomplete (code : Byte) : AudioInv (incomplete code s) :=
  unlessDeaf_of (P := fun t => AudioInv (endFrame t)) (audioInv_of_stream h rfl) (audioInv_of_stream h rfl)

omit h in
theorem audioInv_hardReset (cause : ResetCause) (s : State) : AudioInv (hardReset cause s) :=
  audioInv_of_stream audioInv_reset rfl

omit h in
theorem audioInv_softReset (s : State) : AudioInv (softReset s) := audioInv_of_stream audioInv_reset rfl

end

/-! ### Every command, and the clock's own work -/

theorem audioInv_exec {s t : State} (i : Instr) (h : AudioInv s) (he : exec i s = .next t) : AudioInv t := by
  have same {u : State} (hu : stream u = stream s) : AudioInv u := audioInv_of_stream h hu
  have frame {u : State} (hu : u.audio = s.audio) : AudioInv u := audioInv_frame h hu
  have command (code : Byte) (body : State → State × Result × Option Nat) (hb : stream (body s).1 = stream s) :
      AudioInv (hostCommand code s body) := audioInv_hostCommand h code body (same hb)
  cases i with
  | nop => cases he; exact h
  | powerOnReset | pinReset => cases he; exact audioInv_hardReset _ _
  | softReset => cases he; exact unlessDeaf_of h (audioInv_softReset s)
  | resetExit => cases he; exact frame rfl
  | ident | status | events | peers => cases he; exact unlessDeaf_of h (same (stream_answer _ s))
  | pump channel =>
    cases he
    refine unlessDeaf_of h ?_
    split <;> exact same (stream_answer _ s)
  | configure | scoreOpen =>
    cases he
    split
    · exact audioInv_incomplete h _
    · exact command _ _ (by simp)
  | scoreData body =>
    cases he
    split
    · exact command _ _ (by simp)
    · exact audioInv_incomplete h _
  | scoreClose | stop => cases he; exact command _ _ (by simp)
  | arm | disarm | go =>
    cases he
    refine command _ _ ?_
    split <;> simp [startLocal]
  | eventClear | eventMask =>
    cases he
    refine command _ _ ?_
    split <;> rfl
  | release =>
    cases he
    refine audioInv_hostCommand h _ _ ?_
    split
    · exact audioInv_frame (audioInv_enterIdle h) rfl
    · exact h
  | unknownCommand code =>
    cases he
    split
    · exact h
    · exact command _ _ rfl
  | commandIncomplete code =>
    cases he
    split
    · exact audioInv_incomplete h _
    · exact same rfl
  | audio start count =>
    cases he
    refine unlessDeaf_of h ?_
    split
    · exact same rfl
    · split
      case h_1 hj => exact audioInv_judgeAudio h _ _ hj
      case h_2 => exact same rfl
  | audioEnd bytes =>
    cases he
    refine unlessDeaf_of (P := fun u => AudioInv (endFrame u)) (same rfl) ?_
    split
    · exact same rfl
    case h_2 hr => exact audioInv_frame (audioInv_enterBlock h hr bytes) rfl
  | beaconReceived sender seq b arrival =>
    cases he
    refine same (stream_receiveFrame _ (fun i u => ?_) s)
    split
    · exact stream_congr (by simp)
    · split
      · exact stream_congr (by simp)
      · exact stream_peerBeacon _ _ _ _ _ _
  | goFrameReceived sender g => cases he; exact same (stream_receiveFrame _ (fun _ => stream_heardGo g) s)
  | stopFrameReceived sender f => cases he; exact same (stream_receiveFrame _ (fun _ => stream_heardStop f) s)
  | haltFrameReceived =>
    cases he
    refine same (stream_receiveFrame _ (fun _ u => ?_) s)
    rw [stream_peerHalt]
    rfl
  | startAskReceived sender pumpNo arrival =>
    cases he
    refine same (stream_receiveFrame _ (fun i u => ?_) s)
    split <;> exact stream_congr (by simp)
  | frameFault bytes =>
    cases he
    refine unlessHeld_of h ?_
    split
    · exact h
    · exact frame (by simp)
  | beaconDue =>
    cases he
    refine unlessHeld_of h ?_
    split
    · exact h
    · split
      · exact frame (by simp)
      · exact h
  | roundEnd =>
    cases he
    refine unlessHeld_of h ?_
    split
    · split
      · exact same (by simp)
      · exact h
    · exact h
  | transmissionComplete | attemptFailed =>
    cases he
    refine unlessHeld_of h ?_
    split
    · exact frame (by simp)
    · exact h
  | attemptStart | receiverReady | slewAdjustment | peerStale | peerAbsent | checksumComplete | figureStepBoundary | figureEnd
    | holdWindowEnd | anemometerPulse | lampPeriod =>
    cases he
    refine unlessHeld_of h ?_
    split
    · exact frame (by simp)
    · exact h
  | startReached | pendingCodaReached | actionFires =>
    cases he
    refine unlessHeld_of h ?_
    split
    · exact same (by simp)
    · exact h
  | codaDeadline =>
    cases he
    exact whenDue_of codaDeadlineDue (fun s => codaTest (setCtl { s.ctl with codaTested := true } s)) h
      (audioInv_codaTest (s := setCtl { s.ctl with codaTested := true } s) (frame rfl))
  | cueTaken =>
    cases he
    refine unlessHeld_of h ?_
    split_ifs
    · exact frame (by simp)
    · exact frame (by simp)
    · exact h
  | pumpPeriod feedback =>
    cases he
    refine unlessHeld_of h ?_
    split
    · exact h
    · split
      · exact audioInv_codaTest (frame (by simp))
      · exact h
  | windowClose =>
    cases he
    refine unlessHeld_of h ?_
    split
    · exact h
    · split
      · exact frame (by simp)
      · exact h
  | gainUpdate =>
    cases he
    refine unlessHeld_of h ?_
    split
    · exact same rfl
    · exact h
  | frameInstant =>
    cases he
    refine unlessHeld_of h ?_
    split
    · split
      · exact audioInv_frameInstant h _ _
      · exact h
    · exact h
  | safetyLevelChange input high =>
    cases he
    dsimp only
    split
    · exact h
    · exact frame rfl
  | debounceExpiry input =>
    cases he
    refine unlessHeld_of h ?_
    split
    · exact h
    · split
      · exact same (by simp)
      · exact h

/-- Settles O60: a step is one command, or one microsecond of local time. -/
theorem stepKeepsAudio : Obligations.StepKeepsAudio := by
  intro s t h hs
  unfold step at hs
  split at hs
  case h_1 i rest _ =>
    have front : AudioInv { s with pending := rest } := audioInv_frame h rfl
    exact audioInv_exec i front hs
  case h_2 =>
    unfold idle at hs
    split at hs
    · cases hs; exact h
    · split at hs
      · exact audioInv_exec _ h hs
      · cases hs
        exact unlessHeld_of (f := elapse 1) h (audioInv_frame h rfl)

end Sys2Proof.Proofs
end

