-- ==== Sys2Proof/Proofs/AudioBlocks.lean ====
section
/-! The AUDIO command judged, and its block entered at the end of its frame. -/

namespace Sys2Proof.Proofs

open Sys2Proof Sys2Proof.Machine Sys2Proof.Safety

/-! ### AUDIO judged (R156 to R158) -/

/-- A start frame and a count within their ranges (R156). -/
abbrev audioLegal (start count : Nat) : Prop := 1 ≤ count ∧ count ≤ 4096 ∧ start ≤ 172800000

/-- The index of the first kept frame (R157). -/
def firstKept (start : Nat) (a : AudioUnit) : Nat := max start (tailEnd a)

/-- The kept part finds no room (R158). -/
abbrev noRoom (start count : Nat) (a : AudioUnit) : Prop :=
  32 ≤ a.queue.length ∨ ringRoom a < start + count - firstKept start a

section
variable {s : State} {start count : Nat}

theorem judgeAudio_standby (hs : s.ctl.state = .standby) : judgeAudio start count s = .inr .state := if_pos hs

theorem judgeAudio_illegal (hs : s.ctl.state ≠ .standby) (hl : ¬ audioLegal start count) :
    judgeAudio start count s = .inr .param := by
  rw [judgeAudio, if_neg hs, if_pos (by omega)]

theorem judgeAudio_full (hs : s.ctl.state ≠ .standby) (hl : audioLegal start count)
    (kept : start + count - firstKept start s.audio ≠ 0) (full : noRoom start count s.audio) :
    judgeAudio start count s = .inr .space := by
  rw [judgeAudio, if_neg hs, if_neg (by omega)]
  exact if_pos ⟨kept, full⟩

theorem judgeAudio_taken (hs : s.ctl.state ≠ .standby) (hl : audioLegal start count)
    (room : start + count - firstKept start s.audio = 0 ∨ ¬ noRoom start count s.audio) :
    judgeAudio start count s = .inl { s with audio := { s.audio with
      reception := some { first := start, count := count, keep := firstKept start s.audio, pos := s.audio.writePos } } } := by
  rw [judgeAudio, if_neg hs, if_neg (by omega)]
  exact if_neg fun ⟨kept, full⟩ => room.elim kept fun fits => fits full

end

section
variable {s : State} (h : commandTaken s) {start : BitVec 32} {count : Word16}
include h

theorem exec_audio_refused {r : Result} (hj : judgeAudio start.toNat count.toNat s = .inr r) :
    ∃ t, exec (.audio start count) s = .next t ∧ recorded 0x50 r none s t ∧ onlyChanges [.port] s t := by
  obtain ⟨⟨held, heard⟩, idle⟩ := h
  refine ⟨settle 0x50 r none s, congrArg Host.Outcome.next ?_, recorded_settle _ _ _ rfl, by simp [onlyChanges_iff]⟩
  rw [unlessDeaf_listening s _ held heard, if_neg idle, hj]

theorem exec_audio_taken {t : State} (hj : judgeAudio start.toNat count.toNat s = .inl t) :
    exec (.audio start count) s = .next t := by
  obtain ⟨⟨held, heard⟩, idle⟩ := h
  refine congrArg Host.Outcome.next ?_
  rw [unlessDeaf_listening s _ held heard, if_neg idle, hj]

end

/-- Settles O29: the three refusals in their order, then the command taken. -/
theorem audioJudged : Obligations.AudioJudged := by
  intro s start count h first n legal tail keep kept full
  have tail_eq : tail = tailEnd s.audio := by
    simp only [tail, tailEnd]
    cases s.audio.queue.getLast? <;> rfl
  clear_value tail
  subst tail_eq
  exact ⟨fun standby => exec_audio_refused h (judgeAudio_standby standby),
    fun hs illegal => exec_audio_refused h (judgeAudio_illegal hs illegal),
    fun hs hl kept full => exec_audio_refused h (judgeAudio_full hs hl kept full),
    fun hs hl room => ⟨_, exec_audio_taken h (judgeAudio_taken hs hl room), rfl, by simp [onlyChanges_iff]⟩⟩

/-! ### Frames written to the ring (R154, R159) -/

/-- The positions where no frame is written stay as they were. -/
theorem ringWrite_read_outside {n : Nat} {m : Memory} {pos : Nat} {bytes : List Byte} {a : Nat}
    (outside : ∀ j, j < n → a / 4 ≠ (pos + j) % 16384) : (ringWrite m pos n bytes).read a = m.read a := by
  induction n generalizing m pos bytes with
  | zero => rfl
  | succ n ih =>
    have here := outside 0 (Nat.succ_pos n)
    have length : (bytes.take 4).length ≤ 4 := List.length_take_le 4 bytes
    rw [ringWrite, ih fun j hj => ?_, Memory.read_writeAll_outside]
    · simp only [ringSize]
      omega
    · have next := outside (j + 1) (Nat.succ_lt_succ hj)
      rwa [Nat.add_right_comm, Nat.add_assoc]

/-- Frame `j` of those written is read back at its position, whole. -/
theorem ringWrite_read_inside {n : Nat} {m : Memory} {pos : Nat} {bytes : List Byte} (wf : m.wf = true) (fits : n ≤ 16384)
    (whole : 4 * n ≤ bytes.length) {j i : Nat} (hj : j < n) (hi : i < 4) :
    ((ringWrite m pos n bytes).read (4 * ((pos + j) % 16384) + i)).toNat = byteAt bytes (4 * j + i) := by
  induction n generalizing m pos bytes j with
  | zero => exact absurd hj (Nat.not_lt_zero j)
  | succ n ih =>
    rw [ringWrite]
    cases j with
    | zero =>
      have stored : i < (bytes.take 4).length := by rw [List.length_take]; omega
      rw [ringWrite_read_outside fun k hk => by omega]
      simp only [ringSize, Nat.add_zero]
      rw [Memory.read_writeAll_inside m _ _ _ wf stored, ← byteAt_take bytes (k := 4) (by omega)]
      simp [byteAt, List.getElem?_eq_getElem stored]
    | succ j =>
      have rest := ih (m := m.writeAll (4 * (pos % ringSize)) (bytes.take 4)) (pos := pos + 1) (bytes := bytes.drop 4)
        (Memory.writeAll_wf m _ _ wf) (by omega) (by rw [List.length_drop]; omega) (Nat.lt_of_succ_lt_succ hj)
      rw [byteAt_drop] at rest
      rw [Nat.add_comm j 1, ← Nat.add_assoc pos, rest, Nat.mul_add, Nat.add_assoc]

/-! ### The end of AUDIO (R159) -/

theorem refillCondition_iff (a : AudioUnit) :
    refillCondition a = true ↔ 8192 ≤ 16384 - (a.queue.map (·.count)).sum ∧ a.queue.length < 32 := decide_eq_true_iff

/-- AUDIO REFILL is raised where the condition newly holds (R167). -/
theorem refillTest_events (s : State) : (refillTest s).events =
    if refillCondition s.audio = true ∧ s.audio.refillHeld = false then s.events.raised .audioRefill else s.events := by
  simp [refillTest]

section
variable {s : State} (h : listens s) (bytes : List Byte)
include h

theorem exec_audioEnd_none (hr : s.audio.reception = none) : exec (.audioEnd bytes) s = .next (endFrame s) := by
  refine congrArg (fun t => Host.Outcome.next (endFrame t)) ?_
  rw [unlessDeaf_listening s _ h.1 h.2, hr]

theorem exec_audioEnd_some {r : Reception} (hr : s.audio.reception = some r) :
    exec (.audioEnd bytes) s = .next (endFrame (settle 0x50 .ok none (enterBlock r bytes s))) := by
  refine congrArg (fun t => Host.Outcome.next (endFrame t)) ?_
  rw [unlessDeaf_listening s _ h.1 h.2, hr]

end

/-- Settles O30: no block enters, or the kept frames received whole, written one after the other from the reserved position. -/
theorem audioEndEntersBlock : Obligations.AudioEndEntersBlock := by
  intro s bytes hl h wf
  refine ⟨exec_audioEnd_none hl bytes, fun r hr => ?_⟩
  intro n
  have received : keptReceived r bytes = n := rfl
  obtain ⟨keep, count, -⟩ := h.judged r hr
  refine ⟨_, exec_audioEnd_some hl bytes hr, ?_, by simp [onlyChanges_iff], fun nothing => ?_, fun something => ?_⟩
  · simp [recordedAtEnd]
  · simp [enterBlock_none (received.trans nothing)]
  · have entered := enterBlock_some (bytes := bytes) (r := r) something s
    have audio : (enterBlock r bytes s).audio = { blockEntered r bytes s.audio with
        refillHeld := refillCondition (blockEntered r bytes s.audio) } := by
      rw [entered, refillTest_audio]
    have events := congrArg (·.events) entered
    rw [refillTest_events] at events
    have ring : (enterBlock r bytes s).audio.ring = ringWrite s.audio.ring r.pos n (bytes.drop (4 * (r.keep - r.first))) := by
      rw [audio]
      rfl
    simp only [endFrame_frame, settle_frame]
    refine ⟨?_, fun j i hj hi => ?_, fun a outside => ?_, ?_, ?_⟩
    · rw [audio]
      rfl
    · rw [ring, ringWrite_read_inside wf (by omega) (by rw [List.length_drop]; omega) hj hi, byteAt_drop]
      congr 1
      omega
    · rw [ring, ringWrite_read_outside outside]
    · rw [audio]
      exact refillCondition_iff _
    · rw [events, audio]
      rfl

end Sys2Proof.Proofs
end

