-- ==== Sys2Proof/Proofs/FrameInstants.lean ====
section
/-! FRAME_INSTANT: the frame whose instant is reached, what a frame instant leaves in the queue, and the output it gives. -/

namespace Sys2Proof.Proofs

open Sys2Proof Sys2Proof.Machine Sys2Proof.Safety

/-! ### Frames held, and their ring positions (R154) -/

/-- Frame `k` lies in a block, at ring position `pos`. -/
def InBlock (b : Block) (k pos : Nat) : Prop :=
  b.start ≤ k ∧ k < b.start + b.count ∧ pos = (b.pos + (k - b.start)) % 16384

/-- Frame `k` lies in some block of a queue, at ring position `pos`. -/
def Holds (q : List Block) (k pos : Nat) : Prop := ∃ b ∈ q, InBlock b k pos

theorem heldAt_iff (a : AudioUnit) (k pos : Nat) : heldAt a k pos ↔ Holds a.queue k pos := Iff.rfl

theorem holds_nil (k pos : Nat) : ¬ Holds [] k pos := by simp [Holds]

theorem holds_cons (b : Block) (q : List Block) (k pos : Nat) :
    Holds (b :: q) k pos ↔ InBlock b k pos ∨ Holds q k pos := by
  simp [Holds]

/-- A queue whose blocks all begin at `n` or later holds no frame below `n`. -/
theorem le_of_holds {n : Nat} {q : List Block} (h : ∀ b ∈ q, n ≤ b.start) {k pos : Nat} (held : Holds q k pos) : n ≤ k := by
  obtain ⟨b, hb, start, -⟩ := held
  exact (h b hb).trans start

/-- The discards remove the frames below `n`; every other stays at its ring position (R161). -/
theorem holds_afterLate {n : Nat} {q : List Block} (h : Formed q) (k pos : Nat) :
    Holds (afterLate n q) k pos ↔ Holds q k pos ∧ n ≤ k := by
  induction q with
  | nil => simp [afterLate, discardLate, holds_nil]
  | cons b q ih =>
    have behind (reaches : n ≤ b.start + b.count) (held : Holds q k pos) : n ≤ k :=
      le_of_holds (fun a ha => reaches.trans (h.behind a ha)) held
    rcases late_cases n b with early | ⟨late, whole⟩ | ⟨late, part⟩
    · rw [afterLate, discardLate_early q early, holds_cons]
      have all : InBlock b k pos → n ≤ k := fun inside => early.trans inside.1
      have rest := behind (by omega)
      tauto
    · rw [afterLate, discardLate_whole q late whole, ih h.tail, holds_cons]
      have gone : InBlock b k pos → ¬ n ≤ k := fun ⟨_, last, _⟩ => by omega
      tauto
    · rw [afterLate, discardLate_part q late part, holds_cons, holds_cons]
      have cut : InBlock { start := n, count := b.start + b.count - n, pos := (b.pos + (n - b.start)) % 16384 } k pos ↔
          InBlock b k pos ∧ n ≤ k := by
        simp only [InBlock]
        omega
      have rest := behind part.le
      tauto

/-- With no late frame in the queue, frame `n` is the only one that serving removes (R161). -/
theorem holds_afterServing {n : Nat} {q : List Block} (h : Formed q) (late : ∀ b ∈ q, n ≤ b.start) (k pos : Nat) :
    Holds (afterServing n q) k pos ↔ Holds q k pos ∧ n < k := by
  unfold afterServing
  split
  · simp [holds_nil]
  case h_2 b q =>
    have count := h.nonempty b (.head _)
    have behind (held : Holds q k pos) : b.start < k := by
      have := le_of_holds h.behind held
      omega
    split
    case isTrue head =>
      subst head
      split
      case isTrue last =>
        have gone : InBlock b k pos → ¬ b.start < k := fun ⟨_, inside, _⟩ => by omega
        rw [holds_cons]
        tauto
      case isFalse =>
        have cut : InBlock { start := b.start + 1, count := b.count - 1, pos := (b.pos + 1) % 16384 } k pos ↔
            InBlock b k pos ∧ b.start < k := by
          simp only [InBlock]
          omega
        rw [holds_cons, holds_cons]
        tauto
    case isFalse gap =>
      have first : n < b.start := lt_of_le_of_ne (late b (.head _)) (Ne.symm gap)
      have all (held : Holds (b :: q) k pos) : n < k := by
        rcases (holds_cons b q k pos).mp held with inside | held
        · exact first.trans_le inside.1
        · exact first.trans (behind held)
      tauto

/-! ### The head after the discards (R161) -/

section
variable {n : Nat} {q : List Block} (h : Formed q)
include h

/-- No block is left exactly where every frame held is late. -/
theorem afterLate_eq_nil_iff : afterLate n q = [] ↔ ∀ k pos, Holds q k pos → k < n := by
  constructor
  · intro empty k pos held
    refine Nat.lt_of_not_le fun late => holds_nil k pos ?_
    rw [← empty, holds_afterLate h]
    exact ⟨held, late⟩
  · intro late
    rw [List.eq_nil_iff_forall_not_mem]
    intro b hb
    have count := (formed_afterLate h).nonempty b hb
    have first : Holds (afterLate n q) b.start ((b.pos + (b.start - b.start)) % 16384) :=
      ⟨b, hb, Nat.le_refl _, by omega, rfl⟩
    obtain ⟨held, reached⟩ := (holds_afterLate h _ _).mp first
    exact absurd (late _ _ held) (Nat.not_lt.mpr reached)

/-- Where frame `n` is held the head block begins with it, at its ring position. -/
theorem head_of_holds {pos : Nat} (held : Holds q n pos) :
    ∃ b rest, afterLate n q = b :: rest ∧ b.start = n ∧ b.pos = pos := by
  have formed := formed_afterLate (n := n) h
  have late := start_of_mem_afterLate (n := n) h
  have left := (holds_afterLate h n pos).mpr ⟨held, Nat.le_refl n⟩
  generalize afterLate n q = r at formed late left
  cases r with
  | nil => exact absurd left (holds_nil n pos)
  | cons b rest =>
    have first := late b (.head _)
    have count := formed.nonempty b (.head _)
    have inRing := formed.inRing b (.head _)
    rcases (holds_cons b rest n pos).mp left with ⟨start, -, position⟩ | behind
    · exact ⟨b, rest, rfl, by omega, by omega⟩
    · have := le_of_holds formed.behind behind
      omega

/-- Where later frames are held and frame `n` is not, the head block begins later. -/
theorem head_of_gap (later : ¬ ∀ k pos, Holds q k pos → k < n) (gap : ∀ pos, ¬ Holds q n pos) :
    ∃ b rest, afterLate n q = b :: rest ∧ b.start ≠ n := by
  rw [← afterLate_eq_nil_iff h] at later
  obtain ⟨b, rest, left⟩ := List.exists_cons_of_ne_nil later
  refine ⟨b, rest, left, fun head => ?_⟩
  have count := (formed_afterLate (n := n) h).nonempty b (left ▸ .head _)
  have first : Holds (afterLate n q) n ((b.pos + (n - b.start)) % 16384) :=
    ⟨b, left ▸ .head _, head.le, by omega, rfl⟩
  exact gap _ ((holds_afterLate h _ _).mp first).1

end

/-! ### The frame whose instant is reached (R160) -/

section
variable {c : ConfigRecord} {now : Int} {k : Nat}

/-- A frame's instant is reached exactly up to the highest frame, from the instant of frame 0 on. -/
theorem frameTime_le_iff (first : frameTime c 0 ≤ now) : frameTime c k ≤ now ↔ k ≤ highestFrame c now := by
  simp only [frameTime, highestFrame] at first ⊢
  omega

theorem frameTime_zero_le (h : frameTime c k ≤ now) : frameTime c 0 ≤ now := by
  simp only [frameTime] at h ⊢
  omega

/-- The highest frame whose instant is reached. -/
theorem highestFrame_eq (reached : frameTime c k ≤ now) (ahead : now < frameTime c (k + 1)) : highestFrame c now = k := by
  have first := frameTime_zero_le reached
  have low := (frameTime_le_iff first).mp reached
  have high := mt (frameTime_le_iff first).mpr (not_le.mpr ahead)
  omega

end

/-- Frames that have ended are as the end leaves them (R160). -/
theorem endFrames_of_framesEnded {s : State} (h : framesEnded s.audio = true) : endFrames s = s := by
  have same (a : AudioUnit) (ended : framesEnded a = true) :
      { a with next := frameEnd, outLeft := 0, outRight := 0, decay := none, underrun := false } = a := by
    cases a
    simp_all [framesEnded]
  exact congrArg (fun a => { s with audio := a }) (same s.audio h)

/-! ### The output of a frame instant (R161, R162) -/

/-- The output of the audio unit is the next value of decay `d`, which has gone on by a frame. -/
def fadesFrom (d : Decay) (a : AudioUnit) : Prop :=
  a.decay = some { d with elapsed := min 48 (d.elapsed + 1) } ∧
  a.outLeft = Int.tdiv (d.left * ((47 - d.elapsed : Nat) : Int)) 48 ∧
  a.outRight = Int.tdiv (d.right * ((47 - d.elapsed : Nat) : Int)) 48

theorem playSilence_silent {s : State} (h : s.audio.decay = none) :
    (playSilence s).audio = { s.audio with outLeft := 0, outRight := 0 } := by simp [playSilence, h]

theorem playSilence_fades {s : State} {d : Decay} (h : s.audio.decay = some d) : fadesFrom d (playSilence s).audio := by
  simp [fadesFrom, playSilence, h, decayed, stopAt]

/-- The decay that an empty queue begins or goes on with (R162). -/
def decayOf (a : AudioUnit) : Decay := a.decay.getD { left := a.outLeft, right := a.outRight, elapsed := 0 }

theorem emptyInstant_fades (s : State) : fadesFrom (decayOf s.audio) (emptyInstant s).audio := by
  unfold emptyInstant
  exact playSilence_fades (by simp [decayOf])

/-- An underrun begins in RUNNING alone, and only where none is in progress (R162). -/
theorem emptyInstant_underrun (s : State) :
    (emptyInstant s).audio.underrun = (s.audio.underrun || decide (s.ctl.state = .running)) ∧
    (emptyInstant s).audio.underrunCount = (if s.ctl.state = .running ∧ s.audio.underrun = false then
      min 65535 (s.audio.underrunCount + 1) else s.audio.underrunCount) := by
  unfold emptyInstant
  rw [playSilence_audio]
  by_cases running : s.ctl.state = .running <;> cases s.audio.underrun <;> simp [running, stopAt]

theorem emptyInstant_pending {s : State} (running : s.ctl.state = .running) (clear : s.audio.underrun = false) :
    (emptyInstant s).events.pending.getLsbD 11 = true := by
  simp [emptyInstant, running, clear, Source.bit, Source.index]

section
variable {n : Nat} {s : State}

theorem serveOrSilence_empty (h : s.audio.queue = []) : serveOrSilence n s = emptyInstant s := by simp [serveOrSilence, h]

theorem serveOrSilence_head {b : Block} {rest : List Block} (h : s.audio.queue = b :: rest) (head : b.start = n) :
    serveOrSilence n s = serveFrame b rest s := by simp [serveOrSilence, h, head]

theorem serveOrSilence_gap {b : Block} {rest : List Block} (h : s.audio.queue = b :: rest) (gap : b.start ≠ n) :
    serveOrSilence n s = playSilence s := by simp [serveOrSilence, h, gap]

/-- A pending source stays pending while the instant is served. -/
theorem takeInstant_pending {i : Nat} (h : (serveOrSilence n (dropLate n s)).events.pending.getLsbD i = true) :
    (takeInstant n s).events.pending.getLsbD i = true := by
  simp only [takeInstant]
  split
  · exact h
  · rw [refillTest_events]
    split
    · exact raised_pending_of h _
    · exact h

theorem serveOrSilence_pending {i : Nat} (h : s.events.pending.getLsbD i = true) :
    (serveOrSilence n s).events.pending.getLsbD i = true := by
  unfold serveOrSilence emptyInstant
  split
  · simp only [playSilence_frame, raiseIf_events]
    split
    · exact raised_pending_of h _
    · exact h
  · split <;> simpa using h

/-- Late frames discarded with no episode in progress raise AUDIO SKIP (R161). -/
theorem dropLate_pending (late : 0 < (discardLate n s.audio.queue).2) (clear : s.audio.skip = false) :
    (dropLate n s).events.pending.getLsbD 12 = true := by
  simp [dropLate, late, clear, Source.bit, Source.index]

end

/-! ### The whole instant -/

section
variable {s : State} {c : ConfigRecord} {g : GoRecord} (hh : s.port.held = false) (hc : s.config = some c)
  (hg : s.ctl.go = some g)
include hh hc hg

theorem exec_frameInstant : exec .frameInstant s =
    .next (if frameDue s then frameInstant c (sdiff s.clock.site g.start) s else s) := by
  refine congrArg Host.Outcome.next ((unlessHeld_free s _ hh).trans ?_)
  rw [hc, showTime_of_go hg]

theorem exec_frameInstant_ahead (ahead : sdiff s.clock.site g.start < frameTime c s.audio.next) :
    exec .frameInstant s = .next s := by
  rw [exec_frameInstant hh hc hg, if_neg]
  simp [frameDue, hc, showTime_of_go hg, ahead]

/-- From its instant on the frame instant is taken; once the frames have ended it changes nothing (R160). -/
theorem exec_frameInstant_reached (playing : s.ctl.state = .running ∨ s.ctl.state = .coda ∨ s.ctl.state = .halted)
    (reached : frameTime c s.audio.next ≤ sdiff s.clock.site g.start) :
    exec .frameInstant s = .next (frameInstant c (sdiff s.clock.site g.start) s) := by
  rw [exec_frameInstant hh hc hg]
  split
  case isTrue => rfl
  case isFalse idle =>
    have ended : framesEnded s.audio = true := by
      simpa [frameDue, hc, showTime_of_go hg, reached, playing, or_assoc] using idle
    have past : s.audio.next = frameEnd := by
      simp only [framesEnded, Bool.and_eq_true, decide_eq_true_eq] at ended
      exact ended.1.1.1.1
    have highest := (frameTime_le_iff (frameTime_zero_le reached)).mp reached
    rw [past] at highest
    rw [frameInstant, if_pos highest, endFrames_of_framesEnded ended]

end

section
variable {n : Nat} {s : State}

/-- Frame `n`, at the head after the discards, is served (R161). -/
theorem takeInstant_served {b : Block} {rest : List Block} (left : afterLate n s.audio.queue = b :: rest)
    (head : b.start = n) :
    (takeInstant n s).audio.outLeft = Int.tdiv (sampleAt s.audio.ring (4 * b.pos) * s.audio.applied) 1024 ∧
    (takeInstant n s).audio.outRight = Int.tdiv (sampleAt s.audio.ring (4 * b.pos + 2) * s.audio.applied) 1024 ∧
    (takeInstant n s).audio.decay = none ∧ (takeInstant n s).audio.underrun = false ∧
    (takeInstant n s).audio.underrunCount = s.audio.underrunCount := by
  have atHead : (dropLate n s).audio.queue = b :: rest := by rw [dropLate_audio, left]
  rw [takeInstant_audio, serveOrSilence_head atHead head]
  simp [serveFrame, dropLate_audio, scaled]

/-- An empty queue: the decay goes on, and in RUNNING an underrun begins (R162). -/
theorem takeInstant_empty (left : afterLate n s.audio.queue = []) :
    fadesFrom (decayOf s.audio) (takeInstant n s).audio ∧
    (takeInstant n s).audio.underrun = (s.audio.underrun || decide (s.ctl.state = .running)) ∧
    (takeInstant n s).audio.underrunCount = (if s.ctl.state = .running ∧ s.audio.underrun = false then
      min 65535 (s.audio.underrunCount + 1) else s.audio.underrunCount) ∧
    (s.ctl.state = .running → s.audio.underrun = false → (takeInstant n s).events.pending.getLsbD 11 = true) := by
  have empty : (dropLate n s).audio.queue = [] := by rw [dropLate_audio, left]
  have underrun : (dropLate n s).audio.underrun = s.audio.underrun := by rw [dropLate_audio]
  have fades := emptyInstant_fades (dropLate n s)
  have episode := emptyInstant_underrun (dropLate n s)
  have raises (running : s.ctl.state = .running) (clear : s.audio.underrun = false) :
      (takeInstant n s).events.pending.getLsbD 11 = true := by
    refine takeInstant_pending ?_
    rw [serveOrSilence_empty empty]
    exact emptyInstant_pending (by simpa using running) (underrun.trans clear)
  rw [dropLate_audio] at fades episode
  rw [takeInstant_audio, serveOrSilence_empty empty]
  exact ⟨fades, by simpa using episode.1, by simpa using episode.2, raises⟩

/-- A gap: silence, or a decay that goes on (R162). -/
theorem takeInstant_gap {b : Block} {rest : List Block} (left : afterLate n s.audio.queue = b :: rest)
    (gap : b.start ≠ n) :
    (takeInstant n s).audio.underrun = s.audio.underrun ∧
    (takeInstant n s).audio.underrunCount = s.audio.underrunCount ∧
    (s.audio.decay = none → (takeInstant n s).audio.decay = none ∧ (takeInstant n s).audio.outLeft = 0 ∧
      (takeInstant n s).audio.outRight = 0) ∧
    (s.audio.decay ≠ none → fadesFrom (decayOf s.audio) (takeInstant n s).audio) := by
  have behind : (dropLate n s).audio.queue = b :: rest := by rw [dropLate_audio, left]
  have decay : (dropLate n s).audio.decay = s.audio.decay := by rw [dropLate_audio]
  rw [takeInstant_audio, serveOrSilence_gap behind gap]
  refine ⟨?_, ?_, fun silent => ?_, fun fading => ?_⟩
  · rw [playSilence_audio, dropLate_audio]
  · rw [playSilence_audio, dropLate_audio]
  · rw [playSilence_silent (decay.trans silent)]
    exact ⟨decay.trans silent, rfl, rfl⟩
  · obtain ⟨d, hd⟩ := Option.ne_none_iff_exists'.mp fading
    have fades := playSilence_fades (decay.trans hd)
    rwa [decayOf, hd]

end

/-- The frames left after the instant for frame `n` are those above `n`, each at its ring position (R161). -/
theorem heldAt_takeInstant {n : Nat} {s : State} (queue : Formed s.audio.queue) (k pos : Nat) :
    heldAt (takeInstant n s).audio k pos ↔ heldAt s.audio k pos ∧ n < k := by
  rw [heldAt_iff, takeInstant_queue, holds_afterServing (formed_afterLate queue) (start_of_mem_afterLate queue),
    holds_afterLate queue, heldAt_iff]
  have below : n < k → n ≤ k := Nat.le_of_lt
  tauto

/-- The late frames are counted, and AUDIO SKIP is raised once an episode (R161). -/
theorem takeInstant_skips {n : Nat} {s : State} (queue : Formed s.audio.queue) {dropped : Nat}
    (late : dropped = (s.audio.queue.map fun b => min b.count (n - b.start)).sum) :
    (takeInstant n s).audio.skipCount = min 4294967295 (s.audio.skipCount + dropped) ∧
    (takeInstant n s).audio.skip = decide (0 < dropped) ∧
    (0 < dropped → s.audio.skip = false → (takeInstant n s).events.pending.getLsbD 12 = true) := by
  rw [← discardLate_count queue] at late
  subst late
  refine ⟨?_, ?_, fun late clear => takeInstant_pending (serveOrSilence_pending (dropLate_pending late clear))⟩
  all_goals rw [takeInstant_audio, serveOrSilence_audio, dropLate_audio]

/-- The end of the frames, and every instant before it, leave the gain record and the applied gain (R160, R161). -/
theorem frameInstant_gain (c : ConfigRecord) (tau : Int) (s : State) :
    (frameInstant c tau s).audio.gain = s.audio.gain ∧ (frameInstant c tau s).audio.applied = s.audio.applied := by
  simp only [frameInstant]
  split
  · exact ⟨rfl, rfl⟩
  · rw [takeInstant_audio, serveOrSilence_audio, dropLate_audio]
    exact ⟨rfl, rfl⟩

/-- Settles O53: before the instant of next frame, then the end of the frames, then frame `n` by what the queue holds. -/
theorem frameInstantServes : Obligations.FrameInstantServes := by
  intro s c g hh hc hg h playing now instant
  have queue := formed_of_audioInv h
  obtain ⟨gain, applied⟩ := frameInstant_gain c now s
  refine ⟨exec_frameInstant_ahead hh hc hg, fun reached => ⟨_, exec_frameInstant_reached hh hc hg playing reached,
    by simp [onlyChanges_iff], frameInstant_ring c now s, gain, applied, fun n here ahead => ?_⟩⟩
  have highest : highestFrame c now = n := highestFrame_eq here ahead
  refine ⟨fun past => ?_, fun within => ?_⟩
  · have ends : frameInstant c now s = endFrames s := if_pos (highest.symm ▸ past)
    rw [ends]
    exact ⟨rfl, rfl⟩
  · have takes : frameInstant c now s = takeInstant n s := by
      rw [frameInstant, highest]
      exact if_neg (Nat.not_le.mpr within)
    rw [takes]
    obtain ⟨skipCount, skip, raises⟩ := takeInstant_skips (n := n) queue rfl
    refine ⟨?_, ?_, heldAt_takeInstant queue, skipCount, skip, raises, fun pos held => ?_, fun empty => ?_,
      fun empty running clear => ?_, fun empty still => ?_, fun later gap => ?_⟩
    · rw [takeInstant_audio]
    · rw [takeInstant_audio]
    · obtain ⟨b, rest, left, head, rfl⟩ := head_of_holds queue held
      exact takeInstant_served left head
    · exact (takeInstant_empty ((afterLate_eq_nil_iff queue).mpr empty)).1
    · obtain ⟨-, underrun, count, raised⟩ := takeInstant_empty ((afterLate_eq_nil_iff queue).mpr empty)
      rw [underrun, count, if_pos ⟨running, clear⟩]
      exact ⟨by simp [running], rfl, raised running clear⟩
    · obtain ⟨-, underrun, count, -⟩ := takeInstant_empty ((afterLate_eq_nil_iff queue).mpr empty)
      have goes_on : ¬ (s.ctl.state = .running ∧ s.audio.underrun = false) := by
        rcases still with still | still <;> simp [still]
      rw [underrun, count, if_neg goes_on]
      exact ⟨by rcases still with still | still <;> simp [still], rfl⟩
    · obtain ⟨b, rest, left, start⟩ := head_of_gap queue later gap
      exact takeInstant_gap left start

end Sys2Proof.Proofs
end

