-- ==== Sys2Proof/Proofs/PortBlind.lean ====
section
/-! SUPPORT. A host command's work neither reads nor writes the frame in progress on the port's pins; what it leaves there is the
port's to replace. -/

namespace Sys2Proof.Proofs

open Sys2Proof Sys2Proof.Machine Sys2Proof.Safety

/-! ### Work that is blind to the frame -/

/-- The state with another frame in progress. -/
def withFrame (f : Option PortFrame) (s : State) : State := { s with port := { s.port with frame := f } }

theorem setFrame_eq (f : PortFrame) (s : State) : setFrame f s = withFrame (some f) s := rfl

theorem withFrame_self {f : Option PortFrame} {s : State} (h : s.port.frame = f) : withFrame f s = s := by subst h; rfl

/-- Work that neither reads nor writes the frame in progress. -/
def Blind (w : State → State) : Prop := ∀ f s, w (withFrame f s) = withFrame f (w s)

/-- The same for the body of a host command, which answers a result too. -/
def BlindBody (b : State → State × Result × Option Nat) : Prop :=
  ∀ f s, b (withFrame f s) = (withFrame f (b s).1, (b s).2)

theorem Blind.comp {w v : State → State} (hw : Blind w) (hv : Blind v) : Blind fun s => w (v s) :=
  fun f s => (congrArg w (hv f s)).trans (hw f (v s))

theorem Blind.ite {p : State → Prop} [DecidablePred p] {w v : State → State} (test : ∀ f s, p (withFrame f s) ↔ p s)
    (hw : Blind w) (hv : Blind v) : Blind fun s => if p s then w s else v s := by
  intro f s
  by_cases h : p s
  · simp only [if_pos h, if_pos ((test f s).mpr h), hw f s]
  · simp only [if_neg h, if_neg (mt (test f s).mp h), hv f s]

theorem blind_foldl {α : Type} {w : State → α → State} (h : ∀ a, Blind fun s => w s a) (as : List α) :
    Blind fun s => as.foldl w s := by
  intro f s
  induction as generalizing s with
  | nil => rfl
  | cons a as ih => exact (congrArg (fun u => as.foldl w u) (h a f s)).trans (ih (w s a))

theorem Blind.accept {w : State → State} (h : Blind w) : BlindBody fun s => Machine.accept (w s) :=
  fun f s => congrArg Machine.accept (h f s)

theorem blindBody_refuse (r : Result) : BlindBody fun s => refuse s r := fun _ _ => rfl

theorem BlindBody.ite {p : State → Prop} [DecidablePred p] {a b : State → State × Result × Option Nat}
    (test : ∀ f s, p (withFrame f s) ↔ p s) (ha : BlindBody a) (hb : BlindBody b) :
    BlindBody fun s => if p s then a s else b s := by
  intro f s
  by_cases h : p s
  · simp only [if_pos h, if_pos ((test f s).mpr h), ha f s]
  · simp only [if_neg h, if_neg (mt (test f s).mp h), hb f s]

/-! ### The transmit queue (R45 to R47) -/

theorem blind_askLost : Blind askLost := by
  intro f s
  have ask : (withFrame f s).pump.ask = s.pump.ask := rfl
  unfold askLost
  rw [ask]
  rcases s.pump.ask with _ | (_ | _) | _ <;> rfl

theorem blind_dropFrame (p : Payload) : Blind (dropFrame p) := by
  cases p with
  | startAsk => exact blind_askLost.comp fun _ _ => rfl
  | beacon | go | stop | halt => exact fun _ _ => rfl

theorem blind_enqueue (p : Payload) : Blind (enqueue p) := by
  refine Blind.ite (fun _ _ => Iff.rfl) (fun _ _ => rfl) (Blind.ite (fun _ _ => Iff.rfl) (fun _ _ => rfl) fun f s => ?_)
  have queue : (withFrame f s).line.queue = s.line.queue := rfl
  rw [queue]
  cases victim p s.line.queue with
  | none => exact blind_dropFrame p f s
  | some v => exact blind_dropFrame v.payload f (setQueue (insertFrame (eraseLastUnsent s.line.queue) (freshFrame p)) s)

theorem blind_requestFrame (p : Payload) : Blind (requestFrame p) :=
  Blind.ite (fun _ _ => Iff.rfl) (fun _ _ => rfl) (blind_enqueue p)

theorem blind_sendStop : Blind sendStop := fun f s => blind_requestFrame (.stop ⟨goShowId s, stopTime s⟩) f s

/-! ### The transitions of the show controller -/

theorem blind_evaluateLamps : Blind evaluateLamps := by
  intro f s
  have config : (withFrame f s).config = s.config := rfl
  unfold evaluateLamps
  rw [config]
  cases s.config <;> rfl

theorem blind_enterCountdown (g : GoRecord) : Blind (enterCountdown g) := blind_evaluateLamps.comp fun _ _ => rfl

theorem blind_enterArmed : Blind enterArmed := blind_evaluateLamps.comp fun _ _ => rfl

theorem blind_disarmed : Blind disarmed := blind_evaluateLamps.comp fun _ _ => rfl

theorem blind_stopCountdown : Blind stopCountdown :=
  Blind.comp (w := raise .state) (fun _ _ => rfl) (blind_evaluateLamps.comp fun _ _ => rfl)

theorem blind_discardReception : Blind discardReception := by
  intro f s
  have reception : (withFrame f s).audio.reception = s.audio.reception := rfl
  unfold discardReception
  rw [reception]
  cases s.audio.reception with
  | none => rfl
  | some r => dsimp only; split <;> rfl

theorem blind_audioClear : Blind audioClear := by
  intro f s
  simp only [audioClear, blind_discardReception f s]
  rfl

theorem blind_released : Blind released := by
  have rewound : Blind cueRewind := fun _ _ => rfl
  have thawed : Blind fun s => setFrozen false (audioQuiet s) := fun _ _ => rfl
  have cleared : Blind fun s => lampClear (pumpClear (figuresClear (modesClose (setShowState .idle (dropGo s))))) :=
    fun _ _ => rfl
  exact rewound.comp (blind_evaluateLamps.comp (thawed.comp (blind_audioClear.comp cleared)))

theorem blind_haltResult : Blind haltResult := Blind.ite (fun _ _ => Iff.rfl) (fun _ _ => rfl) (fun _ _ => rfl)

theorem blind_enterHalted_peer : Blind (enterHalted false) := by
  have raised : Blind fun s => raise .halt (raise .state s) := fun _ _ => rfl
  have halted : Blind (setShowState .halted) := fun _ _ => rfl
  have issued : Blind fun s => audioFadeOut ((s.config.map (·.haltFade)).getD 0) (figuresHold (pumpHalt (cueStop s))) :=
    fun _ _ => rfl
  exact raised.comp (blind_evaluateLamps.comp (halted.comp (blind_haltResult.comp issued)))

/-! ### The acceptance of CONFIGURE (R189) -/

theorem blind_ageRecord (i : Fin 32) : Blind fun s => ageRecord s i :=
  Blind.ite (fun _ _ => Iff.rfl) (fun _ _ => rfl) (Blind.ite (fun _ _ => Iff.rfl) (fun _ _ => rfl) fun _ _ => rfl)

theorem blind_configurePeers (c : ConfigRecord) : Blind (configurePeers c) := by
  have own : Blind (putPeer c.own { Peer.cleared with presence := .fresh }) := fun _ _ => rfl
  have aged : Blind ageAll := blind_foldl (w := ageRecord) blind_ageRecord (List.finRange 32)
  exact aged.comp own

theorem blind_enterRound (c : ConfigRecord) : Blind (enterRound c) :=
  Blind.ite (fun _ _ => Iff.rfl) (fun _ _ => rfl) (fun _ _ => rfl)

theorem blind_recomputeWind : Blind recomputeWind := by
  intro f s
  have config : (withFrame f s).config = s.config := rfl
  unfold recomputeWind
  rw [config]
  cases s.config <;> rfl

theorem blind_configureBlocks (c : ConfigRecord) : Blind (configureBlocks c) := by
  have inputs : Blind fun s => { s with safety := gen fun i => configuredInput c s.clock.site i s.safety[i] } := fun _ _ => rfl
  have counts : Blind fun s => { setClock { s.clock with within := 0, outside := 0 } s with
      wind := { s.wind with applied := 1024 } } := fun _ _ => rfl
  exact inputs.comp (blind_recomputeWind.comp (counts.comp (blind_enterRound c)))

theorem blind_acceptConfig (c : ConfigRecord) : Blind (acceptConfig c) := by
  have stored : Blind (storeConfig c) := fun _ _ => rfl
  have idle : Blind (setShowState .idle) := fun _ _ => rfl
  have entered : Blind (Proofs.configured c) :=
    blind_evaluateLamps.comp (idle.comp ((blind_configureBlocks c).comp ((blind_configurePeers c).comp stored)))
  have halts : Blind fun s => if freshPeerHalts s then enterHalted false s else s :=
    Blind.ite (fun _ _ => Iff.rfl) blind_enterHalted_peer fun _ _ => rfl
  intro f s
  rw [acceptConfig_eq, acceptConfig_eq]
  exact halts.comp entered f s

/-! ### The bodies of the host commands -/

theorem blindBody_configure (record : List Byte) : BlindBody (configure record) := by
  intro f s
  have accepted := (blind_acceptConfig (parseRecord record)).accept f s
  have state : (withFrame f s).ctl.state = s.ctl.state := rfl
  unfold configure
  rw [state]
  split
  · rfl
  · split
    · rfl
    · exact accepted

theorem blindBody_scoreOpen (header : List Byte) : BlindBody (scoreOpen header) :=
  BlindBody.ite (fun _ _ => Iff.rfl) (blindBody_refuse _)
    (BlindBody.ite (fun _ _ => Iff.rfl) (blindBody_refuse _) fun _ _ => rfl)

theorem blindBody_scoreData (body : List Byte) : BlindBody (scoreData body) := by
  refine BlindBody.ite (fun _ _ => Iff.rfl) (blindBody_refuse _)
    (BlindBody.ite (fun _ _ => Iff.rfl) (blindBody_refuse _) fun f s => ?_)
  have score : (withFrame f s).score = s.score := rfl
  rw [score]
  generalize (if byteAt body 0 = 1 then storeCues (byteAt body 1) (body.drop 2) s.score
    else storeRows (byteAt body 1) (body.drop 2) s.score) = out
  rcases out with ⟨sc, _ | ⟨r, ix⟩⟩ <;> rfl

theorem blindBody_scoreClose : BlindBody scoreClose := by
  refine BlindBody.ite (fun _ _ => Iff.rfl) (blindBody_refuse _)
    (BlindBody.ite (fun _ _ => Iff.rfl) (blindBody_refuse _)
      (BlindBody.ite (fun _ _ => Iff.rfl) (blindBody_refuse _) fun f s => ?_))
  have score : (withFrame f s).score = s.score := rfl
  rw [score]
  cases unloadedFigure s.score <;> rfl

theorem blindBody_localStop : BlindBody Machine.localStop := by
  intro f s
  have state : (withFrame f s).ctl.state = s.ctl.state := rfl
  unfold Machine.localStop
  rw [state]
  cases s.ctl.state with
  | countdown => exact (blind_stopCountdown.comp blind_sendStop).accept f s
  | running =>
    exact BlindBody.ite (p := fun s => s.ctl.pendingCoda.isSome = true) (fun _ _ => Iff.rfl) (blindBody_refuse _)
      (Blind.accept (w := fun u => pendCoda (stopTime u) (sendStop u))
        fun f u => congrArg (pendCoda (stopTime u)) (blind_sendStop f u)) f s
  | standby | idle | armed | coda | halted => rfl

/-- A command that is refused for the first cause met, or accepted (R6, R8). -/
theorem BlindBody.refusal {cause : State → Option Result} {w : State → State} (test : ∀ f s, cause (withFrame f s) = cause s)
    (h : Blind w) : BlindBody fun s => match cause s with
      | some r => refuse s r
      | none => Machine.accept (w s) := by
  intro f s
  dsimp only
  rw [test]
  cases cause s with
  | some r => rfl
  | none => exact h.accept f s

end Sys2Proof.Proofs
end

