-- ==== Sys2Proof/Proofs/PortPins.lean ====
section
/-! The pins of the host port: the bits of a byte, the byte that completes a command, and the ends of a frame. -/

namespace Sys2Proof.Proofs

open Sys2Proof Sys2Proof.Machine Sys2Proof.Safety

/-! ### Host commands, whatever the frame in progress -/

/-- Every command answers a next state, the one the port takes it to. -/
theorem exec_eq_takeCommand (i : Instr) (s : State) : exec i s = .next (takeCommand i s) := by
  cases i <;> rfl

/-- A reply that does not read the frame in progress (R188). -/
theorem blind_answer {reply : State → List Byte} (h : ∀ f s, reply (withFrame f s) = reply s) :
    Blind fun s => answer (reply s) s :=
  fun f s => congrArg (fun r => answer r (withFrame f s)) (h f s)

/-- AUDIO's judgement does not read the frame in progress (R156 to R158). -/
theorem judgeAudio_withFrame (start count : Nat) (f : Option PortFrame) (s : State) :
    judgeAudio start count (withFrame f s) = (judgeAudio start count s).map (withFrame f) id := by
  have state : (withFrame f s).ctl.state = s.ctl.state := rfl
  have audio : (withFrame f s).audio = s.audio := rfl
  simp only [judgeAudio, state, audio]
  split_ifs <;> rfl

section
variable {f : Option PortFrame} {s : State} (same : (withFrame f s).port.ignoring = s.port.ignoring) (g : Option PortFrame)
include same

/-- Work on a command that a frame carries comes to the same, but for the frame, where both frames are ignored or neither. -/
theorem unlessDeaf_withFrame {w : State → State} (h : withFrame g (w (withFrame f s)) = withFrame g (w s)) :
    withFrame g (unlessDeaf (withFrame f s) w) = withFrame g (unlessDeaf s w) := by
  have held : (withFrame f s).port.held = s.port.held := rfl
  unfold unlessDeaf
  rw [same, held]
  split
  · rfl
  · exact h

theorem unlessDeaf_blind {w : State → State} (h : Blind w) :
    withFrame g (unlessDeaf (withFrame f s) w) = withFrame g (unlessDeaf s w) :=
  unlessDeaf_withFrame same g (by rw [h f s]; rfl)

theorem hostCommand_withFrame (code : Byte) {body : State → State × Result × Option Nat} (h : BlindBody body) :
    withFrame g (hostCommand code (withFrame f s) body) = withFrame g (hostCommand code s body) := by
  refine unlessDeaf_blind same g (Blind.ite (fun _ _ => Iff.rfl) (fun _ _ => rfl) fun f s => ?_)
  rw [h f s]
  rfl

theorem incomplete_withFrame (code : Byte) : withFrame g (incomplete code (withFrame f s)) = withFrame g (incomplete code s) :=
  unlessDeaf_blind same g fun _ _ => rfl

/-- A host command comes to the same, but for the frame, whatever frame carries it. -/
theorem takeCommand_withFrame {i : Instr} (host : (commandFrame i).isSome = true) :
    withFrame g (takeCommand i (withFrame f s)) = withFrame g (takeCommand i s) := by
  have command (code : Byte) {body : State → State × Result × Option Nat} (h : BlindBody body) :=
    hostCommand_withFrame same g code h
  have cut (code : Byte) := incomplete_withFrame same g code
  cases i with
  | nop => rfl
  | softReset => exact unlessDeaf_withFrame same g (by simp only [withFrame, softReset, hardReset, resetInputs])
  | ident =>
    simp only [takeCommand, exec, execIdent]
    exact unlessDeaf_blind same g (blind_answer (reply := fun _ => identReply) fun _ _ => rfl)
  | status =>
    simp only [takeCommand, exec, execStatus]
    exact unlessDeaf_blind same g (blind_answer (reply := statusReply) fun _ _ => rfl)
  | events =>
    simp only [takeCommand, exec, execEvents]
    exact unlessDeaf_blind same g (blind_answer (reply := eventsReply) fun _ _ => rfl)
  | peers =>
    simp only [takeCommand, exec, execPeers]
    exact unlessDeaf_blind same g (blind_answer (reply := fun s =>
      if s.score.status = .checking then refusedReply 1031 else peersReply s) fun _ _ => rfl)
  | pump channel =>
    simp only [takeCommand, exec, execPump]
    split
    case isTrue inRange => exact unlessDeaf_blind same g (blind_answer (reply := fun s =>
      if s.score.status = .checking then refusedReply 68 else pumpReply s ⟨channel.toNat, inRange⟩) fun _ _ => rfl)
    case isFalse => exact unlessDeaf_blind same g (blind_answer (reply := fun _ => refusedReply 68) fun _ _ => rfl)
  | configure record =>
    simp only [takeCommand, exec, execConfigure]
    split
    · exact cut _
    · exact command _ (blindBody_configure record)
  | scoreOpen header =>
    simp only [takeCommand, exec, execScoreOpen]
    split
    · exact cut _
    · exact command _ (blindBody_scoreOpen header)
  | scoreData body =>
    simp only [takeCommand, exec, execScoreData]
    split
    · exact command _ (blindBody_scoreData body)
    · exact cut _
  | scoreClose => exact command _ blindBody_scoreClose
  | arm => exact command _ (.refusal (fun _ _ => rfl) blind_enterArmed)
  | disarm => exact command _ (.ite (fun _ _ => Iff.rfl) blind_disarmed.accept (blindBody_refuse _))
  | go delay =>
    refine command _ (.refusal (fun _ _ => rfl) fun f s => ?_)
    exact ((blind_requestFrame _).comp (blind_enterCountdown _)) f s
  | stop => exact command _ blindBody_localStop
  | release => exact command _ (.ite (fun _ _ => Iff.rfl) blind_released.accept (blindBody_refuse _))
  | audio start count =>
    refine unlessDeaf_blind same g (Blind.ite (fun _ _ => Iff.rfl) (fun _ _ => rfl) fun f s => ?_)
    rw [judgeAudio_withFrame]
    cases judgeAudio start.toNat count.toNat s <;> rfl
  | eventClear set => exact command _ (.ite (fun _ _ => Iff.rfl) (blindBody_refuse _) fun _ _ => rfl)
  | eventMask set => exact command _ (.ite (fun _ _ => Iff.rfl) (blindBody_refuse _) fun _ _ => rfl)
  | unknownCommand code =>
    simp only [takeCommand, exec, execUnknownCommand]
    split
    · rfl
    · exact command _ (blindBody_refuse _)
  | commandIncomplete code =>
    simp only [takeCommand, exec, execCommandIncomplete]
    split
    · exact cut _
    · rfl
  | _ => exact absurd host Bool.false_ne_true

end

/-! ### The command that a byte completes (R185) -/

/-- The first of these commands, if any, is one that a host's frame gives. -/
def FromHost (l : List Instr) : Prop := ∀ i, l.head? = some i → (commandFrame i).isSome = true

theorem fromHost_cons {i : Instr} (h : (commandFrame i).isSome = true) (l : List Instr) : FromHost (i :: l) := by
  intro j hj
  cases hj
  exact h

theorem fromHost_ite {c : Prop} [Decidable c] {a b : List Instr} (ha : FromHost a) (hb : FromHost b) :
    FromHost (if c then a else b) := by
  split <;> assumption

theorem fromHost_fixedLength {command : List Byte → Instr} (h : ∀ p, (commandFrame (command p)).isSome = true) (n : Nat)
    (code : Byte) (params : List Byte) : FromHost (fixedLength n code params command) :=
  fromHost_ite (fromHost_cons rfl _) (fromHost_cons (h _) _)

/-- Row by row of the decoder, each command is one of a host's frame. -/
theorem fromHost_decode (bytes : List Byte) : FromHost (decodeCommandFrame bytes) := by
  have single {i : Instr} (h : (commandFrame i).isSome = true) := fromHost_cons h []
  cases bytes with
  | nil => exact fun i h => by cases h
  | cons code params =>
    have fixed {command : List Byte → Instr} (n : Nat) (h : ∀ p, (commandFrame (command p)).isSome = true) :=
      fromHost_fixedLength h n code params
    exact fromHost_ite (single rfl) <| fromHost_ite (single rfl) <| fromHost_ite (single rfl) <| fromHost_ite (single rfl) <|
      fromHost_ite (fixed 605 fun _ => rfl) <| fromHost_ite (fixed 6 fun _ => rfl) <|
      fromHost_ite (fixed (dataLength params) fun _ => rfl) <| fromHost_ite (single rfl) <| fromHost_ite (single rfl) <|
      fromHost_ite (single rfl) <| fromHost_ite (fixed 2 fun _ => rfl) <| fromHost_ite (single rfl) <|
      fromHost_ite (single rfl) <| fromHost_ite (fromHost_ite (single rfl) (fromHost_cons rfl _)) <|
      fromHost_ite (single rfl) <| fromHost_ite (fixed 2 fun _ => rfl) <| fromHost_ite (fixed 2 fun _ => rfl) <|
      fromHost_ite (single rfl) <| fromHost_ite (fixed 1 fun _ => rfl) (single rfl)

theorem commandFrame_of_takenBy {bytes : List Byte} {i : Instr} (h : takenBy bytes = some i) :
    (commandFrame i).isSome = true := by
  refine fromHost_decode bytes i ?_
  unfold takenBy at h
  split at h
  · cases h
  · cases h
  case h_3 decoded => rw [decoded]; exact h

/-! ### The bits of a byte (R184) -/

section
variable {s : State} (free : s.port.held = false) (phase : FramePhase)
include free

theorem sckCycle_bit {bits : List Bool} (short : bits.length < 7) (b : Bool) :
    sckCycle (setFrame { phase := phase, bits := bits } s) b = setFrame { phase := phase, bits := bits ++ [b] } s := by
  refine (unlessHeld_free (setFrame { phase := phase, bits := bits } s) _ free).trans ?_
  exact if_pos (by rw [List.length_append, List.length_singleton]; exact Nat.succ_lt_succ short)

theorem sckCycle_last {bits : List Bool} (seven : bits.length = 7) (b : Bool) :
    sckCycle (setFrame { phase := phase, bits := bits } s) b =
      byteArrives phase (byteOfBits (bits ++ [b])) (setFrame { phase := phase, bits := bits } s) := by
  refine (unlessHeld_free (setFrame { phase := phase, bits := bits } s) _ free).trans ?_
  exact if_neg (by rw [List.length_append, List.length_singleton]; exact Nat.not_lt.mpr (Nat.succ_le_succ seven.ge))

/-- Fewer than eight bits are gathered, and change the frame alone. -/
theorem foldl_sckCycle (more : List Bool) {bits : List Bool} (short : bits.length + more.length < 8) :
    more.foldl sckCycle (setFrame { phase := phase, bits := bits } s) = setFrame { phase := phase, bits := bits ++ more } s := by
  induction more generalizing bits with
  | nil => rw [List.append_nil, List.foldl_nil]
  | cons b more ih =>
    rw [List.length_cons] at short
    rw [List.foldl_cons, sckCycle_bit free phase (by omega), ih, List.append_assoc, List.singleton_append]
    rw [List.length_append, List.length_singleton]
    omega

end

/-- A byte that completes a command has it taken (R185). -/
theorem byteArrives_taken {bytes : List Byte} {b : Byte} {i : Instr} (taken : takenBy (bytes ++ [b]) = some i) (s : State) :
    byteArrives (.gathering bytes) b s =
      setFrame { phase := phaseAfter i (takeCommand i s).port.reply, bits := [] } (takeCommand i s) := by
  unfold byteArrives
  dsimp only
  rw [taken]

/-- A byte that completes none is gathered. -/
theorem byteArrives_gathered {bytes : List Byte} {b : Byte} (more : takenBy (bytes ++ [b]) = none) (s : State) :
    byteArrives (.gathering bytes) b s = setFrame { phase := .gathering (bytes ++ [b]), bits := [] } s := by
  unfold byteArrives
  dsimp only
  rw [more]

/-- A byte comes to the same whatever bits stood in the frame: they are replaced. -/
theorem byteArrives_withFrame {f : Option PortFrame} {s : State} (same : (withFrame f s).port.ignoring = s.port.ignoring)
    (phase : FramePhase) (b : Byte) : byteArrives phase b (withFrame f s) = byteArrives phase b s := by
  match phase with
  | .ignored | .over _ | .audio _ => rfl
  | .gathering bytes =>
    cases taken : takenBy (bytes ++ [b]) with
    | none => rw [byteArrives_gathered taken, byteArrives_gathered taken]; rfl
    | some i =>
      have alike (g : Option PortFrame) := takeCommand_withFrame same g (commandFrame_of_takenBy taken)
      have reply : (takeCommand i (withFrame f s)).port.reply = (takeCommand i s).port.reply :=
        congrArg (fun u => u.port.reply) (alike none)
      rw [byteArrives_taken taken, byteArrives_taken taken, reply, setFrame_eq, setFrame_eq, alike]

/-- The byte that MISO carries through a frame of phase `phase`. -/
def carriedByte : FramePhase → Byte
  | .over (d :: _) => d
  | _ => 0

theorem misoByte_eq (phase : FramePhase) (bits : List Bool) : misoByte { phase := phase, bits := bits } = carriedByte phase := by
  rcases phase with _ | _ | (_ | _) | _ <;> rfl

section
variable {s : State} {phase : FramePhase} (free : s.port.held = false)
  (atByte : s.port.frame = some { phase := phase, bits := [] }) (b : Byte)
include free atByte

/-- Before its last bit a byte changes the gathered bits alone. -/
theorem foldl_sckCycle_take {k : Nat} (hk : k < 8) :
    ((dataBits b).take k).foldl sckCycle s = setFrame { phase := phase, bits := (dataBits b).take k } s := by
  have short : ((dataBits b).take k).length < 8 := (List.length_take_le k _).trans_lt hk
  have gathered := foldl_sckCycle free phase ((dataBits b).take k) (bits := []) (by simpa using short)
  rwa [setFrame_eq, withFrame_self atByte, List.nil_append] at gathered

/-- MISO carries the byte of the phase, most significant bit first. -/
theorem misoLevel_take {k : Nat} (hk : k < 8) : misoLevel (((dataBits b).take k).foldl sckCycle s).port =
    some ((carriedByte phase).getLsbD (7 - k)) := by
  have length : ((dataBits b).take k).length = k := by simp [dataBits]; omega
  rw [foldl_sckCycle_take free atByte b hk]
  simp [misoLevel, free, misoByte_eq, length]

/-- The eight bits bring the byte. -/
theorem foldl_sckCycle_byte : (dataBits b).foldl sckCycle s = byteArrives phase b s := by
  have bits : dataBits b = (dataBits b).take 7 ++ [b.getLsbD 0] := rfl
  have same : (setFrame { phase := phase, bits := (dataBits b).take 7 } s).port.ignoring = s.port.ignoring := by
    simp [HostPort.ignoring, atByte]
  rw [bits, List.foldl_append, foldl_sckCycle_take free atByte b (by decide), List.foldl_cons, List.foldl_nil,
    sckCycle_last free phase rfl, ← bits, byteOfBits_dataBits]
  exact byteArrives_withFrame same phase b

end

/-! ### The fall and the rise of NCS, and an ignored frame (R184, R185, R194) -/

/-- While NCS is high, or the part is held, SCK is ignored (R193). -/
theorem sckCycle_unheard {s : State} (h : s.port.frame = none ∨ s.port.held = true) (b : Bool) : sckCycle s b = s := by
  rcases h with high | held
  · unfold sckCycle
    exact unlessHeld_of (P := (· = s)) rfl (by simp [high])
  · exact unlessHeld_held s _ held

section
variable {s : State} {f : PortFrame} (hf : s.port.frame = some f)
include hf

theorem ncsRises_ends (h : f.phase = .ignored ∨ f.phase = .gathering [] ∨ ∃ out, f.phase = .over out) :
    ncsRises s = endFrame s := by
  rcases h with phase | phase | ⟨out, phase⟩ <;> simp [ncsRises, hf, phase, decodeCommandFrame]

theorem ncsRises_audio {bytes : List Byte} (h : f.phase = .audio bytes) :
    exec (.audioEnd bytes) s = .next (ncsRises s) := by
  have rises : ncsRises s = endFrame (takeCommand (.audioEnd bytes) s) := by simp [ncsRises, hf, h]
  rw [rises, exec_eq_takeCommand]
  rfl

theorem ncsRises_incomplete {bytes : List Byte} {code : Byte} (h : f.phase = .gathering bytes)
    (cut : decodeCommandFrame bytes = [.commandIncomplete code]) :
    exec (.commandIncomplete code) s = .next (ncsRises s) := by
  have rises : ncsRises s = endFrame (takeCommand (.commandIncomplete code) s) := by simp [ncsRises, hf, h, cut]
  have ended : endFrame (takeCommand (.commandIncomplete code) s) = takeCommand (.commandIncomplete code) s := by
    simp only [takeCommand, exec, execCommandIncomplete]
    split <;> rfl
  rw [rises, exec_eq_takeCommand, ended]

end

/-- Of an ignored frame nothing is taken: its bits change the frame alone, which stays ignored (R194). -/
theorem sckCycle_ignoring {s : State} (h : s.port.ignoring = true) (b : Bool) :
    ∃ f, sckCycle s b = withFrame f s ∧ (withFrame f s).port.ignoring = true := by
  unfold sckCycle
  refine unlessHeld_of (P := fun t => ∃ f, t = withFrame f s ∧ (withFrame f s).port.ignoring = true)
    ⟨s.port.frame, rfl, h⟩ ?_
  split
  case h_1 high => simp [HostPort.ignoring, high] at h
  case h_2 f hf =>
    have phase : f.phase = .ignored := by simpa [HostPort.ignoring, hf] using h
    dsimp only
    rw [phase]
    split
    · exact ⟨_, rfl, by simp [HostPort.ignoring, withFrame]⟩
    · exact ⟨_, rfl, by simp [HostPort.ignoring, withFrame]⟩

theorem foldl_sckCycle_ignoring {s : State} (h : s.port.ignoring = true) (bits : List Bool) :
    ∃ f, bits.foldl sckCycle s = withFrame f s ∧ (withFrame f s).port.ignoring = true := by
  induction bits generalizing s with
  | nil => exact ⟨s.port.frame, rfl, h⟩
  | cons b bits ih =>
    obtain ⟨f, next, ignored⟩ := sckCycle_ignoring h b
    obtain ⟨g, rest, still⟩ := ih ignored
    exact ⟨g, by rw [List.foldl_cons, next, rest]; rfl, still⟩

/-- Settles O6: the fall of NCS, the bits while they are not heard, the byte by phase, the rise of NCS, the ignored frame. -/
theorem portFollowsPins : Obligations.PortFollowsPins := by
  refine ⟨fun s high => ⟨?_, ?_, ?_, ?_, sckCycle_unheard (.inl high)⟩,
    fun s held => ⟨by simp [misoLevel, held], sckCycle_unheard (.inr held)⟩, ?_, fun s f hf => ?_, fun s bits h => ?_⟩
  · simp [ncsFalls, high]
  · simp [ncsFalls, high, onlyChanges_iff]
  · simp [misoLevel, high]
  · simp [ncsRises, high]
  · intro s phase b free atByte bits carried going
    have level (k : Nat) (hk : k < 8) := misoLevel_take free atByte b hk
    have byte := foldl_sckCycle_byte free atByte b
    have carries (next : State) (h : byteArrives phase b s = next) : carried next := ⟨level, byte.trans h⟩
    refine ⟨fun ignored => carries _ ?_, fun bytes audio => carries _ ?_, fun out ends => carries _ ?_,
      fun bytes gathers more => carries _ ?_,
      fun bytes i gathers taken => ⟨takeCommand i s, exec_eq_takeCommand i s, carries _ ?_⟩⟩
    · subst ignored; rfl
    · subst audio; rfl
    · subst ends; rfl
    · subst gathers; exact byteArrives_gathered more s
    · subst gathers
      rw [byteArrives_taken taken]
      generalize takeCommand i s = u
      cases i <;> rfl
  · exact ⟨ncsRises_ends hf, fun bytes => ncsRises_audio hf, fun bytes code => ncsRises_incomplete hf⟩
  · obtain ⟨f, next, ignored⟩ := foldl_sckCycle_ignoring h bits
    rw [next]
    exact ⟨ignored, rfl, by simp [onlyChanges_iff, withFrame]⟩

end Sys2Proof.Proofs
end

