-- ==== Sys2Proof/Proofs/Events.lean ====
section
/-! The event unit: what raising a source keeps, the NEVT pin, EVENT CLEAR and EVENT MASK. -/

namespace Sys2Proof.Proofs

open Sys2Proof Sys2Proof.Machine Sys2Proof.Safety

/-! ### Overrun within pending (R179) -/

/-- The invariant source by source. -/
theorem eventInv_iff (s : State) :
    EventInv s ↔ ∀ i, s.events.overrun.getLsbD i = true → s.events.pending.getLsbD i = true := by
  constructor
  · intro within i overrun
    have outside : (s.events.overrun &&& ~~~s.events.pending).getLsbD i = false := by rw [within]; exact BitVec.getLsbD_zero
    simpa [overrun, BitVec.lt_of_getLsbD overrun] using outside
  · refine fun within => BitVec.eq_of_getLsbD_eq fun i _ => ?_
    cases overrun : s.events.overrun.getLsbD i with
    | false => simp [overrun]
    | true => simp [overrun, within i overrun]

/-- Raising sets overrun only where pending was set before, and clears no pending flag (R179). -/
theorem eventInv_raise {s : State} (h : EventInv s) (src : Source) : EventInv (raise src s) := by
  rw [eventInv_iff] at h ⊢
  intro i overrun
  simp only [raise_events, EventUnit.raised, BitVec.getLsbD_or, BitVec.getLsbD_and, Bool.or_eq_true, Bool.and_eq_true]
    at overrun ⊢
  rcases overrun with held | ⟨pending, -⟩
  · exact .inl (h i held)
  · exact .inl pending

/-! ### The NEVT pin (R180) -/

theorem nevtActive_iff (e : EventUnit) :
    nevtActive e = true ↔ ∃ i, i < 16 ∧ e.pending.getLsbD i = true ∧ e.masked.getLsbD i = false := by
  simp [nevtActive, topEvent, List.find?_isSome]

/-- NEVT is low while some source is pending and not masked. -/
theorem nevtLow_iff (s : State) :
    (outputs s).nevtHigh = false ↔ ∃ i, i < 16 ∧ s.events.pending.getLsbD i = true ∧ s.events.masked.getLsbD i = false := by
  rw [← nevtActive_iff]
  simp [outputs]

/-! ### EVENT CLEAR and EVENT MASK (R182, R183) -/

/-- A source of the set cleared leaves the flags, every other stays. -/
theorem getLsbD_cleared (flags set : Word16) {i : Nat} (hi : i < 16) :
    (flags &&& ~~~set).getLsbD i = (flags.getLsbD i && !set.getLsbD i) := by simp [hi]

/-- The event unit after EVENT CLEAR (R182). -/
def eventsCleared (set : Word16) (e : EventUnit) : EventUnit :=
  { e with pending := e.pending &&& ~~~set, overrun := e.overrun &&& ~~~set }

/-- Clearing takes a source from pending and from overrun alike. -/
theorem eventInv_cleared {s : State} (h : EventInv s) (set : Word16) :
    EventInv { s with events := eventsCleared set s.events } := by
  rw [eventInv_iff] at h ⊢
  intro i overrun
  have hi : i < 16 := BitVec.lt_of_getLsbD overrun
  simp only [eventsCleared, getLsbD_cleared _ _ hi, Bool.and_eq_true] at overrun ⊢
  exact overrun.imp_left (h i)

/-- Settles O31: out of STANDBY each command writes the event unit and nothing else, and NEVT is read from it. -/
theorem eventCommands : Obligations.EventCommands := by
  intro s set h
  refine ⟨fun standby => ⟨?_, ?_⟩, fun configured => ⟨?_, ?_⟩⟩
  · exact command_refused rfl h (by simp [standby, refuse])
  · exact command_refused rfl h (by simp [standby, refuse])
  · refine ⟨_, command_accepted (u := { s with events := eventsCleared set s.events }) rfl h (by rw [if_neg configured]; rfl),
      recorded_settle _ _ _ rfl, by simp [onlyChanges_iff], rfl, fun i hi => ?_, nevtLow_iff _⟩
    exact ⟨getLsbD_cleared _ _ hi, getLsbD_cleared _ _ hi⟩
  · exact ⟨_, command_accepted (u := { s with events := { s.events with masked := set } }) rfl h (by rw [if_neg configured]),
      recorded_settle _ _ _ rfl, by simp [onlyChanges_iff], rfl, nevtLow_iff _⟩

end Sys2Proof.Proofs
end

