-- ==== Sys2Proof/Proofs/EventInvariant.lean ====
section
/-! The invariant of the event unit (R179) is kept by every step: outside EVENT CLEAR, EVENT MASK and the resets the machine writes
the flags by raising sources alone. -/

namespace Sys2Proof.Proofs

open Sys2Proof Sys2Proof.Machine Sys2Proof.Safety

section
variable {s t : State} (h : EventInv s)
include h

/-! ### Work that raises no source, or one -/

/-- The invariant reads the event unit alone. -/
theorem eventInv_congr (same : t.events = s.events) : EventInv t := by
  unfold EventInv
  rwa [same]

/-- Work that raises one source. -/
theorem eventInv_raised {src : Source} (raised : t.events = s.events.raised src) : EventInv t :=
  eventInv_congr (eventInv_raise h src) raised

theorem eventInv_raiseIf (b : Bool) (src : Source) : EventInv (raiseIf b src s) := by
  unfold raiseIf
  split
  · exact eventInv_raise h src
  · exact h

/-! ### The transmit queue and the peer table (R46, R57, R59) -/

theorem eventInv_dropFrame (p : Payload) : EventInv (dropFrame p s) := by
  unfold dropFrame
  split <;> exact eventInv_raised h (src := .line) (by simp)

theorem eventInv_enqueue (p : Payload) : EventInv (enqueue p s) := by
  simp only [enqueue]
  split
  · exact eventInv_congr h rfl
  · split
    · exact eventInv_congr h rfl
    · split
      · refine eventInv_dropFrame ?_ _
        exact eventInv_congr h rfl
      · exact eventInv_dropFrame h p

theorem eventInv_requestFrame (p : Payload) : EventInv (requestFrame p s) := by
  unfold requestFrame
  split
  · exact h
  · exact eventInv_enqueue h p

theorem eventInv_requestAsk (p : Fin 4) : EventInv (requestAsk p s) := by
  unfold requestAsk
  split
  · exact eventInv_congr h (by simp)
  · exact eventInv_enqueue h _

theorem eventInv_failAttempt (f : TxFrame) : EventInv (failAttempt f s) := by
  simp only [failAttempt]
  split
  · exact eventInv_congr h rfl
  · split
    · exact eventInv_congr h rfl
    · refine eventInv_dropFrame ?_ _
      exact eventInv_congr h rfl

theorem eventInv_hearClash : EventInv (hearClash s) := by
  unfold hearClash
  split
  · exact eventInv_raise h _
  · exact eventInv_raised h (src := .clash) (by simp)

theorem eventInv_recordBeacon (i : Fin 32) (b : Beacon) (seq : Byte) (arrival : SiteTime) :
    EventInv (recordBeacon i b seq arrival s) := by
  have entered : EventInv (putPeer i { (s.peers[i]).withBeacon b seq arrival with missed := missedAfter s.peers[i] seq } s) :=
    eventInv_congr h rfl
  exact eventInv_congr (eventInv_raiseIf entered (s.peers[i].presence = .absent) .peer) (by simp [recordBeacon])

theorem eventInv_makeAbsent (i : Fin 32) : EventInv (makeAbsent i s) := eventInv_raised h (src := .peer) rfl

theorem eventInv_ageRecord (i : Fin 32) : EventInv (ageRecord s i) := by
  unfold ageRecord
  split
  · exact eventInv_makeAbsent h i
  · split
    · exact eventInv_congr h rfl
    · exact h

/-! ### The cue engine and the figures (R73, R76, R98) -/

theorem eventInv_waitForRoom : EventInv (waitForRoom s) := by
  unfold waitForRoom
  split
  · exact eventInv_raised h (src := .queueFull) rfl
  · exact h

theorem eventInv_retryHeldCue : EventInv (retryHeldCue s) := by
  unfold retryHeldCue
  split
  · exact eventInv_waitForRoom (eventInv_congr (t := takeCue s) h rfl)
  · exact h

theorem eventInv_countLate (a : Action) : EventInv (countLate a s) := by
  unfold countLate
  split
  · exact eventInv_raised h (src := .cueLate) rfl
  · exact h

theorem eventInv_writeView (g : Fin 4) (v : View) (f : Figure) (o : Origin) : EventInv (writeView g v f o s) :=
  eventInv_raiseIf (eventInv_congr (t := putGroup g _ s) h rfl) _ _

/-! ### The transitions of the show controller (R12 to R21) -/

theorem eventInv_enterRunning : EventInv (enterRunning s) := eventInv_raised h (src := .state) (by simp [enterRunning])

theorem eventInv_enterCoda (cause : CodaCause) : EventInv (enterCoda cause s) :=
  eventInv_raised h (src := .state) (by simp [enterCoda])

theorem eventInv_fireEnd : EventInv (fireEnd s) := by
  unfold fireEnd
  split
  case h_1 => exact eventInv_enterCoda h _
  case h_2 => exact eventInv_enterCoda (eventInv_enterRunning h) _
  all_goals exact h

theorem eventInv_codaTest : EventInv (codaTest s) := by
  unfold codaTest
  split
  · exact eventInv_raised h (src := .state) (by simp [completeCoda])
  · exact h

theorem eventInv_stopCountdown : EventInv (stopCountdown s) :=
  eventInv_raised h (src := .state) (by simp [stopCountdown])

theorem eventInv_sendHalt : EventInv (sendHalt s) := eventInv_requestFrame h _

/-- HALT entry on a request from outside raises STATE, then HALT (R21). -/
theorem eventInv_enterHalted_peer : EventInv (enterHalted false s) :=
  eventInv_raised (eventInv_raise h .state) (src := .halt) (by simp [enterHalted])

theorem eventInv_enterHalted (own : Bool) : EventInv (enterHalted own s) := by
  rw [enterHalted_eq]
  split
  · exact eventInv_enterHalted_peer (eventInv_sendHalt (eventInv_congr (t := withdrawShowFrames s) h rfl))
  · exact eventInv_enterHalted_peer h

theorem eventInv_peerHalt : EventInv (peerHalt s) := by
  unfold peerHalt
  split
  case h_1 | h_2 => exact h
  all_goals exact eventInv_enterHalted h _

theorem eventInv_ownHalt : EventInv (ownHalt s) := by
  unfold ownHalt
  split
  case h_1 => exact h
  case h_2 => exact eventInv_raise (eventInv_sendHalt h) _
  all_goals exact eventInv_enterHalted h _

theorem eventInv_stableChange (c : ConfigRecord) (i : Fin 8) : EventInv (stableChange c i s) := by
  have changed : EventInv (debounced c i s) := eventInv_raiseIf (eventInv_congr (t := putInput i _ s) h rfl) _ _
  rw [stableChange_eq]
  split
  · exact eventInv_ownHalt changed
  · exact changed

/-! ### Actions, and a late join by a seek (R77, R81) -/

theorem eventInv_deliver (o : Origin) (due : Int) (act : Act) : EventInv (deliver o due act s) := by
  unfold deliver
  split
  case h_2 => exact eventInv_writeView h _ _ _ _
  case h_6 => exact eventInv_raised h (src := .mark) rfl
  case h_7 => exact eventInv_fireEnd h
  all_goals exact eventInv_congr h (by simp)

theorem eventInv_fireHead : EventInv (fireHead s) := by
  unfold fireHead
  split
  case h_1 => exact h
  case h_2 a rest _ =>
    have left : EventInv { s with cue := { s.cue with queue := rest } } := eventInv_congr h rfl
    exact eventInv_retryHeldCue (eventInv_deliver (eventInv_countLate left a) _ _ _)

theorem eventInv_handOver (as : List Action) : EventInv (handOver as s) :=
  List.foldlRecOn as _ h fun _ hu _ _ => eventInv_deliver hu _ _ _

theorem eventInv_seekHanded (c : ConfigRecord) : EventInv (seekHanded c s) :=
  eventInv_congr (eventInv_handOver (eventInv_congr (t := seekCleared s) h rfl) _) rfl

theorem eventInv_cueSeek (c : ConfigRecord) : EventInv (cueSeek c s) := by
  have handed := eventInv_seekHanded h c
  rw [cueSeek_eq]
  split
  · exact eventInv_fireEnd (eventInv_congr handed rfl)
  · exact eventInv_congr handed rfl

theorem eventInv_lateJoin (c : ConfigRecord) (g : GoRecord) : EventInv (lateJoin c g s) := by
  unfold lateJoin
  split
  · have running := eventInv_raised h (src := .state)
      (t := raise .state (audioStart (modesFollow (setShowState .running (setCtl { s.ctl with go := some g } s))))) (by simp)
    exact eventInv_congr (eventInv_cueSeek running c) (by simp)
  · exact eventInv_raised h (src := .state) (by simp [enterCountdown])

/-! ### Frames from peers (R9 to R11, R16, R54) -/

theorem eventInv_takeGo (c : ConfigRecord) (g : GoRecord) : EventInv (takeGo c g s) := by
  have missed : EventInv (missStart g s) := eventInv_raised h (src := .state) rfl
  simp only [takeGo]
  split_ifs
  · exact missed
  · exact missed
  · exact eventInv_raised h (src := .state) (by simp [enterCountdown])
  · exact eventInv_lateJoin h c g
  · exact missed

theorem eventInv_advanceGo (g : GoRecord) : EventInv (advanceGo g s) := by
  have moved : EventInv (refreshAll (setCtl { s.ctl with go := some g } s)) := eventInv_congr h (by simp)
  unfold advanceGo
  split
  · exact h
  · dsimp only
    split_ifs
    · exact eventInv_enterRunning (eventInv_waitForRoom moved)
    · exact eventInv_waitForRoom moved
    · exact h

theorem eventInv_heardGo (g : GoRecord) : EventInv (heardGo g s) := by
  unfold heardGo
  split
  · split
    · exact eventInv_takeGo h _ g
    · exact eventInv_raise h _
  · split
    · exact eventInv_advanceGo h g
    · exact eventInv_raise h _
  · exact h

theorem eventInv_heardStop (f : StopFrame) : EventInv (heardStop f s) := by
  unfold heardStop
  split
  · split
    · exact eventInv_stopCountdown h
    · exact h
  · split_ifs
    · exact eventInv_enterCoda h _
    · exact eventInv_congr h (by simp)
    · exact h
  · exact h

theorem eventInv_joinTest (c : ConfigRecord) (i : Fin 32) : EventInv (joinTest c i s) := by
  unfold joinTest
  split
  · exact h
  · split
    · exact eventInv_lateJoin h c _
    · exact h

theorem eventInv_peerBeacon (c : ConfigRecord) (i : Fin 32) (seq : Byte) (b : Beacon) (arrival : SiteTime) :
    EventInv (peerBeacon c i seq b arrival s) := by
  have taken : EventInv (takeOffset c i b.stamp arrival (recordBeacon i b seq arrival s)) :=
    eventInv_congr (eventInv_recordBeacon h i b seq arrival) (by simp)
  refine eventInv_joinTest ?_ c i
  split
  · exact eventInv_peerHalt taken
  · exact taken

/-- A received frame keeps the invariant where its hand-over does (R52). -/
theorem eventInv_receiveFrame (sender : Byte) (f : Fin 32 → State → State)
    (hf : ∀ i {u : State}, EventInv u → EventInv (f i u)) : EventInv (receiveFrame sender s f) := by
  unfold receiveFrame
  refine unlessHeld_of h ?_
  split
  · exact h
  · split
    · exact eventInv_congr h rfl
    · exact hf _ (eventInv_congr h rfl)

/-! ### The site clock and the pump period (R38, R39, R103, R122) -/

theorem eventInv_classifyRound (c : ConfigRecord) (mean : Int) : EventInv (classifyRound c mean s) := by
  unfold classifyRound
  split
  · exact h
  · refine eventInv_raiseIf ?_ _ _
    exact eventInv_congr h rfl

theorem eventInv_endRound (c : ConfigRecord) (start : SiteTime) : EventInv (endRound c start s) := by
  have kept : EventInv (removeOutliers c s) := eventInv_congr h rfl
  have classed := eventInv_classifyRound kept c (roundMean (removeOutliers c s))
  simp only [endRound]
  split <;> exact eventInv_congr classed (by simp)

/-- PUMP FAULT is raised once for each channel that faults (R122). -/
theorem eventInv_stageFeedback (c : ConfigRecord) (feedback : BitVec 4) : EventInv (stageFeedback c feedback s) := by
  unfold stageFeedback
  refine List.foldlRecOn _ _ ?_ fun _ hu _ _ => eventInv_raise hu _
  exact eventInv_congr h rfl

theorem eventInv_stageAsk : EventInv (stageAsk s) := by
  unfold stageAsk
  split
  case h_1 => exact h
  case h_2 p _ _ =>
    split
    · exact eventInv_requestAsk (eventInv_congr (t := setAsk (.queued (some p)) (setStage p .asking s)) h rfl) p
    · exact h

theorem eventInv_pumpStages (c : ConfigRecord) (feedback : BitVec 4) : EventInv (pumpStages c feedback s) := by
  have risen : EventInv (riseWind c s) := eventInv_congr h rfl
  have drives : EventInv (driven c feedback s) := eventInv_congr (eventInv_stageFeedback risen c feedback) (by simp [driven])
  have commanded : EventInv (stageCommands c (driven c feedback s)) := eventInv_congr drives (by simp)
  rw [pumpStages_eq]
  exact eventInv_congr (eventInv_stageAsk commanded) (by simp)

theorem eventInv_withNext (n : SiteTime) : EventInv (withNext n s) := eventInv_congr h rfl

/-! ### The zone audio (R159 to R162, R167) -/

theorem eventInv_refillTest : EventInv (refillTest s) :=
  eventInv_raiseIf (eventInv_congr (t := { s with audio := { s.audio with refillHeld := refillCondition s.audio } }) h rfl) _ _

theorem eventInv_enterBlock (r : Reception) (bytes : List Byte) : EventInv (enterBlock r bytes s) := by
  simp only [enterBlock]
  split
  · exact eventInv_congr h rfl
  · exact eventInv_refillTest (eventInv_congr h rfl)

theorem eventInv_dropLate (n : Nat) : EventInv (dropLate n s) := by
  refine eventInv_raiseIf ?_ _ _
  exact eventInv_congr h rfl

theorem eventInv_playSilence : EventInv (playSilence s) := by
  unfold playSilence
  split <;> exact eventInv_congr h rfl

theorem eventInv_emptyInstant : EventInv (emptyInstant s) := by
  have begun := eventInv_raiseIf h (s.ctl.state = .running && !s.audio.underrun) .audioUnderrun
  refine eventInv_playSilence ?_
  exact eventInv_congr begun (by simp)

theorem eventInv_serveOrSilence (n : Nat) : EventInv (serveOrSilence n s) := by
  unfold serveOrSilence
  split
  · exact eventInv_emptyInstant h
  · split
    · exact eventInv_congr h rfl
    · exact eventInv_playSilence h

theorem eventInv_takeInstant (n : Nat) : EventInv (takeInstant n s) := by
  have served := eventInv_serveOrSilence (eventInv_dropLate h n) n
  simp only [takeInstant]
  split
  · exact eventInv_congr served rfl
  · exact eventInv_refillTest (eventInv_congr served rfl)

theorem eventInv_frameInstant (c : ConfigRecord) (tau : Int) : EventInv (frameInstant c tau s) := by
  simp only [frameInstant]
  split
  · exact eventInv_congr h rfl
  · exact eventInv_takeInstant h _

/-! ### Host commands, and resets -/

theorem eventInv_settle (code : Byte) (r : Result) (ix : Option Nat) : EventInv (settle code r ix s) := eventInv_congr h rfl

/-- A host command keeps the invariant where its body does (R186). -/
theorem eventInv_hostCommand (code : Byte) (body : State → State × Result × Option Nat) (hb : EventInv (body s).1) :
    EventInv (hostCommand code s body) := by
  unfold hostCommand
  refine unlessDeaf_of h ?_
  split
  · exact eventInv_settle h _ _ _
  · exact eventInv_settle hb _ _ _

theorem eventInv_incomplete (code : Byte) : EventInv (incomplete code s) :=
  eventInv_congr (unlessDeaf_of h (eventInv_settle h code .incomplete none)) rfl

theorem eventInv_localStop : EventInv (Machine.localStop s).1 := by
  have sent : EventInv (sendStop s) := eventInv_requestFrame h _
  unfold Machine.localStop
  split
  case h_1 => exact eventInv_stopCountdown sent
  case h_2 =>
    split
    · exact h
    · exact eventInv_congr sent (by simp)
  all_goals exact h

/-- CONFIGURE ages the whole peer table (R189). -/
theorem eventInv_ageAll : EventInv (ageAll s) :=
  List.foldlRecOn _ _ h fun _ hu i _ => eventInv_ageRecord hu i

theorem eventInv_acceptConfig (c : ConfigRecord) : EventInv (acceptConfig c s) := by
  have aged : EventInv (configurePeers c (storeConfig c s)) :=
    eventInv_ageAll (eventInv_congr (t := putPeer c.own _ (storeConfig c s)) h rfl)
  have idle : EventInv (configured c s) := eventInv_congr aged (by simp [configured])
  rw [acceptConfig_eq]
  split
  · exact eventInv_enterHalted_peer idle
  · exact idle

theorem eventInv_configure (record : List Byte) : EventInv (configure record s).1 := by
  unfold configure
  split
  · exact h
  · split
    · exact h
    · rw [accept_fst]
      exact eventInv_acceptConfig h _

end

theorem eventInv_hardReset (cause : ResetCause) (s : State) : EventInv (hardReset cause s) := by
  obtain ⟨-, reset, -⟩ := invariantsAtReset
  exact eventInv_congr reset rfl

/-- A soft reset keeps the masked set alone (R178, R194). -/
theorem eventInv_softReset (s : State) : EventInv (softReset s) := eventInv_hardReset .soft s

/-! ### Commands that raise nothing (R64, R65, R67, R158) -/

@[simp] theorem scoreOpen_events (header : List Byte) (s : State) : (scoreOpen header s).1.events = s.events := by
  unfold scoreOpen
  split_ifs <;> rfl

@[simp] theorem scoreData_events (body : List Byte) (s : State) : (scoreData body s).1.events = s.events := by
  unfold scoreData
  split
  · rfl
  · split
    · rfl
    · dsimp only
      split <;> rfl

@[simp] theorem scoreClose_events (s : State) : (scoreClose s).1.events = s.events := by
  by_cases opened : loadOpen s
  · by_cases ended : loadEnded s.score
    · rw [scoreClose_ended opened ended]
      cases unloadedFigure s.score <;> rfl
    · rw [scoreClose_unended opened ended]
  · rw [scoreClose_closed opened]

theorem judgeAudio_events {s t : State} {start count : Nat} (taken : judgeAudio start count s = .inl t) : t.events = s.events := by
  simp only [judgeAudio] at taken
  split_ifs at taken
  cases taken
  rfl

/-! ### Every command, and the clock's own work -/

theorem eventInv_exec {s t : State} (i : Instr) (h : EventInv s) (he : exec i s = .next t) : EventInv t := by
  have frame {u : State} (same : u.events = s.events) : EventInv u := eventInv_congr h same
  have command (code : Byte) (body : State → State × Result × Option Nat) (same : (body s).1.events = s.events) :
      EventInv (hostCommand code s body) := eventInv_hostCommand h code body (frame same)
  cases i with
  | nop => cases he; exact h
  | powerOnReset | pinReset => cases he; exact eventInv_hardReset _ _
  | softReset => cases he; exact unlessDeaf_of h (eventInv_softReset s)
  | resetExit => cases he; exact frame rfl
  | ident | status | events | peers => cases he; exact unlessDeaf_of h (frame (by simp))
  | pump channel =>
    cases he
    refine unlessDeaf_of h ?_
    split <;> exact frame rfl
  | configure record =>
    cases he
    split
    · exact eventInv_incomplete h _
    · exact eventInv_hostCommand h _ _ (eventInv_configure h record)
  | scoreOpen header =>
    cases he
    split
    · exact eventInv_incomplete h _
    · exact command _ _ (by simp)
  | scoreData body =>
    cases he
    split
    · exact command _ _ (by simp)
    · exact eventInv_incomplete h _
  | scoreClose => cases he; exact command _ _ (by simp)
  | arm | disarm | release =>
    cases he
    refine command _ _ ?_
    split <;> simp [refuse]
  | go delay =>
    cases he
    refine eventInv_hostCommand h _ _ ?_
    split
    · exact h
    · exact eventInv_requestFrame (frame (by simp [enterCountdown])) _
  | stop => cases he; exact eventInv_hostCommand h _ _ (eventInv_localStop h)
  | eventClear set =>
    cases he
    refine eventInv_hostCommand h _ _ ?_
    split
    · exact h
    · exact eventInv_cleared h set
  | eventMask set =>
    cases he
    refine eventInv_hostCommand h _ _ ?_
    split <;> exact h
  | unknownCommand code =>
    cases he
    split
    · exact h
    · exact command _ _ rfl
  | commandIncomplete code =>
    cases he
    split
    · exact eventInv_incomplete h _
    · exact frame rfl
  | audio start count =>
    cases he
    refine unlessDeaf_of h ?_
    split
    · exact frame rfl
    · split
      case h_1 taken => exact frame (judgeAudio_events taken)
      case h_2 => exact frame rfl
  | audioEnd bytes =>
    cases he
    refine unlessDeaf_of (P := fun u => EventInv (endFrame u)) (frame rfl) ?_
    split
    · exact frame rfl
    · exact eventInv_congr (eventInv_enterBlock h _ bytes) rfl
  | beaconReceived sender seq b arrival =>
    cases he
    refine eventInv_receiveFrame h _ _ fun i {u} hu => ?_
    split
    · exact eventInv_recordBeacon hu _ _ _ _
    · split
      · exact eventInv_hearClash hu
      · exact eventInv_peerBeacon hu _ _ _ _ _
  | goFrameReceived sender g => cases he; exact eventInv_receiveFrame h _ _ fun _ _ hu => eventInv_heardGo hu g
  | stopFrameReceived sender f => cases he; exact eventInv_receiveFrame h _ _ fun _ _ hu => eventInv_heardStop hu f
  | haltFrameReceived sender inputs =>
    cases he
    exact eventInv_receiveFrame h _ _ fun _ _ hu => eventInv_peerHalt (eventInv_congr hu rfl)
  | startAskReceived sender pumpNo arrival =>
    cases he
    refine eventInv_receiveFrame h _ _ fun i {u} hu => ?_
    split <;> exact eventInv_congr hu (by simp)
  | frameFault bytes =>
    cases he
    refine unlessHeld_of h ?_
    split
    · exact h
    · exact frame (by simp)
  | beaconDue =>
    cases he
    refine unlessHeld_of h ?_
    split
    · exact h
    · split
      · refine eventInv_requestFrame ?_ _
        exact frame rfl
      · exact h
  | attemptFailed =>
    cases he
    refine unlessHeld_of h ?_
    split
    · exact eventInv_failAttempt h _
    · exact h
  | roundEnd =>
    cases he
    refine unlessHeld_of h ?_
    split
    · split
      · exact eventInv_endRound h _ _
      · exact h
    · exact h
  | attemptStart | transmissionComplete | receiverReady | slewAdjustment | peerStale | checksumComplete | figureStepBoundary
    | holdWindowEnd | anemometerPulse | lampPeriod | gainUpdate =>
    cases he
    refine unlessHeld_of h ?_
    split
    · exact frame (by simp)
    · exact h
  | peerAbsent peer =>
    cases he
    exact whenDue_of (absentDue · peer) (fun s => recomputeWind (makeAbsent peer s)) h
      (eventInv_congr (eventInv_makeAbsent h peer) (by simp))
  | startReached => cases he; exact whenDue_of startDue enterRunning h (eventInv_enterRunning h)
  | pendingCodaReached => cases he; exact whenDue_of pendingCodaDue (enterCoda .stop) h (eventInv_enterCoda h _)
  | codaDeadline =>
    cases he
    exact whenDue_of codaDeadlineDue (fun s => codaTest (setCtl { s.ctl with codaTested := true } s)) h
      (eventInv_codaTest (frame rfl))
  | cueTaken =>
    cases he
    refine unlessHeld_of h ?_
    split_ifs
    · exact eventInv_waitForRoom (frame rfl)
    · exact eventInv_waitForRoom h
    · exact h
  | actionFires => cases he; exact whenDue_of actionDue fireHead h (eventInv_fireHead h)
  | figureEnd group =>
    cases he
    exact whenDue_of (figureEndDue · group) (fun s => reportEnd group (refreshView group .lamp s)) h
      (eventInv_raised h (src := .figureEnd) rfl)
  | pumpPeriod feedback =>
    cases he
    refine unlessHeld_of h ?_
    split
    · exact h
    · split
      · exact eventInv_codaTest (eventInv_withNext (eventInv_pumpStages h _ feedback) _)
      · exact h
  | windowClose =>
    cases he
    refine unlessHeld_of h ?_
    split
    · exact h
    · split
      · exact frame (by simp)
      · exact h
  | frameInstant =>
    cases he
    refine unlessHeld_of h ?_
    split
    · split
      · exact eventInv_frameInstant h _ _
      · exact h
    · exact h
  | safetyLevelChange input high =>
    cases he
    dsimp only
    split
    · exact h
    · exact frame rfl
  | debounceExpiry input =>
    cases he
    refine unlessHeld_of h ?_
    split
    · exact h
    · split
      · exact eventInv_stableChange h _ _
      · exact h

/-- Settles O57: a step is one command, or one microsecond of local time. -/
theorem stepKeepsEvents : Obligations.StepKeepsEvents := by
  intro s t h hs
  unfold step at hs
  split at hs
  case h_1 i rest _ =>
    have front : EventInv { s with pending := rest } := h
    exact eventInv_exec i front hs
  case h_2 =>
    unfold idle at hs
    split at hs
    · cases hs; exact h
    · split at hs
      · exact eventInv_exec _ h hs
      · cases hs
        exact unlessHeld_of (f := elapse 1) h (eventInv_congr h rfl)

end Sys2Proof.Proofs
end

