-- ==== Sys2Proof/Proofs/HostPort.lean ====
section
/-! The host port: a part that takes no command (R193, R194), the read commands (R188), and the refusals of the port itself
(R185 to R187). -/

namespace Sys2Proof.Proofs

open Sys2Proof Sys2Proof.Machine Sys2Proof.Safety

/-! ### A part that takes no command (R193, R194) -/

section
variable {s : State} (deaf : s.port.held = true ∨ s.port.ignoring = true)
include deaf

/-- A command that NCS cut short ends its frame and writes no result. -/
theorem incomplete_deaf (code : Byte) : incomplete code s = endFrame s := congrArg endFrame (unlessDeaf_deaf s _ deaf)

/-- A command that NCS can cut short ends its frame where it is cut, and has no effect where it is whole. -/
theorem command_deaf {c : Instr} {code : Byte} {body : State → State × Result × Option Nat} {short : Prop} [Decidable short]
    (cut : short → exec c s = .next (incomplete code s)) (whole : ¬ short → exec c s = .next (hostCommand code s body))
    (ends : endsFrame c = decide short) : exec c s = .next (if endsFrame c then endFrame s else s) := by
  by_cases h : short
  · rw [cut h, incomplete_deaf deaf, ends, if_pos (decide_eq_true h)]
  · rw [whole h, hostCommand, unlessDeaf_deaf s _ deaf, ends, if_neg (by simp [h])]

/-- Nothing that a host's frame carries changes the part but for the rise of NCS. -/
theorem exec_deaf {c : Instr} (host : commandFrame c ≠ none ∨ ∃ bytes, c = .audioEnd bytes) :
    exec c s = .next (if endsFrame c then endFrame s else s) := by
  cases c with
  | nop => rfl
  | softReset | ident | status | scoreClose | arm | disarm | go | stop | release | audio | events | eventClear | eventMask
    | peers | pump => exact congrArg _ (unlessDeaf_deaf s _ deaf)
  | audioEnd bytes => exact congrArg (fun t => Host.Outcome.next (endFrame t)) (unlessDeaf_deaf s _ deaf)
  | configure record =>
    exact command_deaf deaf (exec_configure_short s) (exec_configure_whole s <| Nat.not_lt.mp ·) rfl
  | scoreOpen header =>
    exact command_deaf deaf (exec_scoreOpen_short s) (exec_scoreOpen_whole s <| Nat.not_lt.mp ·) rfl
  | scoreData body =>
    exact command_deaf deaf (exec_scoreData_short s) (exec_scoreData_whole s <| Nat.not_lt.mp ·) rfl
  | unknownCommand code =>
    by_cases known : code ∈ knownCodes
    · exact congrArg _ (if_pos known)
    · exact congrArg _ ((if_neg known).trans (unlessDeaf_deaf s _ deaf))
  | commandIncomplete code =>
    by_cases writes : code ∈ recordedCodes
    · exact congrArg _ ((if_pos writes).trans (incomplete_deaf deaf code))
    · exact congrArg _ (if_neg writes)
  | _ => simp [commandFrame] at host

end

/-- An occurrence finds a held part dead (R193); what a host's frame carries finds it deaf. -/
theorem exec_held {s : State} (held : s.port.held = true) {c : Instr} (power : c ≠ .powerOnReset) (pin : c ≠ .pinReset)
    (leaves : c ≠ .resetExit) (level : ∀ i h, c ≠ .safetyLevelChange i h) :
    exec c s = .next (if endsFrame c then endFrame s else s) := by
  have dead (f : State → State) := unlessHeld_held s f held
  cases c with
  | powerOnReset => exact absurd rfl power
  | pinReset => exact absurd rfl pin
  | resetExit => exact absurd rfl leaves
  | safetyLevelChange i h => exact absurd rfl (level i h)
  | beaconReceived | goFrameReceived | stopFrameReceived | haltFrameReceived | startAskReceived | frameFault | beaconDue
    | attemptStart | transmissionComplete | attemptFailed | roundEnd | slewAdjustment | peerStale | peerAbsent | startReached
    | pendingCodaReached | codaDeadline | checksumComplete | cueTaken | actionFires | figureStepBoundary | figureEnd
    | pumpPeriod | holdWindowEnd | anemometerPulse | windowClose | lampPeriod | gainUpdate | frameInstant | debounceExpiry
    | receiverReady => exact congrArg _ (dead _)
  | audioEnd bytes => exact exec_deaf (.inl held) (.inr ⟨bytes, rfl⟩)
  | _ => exact exec_deaf (.inl held) (.inl (by simp [commandFrame]))

/-- Settles O4: a held part is dead to occurrences and deaf to its host, and an ignored frame is deaf. -/
theorem heldPartIgnoresCommands : Obligations.HeldPartIgnoresCommands :=
  ⟨fun _ _ held power pin leaves level => exec_held held power pin leaves level,
    fun _ => ⟨_, rfl, rfl, by simp [onlyChanges_iff]⟩,
    fun _ _ ignoring host => exec_deaf (.inr ignoring) host⟩

/-! ### Work of one update on a listening part -/

section
variable {s : State} {x : Host.Outcome State Fault Refusal} {w : State → State} (hx : x = .next (unlessDeaf s w)) (h : listens s)
include hx h

/-- A read command whose work is to answer changes the reply alone. -/
theorem command_answered {reply : List Byte} (hw : w s = answer reply s) :
    ∃ t, x = .next t ∧ t.port = { s.port with reply := reply } ∧ onlyChanges [.port] s t := by
  obtain ⟨free, heard⟩ := h
  refine ⟨_, hx, ?_⟩
  rw [unlessDeaf_listening s w free heard, hw]
  exact ⟨rfl, by simp [onlyChanges_iff]⟩

/-- A command that is refused at once changes the last result record alone. -/
theorem command_settled {code : Byte} {r : Result} (hw : w s = settle code r none s) :
    ∃ t, x = .next t ∧ recorded code r none s t ∧ onlyChanges [.port] s t := by
  obtain ⟨free, heard⟩ := h
  refine ⟨_, hx, ?_⟩
  rw [unlessDeaf_listening s w free heard, hw]
  exact ⟨recorded_settle _ _ _ rfl, by simp [onlyChanges_iff]⟩

end

/-! ### The read commands (R186, R188) -/

/-- The work of PEERS (R186, R188). -/
theorem exec_peers (s : State) : exec .peers s =
    .next (unlessDeaf s fun s => answer (if s.score.status = .checking then refusedReply 1031 else peersReply s) s) := rfl

/-- PUMP on a channel that the node has (R186, R188). -/
theorem exec_pump_within {n : Byte} (within : n.toNat < 4) (s : State) : exec (.pump n) s =
    .next (unlessDeaf s fun s =>
      answer (if s.score.status = .checking then refusedReply 68 else pumpReply s ⟨n.toNat, within⟩) s) := by
  simp only [exec, execPump, dif_pos within]

theorem exec_pump_channel (p : Fin 4) (s : State) : exec (.pump (BitVec.ofNat 8 p.val)) s =
    .next (unlessDeaf s fun s => answer (if s.score.status = .checking then refusedReply 68 else pumpReply s p) s) := by
  have number : (BitVec.ofNat 8 p.val).toNat = p.val := by rw [BitVec.toNat_ofNat]; omega
  simp only [exec_pump_within (number ▸ p.isLt), number]

/-- PUMP on a channel that the node has not (R188). -/
theorem exec_pump_above {n : Byte} (above : 3 < n.toNat) (s : State) :
    exec (.pump n) s = .next (unlessDeaf s (answer (refusedReply 68))) := by
  simp only [exec, execPump, dif_neg (Nat.not_lt.mpr above)]

/-- Settles O5: each read command is one answer, by the score status and the channel. -/
theorem readsAnswerAndKeep : Obligations.ReadsAnswerAndKeep := by
  refine fun s h => ⟨rfl, ?_⟩
  rintro c reply (⟨rfl, replies⟩ | ⟨rfl, replies⟩ | ⟨rfl, replies⟩ | ⟨rfl, taken, replies⟩ | ⟨rfl, busy, replies⟩ |
    ⟨p, rfl, taken, replies⟩ | ⟨n, rfl, refused, replies⟩)
  · exact command_answered (w := answer identReply) rfl h (by rw [replies]; rfl)
  · exact command_answered (w := fun s => answer (statusReply s) s) rfl h (by rw [replies])
  · exact command_answered (w := fun s => answer (eventsReply s) s) rfl h (by rw [replies])
  · exact command_answered (exec_peers s) h (by rw [if_neg taken, replies])
  · exact command_answered (exec_peers s) h (by rw [if_pos busy, replies, refusedReply])
  · exact command_answered (exec_pump_channel p s) h (by rw [if_neg taken, replies])
  · by_cases above : 3 < n.toNat
    · exact command_answered (exec_pump_above above s) h (by rw [replies, refusedReply])
    · have busy := refused.resolve_right above
      exact command_answered (exec_pump_within (by omega) s) h (by rw [if_pos busy, replies, refusedReply])

/-! ### Refusals by the port (R185 to R187) -/

/-- While a checksum computation runs, a command that writes the record comes to BUSY before its own tests (R186). -/
theorem command_busy {s : State} {x : Host.Outcome State Fault Refusal} {code : Byte}
    {body : State → State × Result × Option Nat} (hx : x = .next (hostCommand code s body)) (h : listens s)
    (busy : s.score.status = .checking) : ∃ t, x = .next t ∧ recorded code .busy none s t ∧ onlyChanges [.port] s t :=
  command_settled hx h (if_pos busy)

/-- A code outside the command table (R185). -/
theorem exec_unknownCommand {code : Byte} (unknown : code ∉ knownCodes) (s : State) :
    exec (.unknownCommand code) s = .next (hostCommand code s fun s => refuse s .param) := congrArg _ (if_neg unknown)

/-- Settles O8: BUSY comes before a command's own tests; PARAM and INCOMPLETE are the port's own. -/
theorem portRefusesCommands : Obligations.PortRefusesCommands := by
  refine ⟨?_, fun s code h => ⟨fun unknown taken => ?_, fun writes => ?_, fun silent => ?_⟩⟩
  · rintro s code c h busy (⟨rfl, record, whole, rfl⟩ | ⟨rfl, header, whole, rfl⟩ | ⟨rfl, body, whole, rfl⟩ | ⟨rfl, rfl⟩ |
      ⟨rfl, rfl⟩ | ⟨rfl, rfl⟩ | ⟨rfl, delay, rfl⟩ | ⟨rfl, rfl⟩ | ⟨rfl, rfl⟩ | ⟨rfl, start, count, rfl⟩ | ⟨rfl, set, rfl⟩ |
      ⟨rfl, set, rfl⟩ | ⟨unknown, rfl⟩)
    · exact command_busy (exec_configure_whole s whole) h busy
    · exact command_busy (exec_scoreOpen_whole s whole) h busy
    · exact command_busy (exec_scoreData_whole s whole.ge) h busy
    · exact command_busy (exec_scoreClose s) h busy
    -- ARM, DISARM, GO, STOP, RELEASE
    iterate 5 exact command_busy rfl h busy
    -- AUDIO has a BUSY test of its own
    · exact command_settled rfl h (if_pos busy)
    -- EVENT CLEAR, EVENT MASK
    iterate 2 exact command_busy rfl h busy
    · exact command_busy (exec_unknownCommand unknown s) h busy
  · exact command_refused (exec_unknownCommand unknown s) ⟨h, taken⟩ rfl
  · exact command_cut (congrArg Host.Outcome.next (if_pos writes)) h
  · exact congrArg Host.Outcome.next (if_neg silent)

end Sys2Proof.Proofs
end

