-- ==== Sys2Proof/Proofs/ReplyLayouts.lean ====
section
/-! The replies of STATUS, EVENTS, PEERS and PUMP as lists of fields, and each field at its offset (R188, R191). -/

namespace Sys2Proof.Proofs

open Sys2Proof Sys2Proof.Machine Sys2Proof.Safety

/-! ### Records as fields one after the other -/

section
variable {record : List Byte} {fields : List (List Byte)} {sizes : List Nat} (written : record = fields.flatten)
  (measured : fields.map List.length = sizes)
include written measured

theorem length_of_fields : record.length = sizes.sum := by rw [written, List.length_flatten, measured]

/-- Field `k` of a record stands behind the sizes of the fields before it. -/
theorem field_of_fields (k : Nat) {field : List Byte} (hk : fields[k]? = some field) :
    (record.drop (sizes.take k).sum).take (sizes.getD k 0) = field := by
  obtain ⟨inRange, rfl⟩ := List.getElem?_eq_some_iff.mp hk
  have size : sizes[k]? = some fields[k].length := by rw [← measured, List.getElem?_map, hk]; rfl
  have upTo : (sizes.take (k + 1)).sum = (sizes.take k).sum + fields[k].length := by
    rw [List.take_add_one, size, List.sum_append]; rfl
  have cut := List.drop_take_succ_flatten_eq_getElem fields k inRange
  rw [measured, upTo, ← List.take_drop, ← written] at cut
  rw [List.getD_eq_getElem?_getD, size]
  exact cut

end

/-- A part of a part, within it. -/
theorem part_of_part {record part : List Byte} {a n : Nat} (cut : (record.drop a).take n = part) {offset size : Nat}
    (within : offset + size ≤ n) : (record.drop (a + offset)).take size = (part.drop offset).take size := by
  rw [← cut, List.drop_take, List.drop_drop, List.take_take, Nat.min_eq_left (Nat.le_sub_of_add_le' within)]

/-- Of records of one size, one after the other, record `i` stands behind `i` of them. -/
theorem record_of_flatMap {α : Type} {f : α → List Byte} {n : Nat} (size : ∀ a, (f a).length = n) (rest : List Byte)
    (as : List α) {i : Nat} {a : α} (ha : as[i]? = some a) : ((as.flatMap f ++ rest).drop (n * i)).take n = f a := by
  induction as generalizing i with
  | nil => simp at ha
  | cons b as ih =>
    rw [List.flatMap_cons, List.append_assoc]
    cases i with
    | zero =>
      cases ha
      exact List.take_left' (size _)
    | succ i =>
      rw [Nat.mul_succ, Nat.add_comm, ← List.drop_drop, List.drop_left' (size b)]
      exact ih ha

/-! ### STATUS and EVENTS (R181, R191) -/

/-- The sizes of the fields of the status record, in their order. -/
def statusSizes : List Nat := [1, 1, 1, 1, 2, 1, 1, 6, 6, 6, 1, 2, 2, 2, 1, 2, 1, 4, 2, 1, 2, 4, 2, 2, 2, 2, 1, 1, 2, 6]

/-- The fields of the status record, in their order (R191). -/
def statusFields (s : State) : List (List Byte) :=
  [[BitVec.ofNat 8 s.ctl.state.code], [statusFlags s], [s.port.cause.code], [s.port.lastResult.code],
    le 2 (s.port.failIndex.getD 65535), [s.port.lastCommand], le 1 ((topEvent s.events).getD 255), le 6 s.clock.site.toNat,
    leInt 6 (showNow s), le 6 ((s.ctl.go.map GoRecord.start).getD 0).toNat, [s.score.status.code], le 2 s.score.showId.toNat,
    le 2 s.score.checksum.toNat, le 2 s.cue.pointer, le 1 s.cue.queue.length, le 2 s.cue.lateCount, le 1 s.cue.lastMark,
    le 4 (s.audio.play.getD 4294967295), le 2 (ringFill s.audio), le 1 s.audio.queue.length, le 2 s.audio.underrunCount,
    le 4 s.audio.skipCount, le 2 s.wind.site, le 2 s.wind.applied, le 2 s.pump.demand, le 2 s.pump.grant, [stableSet s],
    [s.ctl.result.kind.code], le 2 s.ctl.result.showId.toNat, leInt 6 s.ctl.result.endTime]

theorem statusReply_eq (s : State) : statusReply s = (statusFields s).flatten := by
  unfold statusReply
  simp only [statusFields, byteOr255, List.flatten_cons, List.flatten_nil, List.append_assoc, List.append_nil,
    List.cons_append, List.nil_append]

theorem statusFields_sizes (s : State) : (statusFields s).map List.length = statusSizes := by
  simp [statusFields, statusSizes]

/-- The fields of EVENTS, in their order (R181). -/
def eventsFields (s : State) : List (List Byte) :=
  [le 2 s.events.pending.toNat, le 2 s.events.overrun.toNat, le 2 s.events.masked.toNat, le 1 ((topEvent s.events).getD 255)]

theorem eventsReply_eq (s : State) : eventsReply s = (eventsFields s).flatten := by
  unfold eventsReply
  simp only [eventsFields, byteOr255, List.flatten_cons, List.flatten_nil, List.append_assoc, List.append_nil]

theorem eventsFields_sizes (s : State) : (eventsFields s).map List.length = [2, 2, 2, 1] := by simp [eventsFields]

/-! ### PEERS (R55, R188) -/

/-- The sizes of the fields of one peer record, in their order. -/
def peerSizes : List Nat := [1, 1, 1, 2, 2, 6, 2, 2, 1, 6, 1, 4, 1, 1, 1]

/-- The fields of one peer record, in their order (R188). -/
def peerFields (p : Peer) : List (List Byte) :=
  [[p.presence.code], [p.state], [p.flags], le 2 p.showId.toNat, le 2 p.checksum.toNat, le 6 p.showStart.toNat,
    le 2 p.demand.toNat, le 2 p.wind.toNat, [p.interval], le 6 p.lastArrival.toNat, [p.lastSeq], offsetBytes p.lastOffset,
    le 1 p.heard, le 1 p.missed, le 1 p.outliers]

theorem peerReply_eq (p : Peer) : peerReply p = (peerFields p).flatten := by
  unfold peerReply
  simp only [peerFields, List.flatten_cons, List.flatten_nil, List.append_assoc, List.append_nil, List.cons_append,
    List.nil_append]

/-- The last offset takes four bytes, free ones where it does not fit (notes/assumptions/8.md). -/
@[simp] theorem offsetBytes_length (e : Int) : (offsetBytes e).length = 4 := by
  unfold offsetBytes
  split
  · exact leInt_length 4 e
  · exact le_length 4 _

theorem peerFields_sizes (p : Peer) : (peerFields p).map List.length = peerSizes := by simp [peerFields, peerSizes]

theorem peerReply_length (p : Peer) : (peerReply p).length = 32 :=
  length_of_fields (peerReply_eq p) (peerFields_sizes p)

/-- Last halt heard: zeros while none was heard (R55). -/
def haltHeard (h : Option (Byte × Byte)) : List Byte :=
  match h with
  | none => [0, 0]
  | some (sender, inputs) => [sender, inputs]

/-- The peer table as one field, the line counts, and last halt heard (R55, R188). -/
def peersFields (s : State) : List (List Byte) :=
  [s.peers.toList.flatMap peerReply, le 1 s.line.format, le 1 s.line.truncated, le 1 s.line.check, le 1 s.line.collisions,
    le 1 s.line.drops, haltHeard s.line.lastHalt]

theorem peersReply_eq (s : State) : peersReply s = (peersFields s).flatten := by
  unfold peersReply
  simp only [peersFields, List.flatten_cons, List.flatten_nil, List.append_assoc, List.append_nil]
  rfl

theorem peersFields_sizes (s : State) : (peersFields s).map List.length = [1024, 1, 1, 1, 1, 1, 2] := by
  have records : (s.peers.toList.flatMap peerReply).length = 1024 := by simp [peerReply_length]
  have heard : (haltHeard s.line.lastHalt).length = 2 := by cases s.line.lastHalt <;> rfl
  simp [peersFields, -List.length_flatMap, records, heard]

/-- Record `i` of the peer table in PEERS. -/
theorem peersReply_record (s : State) (i : Fin 32) :
    ((peersReply s).drop (32 * i.val)).take 32 = peerReply s.peers[i] := by
  rw [peersReply_eq]
  exact record_of_flatMap peerReply_length _ _ (by simp)

theorem peerSizes_within : ∀ k : Fin 15, (peerSizes.take k).sum + peerSizes.getD k 0 ≤ 32 := by decide

/-- A field of record `i` in PEERS. -/
theorem peersReply_field (s : State) (i : Fin 32) (k : Fin 15) {field : List Byte}
    (hk : (peerFields s.peers[i])[k.val]? = some field) :
    ((peersReply s).drop (32 * i.val + (peerSizes.take k).sum)).take (peerSizes.getD k 0) = field := by
  rw [part_of_part (peersReply_record s i) (peerSizes_within k)]
  exact field_of_fields (peerReply_eq _) (peerFields_sizes _) k hk

/-! ### PUMP (R125, R188) -/

/-- The phase of the own ask and its channel, 255 for none. -/
def askPhase : Ask → List Byte
  | .none => [0, 255]
  | .queued n => 1 :: le 1 ((n.map (·.val)).getD 255)
  | .window _ n => 2 :: le 1 ((n.map (·.val)).getD 255)

/-- The end of the own ask's hold window, in WINDOW alone. -/
def askEnd : Ask → Option SiteTime
  | .none | .queued _ => none
  | .window e _ => some e

theorem askReply_eq (a : Ask) : askReply a = askPhase a ++ timeOr255 (askEnd a) := by cases a <;> rfl

theorem askPhase_length (a : Ask) : (askPhase a).length = 2 := by cases a <;> rfl

theorem timeOr255_length (t : Option SiteTime) : (timeOr255 t).length = 6 := by
  cases t with
  | none => rfl
  | some t => exact le_length 6 _

/-- The last ask takes eight bytes, absent or heard; absent its pump number reads 255 too (notes/assumptions/21.md). -/
theorem heardReply_length (h : Option AskHeard) : (heardReply h).length = 8 := by cases h <;> rfl

/-- Place `k` of the start list, 255 where it is unused. -/
def startPlace (l : List (Fin 4)) (k : Nat) : List Byte := le 1 ((l[k]?.map (·.val)).getD 255)

theorem startListReply_eq (l : List (Fin 4)) :
    startListReply l = startPlace l 0 ++ (startPlace l 1 ++ (startPlace l 2 ++ startPlace l 3)) := rfl

/-- Whether the node has channel `p`. -/
def configuredByte (s : State) (p : Fin 4) : List Byte :=
  match s.config with
  | none => [0]
  | some c => [if c.pump[p].rated = 0 then 0 else 1]

theorem configuredByte_eq (s : State) (p : Fin 4) :
    configuredByte s p = [boolByte ((s.config.map fun c => c.configured p).getD false)] := by
  unfold configuredByte
  cases s.config with
  | none => rfl
  | some c => simp [boolByte, ConfigRecord.configured]

/-- The sizes of the fields of PUMP, in their order. -/
def pumpSizes : List Nat := [1, 2, 2, 6, 2, 2, 2, 2, 2, 2, 2, 1, 1, 1, 6, 1, 1, 4, 2, 1, 1, 1, 1, 2, 6, 6, 8]

/-- The fields of PUMP, in their order: the channel record, then the node's start slot (R125, R188). -/
def pumpFields (s : State) (p : Fin 4) : List (List Byte) :=
  let ch := s.pump.chan[p]
  [configuredByte s p, le 2 ch.height.start, le 2 ch.height.target, leInt 6 ch.height.anchor, le 2 ch.height.len, le 2 ch.hNow,
    le 2 ch.hEff, le 2 ch.dT, le 2 ch.dC, le 2 ch.dCmd, le 2 ch.dOut, [ch.stage.code], [if ch.runOutput then 1 else 0],
    [ch.phase.code], le 6 ch.runOn.toNat, [if ch.faulted then 1 else 0], [ch.cause.code], le 4 s.pump.viewSum, le 2 s.pump.grant,
    startPlace s.pump.startList 0, startPlace s.pump.startList 1, startPlace s.pump.startList 2, startPlace s.pump.startList 3,
    askPhase s.pump.ask, timeOr255 (askEnd s.pump.ask), timeOr255 s.pump.busyUntil, heardReply s.pump.lastAsk]

theorem pumpReply_eq (s : State) (p : Fin 4) : pumpReply s p = (pumpFields s p).flatten := by
  unfold pumpReply
  simp only [pumpFields, configuredByte_eq, boolByte, startListReply_eq, askReply_eq, List.flatten_cons,
    List.flatten_nil, List.append_assoc, List.append_nil, List.cons_append, List.nil_append]

theorem pumpFields_sizes (s : State) (p : Fin 4) : (pumpFields s p).map List.length = pumpSizes := by
  simp [pumpFields, pumpSizes, configuredByte_eq, startPlace, askPhase_length, heardReply_length, timeOr255_length]

/-! ### The layouts -/

/-- Settles O7: each reply is its fields one after the other, and an offset is the sum of the sizes ahead. -/
theorem replyRecordLayouts : Obligations.ReplyRecordLayouts := by
  refine fun s => ⟨?_, ?_, ?_, fun p => ?_⟩
  · have field := field_of_fields (statusReply_eq s) (statusFields_sizes s)
    refine ⟨length_of_fields (statusReply_eq s) (statusFields_sizes s), field 0 rfl, field 1 rfl, field 2 rfl, field 3 rfl,
      field 4 rfl, field 5 rfl, field 6 rfl, field 7 rfl, fun g go => ⟨?_, ?_⟩, fun absent => ⟨?_, ?_⟩, field 10 rfl,
      field 11 rfl, field 12 rfl, field 13 rfl, field 14 rfl, field 15 rfl, field 16 rfl, field 17 rfl, field 18 rfl,
      field 19 rfl, field 20 rfl, field 21 rfl, field 22 rfl, field 23 rfl, field 24 rfl, field 25 rfl, field 26 rfl,
      field 27 rfl, field 28 rfl, field 29 rfl⟩
    · exact (field 8 rfl).trans (congrArg (leInt 6) (showNow_of_go go))
    · exact (field 9 rfl).trans (by rw [go]; rfl)
    · exact (field 8 rfl).trans (by rw [showNow, showTime, absent]; rfl)
    · exact (field 9 rfl).trans (by rw [absent]; rfl)
  · have field := field_of_fields (eventsReply_eq s) (eventsFields_sizes s)
    exact ⟨length_of_fields (eventsReply_eq s) (eventsFields_sizes s), field 0 rfl, field 1 rfl, field 2 rfl, field 3 rfl⟩
  · have field := field_of_fields (peersReply_eq s) (peersFields_sizes s)
    refine ⟨length_of_fields (peersReply_eq s) (peersFields_sizes s), fun i => ?_, field 1 rfl, field 2 rfl, field 3 rfl,
      field 4 rfl, field 5 rfl, field 6 rfl⟩
    have peer := peersReply_field s i
    exact ⟨peer 0 rfl, peer 1 rfl, peer 2 rfl, peer 3 rfl, peer 4 rfl, peer 5 rfl, peer 6 rfl, peer 7 rfl, peer 8 rfl,
      peer 9 rfl, peer 10 rfl, fun low high => (peer 11 rfl).trans (if_pos ⟨low, high⟩), peer 12 rfl, peer 13 rfl,
      peer 14 rfl⟩
  · have field := field_of_fields (pumpReply_eq s p) (pumpFields_sizes s p)
    have phase := field 23 rfl
    have ends := field 24 rfl
    have last := field 26 rfl
    refine ⟨length_of_fields (pumpReply_eq s p) (pumpFields_sizes s p), field 0 rfl, field 1 rfl, field 2 rfl, field 3 rfl,
      field 4 rfl, field 5 rfl, field 6 rfl, field 7 rfl, field 8 rfl, field 9 rfl, field 10 rfl, field 11 rfl, field 12 rfl,
      field 13 rfl, field 14 rfl, field 15 rfl, field 16 rfl, field 17 rfl, field 18 rfl, fun k hk => ?_,
      fun ask => ⟨phase.trans (congrArg askPhase ask), ends.trans (congrArg (timeOr255 <| askEnd ·) ask)⟩,
      fun n ask => ⟨phase.trans (congrArg askPhase ask), ends.trans (congrArg (timeOr255 <| askEnd ·) ask)⟩,
      fun e n ask => ⟨phase.trans (congrArg askPhase ask), ends.trans (congrArg (timeOr255 <| askEnd ·) ask)⟩,
      fun never => (field 25 rfl).trans (congrArg timeOr255 never),
      fun u busy => (field 25 rfl).trans (congrArg timeOr255 busy),
      fun unheard => last.trans (congrArg heardReply unheard), fun a heard => ⟨?_, ?_⟩⟩
    · match k, hk with
      | 0, _ => exact field 19 rfl
      | 1, _ => exact field 20 rfl
      | 2, _ => exact field 21 rfl
      | 3, _ => exact field 22 rfl
    · exact part_of_part (last.trans (congrArg heardReply heard)) (offset := 0) (by decide)
    · exact part_of_part (last.trans (congrArg heardReply heard)) (offset := 2) (by decide)

end Sys2Proof.Proofs
end

