-- ==== Sys2Proof/Proofs/FrontCommand.lean ====
section
/-! The step on a queue that holds a command. -/

namespace Sys2Proof.Proofs

open Sys2Proof Sys2Proof.Machine

/-- The companion of `step_idle`: the other branch of the step's test on the queue. -/
theorem step_front {c : Instr} {rest : List Instr} {s : State} (front : s.pending = c :: rest) :
    step s = exec c { s with pending := rest } := by
  simp only [step, front]

/-- Settles O1: the command at the front leaves the queue before it is run. -/
theorem stepRunsFrontCommand : Obligations.StepRunsFrontCommand :=
  fun _ _ _ front => step_front front

end Sys2Proof.Proofs
end
